-- ==== Sys2Proof/Word.lean ====
section
/-! DEFINITION. The words of the machine: a byte, a 16-bit bus word, a 24-bit word address, a 32-bit register (R11). -/

namespace Sys2Proof

/-- A byte is 8 bits (R11). -/
abbrev Byte := BitVec 8

/-- A word is 16 bits (R11), the width of the cartridge bus (R75). -/
abbrev Word := BitVec 16

/-- A word address of the MD cartridge space (R62). -/
abbrev WordAddr := BitVec 24

/-- A register or operand of the request port (R90). -/
abbrev Reg32 := BitVec 32

end Sys2Proof
end

