-- ==== Sys2Proof/Config.lean ====
section
/-! DEFINITION. What an implementation fixes (the parameters of R10) and the free values: the draws of R15 and the contents the
spec leaves to another agent. A constant here without a body has no value that a proof can see. -/

namespace Sys2Proof

/-- INDEX_LAYOUT (R10, R107): how bytes 3..5 of a packet carry the page and packet index. -/
inductive IndexLayout where
  | page16Packet8
  | seq24
deriving DecidableEq, Repr, Inhabited

/-- READY_POLL_FORM (R10, R271): the wire form of a ready-poll. -/
inductive ReadyPollForm where
  | ryThenRdSingle
  | ryOnly
deriving DecidableEq, Repr, Inhabited

/-- FLASH_WRITE_FORM (R10, R277): LEN1_CMD_INC is the only form the spec defines. -/
inductive FlashWriteForm where
  | len1CmdInc
deriving DecidableEq, Repr, Inhabited

/-- READ_SIDE_EFFECTS of the cartridge agent (I9): by default a read changes no cartridge state; otherwise a read may have
changed any of it. -/
inductive ReadSideEffects where
  | none
  | anything
deriving DecidableEq, Repr, Inhabited

/-- STATUS_FIELD_OFFSETS (R10, R198, D37): where the fields of a status reply stand in its frame of 64 bytes, offset 0 being byte 6 of the
packet (R17). The widths of the firmware version and of the two IDs are not in the spec, so each carries its length as well. -/
structure StatusFieldOffsets where
  firmware : Nat
  firmwareLen : Nat
  manufacturer : Nat
  manufacturerLen : Nat
  chip : Nat
  chipLen : Nat
  bootLocked : Nat
  bootLockedBit : Nat
  logoValid : Nat
  gameName : Nat
  cgb : Nat
  sgb : Nat
  cartridgeType : Nat
  romSize : Nat
  ramSize : Nat
  headerCrc : Nat
deriving DecidableEq, Repr, Inhabited

/-- The parameters of R10. They are part of the state, as arguments of the whole model, and no step changes them. -/
structure Params where
  dbufSize : Nat
  tChar : Nat
  tReopen : Nat
  indexLayout : IndexLayout
  subRrom : Byte
  subRram : Byte
  subWrom : Byte
  subWram : Byte
  subEfla : Byte
  subEram : Byte
  ramEnableWord : Word
  ramDisableWord : Word
  ramEnableDelay : Byte
  ramDisableDelay : Byte
  readyPoll : ReadyPollForm
  eraseStep : Nat
  unlockBypassSeq : List (Nat × Word)
  resetBypassSeq : List (Nat × Word)
  flashWriteForm : FlashWriteForm
  statusFields : StatusFieldOffsets
  readSideEffects : ReadSideEffects
deriving DecidableEq, Repr

/-- The transport's answer to one TxWrite (R14): it accepts some bytes, or reports a failure after some bytes. -/
inductive TxDraw where
  | accepted (k : Nat)
  | failed (k : Nat)
deriving DecidableEq, Repr, Inhabited

/-- The transport's answer to one RxRead (R14, R335): bytes, or a timeout or a failure, with the bytes it brought before. -/
inductive RxDraw where
  | got (bytes : List Byte)
  | timedOut (bytes : List Byte)
  | failed (bytes : List Byte)
deriving DecidableEq, Repr, Inhabited

/-- DBUF_SIZE is OPEN and at least 72 (R60): this is what it has beyond 72. -/
opaque Config.dbufBeyond72 : Nat

/-- T_CHAR, OPEN (D6). -/
opaque Config.tChar : Nat

/-- T_REOPEN, OPEN (D27). -/
opaque Config.tReopen : Nat

/-- RAM_ENABLE_WORD, OPEN (D22). -/
opaque Config.ramEnableWord : Word

/-- RAM_DISABLE_WORD, OPEN (D22). -/
opaque Config.ramDisableWord : Word

/-- RAM_ENABLE_DELAY, OPEN (D22). -/
opaque Config.ramEnableDelay : Byte

/-- RAM_DISABLE_DELAY, OPEN (D22). -/
opaque Config.ramDisableDelay : Byte

/-- STATUS_FIELD_OFFSETS, OPEN (D37). -/
opaque Config.statusFields : StatusFieldOffsets

/-- The identity value of the attached MD adapter (R301, I10). -/
opaque Config.adapterIdentity : Word

/-- The transport's answer to the k-th TxWrite that no script entry answers (I15). -/
opaque Config.txDraw : Nat → TxDraw

/-- The transport's answer to the k-th RxRead that no script entry answers (I15). -/
opaque Config.rxDraw : Nat → RxDraw

/-- Whether the k-th Reopen that no script entry answers succeeds (R14). -/
opaque Config.reopenDraw : Nat → Bool

/-- The k-th free word: a value the spec leaves to a draw (I1, I5, I7, I8, I10, I14). -/
opaque Config.freeWord : Nat → Word

/-- The parameters with the defaults of R10; those the spec leaves OPEN are the constants above. -/
def Params.default : Params where
  dbufSize := Config.dbufBeyond72 + 72
  tChar := Config.tChar
  tReopen := Config.tReopen
  indexLayout := .page16Packet8
  subRrom := 0
  subRram := 1
  subWrom := 2
  subWram := 3
  subEfla := 0
  subEram := 1
  ramEnableWord := Config.ramEnableWord
  ramDisableWord := Config.ramDisableWord
  ramEnableDelay := Config.ramEnableDelay
  ramDisableDelay := Config.ramDisableDelay
  readyPoll := .ryThenRdSingle
  eraseStep := 0x2000
  unlockBypassSeq := [(0xAAA, 0x00AA), (0x554, 0x0055), (0xAAA, 0x0020)]
  resetBypassSeq := [(0x000, 0x0090), (0x000, 0x0000)]
  flashWriteForm := .len1CmdInc
  statusFields := Config.statusFields
  readSideEffects := .none

end Sys2Proof
end

