-- ==== Sys2Proof/Syntax.lean ====
section
/-! DEFINITION. The instructions: one constructor for each row of spec/opcode_table.json (the requests of R92, the MD command
frames of R98 with the reserved classes of R97, the GB packets of R102 to R106), with the operands the row's encoding gives it. -/

namespace Sys2Proof

/-- The instructions of the three encoded interfaces of 30_encoding.md. -/
inductive Instr where
  /-- CRC_CLEAR, request code 0x01 (R133). -/
  | crcClear
  /-- CRC_BYTE, request code 0x02 (R134). -/
  | crcByte (b : Byte)
  /-- CRC_BLOCK, request code 0x03 (R135). -/
  | crcBlock (boff : Reg32) (len : Reg32)
  /-- PKT_BUILD, request code 0x10 (R151). -/
  | pktBuild (control : Byte) (command : Byte) (subcommand : Byte) (index : BitVec 24) (boff : Reg32)
  /-- PKT_SEND, request code 0x11 (R154). -/
  | pktSend
  /-- PKT_RECEIVE, request code 0x12 (R156). -/
  | pktReceive
  /-- PKT_CHECK, request code 0x13 (R158). -/
  | pktCheck
  /-- GB_READ_RAM, request code 0x20 (R183). -/
  | gbReadRam (boff : Reg32) (len : Reg32)
  /-- GB_WRITE_RAM, request code 0x21 (R189). -/
  | gbWriteRam (boff : Reg32) (len : Reg32)
  /-- GB_READ_DEVICE_STATUS, request code 0x22 (R195). -/
  | gbReadDeviceStatus (boff : Reg32)
  /-- GB_READ_STATUS, request code 0x23 (R196). -/
  | gbReadStatus (boff : Reg32)
  /-- MD_SEEK, request code 0x30 (R225). -/
  | mdSeek (whence : BitVec 2) (addr : Reg32)
  /-- MD_READ, request code 0x31 (R226). -/
  | mdRead (boff : Reg32) (len : Reg32)
  /-- MD_WRITE, request code 0x32 (R228). -/
  | mdWrite (boff : Reg32) (len : Reg32)
  /-- MD_READ_WORD, request code 0x33 (R230). -/
  | mdReadWord (addr : Reg32)
  /-- MD_WRITE_WORD, request code 0x34 (R231). -/
  | mdWriteWord (addr : Reg32) (val : Word)
  /-- MD_WRITE_BYTE, request code 0x35 (R232). -/
  | mdWriteByte (addr : Reg32) (b : Byte)
  /-- MD_RAM_ENABLE, request code 0x36 (R234). -/
  | mdRamEnable
  /-- MD_RAM_DISABLE, request code 0x37 (R235). -/
  | mdRamDisable
  /-- MD_GET_ID, request code 0x38 (R236). -/
  | mdGetId
  /-- MD_HANDSHAKE, request code 0x39 (R238). -/
  | mdHandshake
  /-- MD_FLASH_ERASE, request code 0x40 (R273). -/
  | mdFlashErase (addr : Reg32)
  /-- MD_FLASH_UNLOCK_BYPASS, request code 0x41 (R275). -/
  | mdFlashUnlockBypass
  /-- MD_FLASH_RESET_BYPASS, request code 0x42 (R276). -/
  | mdFlashResetBypass
  /-- MD_FLASH_WRITE, request code 0x43 (R277). -/
  | mdFlashWrite (boff : Reg32) (len : Reg32)
  /-- ADDR, the frame [00 b] (R295). -/
  | addr (b : Byte)
  /-- LEN, the frame [01 b] (R296). -/
  | len (b : Byte)
  /-- RY, the frame [04] (R303). -/
  | ry
  /-- DELAY, the frame [05 d] (R304). -/
  | delay (d : Byte)
  /-- RD, command byte 0x02 (R298). -/
  | rd
  /-- RD|MODE8, command byte 0x12 (R302). -/
  | rdMode8
  /-- RD|DEV_ID, command byte 0x22 (R301). -/
  | rdDevId
  /-- RD|MODE8|DEV_ID, command byte 0x32 (R302). -/
  | rdMode8DevId
  /-- RD|SINGLE, command byte 0x42 (R297). -/
  | rdSingle
  /-- RD|MODE8|SINGLE, command byte 0x52 (R302). -/
  | rdMode8Single
  /-- RD|DEV_ID|SINGLE, command byte 0x62 (R301). -/
  | rdDevIdSingle
  /-- RD|MODE8|DEV_ID|SINGLE, command byte 0x72 (R302). -/
  | rdMode8DevIdSingle
  /-- RD|INC, command byte 0x82 (R298). -/
  | rdInc
  /-- RD|MODE8|INC, command byte 0x92 (R302). -/
  | rdMode8Inc
  /-- RD|DEV_ID|INC, command byte 0xA2 (R301). -/
  | rdDevIdInc
  /-- RD|MODE8|DEV_ID|INC, command byte 0xB2 (R302). -/
  | rdMode8DevIdInc
  /-- RD|SINGLE|INC, command byte 0xC2 (R297). -/
  | rdSingleInc
  /-- RD|MODE8|SINGLE|INC, command byte 0xD2 (R302). -/
  | rdMode8SingleInc
  /-- RD|DEV_ID|SINGLE|INC, command byte 0xE2 (R301). -/
  | rdDevIdSingleInc
  /-- RD|MODE8|DEV_ID|SINGLE|INC, command byte 0xF2 (R302). -/
  | rdMode8DevIdSingleInc
  /-- WR, command byte 0x03 and its data bytes (R300). -/
  | wr (data : List Byte)
  /-- WR|MODE8, command byte 0x13 and its data bytes (R302). -/
  | wrMode8 (data : List Byte)
  /-- WR|DEV_ID, command byte 0x23 and its data bytes (R300). -/
  | wrDevId (data : List Byte)
  /-- WR|MODE8|DEV_ID, command byte 0x33 and its data bytes (R302). -/
  | wrMode8DevId (data : List Byte)
  /-- WR|SINGLE, command byte 0x43 and its data bytes (R299). -/
  | wrSingle (data : List Byte)
  /-- WR|MODE8|SINGLE, command byte 0x53 and its data bytes (R302). -/
  | wrMode8Single (data : List Byte)
  /-- WR|DEV_ID|SINGLE, command byte 0x63 and its data bytes (R299). -/
  | wrDevIdSingle (data : List Byte)
  /-- WR|MODE8|DEV_ID|SINGLE, command byte 0x73 and its data bytes (R302). -/
  | wrMode8DevIdSingle (data : List Byte)
  /-- WR|INC, command byte 0x83 and its data bytes (R300). -/
  | wrInc (data : List Byte)
  /-- WR|MODE8|INC, command byte 0x93 and its data bytes (R302). -/
  | wrMode8Inc (data : List Byte)
  /-- WR|DEV_ID|INC, command byte 0xA3 and its data bytes (R300). -/
  | wrDevIdInc (data : List Byte)
  /-- WR|MODE8|DEV_ID|INC, command byte 0xB3 and its data bytes (R302). -/
  | wrMode8DevIdInc (data : List Byte)
  /-- WR|SINGLE|INC, command byte 0xC3 and its data bytes (R299). -/
  | wrSingleInc (data : List Byte)
  /-- WR|MODE8|SINGLE|INC, command byte 0xD3 and its data bytes (R302). -/
  | wrMode8SingleInc (data : List Byte)
  /-- WR|DEV_ID|SINGLE|INC, command byte 0xE3 and its data bytes (R299). -/
  | wrDevIdSingleInc (data : List Byte)
  /-- WR|MODE8|DEV_ID|SINGLE|INC, command byte 0xF3 and its data bytes (R302). -/
  | wrMode8DevIdSingleInc (data : List Byte)
  /-- MD_RESERVED_OP6_7, a reserved class of command bytes (R305, R97). -/
  | mdReservedOp67 (low : BitVec 1) (flags : BitVec 4)
  /-- MD_RESERVED_OP8_F, a reserved class of command bytes (R305, R97). -/
  | mdReservedOp8F (low : BitVec 3) (flags : BitVec 4)
  /-- MD_RESERVED_ADDR_WITH_FLAGS, a reserved class of command bytes (R305, R97). -/
  | mdReservedAddrWithFlags (flags : BitVec 4)
  /-- MD_RESERVED_LEN_WITH_FLAGS, a reserved class of command bytes (R305, R97). -/
  | mdReservedLenWithFlags (flags : BitVec 4)
  /-- MD_RESERVED_RY_WITH_FLAGS, a reserved class of command bytes (R305, R97). -/
  | mdReservedRyWithFlags (flags : BitVec 4)
  /-- MD_RESERVED_DELAY_WITH_FLAGS, a reserved class of command bytes (R305, R97). -/
  | mdReservedDelayWithFlags (flags : BitVec 4)
  /-- GB_ACK, the control packet 0xAA (R150). -/
  | gbAck
  /-- GB_NAK, the control packet 0xF0 (R150). -/
  | gbNak
  /-- GB_END, the control packet 0x0F (R150). -/
  | gbEnd
  /-- GB_DATA_CONFIG_RROM, a DATA packet whose bytes 0..2 are 0x550000 (R106). -/
  | gbDataConfigRrom (index : BitVec 24) (frame : List Byte) (trailer : Word)
  /-- GB_DATA_CONFIG_RRAM, a DATA packet whose bytes 0..2 are 0x550001 (R183). -/
  | gbDataConfigRram (index : BitVec 24) (frame : List Byte) (trailer : Word)
  /-- GB_DATA_CONFIG_WROM, a DATA packet whose bytes 0..2 are 0x550002 (R106). -/
  | gbDataConfigWrom (index : BitVec 24) (frame : List Byte) (trailer : Word)
  /-- GB_DATA_CONFIG_WRAM, a DATA packet whose bytes 0..2 are 0x550003 (R189). -/
  | gbDataConfigWram (index : BitVec 24) (frame : List Byte) (trailer : Word)
  /-- GB_DATA_NORMAL_DATA, a DATA packet whose bytes 0..2 are 0x550100 (R190). -/
  | gbDataNormalData (index : BitVec 24) (frame : List Byte) (trailer : Word)
  /-- GB_DATA_LAST_DATA, a DATA packet whose bytes 0..2 are 0x550200 (R191). -/
  | gbDataLastData (index : BitVec 24) (frame : List Byte) (trailer : Word)
  /-- GB_DATA_ERASE_EFLA, a DATA packet whose bytes 0..2 are 0x550300 (R106). -/
  | gbDataEraseEfla (index : BitVec 24) (frame : List Byte) (trailer : Word)
  /-- GB_DATA_ERASE_ERAM, a DATA packet whose bytes 0..2 are 0x550301 (R106). -/
  | gbDataEraseEram (index : BitVec 24) (frame : List Byte) (trailer : Word)
  /-- GB_DATA_STATUS_NREAD_ID, a DATA packet whose bytes 0..2 are 0x550400 (R195). -/
  | gbDataStatusNreadId (index : BitVec 24) (frame : List Byte) (trailer : Word)
  /-- GB_DATA_STATUS_READ_ID, a DATA packet whose bytes 0..2 are 0x550401 (R196). -/
  | gbDataStatusReadId (index : BitVec 24) (frame : List Byte) (trailer : Word)
deriving DecidableEq, Repr

end Sys2Proof
end

