-- ==== Sys2Proof/WellFormed.lean ====
section
/-! DEFINITION. Which instructions can be encoded: the lengths of the byte sequences they carry (R98, R104) and the nonzero flags
of the reserved classes (R97). -/

namespace Sys2Proof

/-- The data of a bulk WR frame: DEV_LEN words of two bytes, DEV_LEN a 16-bit count (R98, R292). -/
def bulkWords (data : List Byte) : Bool :=
  data.length % 2 = 0 && data.length / 2 < 65536

/-- The data of a bulk WR frame with MODE8: DEV_LEN bytes (R98, R302). -/
def bulkBytes (data : List Byte) : Bool :=
  data.length < 65536

/-- An instruction that the encodings of 30_encoding.md can carry. -/
def Instr.wellFormed : Instr → Bool
  | .crcClear => true
  | .crcByte _ => true
  | .crcBlock _ _ => true
  | .pktBuild _ _ _ _ _ => true
  | .pktSend => true
  | .pktReceive => true
  | .pktCheck => true
  | .gbReadRam _ _ => true
  | .gbWriteRam _ _ => true
  | .gbReadDeviceStatus _ => true
  | .gbReadStatus _ => true
  | .mdSeek _ _ => true
  | .mdRead _ _ => true
  | .mdWrite _ _ => true
  | .mdReadWord _ => true
  | .mdWriteWord _ _ => true
  | .mdWriteByte _ _ => true
  | .mdRamEnable => true
  | .mdRamDisable => true
  | .mdGetId => true
  | .mdHandshake => true
  | .mdFlashErase _ => true
  | .mdFlashUnlockBypass => true
  | .mdFlashResetBypass => true
  | .mdFlashWrite _ _ => true
  | .addr _ => true
  | .len _ => true
  | .ry => true
  | .delay _ => true
  | .rd => true
  | .rdMode8 => true
  | .rdDevId => true
  | .rdMode8DevId => true
  | .rdSingle => true
  | .rdMode8Single => true
  | .rdDevIdSingle => true
  | .rdMode8DevIdSingle => true
  | .rdInc => true
  | .rdMode8Inc => true
  | .rdDevIdInc => true
  | .rdMode8DevIdInc => true
  | .rdSingleInc => true
  | .rdMode8SingleInc => true
  | .rdDevIdSingleInc => true
  | .rdMode8DevIdSingleInc => true
  | .wr data => bulkWords data
  | .wrMode8 data => bulkBytes data
  | .wrDevId data => bulkWords data
  | .wrMode8DevId data => bulkBytes data
  | .wrSingle data => data.length = 2
  | .wrMode8Single data => data.length = 1
  | .wrDevIdSingle data => data.length = 2
  | .wrMode8DevIdSingle data => data.length = 1
  | .wrInc data => bulkWords data
  | .wrMode8Inc data => bulkBytes data
  | .wrDevIdInc data => bulkWords data
  | .wrMode8DevIdInc data => bulkBytes data
  | .wrSingleInc data => data.length = 2
  | .wrMode8SingleInc data => data.length = 1
  | .wrDevIdSingleInc data => data.length = 2
  | .wrMode8DevIdSingleInc data => data.length = 1
  | .mdReservedOp67 _ _ => true
  | .mdReservedOp8F _ _ => true
  | .mdReservedAddrWithFlags flags => flags ≠ 0
  | .mdReservedLenWithFlags flags => flags ≠ 0
  | .mdReservedRyWithFlags flags => flags ≠ 0
  | .mdReservedDelayWithFlags flags => flags ≠ 0
  | .gbAck => true
  | .gbNak => true
  | .gbEnd => true
  | .gbDataConfigRrom _ frame _ => frame.length = 64
  | .gbDataConfigRram _ frame _ => frame.length = 64
  | .gbDataConfigWrom _ frame _ => frame.length = 64
  | .gbDataConfigWram _ frame _ => frame.length = 64
  | .gbDataNormalData _ frame _ => frame.length = 64
  | .gbDataLastData _ frame _ => frame.length = 64
  | .gbDataEraseEfla _ frame _ => frame.length = 64
  | .gbDataEraseEram _ frame _ => frame.length = 64
  | .gbDataStatusNreadId _ frame _ => frame.length = 64
  | .gbDataStatusReadId _ frame _ => frame.length = 64

/-- How many units a bulk WR frame carries, which DEV_LEN must announce (R98, R300, R302); none for every other instruction. -/
def Instr.bulkUnits : Instr → Option Nat
  | .wr data => some (data.length / 2)
  | .wrMode8 data => some data.length
  | .wrDevId data => some (data.length / 2)
  | .wrMode8DevId data => some data.length
  | .wrInc data => some (data.length / 2)
  | .wrMode8Inc data => some data.length
  | .wrDevIdInc data => some (data.length / 2)
  | .wrMode8DevIdInc data => some data.length
  | _ => none

end Sys2Proof
end

