-- ==== Sys2Proof/Decode.lean ====
section
/-! DEFINITION. The decoders of the three encoded interfaces (request word R90 to R94, MD command stream R95 to R99, GB packet R102
to R110), total on any input and rejecting by name, and after them the encoder, from the same tables of the spec. -/

namespace Sys2Proof

/-- Bits 15..8 of a word. -/
def hiByte (v : Word) : Byte := v.extractLsb' 8 8

/-- Bits 7..0 of a word. -/
def loByte (v : Word) : Byte := v.extractLsb' 0 8

/-- The word whose high byte comes first (R66, R68). -/
def word16 (hi lo : Byte) : Word := (hi ++ lo : BitVec 16)

/-- A 24-bit number, most significant byte first (R66, R67). -/
def word24 (b2 b1 b0 : Byte) : BitVec 24 := (b2 ++ b1 ++ b0 : BitVec 24)

/-- The three bytes of a 24-bit number, most significant first (R67, R99). -/
def bytes24 (v : BitVec 24) : List Byte :=
  [v.extractLsb' 16 8, v.extractLsb' 8 8, v.extractLsb' 0 8]

/-- Why a word, frame or packet is no instruction. -/
inductive DecodeError where
  /-- the request code is not one of R92 (R93) -/
  | badCode (code : Byte)
  /-- RSVD is nonzero, or WHENCE is nonzero outside MD_SEEK (R91); `field` is the offending field's value -/
  | rsvdBits (field : Byte)
  /-- the frame's operand or data bytes have not all arrived (R294) -/
  | incomplete
  /-- bytes follow the frame or packet -/
  | extraBytes
  /-- the control byte is none of ACK, NAK, END and DATA (R110) -/
  | invalidControl (control : Byte)
  /-- the command byte of a DATA packet is above 4 (R105) -/
  | invalidCommand (command : Byte)
  /-- the subcommand byte is at or above the command's count (R106) -/
  | invalidSubcommand (command subcommand : Byte)
  /-- a packet that is not as long as its control byte says (R103, R104) -/
  | wrongLength
deriving DecidableEq, Repr

/-! ### The request word (R90) -/

/-- The fields of a request word (R90). -/
structure RequestFields where
  code : Byte
  whence : BitVec 2
  rsvd : BitVec 6
  val : Word
  addr : Reg32
  len : Reg32
  boff : Reg32
deriving DecidableEq, Repr

/-- The fields of the 128-bit request word (R90). -/
def requestFields (w : BitVec 128) : RequestFields where
  code := w.extractLsb' 0 8
  whence := w.extractLsb' 8 2
  rsvd := w.extractLsb' 10 6
  val := w.extractLsb' 16 16
  addr := w.extractLsb' 32 32
  len := w.extractLsb' 64 32
  boff := w.extractLsb' 96 32

/-- The request a code of R92 names, with its operands (R92, R94). -/
def requestInstr (f : RequestFields) : Option Instr :=
  match f.code.toNat with
  | 0x01 => some .crcClear
  | 0x02 => some (.crcByte (loByte f.val))
  | 0x03 => some (.crcBlock f.boff f.len)
  | 0x10 => some (.pktBuild (hiByte f.val) (loByte f.val) (f.addr.extractLsb' 24 8) (f.addr.extractLsb' 0 24) f.boff)
  | 0x11 => some .pktSend
  | 0x12 => some .pktReceive
  | 0x13 => some .pktCheck
  | 0x20 => some (.gbReadRam f.boff f.len)
  | 0x21 => some (.gbWriteRam f.boff f.len)
  | 0x22 => some (.gbReadDeviceStatus f.boff)
  | 0x23 => some (.gbReadStatus f.boff)
  | 0x30 => some (.mdSeek f.whence f.addr)
  | 0x31 => some (.mdRead f.boff f.len)
  | 0x32 => some (.mdWrite f.boff f.len)
  | 0x33 => some (.mdReadWord f.addr)
  | 0x34 => some (.mdWriteWord f.addr f.val)
  | 0x35 => some (.mdWriteByte f.addr (loByte f.val))
  | 0x36 => some .mdRamEnable
  | 0x37 => some .mdRamDisable
  | 0x38 => some .mdGetId
  | 0x39 => some .mdHandshake
  | 0x40 => some (.mdFlashErase f.addr)
  | 0x41 => some .mdFlashUnlockBypass
  | 0x42 => some .mdFlashResetBypass
  | 0x43 => some (.mdFlashWrite f.boff f.len)
  | _ => none

/-- The request a word stands for: first the code is checked (R93), then RSVD, then WHENCE (R91, R322). -/
def decodeRequest (w : BitVec 128) : Except DecodeError Instr :=
  let f := requestFields w
  match requestInstr f with
  | none => .error (.badCode f.code)
  | some i =>
    if f.rsvd ≠ 0 then .error (.rsvdBits (f.rsvd.setWidth 8))
    else if f.whence ≠ 0 ∧ f.code ≠ 0x30 then .error (.rsvdBits (f.whence.setWidth 8))
    else .ok i

/-! ### The MD command byte and its frames (R95 to R99) -/

/-- The flags of an RD or WR command byte (R95). -/
structure MdFlags where
  mode8 : Bool
  devId : Bool
  single : Bool
  inc : Bool
deriving DecidableEq, Repr

/-- The flags in bits 7..4 of a command byte: MODE8 0x10, DEV_ID 0x20, SINGLE 0x40, INC 0x80 (R95). -/
def mdFlags (nibble : BitVec 4) : MdFlags where
  mode8 := nibble.getLsbD 0
  devId := nibble.getLsbD 1
  single := nibble.getLsbD 2
  inc := nibble.getLsbD 3

/-- What a command byte starts (R96, R97). -/
inductive MdKind where
  | addr
  | len
  | rd
  | wr
  | ry
  | delay
  | reserved
deriving DecidableEq, Repr

/-- The operation of a command byte. A flag with ADDR, LEN, RY or DELAY and an OP of 6 or more are reserved (R97). -/
def mdKind (b : Byte) : MdKind :=
  let flags := b.extractLsb' 4 4
  match (b.extractLsb' 0 4).toNat with
  | 0 => if flags = 0 then .addr else .reserved
  | 1 => if flags = 0 then .len else .reserved
  | 2 => .rd
  | 3 => .wr
  | 4 => if flags = 0 then .ry else .reserved
  | 5 => if flags = 0 then .delay else .reserved
  | _ => .reserved

/-- The RD frame with the given flag bits. -/
def rdInstr (flags : BitVec 4) : Instr :=
  match flags.toNat with
  | 0 => .rd
  | 1 => .rdMode8
  | 2 => .rdDevId
  | 3 => .rdMode8DevId
  | 4 => .rdSingle
  | 5 => .rdMode8Single
  | 6 => .rdDevIdSingle
  | 7 => .rdMode8DevIdSingle
  | 8 => .rdInc
  | 9 => .rdMode8Inc
  | 10 => .rdDevIdInc
  | 11 => .rdMode8DevIdInc
  | 12 => .rdSingleInc
  | 13 => .rdMode8SingleInc
  | 14 => .rdDevIdSingleInc
  | _ => .rdMode8DevIdSingleInc

/-- The WR frame with the given flag bits and data bytes. -/
def wrInstr (flags : BitVec 4) (data : List Byte) : Instr :=
  match flags.toNat with
  | 0 => .wr data
  | 1 => .wrMode8 data
  | 2 => .wrDevId data
  | 3 => .wrMode8DevId data
  | 4 => .wrSingle data
  | 5 => .wrMode8Single data
  | 6 => .wrDevIdSingle data
  | 7 => .wrMode8DevIdSingle data
  | 8 => .wrInc data
  | 9 => .wrMode8Inc data
  | 10 => .wrDevIdInc data
  | 11 => .wrMode8DevIdInc data
  | 12 => .wrSingleInc data
  | 13 => .wrMode8SingleInc data
  | 14 => .wrDevIdSingleInc data
  | _ => .wrMode8DevIdSingleInc data

/-- The reserved class a reserved command byte belongs to (R97). -/
def reservedInstr (b : Byte) : Instr :=
  let flags := b.extractLsb' 4 4
  match (b.extractLsb' 0 4).toNat with
  | 0 => .mdReservedAddrWithFlags flags
  | 1 => .mdReservedLenWithFlags flags
  | 4 => .mdReservedRyWithFlags flags
  | 5 => .mdReservedDelayWithFlags flags
  | 6 => .mdReservedOp67 (b.extractLsb' 0 1) flags
  | 7 => .mdReservedOp67 (b.extractLsb' 0 1) flags
  | _ => .mdReservedOp8F (b.extractLsb' 0 3) flags

/-- How many units a transfer moves: one with SINGLE, otherwise DEV_LEN (R297 to R300). -/
def mdUnits (f : MdFlags) (devLen : Word) : Nat :=
  if f.single then 1 else devLen.toNat

/-- How many bytes a unit has on the wire: one with MODE8, otherwise two (R98, R302). -/
def mdUnitBytes (f : MdFlags) : Nat :=
  if f.mode8 then 1 else 2

/-- How many data bytes a WR frame takes (R98). -/
def wrDataLength (f : MdFlags) (devLen : Word) : Nat :=
  mdUnits f devLen * mdUnitBytes f

/-- The first frame of a byte stream, with the bytes after it. The length of a bulk WR frame is decided by DEV_LEN (R98). -/
def decodeFrame (devLen : Word) (bytes : List Byte) : Except DecodeError (Instr × List Byte) :=
  match bytes with
  | [] => .error .incomplete
  | b :: rest =>
    match mdKind b with
    | .addr => match rest with | [] => .error .incomplete | x :: r => .ok (.addr x, r)
    | .len => match rest with | [] => .error .incomplete | x :: r => .ok (.len x, r)
    | .delay => match rest with | [] => .error .incomplete | x :: r => .ok (.delay x, r)
    | .ry => .ok (.ry, rest)
    | .rd => .ok (rdInstr (b.extractLsb' 4 4), rest)
    | .wr =>
      let n := wrDataLength (mdFlags (b.extractLsb' 4 4)) devLen
      if rest.length < n then .error .incomplete
      else .ok (wrInstr (b.extractLsb' 4 4) (rest.take n), rest.drop n)
    | .reserved => .ok (reservedInstr b, rest)

/-! ### The GB packet (R102 to R110) -/

/-- Control byte ACK (R102). -/
def ctlAck : Byte := 0xAA
/-- Control byte NAK (R102). -/
def ctlNak : Byte := 0xF0
/-- Control byte END (R102). -/
def ctlEnd : Byte := 0x0F
/-- Control byte DATA (R102). -/
def ctlData : Byte := 0x55

/-- Command CONFIG (R105). -/
def cmdConfig : Byte := 0
/-- Command NORMAL_DATA (R105). -/
def cmdNormalData : Byte := 1
/-- Command LAST_DATA (R105). -/
def cmdLastData : Byte := 2
/-- Command ERASE (R105). -/
def cmdErase : Byte := 3
/-- Command STATUS (R105). -/
def cmdStatus : Byte := 4

/-- How many subcommands a command has (R106, R152); none above STATUS. -/
def subCount (command : Byte) : Nat :=
  match command.toNat with
  | 0 => 4
  | 1 => 1
  | 2 => 1
  | 3 => 2
  | 4 => 2
  | _ => 0

/-- The DATA packet of a command and subcommand (R105, R106). -/
def dataInstr (command subcommand : Byte) (index : BitVec 24) (frame : List Byte) (trailer : Word) : Option Instr :=
  match command.toNat, subcommand.toNat with
  | 0, 0 => some (.gbDataConfigRrom index frame trailer)
  | 0, 1 => some (.gbDataConfigRram index frame trailer)
  | 0, 2 => some (.gbDataConfigWrom index frame trailer)
  | 0, 3 => some (.gbDataConfigWram index frame trailer)
  | 1, 0 => some (.gbDataNormalData index frame trailer)
  | 2, 0 => some (.gbDataLastData index frame trailer)
  | 3, 0 => some (.gbDataEraseEfla index frame trailer)
  | 3, 1 => some (.gbDataEraseEram index frame trailer)
  | 4, 0 => some (.gbDataStatusNreadId index frame trailer)
  | 4, 1 => some (.gbDataStatusReadId index frame trailer)
  | _, _ => none

/-- The packet a byte sequence is: its length is decided by byte 0 alone (R103, R104, R109), its control, command and subcommand
bytes are checked in the order of R152. -/
def decodePacket (p : List Byte) : Except DecodeError Instr :=
  match p with
  | [] => .error .wrongLength
  | [c] =>
    if c = ctlAck then .ok .gbAck
    else if c = ctlNak then .ok .gbNak
    else if c = ctlEnd then .ok .gbEnd
    else if c = ctlData then .error .wrongLength
    else .error (.invalidControl c)
  | c :: m :: s :: rest =>
    if c = ctlAck ∨ c = ctlNak ∨ c = ctlEnd then .error .extraBytes
    else if c ≠ ctlData then .error (.invalidControl c)
    else if subCount m = 0 then .error (.invalidCommand m)
    else if subCount m ≤ s.toNat then .error (.invalidSubcommand m s)
    else
      match rest with
      | b3 :: b4 :: b5 :: body =>
        match body.drop 64 with
        | [t1, t0] =>
          match dataInstr m s (word24 b3 b4 b5) (body.take 64) (word16 t1 t0) with
          | some i => .ok i
          | none => .error (.invalidSubcommand m s)
        | _ => .error .wrongLength
      | _ => .error .wrongLength
  | _ => .error .wrongLength

/-! ### All three interfaces -/

/-- What an instruction looks like on its interface: a request word, the bytes of an MD frame, or the bytes of a GB packet. -/
inductive Code where
  | request (w : BitVec 128)
  | frame (bytes : List Byte)
  | packet (bytes : List Byte)
deriving DecidableEq, Repr

/-- The instruction that a code is, DEV_LEN deciding how long a bulk WR frame is (R98). -/
def decode (devLen : Word) : Code → Except DecodeError Instr
  | .request w => decodeRequest w
  | .frame bytes =>
    match decodeFrame devLen bytes with
    | .error e => .error e
    | .ok (i, []) => .ok i
    | .ok (_, _ :: _) => .error .extraBytes
  | .packet p => decodePacket p

/-! ### The encoder -/

/-- A request word (R90), every field given. -/
def packRequest (f : RequestFields) : BitVec 128 :=
  (f.boff ++ f.len ++ f.addr ++ f.val ++ f.rsvd ++ f.whence ++ f.code : BitVec 128)

/-- The fields of a request word that only has a code; R90 ignores the others. -/
def codeOnly (code : Byte) : RequestFields :=
  ⟨code, 0, 0, 0, 0, 0, 0⟩

/-- The code of a request with these fields. -/
def requestCode (f : RequestFields) : Code := .request (packRequest f)

/-- The bytes of a DATA packet (R104). -/
def dataPacket (command subcommand : Byte) (index : BitVec 24) (frame : List Byte) (trailer : Word) : List Byte :=
  [ctlData, command, subcommand] ++ bytes24 index ++ frame ++ [hiByte trailer, loByte trailer]

/-- The words of an instruction, from the encodings of 30_encoding.md. -/
def encode : Instr → Code
  | .crcClear => requestCode (codeOnly 0x01)
  | .crcByte b => requestCode { codeOnly 0x02 with val := b.setWidth 16 }
  | .crcBlock boff len => requestCode { codeOnly 0x03 with boff := boff, len := len }
  | .pktBuild control command subcommand index boff =>
    requestCode { codeOnly 0x10 with val := word16 control command, addr := (subcommand ++ index : BitVec 32), boff := boff }
  | .pktSend => requestCode (codeOnly 0x11)
  | .pktReceive => requestCode (codeOnly 0x12)
  | .pktCheck => requestCode (codeOnly 0x13)
  | .gbReadRam boff len => requestCode { codeOnly 0x20 with boff := boff, len := len }
  | .gbWriteRam boff len => requestCode { codeOnly 0x21 with boff := boff, len := len }
  | .gbReadDeviceStatus boff => requestCode { codeOnly 0x22 with boff := boff }
  | .gbReadStatus boff => requestCode { codeOnly 0x23 with boff := boff }
  | .mdSeek whence addr => requestCode { codeOnly 0x30 with whence := whence, addr := addr }
  | .mdRead boff len => requestCode { codeOnly 0x31 with boff := boff, len := len }
  | .mdWrite boff len => requestCode { codeOnly 0x32 with boff := boff, len := len }
  | .mdReadWord addr => requestCode { codeOnly 0x33 with addr := addr }
  | .mdWriteWord addr val => requestCode { codeOnly 0x34 with addr := addr, val := val }
  | .mdWriteByte addr b => requestCode { codeOnly 0x35 with addr := addr, val := b.setWidth 16 }
  | .mdRamEnable => requestCode (codeOnly 0x36)
  | .mdRamDisable => requestCode (codeOnly 0x37)
  | .mdGetId => requestCode (codeOnly 0x38)
  | .mdHandshake => requestCode (codeOnly 0x39)
  | .mdFlashErase addr => requestCode { codeOnly 0x40 with addr := addr }
  | .mdFlashUnlockBypass => requestCode (codeOnly 0x41)
  | .mdFlashResetBypass => requestCode (codeOnly 0x42)
  | .mdFlashWrite boff len => requestCode { codeOnly 0x43 with boff := boff, len := len }
  | .addr b => .frame [0x00, b]
  | .len b => .frame [0x01, b]
  | .ry => .frame [0x04]
  | .delay d => .frame [0x05, d]
  | .rd => .frame [0x02]
  | .rdMode8 => .frame [0x12]
  | .rdDevId => .frame [0x22]
  | .rdMode8DevId => .frame [0x32]
  | .rdSingle => .frame [0x42]
  | .rdMode8Single => .frame [0x52]
  | .rdDevIdSingle => .frame [0x62]
  | .rdMode8DevIdSingle => .frame [0x72]
  | .rdInc => .frame [0x82]
  | .rdMode8Inc => .frame [0x92]
  | .rdDevIdInc => .frame [0xA2]
  | .rdMode8DevIdInc => .frame [0xB2]
  | .rdSingleInc => .frame [0xC2]
  | .rdMode8SingleInc => .frame [0xD2]
  | .rdDevIdSingleInc => .frame [0xE2]
  | .rdMode8DevIdSingleInc => .frame [0xF2]
  | .wr data => .frame (0x03 :: data)
  | .wrMode8 data => .frame (0x13 :: data)
  | .wrDevId data => .frame (0x23 :: data)
  | .wrMode8DevId data => .frame (0x33 :: data)
  | .wrSingle data => .frame (0x43 :: data)
  | .wrMode8Single data => .frame (0x53 :: data)
  | .wrDevIdSingle data => .frame (0x63 :: data)
  | .wrMode8DevIdSingle data => .frame (0x73 :: data)
  | .wrInc data => .frame (0x83 :: data)
  | .wrMode8Inc data => .frame (0x93 :: data)
  | .wrDevIdInc data => .frame (0xA3 :: data)
  | .wrMode8DevIdInc data => .frame (0xB3 :: data)
  | .wrSingleInc data => .frame (0xC3 :: data)
  | .wrMode8SingleInc data => .frame (0xD3 :: data)
  | .wrDevIdSingleInc data => .frame (0xE3 :: data)
  | .wrMode8DevIdSingleInc data => .frame (0xF3 :: data)
  | .mdReservedOp67 low flags => .frame [(flags ++ (3 : BitVec 3) ++ low : BitVec 8)]
  | .mdReservedOp8F low flags => .frame [(flags ++ (1 : BitVec 1) ++ low : BitVec 8)]
  | .mdReservedAddrWithFlags flags => .frame [(flags ++ (0 : BitVec 4) : BitVec 8)]
  | .mdReservedLenWithFlags flags => .frame [(flags ++ (1 : BitVec 4) : BitVec 8)]
  | .mdReservedRyWithFlags flags => .frame [(flags ++ (4 : BitVec 4) : BitVec 8)]
  | .mdReservedDelayWithFlags flags => .frame [(flags ++ (5 : BitVec 4) : BitVec 8)]
  | .gbAck => .packet [0xAA]
  | .gbNak => .packet [0xF0]
  | .gbEnd => .packet [0x0F]
  | .gbDataConfigRrom index frame trailer => .packet (dataPacket 0 0 index frame trailer)
  | .gbDataConfigRram index frame trailer => .packet (dataPacket 0 1 index frame trailer)
  | .gbDataConfigWrom index frame trailer => .packet (dataPacket 0 2 index frame trailer)
  | .gbDataConfigWram index frame trailer => .packet (dataPacket 0 3 index frame trailer)
  | .gbDataNormalData index frame trailer => .packet (dataPacket 1 0 index frame trailer)
  | .gbDataLastData index frame trailer => .packet (dataPacket 2 0 index frame trailer)
  | .gbDataEraseEfla index frame trailer => .packet (dataPacket 3 0 index frame trailer)
  | .gbDataEraseEram index frame trailer => .packet (dataPacket 3 1 index frame trailer)
  | .gbDataStatusNreadId index frame trailer => .packet (dataPacket 4 0 index frame trailer)
  | .gbDataStatusReadId index frame trailer => .packet (dataPacket 4 1 index frame trailer)

/-- The bytes of an MD frame; empty for the other interfaces. -/
def frameBytes (i : Instr) : List Byte :=
  match encode i with
  | .frame bytes => bytes
  | _ => []

/-! ### A word of the opcode table -/

/-- How many operand or data bytes follow a command byte (R98). -/
def operandLength (devLen : Word) (b : Byte) : Nat :=
  match mdKind b with
  | .addr => 1
  | .len => 1
  | .delay => 1
  | .wr => wrDataLength (mdFlags (b.extractLsb' 4 4)) devLen
  | _ => 0

/-- The code that a word of spec/opcode_table.json stands for, the bits above `nbits` zero. One byte is a control packet where it
is one of the three (R102; as MD command bytes those three are reserved, so the table lists their values twice), otherwise an MD
command byte with operand bytes of zeros; three bytes are bytes 0..2 of a DATA packet, byte 0 in the highest bits as the table
numbers them; a longer or two-byte word is a request word (R90). -/
def tableCode (devLen : Word) (nbits w : Nat) : Code :=
  if nbits ≤ 8 then
    let b := BitVec.ofNat 8 w
    if b = ctlAck ∨ b = ctlNak ∨ b = ctlEnd then .packet [b]
    else .frame (b :: List.replicate (operandLength devLen b) 0)
  else if nbits = 24 then
    .packet (bytes24 (BitVec.ofNat 24 w) ++ List.replicate 69 0)
  else .request (BitVec.ofNat 128 w)

/-- The instruction the decoder reads from a word of spec/opcode_table.json, DEV_LEN at its reset value. -/
def decodeTableWord (nbits w : Nat) : Option Instr :=
  match decode 0 (tableCode 0 nbits w) with
  | .ok i => some i
  | .error _ => none

end Sys2Proof
end

