-- ==== Sys2Proof/Machine/State.lean ====
section
/-! DEFINITION. The state of the machine: the block's registers (10_state.md), its buffers, the MD adapter with its cartridge
(45_stream_decoder.md, R39), the lines between them, the parameters (R10), the draws to come (R15) and the requester's actions (R8).
All of it is plain data. -/

namespace Sys2Proof.Machine

/-- A sparse byte store: (offset, byte) pairs, offsets strictly rising; an offset that is not listed holds no value (R27, R28,
R61). -/
abbrev Memory := List Host.Cell

/-- XSTATE, the GB sequencer state (R29). -/
inductive XState where
  | idle
  | sendHeader
  | awaitResponse
  | continuing
  | done
  | error
deriving DecidableEq, Repr, Inhabited

/-- DEV_PS, the peer's parse state (R294). WR_DATA(k) keeps the flags of its command byte and the data bytes taken so far, newest
first, because a frame is executed when its last byte has arrived (R290). -/
inductive DevPs where
  | op
  | addrB
  | lenB
  | delayB
  | wrData (left : Nat) (flags : MdFlags) (taken : List Byte)
  | undef
deriving DecidableEq, Repr

/-- Which identity reply the peer gives next (R307): any word to the first IdRdFrame after the transport was opened, an anomaly or
the identity value after a Reopen, the identity value otherwise. -/
inductive IdReply where
  | afterOpen
  | afterReopen
  | settled
deriving DecidableEq, Repr

/-- The adapter attached for the session (R378). -/
inductive AdapterKind where
  | md
  | gb
deriving DecidableEq, Repr

/-- What a range of cartridge words is (R306: which addresses hold what is outside the spec). -/
inductive RegionKind where
  | ram
  | rom
  | flash
deriving DecidableEq, Repr

/-- A range of cartridge words of one kind. -/
structure Region where
  firstWord : Nat
  words : Nat
  kind : RegionKind
deriving DecidableEq, Repr

/-- The cartridge's RAM banking (R39, R77); unknown at power-up (I18). -/
inductive RamMode where
  | unknown
  | banked
  | unbanked
deriving DecidableEq, Repr

/-- The flash chip's command state (R39, R77), named after the last command write it took: the erase sequence of R272 and R273, the
bypass sequences of R275 and R276, the program command of R277; the last two states are that of the program command outside bypass
mode (R278, I7), from read mode and from any other state. -/
inductive FlashState where
  | unknown
  | read
  | unlock1
  | unlock2
  | erase1
  | erase2
  | eraseReady
  | bypass
  | bypassProgram
  | leaving
  | readProgram
  | unknownProgram
deriving DecidableEq, Repr

/-- The cartridge behind the MD adapter, as far as the laws of R282 and R306 fix what a read returns: the bytes whose value is known,
by byte address; an erased byte is one whose value is known to be 0xFF. What is not known is a draw. `flashBusy` says that an erase or a
program has been taken and no RY has come after it (R39, R303). -/
structure Cart where
  map : List Region
  ramMode : RamMode
  flash : FlashState
  flashBusy : Bool
  cells : Memory
deriving DecidableEq, Repr

/-- The MD adapter (45_stream_decoder.md): its registers, the TX bytes that wait for it and the reply bytes on their way to the
block. `stale` records that SYNC_LOST has been set since the transport was last reopened with SYNC_LOST = 0: what comes on the
line is then a free draw (R379; log entry 35). -/
structure Peer where
  devAddr : WordAddr
  devLen : Word
  devDelay : Byte
  ps : DevPs
  identity : Word
  idReply : IdReply
  inbox : List Byte
  rxLine : List Byte
  stale : Bool
deriving DecidableEq, Repr

/-- A register the requester can read (access R of 10_state.md). -/
inductive ReadableReg where
  | status
  | errKind
  | errSub
  | errInfo
  | result
  | crc
  | txpkt (i : Fin 72)
  | txlen
  | rxpkt (i : Fin 72)
  | rxlen
  | xcount
  | curW
  | delaySh
deriving DecidableEq, Repr

/-- What the requester does at the block (R22, R61, R338, R360). -/
inductive PortAction where
  | writeReq (w : BitVec 128)
  | readReg (r : ReadableReg)
  | readDbuf (off : Nat)
  | writeDbuf (off : Nat) (b : Byte)
  | reset
deriving DecidableEq, Repr

/-- The draws to come (R15): the transport's answers, the free words, and the requester's actions at the next moments of running requests.
Where a script has run out, `count` numbers the free value of Config that is taken instead; it counts every one taken. -/
structure Env where
  tx : List TxDraw
  rx : List RxDraw
  reopen : List Bool
  free : List Word
  visits : List (List PortAction)
  count : Nat
deriving DecidableEq, Repr

/-- The state of the machine. -/
structure State where
  /-- the parameters of R10, constant -/
  cfg : Params
  /-- REQ (R22) -/
  req : BitVec 128
  /-- STATUS.BUSY (R23) -/
  busy : Bool
  /-- STATUS.DONE (R23) -/
  done : Bool
  /-- STATUS.ERR (R23) -/
  err : Bool
  /-- STATUS.STICKY_ERR (R23) -/
  stickyErr : Bool
  /-- STATUS.CURSOR_VALID (R23, R32) -/
  cursorValid : Bool
  /-- STATUS.RAM_EN (R33) -/
  ramEn : Bool
  /-- STATUS.BYPASS (R35) -/
  bypass : Bool
  /-- STATUS.SYNC_LOST (R37) -/
  syncLost : Bool
  /-- XSTATE (R29) -/
  xstate : XState
  /-- ERR_KIND (R24) -/
  errKind : Byte
  /-- ERR_SUB (R24) -/
  errSub : Byte
  /-- ERR_INFO (R24) -/
  errInfo : Reg32
  /-- RESULT (R25) -/
  result : Reg32
  /-- CRC (R26) -/
  crc : Word
  /-- TXPKT (R27) -/
  txpkt : Memory
  /-- TXLEN (R27) -/
  txlen : BitVec 7
  /-- RXPKT (R28) -/
  rxpkt : Memory
  /-- RXLEN (R28) -/
  rxlen : BitVec 7
  /-- XDIR (R30) -/
  xdir : BitVec 2
  /-- XLEN (R30) -/
  xlen : Reg32
  /-- XCOUNT (R30) -/
  xcount : Reg32
  /-- XBOFF (R30) -/
  xboff : Reg32
  /-- CUR_W (R32) -/
  curW : WordAddr
  /-- DELAY_SH (R34) -/
  delaySh : Byte
  /-- DELAY_VALID (R34) -/
  delayValid : Bool
  /-- HS_ATTEMPT (R36) -/
  hsAttempt : BitVec 2
  /-- T_CUR (R38) -/
  tCur : Nat
  /-- DBUF (R60) -/
  dbuf : Memory
  /-- the DBUF offsets the requester wrote while the running request was busy (R371) -/
  hazard : List Nat
  /-- the adapter attached for the session (R378) -/
  adapter : AdapterKind
  /-- the MD adapter (45_stream_decoder.md) -/
  peer : Peer
  /-- the cartridge behind the MD adapter (R39) -/
  cart : Cart
  /-- the draws to come (R15) -/
  env : Env
  /-- packets presented to the GB framer outside a request -/
  pktPort : List (List Byte)
  /-- the requester's actions to come (R8) -/
  port : List PortAction
  /-- what the requester has read, oldest first -/
  reads : List Reg32
  /-- every TX byte the transport has accepted, in order (R80) -/
  txLog : List Byte
deriving DecidableEq, Repr

/-- Why the machine stops. -/
inductive Fault where
  /-- raised by a read of a DBUF, TXPKT or RXPKT byte that nothing has written since reset: R27 (`reading one faults in the model`),
  R28, R61, and I4, whose treatment is `fault`; safe: the spec tells the model to stop here and claims no behaviour -/
  | unwrittenByte
  /-- raised by a requester's access to a DBUF offset at or above DBUF_SIZE, where R60 says there is no byte; safe -/
  | noSuchByte
deriving DecidableEq, Repr

/-- Why the machine has no meaning for what it was given. -/
inductive Refusal where
  /-- raised by exec for an instruction without a meaning yet; no arm does -/
  | notModelled (mnemonic : String)
  /-- raised by a step that finds, at the packet port, bytes that are no packet by their length (R103, R104); safe: the framer
  has no such packet -/
  | notAPacket
deriving DecidableEq, Repr

/-- The peer and the lines at the start of a session: DEV_PS = OP (R294); DEV_ADDR, DEV_LEN and DEV_DELAY, which R291 to R293 leave
unspecified, at zero (DESIGN CHOICE, log entry 6). -/
def Peer.start : Peer where
  devAddr := 0
  devLen := 0
  devDelay := 0
  ps := .op
  identity := Config.adapterIdentity
  idReply := .afterOpen
  inbox := []
  rxLine := []
  stale := false

/-- The cartridge at the start of a session: nothing about its modes, commands and content is known (I18, R306). Whether the flash chip is
still busy with an erase or a program then, R39 does not say; the model has it not busy (DESIGN CHOICE, log entry 18). -/
def Cart.start : Cart where
  map := []
  ramMode := .unknown
  flash := .unknown
  flashBusy := false
  cells := []

/-- No scripted draw and no action of the requester. -/
def Env.start : Env where
  tx := []
  rx := []
  reopen := []
  free := []
  visits := []
  count := 0

/-- The machine after reset (R41, R360), at the start of a session. CUR_W, which R32 leaves unspecified, is zero (DESIGN CHOICE, log
entry 5); TXPKT, RXPKT and DBUF hold no value (R27, R28, R61); the attached adapter is the MD one (DESIGN CHOICE, log entry 7). -/
def State.reset : State where
  cfg := Params.default
  req := 0
  busy := false
  done := false
  err := false
  stickyErr := false
  cursorValid := false
  ramEn := false
  bypass := false
  syncLost := false
  xstate := .idle
  errKind := 0
  errSub := 0
  errInfo := 0
  result := 0
  crc := 0x0000
  txpkt := []
  txlen := 0
  rxpkt := []
  rxlen := 0
  xdir := 0
  xlen := 0
  xcount := 0
  xboff := 0
  curW := 0
  delaySh := 0
  delayValid := false
  hsAttempt := 0
  tCur := Params.default.tChar
  dbuf := []
  hazard := []
  adapter := .md
  peer := Peer.start
  cart := Cart.start
  env := Env.start
  pktPort := []
  port := []
  reads := []
  txLog := []

end Sys2Proof.Machine
end

