-- ==== Sys2Proof/Machine/Flags.lean ====
section
/-! DEFINITION. STATUS (R23): the register as the requester reads it, and how acceptance, completion, an error and a reset write its
flags (R320, R329, R330, R360). The block has no arithmetic flags (R40). -/

namespace Sys2Proof.Machine

/-- The encoding of XSTATE (R29). -/
def XState.code : XState → BitVec 3
  | .idle => 0
  | .sendHeader => 1
  | .awaitResponse => 2
  | .continuing => 3
  | .done => 4
  | .error => 5

/-- A flag as a bit. -/
def flagBit (b : Bool) : BitVec 1 := BitVec.ofBool b

/-- STATUS as it is read (R23): bits 15..11 are zero, bits 10..8 are XSTATE. -/
def State.status (s : State) : BitVec 16 :=
  ((0 : BitVec 5) ++ s.xstate.code ++ flagBit s.syncLost ++ flagBit s.bypass ++ flagBit s.ramEn ++ flagBit s.cursorValid
    ++ flagBit s.stickyErr ++ flagBit s.err ++ flagBit s.done ++ flagBit s.busy : BitVec 16)

/-- The flags when a request is accepted (R320). -/
def State.accept (s : State) : State :=
  { s with busy := true, done := false, err := false, hazard := [] }

/-- `complete(r)` (R320): the result, DONE, and XSTATE through DONE back to IDLE (R181). -/
def State.complete (r : Reg32) (s : State) : State :=
  { s with result := r, done := true, busy := false, xstate := .idle, hazard := [] }

end Sys2Proof.Machine
end

