-- ==== Sys2Proof/Machine/Crc.lean ====
section
/-! DEFINITION. The CRC-16 (R130, R131), its table-driven form (R132) and the CRC of a packet (R136). -/

namespace Sys2Proof.Machine

/-- The polynomial x^16 + x^12 + x^5 + 1 (R130). -/
def crcPoly : Word := 0x1021

/-- One shift of the CRC register (R131). -/
def crcShift (c : Word) : Word :=
  if c.getLsbD 15 then (c <<< 1) ^^^ crcPoly else c <<< 1

/-- n shifts of the CRC register. -/
def crcShifts : Nat → Word → Word
  | 0, c => c
  | n + 1, c => crcShifts n (crcShift c)

/-- One byte taken into the CRC register (R131). -/
def crcByte (c : Word) (b : Byte) : Word :=
  crcShifts 8 (c ^^^ (b.setWidth 16 <<< 8))

/-- `Crc16(seed, s)` (R131). -/
def crc16 : Word → List Byte → Word
  | c, [] => c
  | c, b :: rest => crc16 (crcByte c b) rest

/-- The table entry T[i] (R132). -/
def crcTable (i : Byte) : Word := crc16 0x0000 [i]

/-- The table-driven form (R132). -/
def crc16Table : Word → List Byte → Word
  | c, [] => c
  | c, b :: rest => crc16Table ((c <<< 8) ^^^ crcTable (hiByte c ^^^ b)) rest

/-- `PacketCrc(p)` (R136): over bytes 0..69, freshly seeded. -/
def packetCrc (p : List Byte) : Word := crc16 0x0000 (p.take 70)

end Sys2Proof.Machine
end

