-- ==== Sys2Proof/Machine/Memory.lean ====
section
/-! DEFINITION. The byte stores: reading, writing and forgetting bytes of DBUF, TXPKT, RXPKT and the known cartridge bytes (R14
MemRead and MemWrite, R27, R28, R60), in the canonical form of rising offsets. -/

namespace Sys2Proof.Machine

/-- What a byte store holds at an offset: none where nothing has been written (R61, I4). This is what an unlisted offset reads as. -/
def Memory.get : Memory → Nat → Option Byte
  | [], _ => none
  | (k, v) :: rest, a => if k = a then some v else Memory.get rest a

/-- The byte store with one byte written. -/
def Memory.set : Memory → Nat → Byte → Memory
  | [], a, b => [(a, b)]
  | (k, v) :: rest, a, b =>
    if a < k then (a, b) :: (k, v) :: rest
    else if a = k then (a, b) :: rest
    else (k, v) :: Memory.set rest a b

/-- Bytes as the entries from an offset on. -/
def Memory.cells : Nat → List Byte → Memory
  | _, [] => []
  | a, b :: rest => (a, b) :: Memory.cells (a + 1) rest

/-- MemWrite (R14): the bytes stored in increasing offset order from an offset on. -/
def Memory.setBytes (m : Memory) (a : Nat) (bytes : List Byte) : Memory :=
  match bytes with
  | [] => m
  | _ :: _ => m.filter (fun c => c.1 < a) ++ Memory.cells a bytes ++ m.filter (fun c => a + bytes.length ≤ c.1)

/-- The bytes of n entries from an offset on, none where one of them is not listed. -/
def Memory.run : Memory → Nat → Nat → Option (List Byte)
  | _, _, 0 => some []
  | [], _, _ + 1 => none
  | (k, v) :: rest, a, n + 1 =>
    if k = a then
      match Memory.run rest (a + 1) n with
      | some bytes => some (v :: bytes)
      | none => none
    else none

/-- MemRead (R14): n bytes from an offset on; none where one of them holds no value. -/
def Memory.getBytes (m : Memory) (a n : Nat) : Option (List Byte) :=
  Memory.run (m.dropWhile fun c => c.1 < a) a n

/-- The byte store without the bytes from `a` up to, not including, `a + n`. -/
def Memory.removeRange (m : Memory) (a n : Nat) : Memory :=
  m.filter fun c => c.1 < a || a + n ≤ c.1

/-- The entries from offset `a` on, n offsets of which are gone through: those that `p` picks hold b, the others what they held. -/
def Memory.fillFrom (p : Nat → Bool) (b : Byte) : Nat → Nat → Memory → Memory
  | 0, _, m => m
  | n + 1, a, [] =>
    if p a then (a, b) :: Memory.fillFrom p b n (a + 1) [] else Memory.fillFrom p b n (a + 1) []
  | n + 1, a, (k, v) :: rest =>
    if k = a then (a, if p a then b else v) :: Memory.fillFrom p b n (a + 1) rest
    else if p a then (a, b) :: Memory.fillFrom p b n (a + 1) ((k, v) :: rest)
    else Memory.fillFrom p b n (a + 1) ((k, v) :: rest)

/-- The byte store in which those of the n offsets from `a` on that `p` picks hold b, every other one what it held. -/
def Memory.fill (m : Memory) (p : Nat → Bool) (b : Byte) (a n : Nat) : Memory :=
  (m.takeWhile fun c => c.1 < a) ++ Memory.fillFrom p b n a (m.dropWhile fun c => c.1 < a)

/-- The canonical form: the offsets strictly rise. -/
def Memory.wf : Memory → Bool
  | [] => true
  | [_] => true
  | (a, _) :: (b, v) :: rest => a < b && Memory.wf ((b, v) :: rest)

/-- Every listed offset lies below a bound. -/
def Memory.below (m : Memory) (bound : Nat) : Bool :=
  m.all fun c => c.1 < bound

end Sys2Proof.Machine
end

