-- ==== Sys2Proof/Machine/Draws.lean ====
section
/-! DEFINITION. Taking the next draw (R15): the scripted one where the state holds one, otherwise a free value of Config, numbered by a
counter that advances (log entries 2 and 3). -/

namespace Sys2Proof.Machine

/-- The state with one more free value of Config taken. -/
def State.countDraw (s : State) : State :=
  { s with env := { s.env with count := s.env.count + 1 } }

/-- The transport's answer to the next TxWrite (R14, I15). -/
def takeTx (s : State) : TxDraw × State :=
  match s.env.tx with
  | d :: rest => (d, { s with env := { s.env with tx := rest } })
  | [] => (Config.txDraw s.env.count, s.countDraw)

/-- The transport's answer to the next RxRead (R14, I15). -/
def takeRx (s : State) : RxDraw × State :=
  match s.env.rx with
  | d :: rest => (d, { s with env := { s.env with rx := rest } })
  | [] => (Config.rxDraw s.env.count, s.countDraw)

/-- Whether the next Reopen succeeds (R14). -/
def takeReopen (s : State) : Bool × State :=
  match s.env.reopen with
  | d :: rest => (d, { s with env := { s.env with reopen := rest } })
  | [] => (Config.reopenDraw s.env.count, s.countDraw)

/-- A free word (I1, I5, I7, I8, I10, I14). -/
def takeFree (s : State) : Word × State :=
  match s.env.free with
  | v :: rest => (v, { s with env := { s.env with free := rest } })
  | [] => (Config.freeWord s.env.count, s.countDraw)

/-- A free byte. -/
def takeFreeByte (s : State) : Byte × State :=
  let (v, s) := takeFree s
  (loByte v, s)

end Sys2Proof.Machine
end

