-- ==== Sys2Proof/Machine/Cart.lean ====
section
/-! DEFINITION. The reference cartridge behind the MD adapter: RAM banking, the flash chip's command states and the words whose
content the laws of R280 to R282 and R306 fix. Everything else a read returns is a draw (R306, I7, I8, I10, I14, I18).
Log entries 18, 19 and 34. -/

namespace Sys2Proof.Machine

/-- The word address of the mapper register, 0xA13000 halved (R78, R233). -/
def mapperWord : WordAddr := 0x509800

/-- The kind of a cartridge word, none where the map does not say. -/
def regionAt : List Region → Nat → Option RegionKind
  | [], _ => none
  | r :: rest, w => if r.firstWord ≤ w ∧ w < r.firstWord + r.words then some r.kind else regionAt rest w

/-- The high and low byte a read of a word returns, as far as the laws fix them. RAM reads back its low byte while it is banked in
(R306); ROM and flash are read while it is banked out (R372, I14), flash in read mode and ready (R280, I7). The mapper register's word
is read as the map names it, like any other: what a read of that write-only register returns, R77 and R336 do not say (DESIGN CHOICE,
log entry 19). -/
def Cart.known (c : Cart) (w : Nat) : Option Byte × Option Byte :=
  match regionAt c.map w, c.ramMode with
  | some .ram, .banked => (none, c.cells.get (2 * w + 1))
  | some .rom, .unbanked => (c.cells.get (2 * w), c.cells.get (2 * w + 1))
  | some .flash, .unbanked =>
    if c.flash = .read ∧ c.flashBusy = false then (c.cells.get (2 * w), c.cells.get (2 * w + 1)) else (none, none)
  | _, _ => (none, none)

/-- The cartridge when nothing about its content and modes is known any more. The chip counts as not busy, as at the start of a session
(DESIGN CHOICE, log entry 18). -/
def Cart.forgetAll (c : Cart) : Cart :=
  { c with ramMode := .unknown, flash := .unknown, flashBusy := false, cells := [] }

/-- The cartridge when the n bytes from byte address `a` on, and no others, may hold anything (R281, I8). -/
def Cart.forgetRange (c : Cart) (a n : Nat) : Cart :=
  { c with cells := c.cells.removeRange a n }

/-- The cartridge when one word may hold anything (I7, I8). -/
def Cart.forgetWord (c : Cart) (w : Nat) : Cart := c.forgetRange (2 * w) 2

/-- Byte addresses of the cartridge space, which are those the wire can carry, lie below 2^25 (R62, R63). -/
def addressLimit : Nat := 2 ^ 25

/-- How many bytes of the sector at byte address `a` lie in the cartridge space; a sector has ERASE_STEP bytes (R274), and one that would
go past the end of the space is cut there (DESIGN CHOICE, log entry 18). -/
def sectorBytes (cfg : Params) (a : Nat) : Nat := min cfg.eraseStep (addressLimit - a)

/-- Whether the flash chip may stand at a word: anywhere but where the map has RAM or ROM (log entry 19). -/
def Cart.isFlash (c : Cart) (w : Nat) : Bool := regionAt c.map w ≠ some .ram && regionAt c.map w ≠ some .rom

/-- A sector erase at a word (R273, R274): each flash byte of the sector reads 0xFF (R282); a byte that the map gives to RAM or ROM is
none of the chip's and stays. R77 and R274 speak of sector addresses; at any other address the sector is the ERASE_STEP bytes from
the address written on (DESIGN CHOICE, log entry 18). -/
def Cart.eraseSector (cfg : Params) (c : Cart) (w : Nat) : Cart :=
  { c with
    cells := c.cells.fill (fun a => c.isFlash (a / 2)) 0xFF (2 * w) (sectorBytes cfg (2 * w))
    flashBusy := true }

/-- The cartridge when the flash bytes of the sector at a word may hold anything. -/
def Cart.forgetSector (cfg : Params) (c : Cart) (w : Nat) : Cart :=
  { c with cells := c.cells.filter fun e =>
      e.1 < 2 * w || 2 * w + sectorBytes cfg (2 * w) ≤ e.1 || !c.isFlash (e.1 / 2) }

/-- Programming a word (R277, R282): it reads back as written if it was erased before; over anything else it may hold anything
(I8). An 8-bit transfer writes the low byte of the word (R302) and leaves its high byte open (DEDUCED, log entry 25). -/
def Cart.program (c : Cart) (w : Nat) (hi : Option Byte) (lo : Byte) : Cart :=
  let c := { c with flashBusy := true }
  if c.cells.get (2 * w) = some 0xFF ∧ c.cells.get (2 * w + 1) = some 0xFF then
    let cells := match hi with
      | some h => c.cells.set (2 * w) h
      | none => c.cells.removeRange (2 * w) 1
    { c with cells := cells.set (2 * w + 1) lo }
  else c.forgetWord w

/-- Whether the chip may take the low byte 0x30 as a sector erase (R273): it does after the five unlock writes, and where its state is
not known it may. -/
def FlashState.mayErase (f : FlashState) : Bool := f = .unknown || f = .eraseReady

/-- A write that the command sequences of the spec do not explain, or one that may have reached the chip or not: the chip's state and the
word are open, and so is the whole sector where the write may have been a sector erase (R273). -/
def Cart.strayWrite (cfg : Params) (c : Cart) (w : Nat) (lo : Byte) : Cart :=
  let d := { c.forgetWord w with flash := .unknown }
  if lo = 0x30 ∧ c.flash.mayErase then d.forgetSector cfg w else d

/-- The program command outside bypass mode, or where the mode is not known (R278): the words it and the write after it address are open,
and nothing else is (I7). -/
def Cart.strayProgram (c : Cart) (w : Nat) (next : FlashState) : Cart :=
  { c.forgetWord w with flash := next }

/-- A word write to the flash chip (R77, R272, R273, R275 to R278). A command is its low byte. The chip enters and leaves bypass mode by
the AMD writes that are the defaults of UNLOCK_BYPASS_SEQ and RESET_BYPASS_SEQ: R275 and R276 make the two sequences parameters and
leave open which chip takes another one, and here the writes of another sequence are taken for what they are to this chip, so that
they may leave its state unknown (DESIGN CHOICE, log entry 18). The data word after a program command is no command, also outside
bypass mode; the chip is then in read mode if it was (DESIGN CHOICE, log entry 18). The reset writes bring it into read mode from
bypass mode, from read mode and from an unknown state (DESIGN CHOICE for the last two, log entry 18). A command or data write that arrives while the chip
is busy with an erase or a program is taken as by a ready chip: what such a chip does with it, the spec does not say (DESIGN CHOICE,
log entry 18), but for the sector writes of MD_FLASH_ERASE, which follow each other without a poll (R273). -/
def Cart.flashWrite (cfg : Params) (c : Cart) (w : Nat) (hi : Option Byte) (lo : Byte) : Cart :=
  match c.flash with
  | .unknown =>
    if lo = 0x90 then { c.forgetWord w with flash := .leaving }
    else if lo = 0xA0 then c.strayProgram w .unknownProgram
    else c.strayWrite cfg w lo
  | .read =>
    if w = 0x555 ∧ lo = 0xAA then { c with flash := .unlock1 }
    else if lo = 0x90 then { c with flash := .leaving }
    else if lo = 0xA0 then c.strayProgram w .readProgram
    else c.strayWrite cfg w lo
  | .unlock1 =>
    if w = 0x2AA ∧ lo = 0x55 then { c with flash := .unlock2 }
    else if lo = 0xA0 then c.strayProgram w .unknownProgram
    else c.strayWrite cfg w lo
  | .unlock2 =>
    if w = 0x555 ∧ lo = 0x80 then { c with flash := .erase1 }
    else if w = 0x555 ∧ lo = 0x20 then { c with flash := .bypass }
    else if lo = 0xA0 then c.strayProgram w .unknownProgram
    else c.strayWrite cfg w lo
  | .erase1 =>
    if w = 0x555 ∧ lo = 0xAA then { c with flash := .erase2 }
    else if lo = 0xA0 then c.strayProgram w .unknownProgram
    else c.strayWrite cfg w lo
  | .erase2 =>
    if w = 0x2AA ∧ lo = 0x55 then { c with flash := .eraseReady }
    else if lo = 0xA0 then c.strayProgram w .unknownProgram
    else c.strayWrite cfg w lo
  | .eraseReady =>
    if lo = 0x30 then c.eraseSector cfg w
    else if lo = 0xA0 then c.strayProgram w .unknownProgram
    else c.strayWrite cfg w lo
  | .bypass =>
    if lo = 0xA0 then { c with flash := .bypassProgram }
    else if lo = 0x90 then { c with flash := .leaving }
    else c.strayWrite cfg w lo
  | .bypassProgram => { c.program w hi lo with flash := .bypass }
  | .leaving =>
    if lo = 0x00 then { c with flash := .read }
    else if lo = 0xA0 then c.strayProgram w .unknownProgram
    else c.strayWrite cfg w lo
  | .readProgram => c.strayProgram w .read
  | .unknownProgram => c.strayProgram w .unknown

/-- A write of which it is open whether the flash chip takes it: RAM is banked in (I14), or the banking is not known (I18). A program
command and the write after it open the words they address and nothing else (I7). -/
def Cart.doubtfulWrite (cfg : Params) (c : Cart) (w : Nat) (lo : Byte) : Cart :=
  match c.flash with
  | .bypassProgram => c.strayProgram w .unknown
  | .readProgram => c.strayProgram w .unknown
  | .unknownProgram => c.strayProgram w .unknown
  | _ => if lo = 0xA0 then c.strayProgram w .unknownProgram else c.strayWrite cfg w lo

/-- The chip's state once the RAM banking may have changed: a program command of which it is open whether the chip took it does not say
any more what the next write is. -/
def FlashState.afterBanking (f : FlashState) : FlashState :=
  match f with
  | .unknownProgram => .unknown
  | f => f

/-- The RAM banking after a word is written to the mapper register (R233 to R235, R77); a value that is neither of the two, or a
write of the low byte alone, leaves it open. -/
def mapperMode (cfg : Params) (hi : Option Byte) (lo : Byte) : RamMode :=
  match hi with
  | none => .unknown
  | some h =>
    if word16 h lo = cfg.ramEnableWord ∧ word16 h lo ≠ cfg.ramDisableWord then .banked
    else if word16 h lo = cfg.ramDisableWord ∧ word16 h lo ≠ cfg.ramEnableWord then .unbanked
    else .unknown

/-- A word write on the cartridge bus. `hi` is none for an 8-bit transfer, which writes the low byte only (R302). RAM keeps the low
byte written while it is banked in (R306); a write while it is banked out does not reach it (DEDUCED, log entry 19). While RAM is
banked out, a word that the map does not name, and one it names as flash, is the flash chip's (for the unnamed one R306 leaves this
open: DESIGN CHOICE, log entry 19). A write to a word that the map names as ROM does not reach the chip, whatever state it is in, and
opens that word (R306 leaves this open: DESIGN CHOICE, log entry 19). A write to the mapper register is the mapper's alone: the chip
does not see it, and a command sequence under way goes on after it (DESIGN CHOICE, log entry 18). Any other write leaves what it
touches open (I14). -/
def Cart.write (cfg : Params) (c : Cart) (w : Nat) (hi : Option Byte) (lo : Byte) : Cart :=
  if w = mapperWord.toNat then { c with ramMode := mapperMode cfg hi lo, flash := c.flash.afterBanking }
  else
    match c.ramMode, regionAt c.map w with
    | .banked, some .ram => { c with cells := c.cells.set (2 * w + 1) lo }
    | .unbanked, some .ram => c
    | .unknown, some .ram => c.forgetWord w
    | _, some .rom => c.forgetWord w
    | .unbanked, _ => c.flashWrite cfg w hi lo
    | _, _ => c.doubtfulWrite cfg w lo

/-- The flash chip has become ready (R303): an erase sequence is over and the chip is in read mode (R280). A command sequence that has
started no operation goes on (DESIGN CHOICE, log entry 18). -/
def Cart.ready (c : Cart) : Cart :=
  if c.flash = .eraseReady ∧ c.flashBusy then { c with flash := .read, flashBusy := false }
  else { c with flashBusy := false }

/-- What a read does to the cartridge: nothing by default (I9). -/
def Cart.afterRead (cfg : Params) (c : Cart) : Cart :=
  match cfg.readSideEffects with
  | .none => c
  | .anything => c.forgetAll

/-- Reading a word on the cartridge bus: the bytes that are known, free ones for the others (R306). -/
def cartRead (w : WordAddr) (s : State) : Word × State :=
  let after (s : State) : State := { s with cart := s.cart.afterRead s.cfg }
  match s.cart.known w.toNat with
  | (some h, some l) => (word16 h l, after s)
  | (some h, none) =>
    let (v, s) := takeFree s
    (word16 h (loByte v), after s)
  | (none, some l) =>
    let (v, s) := takeFree s
    (word16 (hiByte v) l, after s)
  | (none, none) =>
    let (v, s) := takeFree s
    (v, after s)

/-- Writing a word on the cartridge bus. -/
def cartWrite (w : WordAddr) (hi : Option Byte) (lo : Byte) (s : State) : State :=
  { s with cart := s.cart.write s.cfg w.toNat hi lo }

end Sys2Proof.Machine
end

