-- ==== Sys2Proof/Machine/Peer.lean ====
section
/-! DEFINITION. The reference peer: what each MD frame does at the adapter (R291 to R307), and the parser that takes the TX stream one
byte at a time (R290, R294). -/

namespace Sys2Proof.Machine

/-- The anomaly test (R237): equal bytes and not zero. -/
def anomaly (id : Word) : Bool :=
  hiByte id = loByte id && id ≠ 0

/-- ADDR (R295): the operand byte is shifted into DEV_ADDR. -/
def peerAddr (b : Byte) (s : State) : State :=
  { s with peer := { s.peer with devAddr := (s.peer.devAddr <<< 8) ||| b.setWidth 24, ps := .op } }

/-- LEN (R296): the operand byte is shifted into DEV_LEN. -/
def peerLen (b : Byte) (s : State) : State :=
  { s with peer := { s.peer with devLen := (s.peer.devLen <<< 8) ||| b.setWidth 16, ps := .op } }

/-- DELAY (R304). -/
def peerDelay (d : Byte) (s : State) : State :=
  { s with peer := { s.peer with devDelay := d, ps := .op } }

/-- RY (R303): parsing goes on once the flash is ready. The wait has no modelled length (I17). -/
def peerRy (s : State) : State :=
  { s with cart := s.cart.ready, peer := { s.peer with ps := .op } }

/-- A reserved command byte (R305): DEV_PS = UNDEF, and nothing about the cartridge is known from then on. -/
def peerUndef (s : State) : State :=
  { s with cart := s.cart.forgetAll, peer := { s.peer with ps := .undef } }

/-- Reply bytes put on the line to the block. -/
def reply (bytes : List Byte) (s : State) : State :=
  { s with peer := { s.peer with rxLine := s.peer.rxLine ++ bytes } }

/-- The flags of IdRdFrame, RD|SINGLE|DEV_ID (R100). -/
def idRdFlags : MdFlags := ⟨false, true, true, false⟩

/-- The word a reply with DEV_ID carries: the identity value (R301), but for the first IdRdFrame after an open or a Reopen (R307). -/
def identityWord (f : MdFlags) (s : State) : Word × State :=
  if f = idRdFlags then
    let settle (s : State) : State := { s with peer := { s.peer with idReply := .settled } }
    match s.peer.idReply with
    | .settled => (s.peer.identity, s)
    | .afterOpen =>
      let (v, s) := takeFree s
      (v, settle s)
    | .afterReopen =>
      let (v, s) := takeFree s
      (if anomaly v then v else s.peer.identity, settle s)
  else (s.peer.identity, s)

/-- Whether a transfer moves the cursor: INC does, unless SINGLE wins over it (R297) or the reply is the identity (R301). -/
def rdMoves (f : MdFlags) : Bool := f.inc && !f.single && !f.devId

/-- Whether a write moves the cursor (R299, R300); DEV_ID with WR is WR without it (R301). -/
def wrMoves (f : MdFlags) : Bool := f.inc && !f.single

/-- The reply bytes of n units from a word address on: two each, high byte first, or the low byte with MODE8 (R298, R302). -/
def rdUnits (f : MdFlags) : Nat → WordAddr → State → List Byte × State
  | 0, _, s => ([], s)
  | n + 1, w, s =>
    let (v, s) := if f.devId then identityWord f s else cartRead w s
    let (rest, s) := rdUnits f n (if rdMoves f then w + 1 else w) s
    (if f.mode8 then loByte v :: rest else hiByte v :: loByte v :: rest, s)

/-- RD with its flags (R297, R298, R301, R302): the replies, then the cursor's advance modulo 2^24. -/
def peerRd (f : MdFlags) (s : State) : State :=
  let n := mdUnits f s.peer.devLen
  let w := s.peer.devAddr
  let (bytes, s) := rdUnits f n w s
  let s := reply bytes s
  { s with peer := { s.peer with devAddr := if rdMoves f then w + BitVec.ofNat 24 n else w, ps := .op } }

/-- The words of a WR frame written from a word address on, high byte first (R299, R300). -/
def wrWords (moves : Bool) : List Byte → WordAddr → State → State
  | h :: l :: rest, w, s => wrWords moves rest (if moves then w + 1 else w) (cartWrite w (some h) l s)
  | _, _, s => s

/-- The bytes of a WR frame with MODE8: each is the low byte of its word (R302). -/
def wrLowBytes (moves : Bool) : List Byte → WordAddr → State → State
  | l :: rest, w, s => wrLowBytes moves rest (if moves then w + 1 else w) (cartWrite w none l s)
  | [], _, s => s

/-- WR with its flags and all its data bytes (R299, R300, R302). -/
def peerWr (f : MdFlags) (data : List Byte) (s : State) : State :=
  let n := mdUnits f s.peer.devLen
  let w := s.peer.devAddr
  let s := if f.mode8 then wrLowBytes (wrMoves f) data w s else wrWords (wrMoves f) data w s
  { s with peer := { s.peer with devAddr := if wrMoves f then w + BitVec.ofNat 24 n else w, ps := .op } }

/-- The peer's parse state set. -/
def setPs (ps : DevPs) (s : State) : State :=
  { s with peer := { s.peer with ps := ps } }

/-- A byte in state OP: a command byte (R294 to R305). -/
def peerCommand (b : Byte) (s : State) : State :=
  let f := mdFlags (b.extractLsb' 4 4)
  match mdKind b with
  | .addr => setPs .addrB s
  | .len => setPs .lenB s
  | .delay => setPs .delayB s
  | .ry => peerRy s
  | .rd => peerRd f s
  | .wr =>
    let n := wrDataLength f s.peer.devLen
    if n = 0 then peerWr f [] s else setPs (.wrData n f []) s
  | .reserved => peerUndef s

/-- One byte of the TX stream taken by the peer (R290, R294). -/
def peerByte (b : Byte) (s : State) : State :=
  match s.peer.ps with
  | .op => peerCommand b s
  | .addrB => peerAddr b s
  | .lenB => peerLen b s
  | .delayB => peerDelay b s
  | .wrData n f taken =>
    if n ≤ 1 then peerWr f (b :: taken).reverse s else setPs (.wrData (n - 1) f (b :: taken)) s
  | .undef => s

/-- Bytes of the TX stream taken by the peer, in order (R290). -/
def peerFeed : List Byte → State → State
  | [], s => s
  | b :: rest, s => peerFeed rest (peerByte b s)

/-- The peer takes every byte that waits for it. -/
def drain (s : State) : State :=
  peerFeed s.peer.inbox { s with peer := { s.peer with inbox := [] } }

end Sys2Proof.Machine
end

