-- ==== Sys2Proof/Machine/Operands.lean ====
section
/-! DEFINITION. Operand forms and fields: the packet fields (R31, R94, R160), the transfer sizes (R182), word addresses and chunks
(R222, R227), the MD frames (R100, R270 to R272) and the status reply's fields (R198). -/

namespace Sys2Proof.Machine

/-! ### GB packets -/

/-- Byte i of a packet; zero beyond its end, where no rule looks. -/
def packetByte (p : List Byte) (i : Nat) : Byte := p.getD i 0

/-- `Cmd(p)` (R160). -/
def packetCommand (p : List Byte) : Byte := packetByte p 1

/-- `Frame(p)` (R160): bytes 6..69. -/
def packetFrame (p : List Byte) : List Byte := (p.drop 6).take 64

/-- `Trailer(p)` (R160). -/
def packetTrailer (p : List Byte) : Word := word16 (packetByte p 70) (packetByte p 71)

/-- `Count(p)` (R160). -/
def packetCount (p : List Byte) : Nat := (word24 (packetByte p 3) (packetByte p 4) (packetByte p 5)).toNat

/-- `PageIdx(p)` (R160). -/
def pageIdx (layout : IndexLayout) (p : List Byte) : Nat :=
  match layout with
  | .page16Packet8 => (word16 (packetByte p 3) (packetByte p 4)).toNat
  | .seq24 => packetCount p / 128

/-- `PacketIdx(p)` (R160). -/
def packetIdx (layout : IndexLayout) (p : List Byte) : Nat :=
  match layout with
  | .page16Packet8 => (packetByte p 5).toNat
  | .seq24 => packetCount p % 128

/-- `IdxBytes(page, packet)` (R160), as the 24-bit field of bytes 3..5. A number too long for its bytes is cut to the low ones: a page
index of 2^16 or more under PAGE16_PACKET8, `page * 128 + packet` of 2^24 or more under SEQ24, neither of which the spec speaks
of (DESIGN CHOICE, log entry 31). -/
def idxField (layout : IndexLayout) (page packet : Nat) : BitVec 24 :=
  match layout with
  | .page16Packet8 => (BitVec.ofNat 16 page ++ BitVec.ofNat 8 packet : BitVec 24)
  | .seq24 => BitVec.ofNat 24 (page * 128 + packet)

/-- EXP_PACKET (R31). -/
def expPacket (xcount : Nat) : Nat := (xcount / 64) % 128

/-- EXP_PAGE (R31). -/
def expPage (xcount : Nat) : Nat := (xcount / 64) / 128

/-- `SizeOk(n)` (R73, R182). -/
def sizeOk (n : Nat) : Bool := n = 2048 || (n % 8192 = 0 && 8192 ≤ n)

/-- `PageCount(n)` (R182). -/
def pageCount (n : Nat) : Nat := (n + 8191) / 8192

/-- A frame of 64 zero bytes (R108). -/
def zeroFrame : List Byte := List.replicate 64 0

/-- The CONFIG header of a paged transfer (R183, R189), its trailer not yet computed. -/
def configPacket (subcommand : Byte) (n : Nat) : List Byte :=
  dataPacket cmdConfig subcommand (BitVec.ofNat 24 (pageCount n)) zeroFrame 0

/-- The STATUS packet of a query (R197), its trailer not yet computed. -/
def statusPacket (subcommand : Byte) : List Byte :=
  dataPacket cmdStatus subcommand 0 zeroFrame 0

/-- NREAD_ID (R106). -/
def subNreadId : Byte := 0
/-- READ_ID (R106). -/
def subReadId : Byte := 1

/-- A packet with its trailer computed over bytes 0..69 (R66, R153); a control packet is left as it is. -/
def withTrailer (p : List Byte) : List Byte :=
  if p.length = 72 then p.take 70 ++ [hiByte (packetCrc p), loByte (packetCrc p)] else p

/-- What a status reply says (R198), the offsets a parameter. The width of the version and of the IDs is a parameter too; the header
CRC is the two bytes the adapter reports. -/
structure StatusInfo where
  firmware : List Byte
  manufacturer : List Byte
  chip : List Byte
  bootLocked : Bool
  logoValid : Byte
  gameName : List Byte
  cgb : Bool
  sgb : Bool
  cartridgeType : Byte
  romSizeCode : Byte
  ramSizeCode : Byte
  headerCrc : List Byte
deriving DecidableEq, Repr

/-- Bytes up to the first NUL (R198). -/
def upToNul : List Byte → List Byte
  | [] => []
  | b :: rest => if b = 0 then [] else b :: upToNul rest

/-- Field extraction from the frame of a status reply (R10, R198). A byte beyond the frame counts as 0x00, and a field that runs past its
end is cut (DESIGN CHOICE, log entry 30). -/
def frameInfo (o : StatusFieldOffsets) (frame : List Byte) : StatusInfo where
  firmware := (frame.drop o.firmware).take o.firmwareLen
  manufacturer := (frame.drop o.manufacturer).take o.manufacturerLen
  chip := (frame.drop o.chip).take o.chipLen
  bootLocked := (frame.getD o.bootLocked 0).getLsbD o.bootLockedBit
  logoValid := frame.getD o.logoValid 0
  gameName := upToNul ((frame.drop o.gameName).take 16)
  cgb := frame.getD o.cgb 0 = 0x80
  sgb := frame.getD o.sgb 0 = 0x03
  cartridgeType := frame.getD o.cartridgeType 0
  romSizeCode := frame.getD o.romSize 0
  ramSizeCode := frame.getD o.ramSize 0
  headerCrc := (frame.drop o.headerCrc).take 2

/-- Field extraction from a status reply, a function of the packet in RXPKT (R198): the offsets count from the start of its frame
(R10, R17). -/
def statusInfo (o : StatusFieldOffsets) (p : List Byte) : StatusInfo := frameInfo o (packetFrame p)

/-! ### The MD stream -/

/-- A byte address halved (R62, R71, R222). R63 and R222 keep the ADDR operands below 2^25; an address that comes from a parameter (R10:
UNLOCK_BYPASS_SEQ, RESET_BYPASS_SEQ, ERASE_STEP) may lie beyond, and then the low 24 bits of the word address are taken (DESIGN
CHOICE, log entry 39). -/
def halved (a : Nat) : WordAddr := BitVec.ofNat 24 (a / 2)

/-- `Chunks(n)` (R227). -/
def chunks (n : Nat) : List Nat :=
  List.replicate (n / 65536) 65536 ++ (if n % 65536 = 0 then [] else [n % 65536])

/-- `SeekFrame(w)` (R100). -/
def seekFrame (w : WordAddr) : List Byte :=
  [0x00, w.extractLsb' 16 8, 0x00, w.extractLsb' 8 8, 0x00, w.extractLsb' 0 8]

/-- `LenFrame(c)` (R100). -/
def lenFrame (c : Word) : List Byte := [0x01, hiByte c, 0x01, loByte c]

/-- `DelayFrame(d)` (R100). -/
def delayFrame (d : Byte) : List Byte := [0x05, d]

/-- `WordWrFrame(v)` (R100). -/
def wordWrFrame (v : Word) : List Byte := [0x43, hiByte v, loByte v]

/-- `WordRdFrame` (R100). -/
def wordRdFrame : List Byte := [0x42]

/-- `IdRdFrame` (R100). -/
def idRdFrame : List Byte := [0x62]

/-- `BulkRdFrame` (R100). -/
def bulkRdFrame : List Byte := [0x82]

/-- `BulkWrFrame` (R100). -/
def bulkWrFrame : List Byte := [0x83]

/-- `IncWrFrame(v)` (R100). -/
def incWrFrame (v : Word) : List Byte := [0x83, hiByte v, loByte v]

/-- `RyFrame` (R100). -/
def ryFrame : List Byte := [0x04]

/-- `CmdWrite(A, v)` (R270). -/
def cmdWrite (a : Nat) (v : Word) : List Byte := seekFrame (halved a) ++ wordWrFrame v

/-- A sequence of command writes (R275, R276). -/
def cmdWrites : List (Nat × Word) → List Byte
  | [] => []
  | (a, v) :: rest => cmdWrite a v ++ cmdWrites rest

/-- The command writes of `Unlock5` (R272). -/
def unlock5 : List (Nat × Word) :=
  [(0xAAA, 0x00AA), (0x554, 0x0055), (0xAAA, 0x0080), (0xAAA, 0x00AA), (0x554, 0x0055)]

/-- The 8 sector-erase writes (R273, R274). -/
def sectorErases (a step : Nat) : List (Nat × Word) :=
  (List.range 8).map fun i => (a + i * step, 0x0030)

/-- `ReadyPollTx` (R271). -/
def readyPollTx : ReadyPollForm → List Byte
  | .ryThenRdSingle => ryFrame ++ wordRdFrame
  | .ryOnly => ryFrame

/-- How many reply bytes a ready-poll reads (R271). -/
def readyPollReplies : ReadyPollForm → Nat
  | .ryThenRdSingle => 2
  | .ryOnly => 0

/-- The TX stream of MD_FLASH_ERASE (R273). -/
def eraseStream (cfg : Params) (a : Nat) : List Byte :=
  cmdWrites unlock5 ++ cmdWrites (sectorErases a cfg.eraseStep) ++ readyPollTx cfg.readyPoll

end Sys2Proof.Machine
end

