-- ==== Sys2Proof/Machine/Ops.lean ====
section
/-! DEFINITION. The named operations every meaning is built from: raising an error (R321, R329, R330), the requester's actions at the
block (R22, R61, R338, R361, R371), the transport calls TxWrite, RxRead and Reopen (R14), the partial-read loop (R224), and running a
request from its acceptance to its end (R320, R370). -/

namespace Sys2Proof.Machine

/-! ### Errors -/

/-- The errors of R321. -/
inductive Err where
  | shortWrite
  | shortRead
  | timeout
  | ioFailure
  | invalidControl
  | invalidCommand
  | invalidSubcommand
  | crcMismatch
  | sequence
  | unexpectedControl
  | notData
  | unexpectedCommand
  | overrun
  | xferSize
  | eraseAlign
  | oddLength
  | addressRange
  /-- VerifyFailure, which the block never raises (R328) -/
  | verifyMismatch
  | secondEcho
  | seekCurrent
  | seekEnd
  | badCode
  | rsvdBits
  | bufferRange
  | noPacket
deriving DecidableEq, Repr

/-- ERR_KIND of an error (R321). -/
def Err.kind : Err → Byte
  | .shortWrite => 1
  | .shortRead => 1
  | .timeout => 1
  | .ioFailure => 1
  | .invalidControl => 2
  | .invalidCommand => 2
  | .invalidSubcommand => 2
  | .crcMismatch => 2
  | .sequence => 2
  | .unexpectedControl => 2
  | .notData => 2
  | .unexpectedCommand => 2
  | .overrun => 2
  | .xferSize => 3
  | .eraseAlign => 3
  | .oddLength => 3
  | .addressRange => 3
  | .verifyMismatch => 4
  | .secondEcho => 5
  | .seekCurrent => 6
  | .seekEnd => 6
  | .badCode => 7
  | .rsvdBits => 7
  | .bufferRange => 7
  | .noPacket => 7

/-- ERR_SUB of an error (R321). -/
def Err.sub : Err → Byte
  | .shortWrite => 1
  | .shortRead => 2
  | .timeout => 3
  | .ioFailure => 4
  | .invalidControl => 1
  | .invalidCommand => 2
  | .invalidSubcommand => 3
  | .crcMismatch => 4
  | .sequence => 5
  | .unexpectedControl => 6
  | .notData => 7
  | .unexpectedCommand => 8
  | .overrun => 9
  | .xferSize => 1
  | .eraseAlign => 2
  | .oddLength => 3
  | .addressRange => 4
  | .verifyMismatch => 1
  | .secondEcho => 1
  | .seekCurrent => 1
  | .seekEnd => 2
  | .badCode => 1
  | .rsvdBits => 2
  | .bufferRange => 3
  | .noPacket => 4

/-- `raise(kind, sub, info)` (R330): the error registers, ERR and STICKY_ERR, DONE and BUSY cleared, XSTATE (through ERROR) back to
IDLE, HS_ATTEMPT cleared, RESULT unchanged. The block is then ready for the next request: there is no return from an error (R331). -/
def State.raise (e : Err) (info : Reg32) (s : State) : State :=
  { s with
    errKind := e.kind
    errSub := e.sub
    errInfo := info
    err := true
    stickyErr := true
    done := false
    busy := false
    xstate := .idle
    hsAttempt := 0
    hazard := [] }

/-- Whose transport call it is: the MD unit's or the GB unit's (R329). -/
inductive Family where
  | gb
  | md
deriving DecidableEq, Repr

/-- What a TransportError loses before it is raised (R329): SYNC_LOST is set; in an MD request the cursor and delay copies are no longer
valid. From then on the replies on the line are free draws (R379). -/
def State.loseSync (fam : Family) (s : State) : State :=
  let s := { s with syncLost := true, peer := { s.peer with stale := true } }
  match fam with
  | .gb => s
  | .md => { s with cursorValid := false, delayValid := false }

/-- Raising a TransportError (R325, R329, R330). -/
def State.raiseTransport (fam : Family) (e : Err) (info : Nat) (s : State) : State :=
  (s.loseSync fam).raise e (BitVec.ofNat 32 info)

/-- Block reset (R360): the registers of R41; TXPKT, RXPKT and DBUF hold no value; CUR_W as State.reset has it. The adapter, the
cartridge, the transport and the lines are not touched (R308, R362). -/
def State.blockReset (s : State) : State :=
  { s with
    req := 0
    busy := false
    done := false
    err := false
    stickyErr := false
    cursorValid := false
    ramEn := false
    bypass := false
    syncLost := false
    xstate := .idle
    errKind := 0
    errSub := 0
    errInfo := 0
    result := 0
    crc := 0x0000
    txpkt := []
    txlen := 0
    rxpkt := []
    rxlen := 0
    xdir := 0
    xlen := 0
    xcount := 0
    xboff := 0
    curW := 0
    delaySh := 0
    delayValid := false
    hsAttempt := 0
    tCur := s.cfg.tChar
    dbuf := []
    hazard := [] }

/-! ### Steps of a request -/

/-- How a request ends other than by completing: an error was raised, the block was reset (R361), or the model stops (I4). -/
inductive Ended where
  | raised
  | reset
  | fault (f : Fault)
deriving DecidableEq, Repr

/-- A piece of a request: from a state, a value and the next state, or the state in which the request has ended. -/
abbrev Act (α : Type) := EStateM Ended State α

/-- A register write. -/
def upd (f : State → State) : Act Unit := fun s => .ok () (f s)

/-- A register read. -/
def look {α : Type} (f : State → α) : Act α := fun s => .ok (f s) s

/-- `raise E(sub, info)` (R14, R330). -/
def raise {α : Type} (e : Err) (info : Nat) : Act α := fun s => .error .raised (s.raise e (BitVec.ofNat 32 info))

/-- A check that raises where it fails (R322). -/
def check (ok : Bool) (e : Err) (info : Nat) : Act Unit :=
  if ok then pure () else raise e info

/-- Raising a TransportError (R325, R329). -/
def raiseTransport {α : Type} (fam : Family) (e : Err) (info : Nat) : Act α :=
  fun s => .error .raised (s.raiseTransport fam e info)

/-- The model stops: a byte without a value was read (R27, R28, R61, I4). -/
def stop {α : Type} (f : Fault) : Act α := fun s => .error (.fault f) s

/-- The value of an optional read, the model stopping where there is none (I4). -/
def orStop {α : Type} (f : State → Option α) : Act α := fun s =>
  match f s with
  | some a => .ok a s
  | none => stop .unwrittenByte s

/-! ### The requester at the block -/

/-- The value of a readable register (access R of 10_state.md); none for a packet byte that holds no value (R27, R28). -/
def readRegister (r : ReadableReg) (s : State) : Option Reg32 :=
  match r with
  | .status => some (s.status.setWidth 32)
  | .errKind => some (s.errKind.setWidth 32)
  | .errSub => some (s.errSub.setWidth 32)
  | .errInfo => some s.errInfo
  | .result => some s.result
  | .crc => some (s.crc.setWidth 32)
  | .txpkt i => (s.txpkt.get i).map (·.setWidth 32)
  | .txlen => some (s.txlen.setWidth 32)
  | .rxpkt i => (s.rxpkt.get i).map (·.setWidth 32)
  | .rxlen => some (s.rxlen.setWidth 32)
  | .xcount => some s.xcount
  | .curW => some (s.curW.setWidth 32)
  | .delaySh => some (s.delaySh.setWidth 32)

/-- What the requester has read, one value longer. -/
def State.noteRead (v : Reg32) (s : State) : State :=
  { s with reads := s.reads ++ [v] }

/-- The requester reads a register (R338); the model stops at a packet byte that holds no value (R27, R28, I4). -/
def readPort (r : ReadableReg) : Act Unit := do
  let v ← orStop (readRegister r)
  upd (State.noteRead v)

/-- The requester reads DBUF while BUSY = 1: a free value (R371, I5). -/
def busyReadDbuf (s : State) : State :=
  let (v, s) := takeFreeByte s
  s.noteRead (v.setWidth 32)

/-- The requester writes DBUF while BUSY = 1: the byte is free, and each time the running request then takes it or stores to it there is a
free byte of its own (R371, I5; memRead, storeDbuf). An offset outside DBUF has no byte (log entry 23). -/
def busyWriteDbuf (off : Nat) (s : State) : State :=
  if off < s.cfg.dbufSize then
    let (v, s) := takeFreeByte s
    { s with dbuf := s.dbuf.set off v, hazard := off :: s.hazard }
  else s

/-- A requester action while a request runs (BUSY = 1), but for reset. A REQ write has no effect (R22). -/
def visitAction (a : PortAction) : Act Unit :=
  match a with
  | .writeReq _ => pure ()
  | .readReg r => readPort r
  | .readDbuf _ => upd busyReadDbuf
  | .writeDbuf off _ => upd (busyWriteDbuf off)
  | .reset => pure ()

/-- The requester's actions up to a reset, and, where there is one, the actions after it. -/
def visitActions : List PortAction → Act (Option (List PortAction))
  | [] => pure none
  | a :: rest =>
    if a = .reset then pure (some rest)
    else do
      visitAction a
      visitActions rest

/-- What the requester does at this moment of a running request: during a transport call, or where CRC_BLOCK and PKT_BUILD are about to
take bytes from DBUF (log entry 21). -/
def visit : Act (Option (List PortAction)) := fun s =>
  match s.env.visits with
  | [] => .ok none s
  | actions :: rest => visitActions actions { s with env := { s.env with visits := rest } }

/-- A reset while a request runs ends it at once (R361, R332); the requester's later actions are taken between requests. -/
def endVisit (r : Option (List PortAction)) : Act Unit :=
  match r with
  | none => pure ()
  | some rest => fun s => .error .reset { s.blockReset with port := rest ++ s.port }

/-- The requester acts at this moment of a running request; a reset among its actions ends the request. -/
def meet : Act Unit := do
  let r ← visit
  endVisit r

/-! ### The transport (R14) -/

/-- TX bytes accepted by the transport: they are on the wire (R80), where the MD adapter will take them (R82, R290). -/
def State.transmit (bytes : List Byte) (s : State) : State :=
  match s.adapter with
  | .md => { s with txLog := s.txLog ++ bytes, peer := { s.peer with inbox := s.peer.inbox ++ bytes } }
  | .gb => { s with txLog := s.txLog ++ bytes }

/-- A draw taken from the state. -/
def draw {α : Type} (take : State → α × State) : Act α := fun s => .ok (take s).1 (take s).2

/-- How many of n offered bytes an answer accepts (R14). -/
def acceptedOf (d : TxDraw) (n : Nat) : Nat :=
  match d with
  | .accepted k => min k n
  | .failed k => min k n

/-- `TxWrite(s)` of n bytes (R14, R221, R325), of which `first k` gives the first k as they are when the transport takes them: after
what the requester does meanwhile (R371). The accepted bytes are sent; fewer than offered, or a failure, is a TransportError. A
reset during the call leaves a freely chosen prefix sent (R361, I16). -/
def txWriteOf (fam : Family) (n : Nat) (first : Nat → Act (List Byte)) : Act Unit := do
  let r ← visit
  let d ← draw takeTx
  let k := acceptedOf d n
  let bytes ← first k
  upd (State.transmit bytes)
  endVisit r
  match d with
  | .accepted _ => if k < n then raiseTransport fam .shortWrite k else pure ()
  | .failed _ => raiseTransport fam .ioFailure k

/-- `TxWrite(s)` of given bytes (R14, R221, R325). -/
def txWrite (fam : Family) (bytes : List Byte) : Act Unit :=
  txWriteOf fam bytes.length fun k => pure (bytes.take k)

/-- Whether the bytes of a read are the peer's replies. They are free draws when the other kind of adapter is attached (R378), after
SYNC_LOST until the session is restarted (R379, log entry 35), from a peer in UNDEF (R305), and in every GB request (R15, R64). -/
def State.repliesBound (fam : Family) (s : State) : Bool :=
  fam = .md && s.adapter = .md && !s.syncLost && !s.peer.stale && s.peer.ps ≠ .undef

/-- The bytes an answer to RxRead(n) brings: at most n; where the replies are the peer's, the next ones on the line. Where they are free
draws, as those of a GB request in an MD session (R378), the peer's own replies stay on the line: R378 leaves open whether such a
read uses them up (DESIGN CHOICE, log entry 40). -/
def takeReplies (fam : Family) (n : Nat) (offered : List Byte) (s : State) : List Byte × State :=
  if s.repliesBound fam then
    let k := min offered.length n
    (s.peer.rxLine.take k, { s with peer := { s.peer with rxLine := s.peer.rxLine.drop k } })
  else (offered.take n, s)

/-- The MD adapter executes what has reached it before it replies (R290); a GB adapter has no such queue. -/
def settlePeer (s : State) : State :=
  match s.adapter with
  | .md => drain s
  | .gb => s

/-- The bytes that come with an answer. -/
def rxBytes : RxDraw → List Byte
  | .got b => b
  | .timedOut b => b
  | .failed b => b

/-- An answer with the bytes that have come in place of those it offered. -/
def rxWithBytes (b : List Byte) : RxDraw → RxDraw
  | .got _ => .got b
  | .timedOut _ => .timedOut b
  | .failed _ => .failed b

/-- `RxRead(n)` (R14): one transport read. -/
def rxRead (fam : Family) (n : Nat) : Act RxDraw := do
  meet
  upd settlePeer
  let d ← draw takeRx
  let b ← draw (takeReplies fam n (rxBytes d))
  pure (rxWithBytes b d)

/-- The line after a Reopen with timeout t (R14, R238): unread RX bytes are gone, T_CUR is t, the next identity reply may be an anomaly
(R307), and what comes from now on is the peer's again unless SYNC_LOST = 1 (R379). -/
def reopened (t : Nat) (s : State) : State :=
  { s with tCur := t, peer := { s.peer with rxLine := [], idReply := .afterReopen, stale := s.syncLost } }

/-- `Reopen(t)` (R14, R238). -/
def reopen (t : Nat) : Act Unit := do
  meet
  upd settlePeer
  let ok ← draw takeReopen
  upd (reopened t)
  if ok then pure () else raiseTransport .md .ioFailure 0

/-! ### DBUF -/

/-- A byte that a running request takes from DBUF or stores to it: a free one where the requester has written meanwhile (R371, I5). -/
def maskByte (off : Nat) (b : Byte) : Act Byte := fun s =>
  if off ∈ s.hazard then
    let (v, s) := takeFreeByte s
    .ok v s
  else .ok b s

/-- Bytes that a running request takes from DBUF or stores to it, from an offset on. -/
def maskHazard : Nat → List Byte → Act (List Byte)
  | _, [] => pure []
  | off, b :: rest => do
    let v ← maskByte off b
    let r ← maskHazard (off + 1) rest
    pure (v :: r)

/-- `MemRead(DBUF, off, n)` by a running request (R14, R60). The model stops at a byte that holds no value (R61, I4); bytes the requester
has written meanwhile are free, and not tied to what DBUF holds (R371, I5). -/
def memRead (off n : Nat) : Act (List Byte) := do
  let bytes ← orStop fun s => s.dbuf.getBytes off n
  maskHazard off bytes

/-- A piece of a TX stream: given bytes, or a region of DBUF. -/
inductive TxPart where
  | bytes (b : List Byte)
  | dbuf (off n : Nat)
deriving DecidableEq, Repr

/-- How many bytes a piece has. -/
def TxPart.length : TxPart → Nat
  | .bytes b => b.length
  | .dbuf _ n => n

/-- How many bytes a stream has. -/
def txLength (parts : List TxPart) : Nat := (parts.map TxPart.length).sum

/-- The first k bytes of a stream. A DBUF byte is read when it is sent: one that the transport does not take is not read (log entry 4). -/
def txBytes : List TxPart → Nat → Act (List Byte)
  | [], _ => pure []
  | .bytes b :: rest, k => do
    let more ← txBytes rest (k - b.length)
    pure (b.take k ++ more)
  | .dbuf off n :: rest, k => do
    let b ← memRead off (min n k)
    let more ← txBytes rest (k - n)
    pure (b ++ more)

/-- One TxWrite of a stream (R221); a stream without a piece is no TxWrite (R239). -/
def txWriteParts (fam : Family) (parts : List TxPart) : Act Unit :=
  if parts = [] then pure () else txWriteOf fam (txLength parts) (txBytes parts)

/-- MemWrite to DBUF by a running request (R14, R60); bytes the requester has written meanwhile stay free (R371). -/
def storeDbuf (off : Nat) (bytes : List Byte) : Act Unit := do
  let bytes ← maskHazard off bytes
  upd fun s => { s with dbuf := s.dbuf.setBytes off bytes }

/-- Whether a DBUF region is inside DBUF (R60, R324). -/
def inDbuf (cfg : Params) (boff n : Nat) : Bool := boff + n ≤ cfg.dbufSize

/-- The DBUF bounds check (R60, R324). -/
def checkDbuf (boff : Reg32) (n : Nat) : Act Unit := do
  let cfg ← look (·.cfg)
  check (inDbuf cfg boff.toNat n) .bufferRange boff.toNat

/-- Where RxFill stores: in a DBUF region, or in a 2-byte latch (R224). -/
inductive Destination where
  | dbuf (off : Nat)
  | latch
deriving DecidableEq, Repr

/-- Bytes stored as they arrive (R224). -/
def storeAt (d : Destination) (got : Nat) (bytes : List Byte) : Act Unit :=
  match d with
  | .dbuf off => storeDbuf (off + got) bytes
  | .latch => pure ()

/-- The loop of `RxFill(n)` (R224): `fuel` bounds the number of reads, of which each brings at least one byte. The bytes collected. -/
def rxFillLoop (d : Destination) (n : Nat) : Nat → List Byte → Act (List Byte)
  | 0, got => pure got
  | fuel + 1, got =>
    if n ≤ got.length then pure got
    else do
      let r ← rxRead .md (n - got.length)
      match r with
      | .timedOut t =>
        storeAt d got.length t
        raiseTransport .md .timeout (got.length + t.length)
      | .failed t =>
        storeAt d got.length t
        raiseTransport .md .ioFailure (got.length + t.length)
      | .got t =>
        if t = [] then raiseTransport .md .shortRead got.length
        else do
          storeAt d got.length t
          rxFillLoop d n fuel (got ++ t)

/-- `RxFill(n)` (R14, R224). -/
def rxFill (d : Destination) (n : Nat) : Act (List Byte) := rxFillLoop d n n []

/-! ### Running a request -/

/-- A request's end (R320, R330, R361). -/
def settle (r : EStateM.Result Ended State Reg32) : Host.Outcome State Fault Refusal :=
  match r with
  | .ok v s => .next (s.complete v)
  | .error (.fault f) _ => .fault f
  | .error .raised s => .next s
  | .error .reset s => .next s

/-- A request from its acceptance to its end (R320, R370). -/
def runRequest (m : Act Reg32) (s : State) : Host.Outcome State Fault Refusal := settle (m s.accept)

/-- A request at the request port: not accepted while BUSY = 1 (R22, R320), otherwise run to its end. -/
def request (m : Act Reg32) (s : State) : Host.Outcome State Fault Refusal :=
  if s.busy then .next s else runRequest m s

end Sys2Proof.Machine
end

