-- ==== Sys2Proof/Machine/CrcUnit.lean ====
section
/-! DEFINITION. The CRC requests CRC_CLEAR, CRC_BYTE and CRC_BLOCK (40_crc16.md). -/

namespace Sys2Proof.Machine

/-- CRC_CLEAR (R133). -/
def crcClearBody : Act Reg32 := do
  upd fun s => { s with crc := 0x0000 }
  pure 0

/-- CRC_CLEAR (R133). -/
def execCrcClear (s : State) : Host.Outcome State Fault Refusal :=
  request crcClearBody s

/-- The CRC register continued over some bytes (R134, R135). -/
def crcContinue (bytes : List Byte) : Act Reg32 := do
  upd fun s => { s with crc := crc16 s.crc bytes }
  look fun s => s.crc.setWidth 32

/-- CRC_BYTE (R134). -/
def execCrcByte (b : Byte) (s : State) : Host.Outcome State Fault Refusal :=
  request (crcContinue [b]) s

/-- CRC_BLOCK (R135). It makes no transport call; the requester may act before it takes its bytes (R371; log entry 21). -/
def crcBlockBody (boff len : Reg32) : Act Reg32 := do
  checkDbuf boff len.toNat
  meet
  let bytes ← memRead boff.toNat len.toNat
  crcContinue bytes

/-- CRC_BLOCK (R135). -/
def execCrcBlock (boff len : Reg32) (s : State) : Host.Outcome State Fault Refusal :=
  request (crcBlockBody boff len) s

end Sys2Proof.Machine
end

