-- ==== Sys2Proof/Machine/Stream.lean ====
section
/-! DEFINITION. The MD command-stream requests (43_command_stream.md): seek, bulk and single-word transfers, RAM enable and disable, the
identity and the echo-recovery handshake. -/

namespace Sys2Proof.Machine

/-- `WA(A)` (R222): the word address, or CapacityMismatch(ADDRESS_RANGE) before any I/O. -/
def wordAddress (addr : Reg32) : Act WordAddr := do
  check (addr.toNat < addressLimit) .addressRange addr.toNat
  pure (halved addr.toNat)

/-- CUR_W after a seek (R32). -/
def setCursor (w : WordAddr) (s : State) : State := { s with curW := w, cursorValid := true }

/-- CUR_W after an INC transfer of some words (R229). -/
def advanceCursor (words : Nat) (s : State) : State :=
  if s.cursorValid then { s with curW := s.curW + BitVec.ofNat 24 words } else s

/-- A 2-byte reply as a word (R68, R223). -/
def replyWord (bytes : List Byte) : Word := word16 (bytes.getD 0 0) (bytes.getD 1 0)

/-! ### Seek -/

/-- MD_SEEK (R225). -/
def mdSeekBody (whence : BitVec 2) (addr : Reg32) : Act Reg32 := do
  check (whence ≠ 3) .rsvdBits 3
  check (whence ≠ 1) .seekCurrent 1
  check (whence ≠ 2) .seekEnd 2
  let w ← wordAddress addr
  txWrite .md (seekFrame w)
  upd (setCursor w)
  pure (w.setWidth 32)

/-- MD_SEEK (R225). -/
def execMdSeek (whence : BitVec 2) (addr : Reg32) (s : State) : Host.Outcome State Fault Refusal :=
  request (mdSeekBody whence addr) s

/-! ### Bulk transfers -/

/-- The argument checks of a bulk transfer (R70, R226, R228, R277, R322). -/
def checkBulk (boff len : Reg32) : Act Unit := do
  check (len.toNat % 2 = 0) .oddLength len.toNat
  checkDbuf boff len.toNat

/-- The chunks of MD_READ (R226), stored from a DBUF offset on. -/
def readChunks : List Nat → Nat → Act Unit
  | [], _ => pure ()
  | c :: rest, off => do
    txWrite .md (lenFrame (BitVec.ofNat 16 (c / 2)) ++ bulkRdFrame)
    let _ ← rxFill (.dbuf off) c
    upd (advanceCursor (c / 2))
    readChunks rest (off + c)

/-- MD_READ (R226, R239). -/
def mdReadBody (boff len : Reg32) : Act Reg32 := do
  checkBulk boff len
  readChunks (chunks len.toNat) boff.toNat
  pure len

/-- MD_READ (R226). -/
def execMdRead (boff len : Reg32) (s : State) : Host.Outcome State Fault Refusal :=
  request (mdReadBody boff len) s

/-- The TX stream of MD_WRITE (R228), the data read from a DBUF offset on. -/
def writeStream : List Nat → Nat → List TxPart
  | [], _ => []
  | c :: rest, off =>
    .bytes (lenFrame (BitVec.ofNat 16 (c / 2)) ++ bulkWrFrame) :: .dbuf off c :: writeStream rest (off + c)

/-- MD_WRITE (R228, R239). No reply comes between its chunks, so they are one run of TX bytes and one TxWrite (R221, D6; log entry 14). -/
def mdWriteBody (boff len : Reg32) : Act Reg32 := do
  checkBulk boff len
  txWriteParts .md (writeStream (chunks len.toNat) boff.toNat)
  upd (advanceCursor (len.toNat / 2))
  pure len

/-- MD_WRITE (R228). -/
def execMdWrite (boff len : Reg32) (s : State) : Host.Outcome State Fault Refusal :=
  request (mdWriteBody boff len) s

/-! ### Single words -/

/-- MD_READ_WORD (R230). -/
def mdReadWordBody (addr : Reg32) : Act Reg32 := do
  let w ← wordAddress addr
  txWrite .md (seekFrame w ++ wordRdFrame)
  upd (setCursor w)
  let b ← rxFill .latch 2
  pure ((replyWord b).setWidth 32)

/-- MD_READ_WORD (R230). -/
def execMdReadWord (addr : Reg32) (s : State) : Host.Outcome State Fault Refusal :=
  request (mdReadWordBody addr) s

/-- A seek and a single-word write (R231, R232). -/
def wordWrite (addr : Reg32) (v : Word) : Act Reg32 := do
  let w ← wordAddress addr
  txWrite .md (seekFrame w ++ wordWrFrame v)
  upd (setCursor w)
  pure 0

/-- MD_WRITE_WORD (R231). -/
def execMdWriteWord (addr : Reg32) (v : Word) (s : State) : Host.Outcome State Fault Refusal :=
  request (wordWrite addr v) s

/-- MD_WRITE_BYTE (R232): the byte is the low byte of a word whose high byte is 0x00. -/
def execMdWriteByte (addr : Reg32) (b : Byte) (s : State) : Host.Outcome State Fault Refusal :=
  request (wordWrite addr (word16 0x00 b)) s

/-! ### RAM enable and disable -/

/-- DELAY_SH and DELAY_VALID after a DELAY frame (R34). -/
def setDelay (d : Byte) (s : State) : State := { s with delaySh := d, delayValid := true }

/-- `RamCtl(v, d)` (R233). -/
def ramCtl (v : Word) (d : Byte) : Act Unit := do
  txWrite .md (seekFrame mapperWord ++ wordWrFrame v ++ delayFrame d)
  upd (setCursor mapperWord)
  upd (setDelay d)

/-- What an error in a request's I/O does to the cartridge, beside the error itself (R281, R373); a block reset leaves the cartridge as
it is (R362). -/
def onRaise {α : Type} (f : State → State) (m : Act α) : Act α := fun s =>
  match m s with
  | .error .raised s => .error .raised (f s)
  | r => r

/-- After a RAM enable or disable that failed the cartridge's RAM mode is unknown (R373; log entry 38). The peer first takes what has
reached it. -/
def loseRamMode (s : State) : State :=
  let s := settlePeer s
  { s with cart := { s.cart with ramMode := .unknown } }

/-- MD_RAM_ENABLE (R234). -/
def mdRamEnableBody : Act Reg32 := do
  let cfg ← look (·.cfg)
  onRaise loseRamMode (ramCtl cfg.ramEnableWord cfg.ramEnableDelay)
  upd fun s => { s with ramEn := true }
  pure 0

/-- MD_RAM_ENABLE (R234). -/
def execMdRamEnable (s : State) : Host.Outcome State Fault Refusal :=
  request mdRamEnableBody s

/-- MD_RAM_DISABLE (R235). -/
def mdRamDisableBody : Act Reg32 := do
  let cfg ← look (·.cfg)
  onRaise loseRamMode (ramCtl cfg.ramDisableWord cfg.ramDisableDelay)
  upd fun s => { s with ramEn := false }
  pure 0

/-- MD_RAM_DISABLE (R235). -/
def execMdRamDisable (s : State) : Host.Outcome State Fault Refusal :=
  request mdRamDisableBody s

/-! ### Identity and handshake -/

/-- The frames and reply of getId (R236). -/
def getId : Act Word := do
  txWrite .md idRdFrame
  let b ← rxFill .latch 2
  pure (replyWord b)

/-- MD_GET_ID (R236). -/
def mdGetIdBody : Act Reg32 := do
  let id ← getId
  pure (id.setWidth 32)

/-- MD_GET_ID (R236). -/
def execMdGetId (s : State) : Host.Outcome State Fault Refusal :=
  request mdGetIdBody s

/-- HS_ATTEMPT (R36). -/
def setAttempt (n : BitVec 2) : Act Unit := upd fun s => { s with hsAttempt := n }

/-- MD_HANDSHAKE (R238). -/
def mdHandshakeBody : Act Reg32 := do
  setAttempt 0
  let id ← getId
  setAttempt 1
  if anomaly id then
    let cfg ← look (·.cfg)
    reopen cfg.tReopen
    let id ← getId
    setAttempt 2
    if anomaly id then
      setAttempt 0
      raise .secondEcho id.toNat
    else
      txWrite .md (delayFrame 0x00)
      upd (setDelay 0x00)
      setAttempt 0
      pure (id.setWidth 32)
  else
    setAttempt 0
    pure (id.setWidth 32)

/-- MD_HANDSHAKE (R238). -/
def execMdHandshake (s : State) : Host.Outcome State Fault Refusal :=
  request mdHandshakeBody s

end Sys2Proof.Machine
end

