-- ==== Sys2Proof/Machine/Flash.lean ====
section
/-! DEFINITION. The flash command requests (44_flash_commands.md): erase, unlock bypass, bypass reset and write. -/

namespace Sys2Proof.Machine

/-- After a failed erase or write, every byte of the target may hold anything (R281): n bytes from byte address a on, going on at 0
past the end of the cartridge space. The peer first takes what has reached it. -/
def loseFlash (a n : Nat) (s : State) : State :=
  let s := settlePeer s
  { s with cart := (s.cart.forgetRange a n).forgetRange 0 (a + n - addressLimit) }

/-! ### Erase -/

/-- The argument checks of MD_FLASH_ERASE (R72, R273, R322). -/
def checkErase (addr : Reg32) : Act Unit := do
  check (addr.toNat < addressLimit) .addressRange addr.toNat
  check (addr.toNat % 65536 = 0) .eraseAlign addr.toNat

/-- The I/O of MD_FLASH_ERASE (R273). -/
def eraseIo (addr : Reg32) : Act Unit := do
  let cfg ← look (·.cfg)
  txWrite .md (eraseStream cfg addr.toNat)
  let _ ← rxFill .latch (readyPollReplies cfg.readyPoll)
  upd (setCursor (halved (addr.toNat + 7 * cfg.eraseStep)))

/-- MD_FLASH_ERASE (R273). -/
def mdFlashEraseBody (addr : Reg32) : Act Reg32 := do
  checkErase addr
  onRaise (loseFlash addr.toNat 65536) (eraseIo addr)
  pure 0

/-- MD_FLASH_ERASE (R273). -/
def execMdFlashErase (addr : Reg32) (s : State) : Host.Outcome State Fault Refusal :=
  request (mdFlashEraseBody addr) s

/-! ### Unlock bypass -/

/-- A bypass sequence sent, the cursor left at its last address (R275, R276). A parameter sequence without a write has no last address,
which the spec does not speak of: the TxWrite then offers no byte and the cursor copy stays as it is (DESIGN CHOICE, log entry
37). -/
def sendSequence (seq : List (Nat × Word)) : Act Unit := do
  txWrite .md (cmdWrites seq)
  match seq.getLast? with
  | some (a, _) => upd (setCursor (halved a))
  | none => pure ()

/-- MD_FLASH_UNLOCK_BYPASS (R275). -/
def mdFlashUnlockBypassBody : Act Reg32 := do
  let cfg ← look (·.cfg)
  sendSequence cfg.unlockBypassSeq
  upd fun s => { s with bypass := true }
  pure 0

/-- MD_FLASH_UNLOCK_BYPASS (R275). -/
def execMdFlashUnlockBypass (s : State) : Host.Outcome State Fault Refusal :=
  request mdFlashUnlockBypassBody s

/-- MD_FLASH_RESET_BYPASS (R276). -/
def mdFlashResetBypassBody : Act Reg32 := do
  let cfg ← look (·.cfg)
  sendSequence cfg.resetBypassSeq
  upd fun s => { s with bypass := false }
  pure 0

/-- MD_FLASH_RESET_BYPASS (R276). -/
def execMdFlashResetBypass (s : State) : Host.Outcome State Fault Refusal :=
  request mdFlashResetBypassBody s

/-! ### Write -/

/-- The TX bytes of one programmed word, the word read from a DBUF offset on, high byte first (R277, FLASH_WRITE_FORM). -/
def programStream (cfg : Params) (off : Nat) : List TxPart :=
  match cfg.flashWriteForm with
  | .len1CmdInc =>
    [.bytes (lenFrame 1 ++ wordWrFrame 0x00A0 ++ bulkWrFrame), .dbuf off 2, .bytes (readyPollTx cfg.readyPoll)]

/-- The words of MD_FLASH_WRITE (R277), read from a DBUF offset on: program command, data word and ready-poll for each. -/
def programWords (cfg : Params) : Nat → Nat → Act Unit
  | 0, _ => pure ()
  | words + 1, off => do
    txWriteParts .md (programStream cfg off)
    let _ ← rxFill .latch (readyPollReplies cfg.readyPoll)
    upd (advanceCursor 1)
    programWords cfg words (off + 2)

/-- The words of MD_FLASH_WRITE where no ready-poll reply comes between them: one run of TX bytes and one TxWrite (R221). -/
def programRun (cfg : Params) (words off : Nat) : Act Unit := do
  txWriteParts .md ((List.range words).flatMap fun i => programStream cfg (off + 2 * i))
  upd (advanceCursor words)

/-- The I/O of MD_FLASH_WRITE (R277), by READY_POLL_FORM (R271). -/
def programIo (words off : Nat) : Act Unit := do
  let cfg ← look (·.cfg)
  match cfg.readyPoll with
  | .ryThenRdSingle => programWords cfg words off
  | .ryOnly => programRun cfg words off

/-- The first byte address MD_FLASH_WRITE programs: the peer's cursor once it has taken what waits for it (R279). -/
def flashTarget (s : State) : Nat := 2 * (settlePeer s).peer.devAddr.toNat

/-- MD_FLASH_WRITE (R277). -/
def mdFlashWriteBody (boff len : Reg32) : Act Reg32 := do
  checkBulk boff len
  let target ← look flashTarget
  onRaise (loseFlash target len.toNat) (programIo (len.toNat / 2) boff.toNat)
  pure len

/-- MD_FLASH_WRITE (R277). -/
def execMdFlashWrite (boff len : Reg32) (s : State) : Host.Outcome State Fault Refusal :=
  request (mdFlashWriteBody boff len) s

end Sys2Proof.Machine
end

