-- ==== Sys2Proof/Machine/Framer.lean ====
section
/-! DEFINITION. The GB framer and parser (41_packet_framer.md): validating, building, sending, receiving and checking a packet, and the
four requests PKT_BUILD, PKT_SEND, PKT_RECEIVE and PKT_CHECK over them. -/

namespace Sys2Proof.Machine

/-- `ValidatePacket(c, m, s)` (R152): the first failing check and its ERR_INFO. -/
def validatePacket (c m s : Byte) : Option (Err × Nat) :=
  if c ≠ ctlAck ∧ c ≠ ctlNak ∧ c ≠ ctlEnd ∧ c ≠ ctlData then some (.invalidControl, c.toNat)
  else if c = ctlData ∧ 4 < m.toNat then some (.invalidCommand, m.toNat)
  else if c = ctlData ∧ subCount m ≤ s.toNat then some (.invalidSubcommand, m.toNat * 256 + s.toNat)
  else none

/-- Writing TXPKT and TXLEN (R27, R151): all 72 bytes of a DATA packet, only TXPKT[0] of a control packet. -/
def buildPacket (p : List Byte) (s : State) : State :=
  if p.length = 72 then { s with txpkt := s.txpkt.setBytes 0 p, txlen := 72 }
  else { s with txpkt := s.txpkt.set 0 (packetByte p 0), txlen := 1 }

/-- The trailer and CRC a send leaves (R26, R153). -/
def sealPacket (p : List Byte) (s : State) : State :=
  { s with
    txpkt := s.txpkt.setBytes 70 [hiByte (packetCrc p), loByte (packetCrc p)]
    crc := packetCrc p }

/-- `SendPacket()` (R153, R155) of the packet p in TXPKT: the number of bytes written. -/
def sendPacket (p : List Byte) : Act Nat := do
  if p.length = 72 then
    upd (sealPacket p)
    txWrite .gb (withTrailer p)
    pure 72
  else
    txWrite .gb (p.take 1)
    pure 1

/-- `BuildInternal` and `SendPacket()` (42_packet_transfer.md). -/
def sendBuilt (p : List Byte) : Act Nat := do
  upd (buildPacket p)
  sendPacket p

/-- Received bytes stored in RXPKT (R28, R157). -/
def storeRx (off : Nat) (bytes : List Byte) (s : State) : State :=
  { s with rxpkt := s.rxpkt.setBytes off bytes }

/-- `ReceivePacket()` (R109, R157, R161): the packet received, of 1 or 72 bytes. A short DATA packet, a timeout or a failure is a
TransportError; the bytes that came are stored (D6). -/
def receivePacket : Act (List Byte) := do
  upd fun s => { s with rxlen := 0 }
  let first ← rxRead .gb 1
  match first with
  | .timedOut t =>
    upd (storeRx 0 t)
    raiseTransport .gb .timeout t.length
  | .failed t =>
    upd (storeRx 0 t)
    raiseTransport .gb .ioFailure t.length
  | .got [] => raiseTransport .gb .shortRead 0
  | .got (c :: _) =>
    upd (storeRx 0 [c])
    if c ≠ ctlData then
      upd fun s => { s with rxlen := 1 }
      pure [c]
    else
      let rest ← rxRead .gb 71
      match rest with
      | .timedOut t =>
        upd (storeRx 1 t)
        raiseTransport .gb .timeout t.length
      | .failed t =>
        upd (storeRx 1 t)
        raiseTransport .gb .ioFailure t.length
      | .got t =>
        upd (storeRx 1 t)
        if t.length < 71 then raiseTransport .gb .shortRead t.length
        else
          upd fun s => { s with rxlen := 72 }
          pure (c :: t)

/-- `CheckPacket()` (R159) of the packet p in RXPKT: its CRC. -/
def checkPacket (p : List Byte) : Act Word := do
  let n ← look (·.rxlen.toNat)
  if n ≠ 72 ∨ packetByte p 0 ≠ ctlData then raise .notData n
  else
    upd fun s => { s with crc := packetCrc p }
    check (packetCrc p = packetTrailer p) .crcMismatch ((packetCrc p).toNat * 65536 + (packetTrailer p).toNat)
    pure (packetCrc p)

/-! ### The requests -/

/-- PKT_BUILD (R94, R151). It makes no transport call; the requester may act before a frame is taken from DBUF (R371; log entry 21). -/
def pktBuildBody (c m sub : Byte) (index : BitVec 24) (boff : Reg32) : Act Reg32 := do
  match validatePacket c m sub with
  | some (e, info) => raise e info
  | none =>
    if c ≠ ctlData then
      upd (buildPacket [c])
      pure 1
    else
      checkDbuf boff 64
      meet
      let frame ← memRead boff.toNat 64
      upd (buildPacket (dataPacket m sub index frame 0))
      pure 72

/-- PKT_BUILD (R151). -/
def execPktBuild (c m sub : Byte) (index : BitVec 24) (boff : Reg32) (s : State) : Host.Outcome State Fault Refusal :=
  request (pktBuildBody c m sub index boff) s

/-- The packet in TXPKT, none where one of its bytes holds no value (R27); there is nothing to read with TXLEN = 0. -/
def txPacket (s : State) : Option (List Byte) :=
  if s.txlen = 0 then some [] else s.txpkt.getBytes 0 (if s.txlen = 72 then 72 else 1)

/-- PKT_SEND (R154). -/
def pktSendBody : Act Reg32 := do
  let n ← look (·.txlen)
  check (n ≠ 0) .noPacket 0
  let p ← orStop txPacket
  let sent ← sendPacket p
  pure (BitVec.ofNat 32 sent)

/-- PKT_SEND (R154). -/
def execPktSend (s : State) : Host.Outcome State Fault Refusal :=
  request pktSendBody s

/-- PKT_RECEIVE (R156). -/
def pktReceiveBody : Act Reg32 := do
  let p ← receivePacket
  pure (BitVec.ofNat 32 (p.length * 256 + (packetByte p 0).toNat))

/-- PKT_RECEIVE (R156). -/
def execPktReceive (s : State) : Host.Outcome State Fault Refusal :=
  request pktReceiveBody s

/-- The packet in RXPKT, none where one of its bytes holds no value (R28); nothing is read unless RXLEN = 72 (R159). -/
def rxPacket (s : State) : Option (List Byte) :=
  if s.rxlen = 72 then s.rxpkt.getBytes 0 72 else some []

/-- PKT_CHECK (R158). -/
def pktCheckBody : Act Reg32 := do
  let p ← orStop rxPacket
  let crc ← checkPacket p
  pure (crc.setWidth 32)

/-- PKT_CHECK (R158). -/
def execPktCheck (s : State) : Host.Outcome State Fault Refusal :=
  request pktCheckBody s

end Sys2Proof.Machine
end

