-- ==== Sys2Proof/Machine/GbPackets.lean ====
section
/-! DEFINITION. The GB packets as instructions of the framer: the packet is built in TXPKT (R151) and sent (R153), a control packet as one
byte (R103, R155), a DATA packet as 72 bytes with its trailer computed (R66, R104). Log entry 10. -/

namespace Sys2Proof.Machine

/-- A packet built and sent outside a request. Only a transport error reports through the error registers (R153, R329). No request
runs meanwhile, so the requester's actions during a request are kept for the next one. -/
def sendAlone (p : List Byte) (s : State) : Host.Outcome State Fault Refusal :=
  let restore (t : State) : State := { t with env := { t.env with visits := s.env.visits } }
  match sendBuilt p { s with env := { s.env with visits := [] } } with
  | .ok _ t => .next (restore t)
  | .error (.fault f) _ => .fault f
  | .error .raised t => .next (restore t)
  | .error .reset t => .next (restore t)

/-- GB_ACK (R102, R103, R150). -/
def execGbAck (s : State) : Host.Outcome State Fault Refusal :=
  sendAlone [ctlAck] s

/-- GB_NAK (R102, R103, R150). -/
def execGbNak (s : State) : Host.Outcome State Fault Refusal :=
  sendAlone [ctlNak] s

/-- GB_END (R102, R103, R150). -/
def execGbEnd (s : State) : Host.Outcome State Fault Refusal :=
  sendAlone [ctlEnd] s

/-- GB_DATA_CONFIG_RROM (R104, R106). -/
def execGbDataConfigRrom (index : BitVec 24) (frame : List Byte) (trailer : Word) (s : State) : Host.Outcome State Fault Refusal :=
  sendAlone (dataPacket cmdConfig 0 index frame trailer) s

/-- GB_DATA_CONFIG_RRAM (R104, R183). -/
def execGbDataConfigRram (index : BitVec 24) (frame : List Byte) (trailer : Word) (s : State) : Host.Outcome State Fault Refusal :=
  sendAlone (dataPacket cmdConfig 1 index frame trailer) s

/-- GB_DATA_CONFIG_WROM (R104, R106). -/
def execGbDataConfigWrom (index : BitVec 24) (frame : List Byte) (trailer : Word) (s : State) : Host.Outcome State Fault Refusal :=
  sendAlone (dataPacket cmdConfig 2 index frame trailer) s

/-- GB_DATA_CONFIG_WRAM (R104, R189). -/
def execGbDataConfigWram (index : BitVec 24) (frame : List Byte) (trailer : Word) (s : State) : Host.Outcome State Fault Refusal :=
  sendAlone (dataPacket cmdConfig 3 index frame trailer) s

/-- GB_DATA_NORMAL_DATA (R104, R190). -/
def execGbDataNormalData (index : BitVec 24) (frame : List Byte) (trailer : Word) (s : State) : Host.Outcome State Fault Refusal :=
  sendAlone (dataPacket cmdNormalData 0 index frame trailer) s

/-- GB_DATA_LAST_DATA (R104, R191). -/
def execGbDataLastData (index : BitVec 24) (frame : List Byte) (trailer : Word) (s : State) : Host.Outcome State Fault Refusal :=
  sendAlone (dataPacket cmdLastData 0 index frame trailer) s

/-- GB_DATA_ERASE_EFLA (R104, R106). -/
def execGbDataEraseEfla (index : BitVec 24) (frame : List Byte) (trailer : Word) (s : State) : Host.Outcome State Fault Refusal :=
  sendAlone (dataPacket cmdErase 0 index frame trailer) s

/-- GB_DATA_ERASE_ERAM (R104, R106). -/
def execGbDataEraseEram (index : BitVec 24) (frame : List Byte) (trailer : Word) (s : State) : Host.Outcome State Fault Refusal :=
  sendAlone (dataPacket cmdErase 1 index frame trailer) s

/-- GB_DATA_STATUS_NREAD_ID (R104, R195). -/
def execGbDataStatusNreadId (index : BitVec 24) (frame : List Byte) (trailer : Word) (s : State) : Host.Outcome State Fault Refusal :=
  sendAlone (dataPacket cmdStatus 0 index frame trailer) s

/-- GB_DATA_STATUS_READ_ID (R104, R196). -/
def execGbDataStatusReadId (index : BitVec 24) (frame : List Byte) (trailer : Word) (s : State) : Host.Outcome State Fault Refusal :=
  sendAlone (dataPacket cmdStatus 1 index frame trailer) s

end Sys2Proof.Machine
end

