-- ==== Sys2Proof/Machine/PeerFrames.lean ====
section
/-! DEFINITION. The MD frames as instructions of the peer (R295 to R305): in state OP a frame has the effect of its rule; in any other
parse state its bytes are what the parser makes of them (R294, R305; log entry 13). -/

namespace Sys2Proof.Machine

/-- A frame that reaches the peer. -/
def mdFrame (i : Instr) (effect : State → State) (s : State) : Host.Outcome State Fault Refusal :=
  .next (if s.peer.ps = .op then effect s else peerFeed (frameBytes i) s)

/-- A WR frame that reaches the peer; it is whole when it has as many data bytes as its flags and DEV_LEN say (R98). -/
def wrFrame (i : Instr) (f : MdFlags) (data : List Byte) (s : State) : Host.Outcome State Fault Refusal :=
  .next (if s.peer.ps = .op ∧ data.length = wrDataLength f s.peer.devLen then peerWr f data s else peerFeed (frameBytes i) s)

/-- ADDR (R295). -/
def execAddr (b : Byte) (s : State) : Host.Outcome State Fault Refusal :=
  mdFrame (.addr b) (peerAddr b) s

/-- LEN (R296). -/
def execLen (b : Byte) (s : State) : Host.Outcome State Fault Refusal :=
  mdFrame (.len b) (peerLen b) s

/-- RY (R303). -/
def execRy (s : State) : Host.Outcome State Fault Refusal :=
  mdFrame .ry peerRy s

/-- DELAY (R304). -/
def execDelay (d : Byte) (s : State) : Host.Outcome State Fault Refusal :=
  mdFrame (.delay d) (peerDelay d) s

/-- RD (R298). -/
def execRd (s : State) : Host.Outcome State Fault Refusal :=
  mdFrame .rd (peerRd ⟨false, false, false, false⟩) s

/-- RD|MODE8 (R302). -/
def execRdMode8 (s : State) : Host.Outcome State Fault Refusal :=
  mdFrame .rdMode8 (peerRd ⟨true, false, false, false⟩) s

/-- RD|DEV_ID (R301). -/
def execRdDevId (s : State) : Host.Outcome State Fault Refusal :=
  mdFrame .rdDevId (peerRd ⟨false, true, false, false⟩) s

/-- RD|MODE8|DEV_ID (R302). -/
def execRdMode8DevId (s : State) : Host.Outcome State Fault Refusal :=
  mdFrame .rdMode8DevId (peerRd ⟨true, true, false, false⟩) s

/-- RD|SINGLE (R297). -/
def execRdSingle (s : State) : Host.Outcome State Fault Refusal :=
  mdFrame .rdSingle (peerRd ⟨false, false, true, false⟩) s

/-- RD|MODE8|SINGLE (R302). -/
def execRdMode8Single (s : State) : Host.Outcome State Fault Refusal :=
  mdFrame .rdMode8Single (peerRd ⟨true, false, true, false⟩) s

/-- RD|DEV_ID|SINGLE (R301). -/
def execRdDevIdSingle (s : State) : Host.Outcome State Fault Refusal :=
  mdFrame .rdDevIdSingle (peerRd ⟨false, true, true, false⟩) s

/-- RD|MODE8|DEV_ID|SINGLE (R302). -/
def execRdMode8DevIdSingle (s : State) : Host.Outcome State Fault Refusal :=
  mdFrame .rdMode8DevIdSingle (peerRd ⟨true, true, true, false⟩) s

/-- RD|INC (R298). -/
def execRdInc (s : State) : Host.Outcome State Fault Refusal :=
  mdFrame .rdInc (peerRd ⟨false, false, false, true⟩) s

/-- RD|MODE8|INC (R302). -/
def execRdMode8Inc (s : State) : Host.Outcome State Fault Refusal :=
  mdFrame .rdMode8Inc (peerRd ⟨true, false, false, true⟩) s

/-- RD|DEV_ID|INC (R301). -/
def execRdDevIdInc (s : State) : Host.Outcome State Fault Refusal :=
  mdFrame .rdDevIdInc (peerRd ⟨false, true, false, true⟩) s

/-- RD|MODE8|DEV_ID|INC (R302). -/
def execRdMode8DevIdInc (s : State) : Host.Outcome State Fault Refusal :=
  mdFrame .rdMode8DevIdInc (peerRd ⟨true, true, false, true⟩) s

/-- RD|SINGLE|INC (R297). -/
def execRdSingleInc (s : State) : Host.Outcome State Fault Refusal :=
  mdFrame .rdSingleInc (peerRd ⟨false, false, true, true⟩) s

/-- RD|MODE8|SINGLE|INC (R302). -/
def execRdMode8SingleInc (s : State) : Host.Outcome State Fault Refusal :=
  mdFrame .rdMode8SingleInc (peerRd ⟨true, false, true, true⟩) s

/-- RD|DEV_ID|SINGLE|INC (R301). -/
def execRdDevIdSingleInc (s : State) : Host.Outcome State Fault Refusal :=
  mdFrame .rdDevIdSingleInc (peerRd ⟨false, true, true, true⟩) s

/-- RD|MODE8|DEV_ID|SINGLE|INC (R302). -/
def execRdMode8DevIdSingleInc (s : State) : Host.Outcome State Fault Refusal :=
  mdFrame .rdMode8DevIdSingleInc (peerRd ⟨true, true, true, true⟩) s

/-- WR (R300). -/
def execWr (data : List Byte) (s : State) : Host.Outcome State Fault Refusal :=
  wrFrame (.wr data) ⟨false, false, false, false⟩ data s

/-- WR|MODE8 (R302). -/
def execWrMode8 (data : List Byte) (s : State) : Host.Outcome State Fault Refusal :=
  wrFrame (.wrMode8 data) ⟨true, false, false, false⟩ data s

/-- WR|DEV_ID (R300). -/
def execWrDevId (data : List Byte) (s : State) : Host.Outcome State Fault Refusal :=
  wrFrame (.wrDevId data) ⟨false, true, false, false⟩ data s

/-- WR|MODE8|DEV_ID (R302). -/
def execWrMode8DevId (data : List Byte) (s : State) : Host.Outcome State Fault Refusal :=
  wrFrame (.wrMode8DevId data) ⟨true, true, false, false⟩ data s

/-- WR|SINGLE (R299). -/
def execWrSingle (data : List Byte) (s : State) : Host.Outcome State Fault Refusal :=
  wrFrame (.wrSingle data) ⟨false, false, true, false⟩ data s

/-- WR|MODE8|SINGLE (R302). -/
def execWrMode8Single (data : List Byte) (s : State) : Host.Outcome State Fault Refusal :=
  wrFrame (.wrMode8Single data) ⟨true, false, true, false⟩ data s

/-- WR|DEV_ID|SINGLE (R299). -/
def execWrDevIdSingle (data : List Byte) (s : State) : Host.Outcome State Fault Refusal :=
  wrFrame (.wrDevIdSingle data) ⟨false, true, true, false⟩ data s

/-- WR|MODE8|DEV_ID|SINGLE (R302). -/
def execWrMode8DevIdSingle (data : List Byte) (s : State) : Host.Outcome State Fault Refusal :=
  wrFrame (.wrMode8DevIdSingle data) ⟨true, true, true, false⟩ data s

/-- WR|INC (R300). -/
def execWrInc (data : List Byte) (s : State) : Host.Outcome State Fault Refusal :=
  wrFrame (.wrInc data) ⟨false, false, false, true⟩ data s

/-- WR|MODE8|INC (R302). -/
def execWrMode8Inc (data : List Byte) (s : State) : Host.Outcome State Fault Refusal :=
  wrFrame (.wrMode8Inc data) ⟨true, false, false, true⟩ data s

/-- WR|DEV_ID|INC (R300). -/
def execWrDevIdInc (data : List Byte) (s : State) : Host.Outcome State Fault Refusal :=
  wrFrame (.wrDevIdInc data) ⟨false, true, false, true⟩ data s

/-- WR|MODE8|DEV_ID|INC (R302). -/
def execWrMode8DevIdInc (data : List Byte) (s : State) : Host.Outcome State Fault Refusal :=
  wrFrame (.wrMode8DevIdInc data) ⟨true, true, false, true⟩ data s

/-- WR|SINGLE|INC (R299). -/
def execWrSingleInc (data : List Byte) (s : State) : Host.Outcome State Fault Refusal :=
  wrFrame (.wrSingleInc data) ⟨false, false, true, true⟩ data s

/-- WR|MODE8|SINGLE|INC (R302). -/
def execWrMode8SingleInc (data : List Byte) (s : State) : Host.Outcome State Fault Refusal :=
  wrFrame (.wrMode8SingleInc data) ⟨true, false, true, true⟩ data s

/-- WR|DEV_ID|SINGLE|INC (R299). -/
def execWrDevIdSingleInc (data : List Byte) (s : State) : Host.Outcome State Fault Refusal :=
  wrFrame (.wrDevIdSingleInc data) ⟨false, true, true, true⟩ data s

/-- WR|MODE8|DEV_ID|SINGLE|INC (R302). -/
def execWrMode8DevIdSingleInc (data : List Byte) (s : State) : Host.Outcome State Fault Refusal :=
  wrFrame (.wrMode8DevIdSingleInc data) ⟨true, true, true, true⟩ data s

/-- MD_RESERVED_OP6_7 (R305). -/
def execMdReservedOp67 (low : BitVec 1) (flags : BitVec 4) (s : State) : Host.Outcome State Fault Refusal :=
  mdFrame (.mdReservedOp67 low flags) peerUndef s

/-- MD_RESERVED_OP8_F (R305). -/
def execMdReservedOp8F (low : BitVec 3) (flags : BitVec 4) (s : State) : Host.Outcome State Fault Refusal :=
  mdFrame (.mdReservedOp8F low flags) peerUndef s

/-- MD_RESERVED_ADDR_WITH_FLAGS (R305). -/
def execMdReservedAddrWithFlags (flags : BitVec 4) (s : State) : Host.Outcome State Fault Refusal :=
  mdFrame (.mdReservedAddrWithFlags flags) peerUndef s

/-- MD_RESERVED_LEN_WITH_FLAGS (R305). -/
def execMdReservedLenWithFlags (flags : BitVec 4) (s : State) : Host.Outcome State Fault Refusal :=
  mdFrame (.mdReservedLenWithFlags flags) peerUndef s

/-- MD_RESERVED_RY_WITH_FLAGS (R305). -/
def execMdReservedRyWithFlags (flags : BitVec 4) (s : State) : Host.Outcome State Fault Refusal :=
  mdFrame (.mdReservedRyWithFlags flags) peerUndef s

/-- MD_RESERVED_DELAY_WITH_FLAGS (R305). -/
def execMdReservedDelayWithFlags (flags : BitVec 4) (s : State) : Host.Outcome State Fault Refusal :=
  mdFrame (.mdReservedDelayWithFlags flags) peerUndef s

end Sys2Proof.Machine
end

