-- ==== Sys2Proof/Machine/Transfer.lean ====
section
/-! DEFINITION. The GB paged transfers and status queries (42_packet_transfer.md) with the sequencer states of R180. -/

namespace Sys2Proof.Machine

/-- XSTATE set (R180). -/
def setXState (x : XState) : Act Unit := upd fun s => { s with xstate := x }

/-- The start of a GB transfer (R30, R180): IDLE to SEND_HEADER. -/
def startTransfer (dir : BitVec 2) (n : Nat) (boff : Reg32) : Act Unit :=
  upd fun s =>
    { s with xdir := dir, xlen := BitVec.ofNat 32 n, xcount := 0, xboff := boff, xstate := .sendHeader }

/-- 64 more bytes transferred (R30). -/
def countFrame : Act Unit := upd fun s => { s with xcount := s.xcount + 64 }

/-- The end of a GB transfer (R181): XSTATE through DONE, the bytes transferred as the result. -/
def finishTransfer : Act Reg32 := do
  setXState .done
  look (·.xcount)

/-- The argument checks of the paged transfers (R73, R183, R189, R322). -/
def checkTransfer (boff len : Reg32) : Act Unit := do
  check (sizeOk len.toNat) .xferSize len.toNat
  checkDbuf boff len.toNat

/-- `AcceptData()` (R184) of the packet p in RXPKT. -/
def acceptData (p : List Byte) : Act Unit := do
  let _ ← checkPacket p
  check (packetCommand p = cmdNormalData || packetCommand p = cmdLastData) .unexpectedCommand (packetCommand p).toNat
  let layout ← look (·.cfg.indexLayout)
  let count ← look (·.xcount.toNat)
  let total ← look (·.xlen.toNat)
  check (packetIdx layout p = expPacket count && pageIdx layout p = expPage count) .sequence count
  check (count + 64 ≤ total) .overrun count

/-- The frame of an accepted packet stored (R183, R188). -/
def storeFrame (p : List Byte) : Act Unit := do
  let base ← look (·.xboff.toNat)
  let count ← look (·.xcount.toNat)
  storeDbuf (base + count) (packetFrame p)
  countFrame

/-- The loop of a paged read (R183, R185 to R187). `fuel` bounds the packets: one for each 64 bytes and one more for END. -/
def readLoop : Nat → Act Reg32
  | 0 => look (·.xcount)
  | fuel + 1 => do
    let p ← receivePacket
    if p.length = 1 then
      let count ← look (·.xcount)
      let total ← look (·.xlen)
      if packetByte p 0 = ctlEnd ∧ count = total then finishTransfer
      else raise .unexpectedControl (packetByte p 0).toNat
    else
      acceptData p
      storeFrame p
      let count ← look (·.xcount)
      let total ← look (·.xlen)
      if packetCommand p = cmdLastData ∧ count = total then finishTransfer
      else
        setXState .continuing
        let _ ← sendBuilt [ctlAck]
        setXState .awaitResponse
        readLoop fuel

/-- GB_READ_RAM (R183). The CONFIG packet is built without validation, also where the parameter SUB_RRAM is no subcommand of CONFIG
(DESIGN CHOICE, log entry 41). -/
def gbReadRamBody (boff len : Reg32) : Act Reg32 := do
  checkTransfer boff len
  startTransfer 0 len.toNat boff
  let cfg ← look (·.cfg)
  let _ ← sendBuilt (configPacket cfg.subRram len.toNat)
  setXState .awaitResponse
  readLoop (len.toNat / 64 + 1)

/-- GB_READ_RAM (R183). -/
def execGbReadRam (boff len : Reg32) (s : State) : Host.Outcome State Fault Refusal :=
  request (gbReadRamBody boff len) s

/-- `ExpectAck()` (R192). -/
def expectAck : Act Unit := do
  let p ← receivePacket
  check (p = [ctlAck]) .unexpectedControl (packetByte p 0).toNat

/-- The DATA packet that `mk` makes of 64 DBUF bytes, built in TXPKT with its trailer (R151, R153). -/
def loadPacket (mk : List Byte → List Byte) (off : Nat) : Act (List Byte) := do
  let frame ← memRead off 64
  upd (buildPacket (mk frame))
  upd (sealPacket (mk frame))
  pure (withTrailer (mk frame))

/-- The bytes of a packet with a frame from DBUF as they go on the wire: free where the requester has written meanwhile, and there not
tied to what TXPKT holds (R371, I5). -/
def wirePacket (off : Nat) (p : List Byte) : Act (List Byte) := do
  let frame ← maskHazard off (packetFrame p)
  pure (p.take 6 ++ frame ++ p.drop 70)

/-- `BuildInternal` and `SendPacket()` of a packet with a frame from DBUF (R189). What the requester writes during the TxWrite is free in
TXPKT and on the wire (R371), so the packet is loaded again when the transport takes it. -/
def sendLoaded (mk : List Byte → List Byte) (off : Nat) : Act Unit := do
  let _ ← loadPacket mk off
  txWriteOf .gb 72 fun k => do
    let p ← loadPacket mk off
    let sent ← wirePacket off p
    pure (sent.take k)

/-- The data packets of a paged write (R189 to R193): as many as `packets` says. -/
def writeLoop : Nat → Act Unit
  | 0 => pure ()
  | packets + 1 => do
    setXState .continuing
    let layout ← look (·.cfg.indexLayout)
    let base ← look (·.xboff.toNat)
    let count ← look (·.xcount.toNat)
    let total ← look (·.xlen.toNat)
    let command := if count + 64 = total then cmdLastData else cmdNormalData
    sendLoaded (fun frame => dataPacket command 0 (idxField layout (expPage count) (expPacket count)) frame 0) (base + count)
    setXState .awaitResponse
    expectAck
    countFrame
    writeLoop packets

/-- GB_WRITE_RAM (R189). The CONFIG packet is built without validation, also where the parameter SUB_WRAM is no subcommand of CONFIG
(DESIGN CHOICE, log entry 41). -/
def gbWriteRamBody (boff len : Reg32) : Act Reg32 := do
  checkTransfer boff len
  startTransfer 1 len.toNat boff
  let cfg ← look (·.cfg)
  let _ ← sendBuilt (configPacket cfg.subWram len.toNat)
  setXState .awaitResponse
  expectAck
  writeLoop (len.toNat / 64)
  finishTransfer

/-- GB_WRITE_RAM (R189). -/
def execGbWriteRam (boff len : Reg32) (s : State) : Host.Outcome State Fault Refusal :=
  request (gbWriteRamBody boff len) s

/-- `StatusQuery(s)` (R197). -/
def statusQuery (sub : Byte) (boff : Reg32) : Act Reg32 := do
  checkDbuf boff 64
  startTransfer 2 64 boff
  let _ ← sendBuilt (statusPacket sub)
  setXState .awaitResponse
  let p ← receivePacket
  let _ ← checkPacket p
  storeFrame p
  finishTransfer

/-- GB_READ_DEVICE_STATUS (R195). -/
def execGbReadDeviceStatus (boff : Reg32) (s : State) : Host.Outcome State Fault Refusal :=
  request (statusQuery subNreadId boff) s

/-- GB_READ_STATUS (R196). -/
def execGbReadStatus (boff : Reg32) (s : State) : Host.Outcome State Fault Refusal :=
  request (statusQuery subReadId boff) s

end Sys2Proof.Machine
end

