-- ==== Sys2Proof/Machine/Dispatch.lean ====
section
/-! DEFINITION. exec: one arm for each instruction. -/

namespace Sys2Proof.Machine

def exec (i : Instr) (s : State) : Host.Outcome State Fault Refusal :=
  match i with
  | .crcClear => Sys2Proof.Machine.execCrcClear s
  | .crcByte b => Sys2Proof.Machine.execCrcByte b s
  | .crcBlock boff len => Sys2Proof.Machine.execCrcBlock boff len s
  | .pktBuild control command subcommand index boff => Sys2Proof.Machine.execPktBuild control command subcommand index boff s
  | .pktSend => Sys2Proof.Machine.execPktSend s
  | .pktReceive => Sys2Proof.Machine.execPktReceive s
  | .pktCheck => Sys2Proof.Machine.execPktCheck s
  | .gbReadRam boff len => Sys2Proof.Machine.execGbReadRam boff len s
  | .gbWriteRam boff len => Sys2Proof.Machine.execGbWriteRam boff len s
  | .gbReadDeviceStatus boff => Sys2Proof.Machine.execGbReadDeviceStatus boff s
  | .gbReadStatus boff => Sys2Proof.Machine.execGbReadStatus boff s
  | .mdSeek whence addr => Sys2Proof.Machine.execMdSeek whence addr s
  | .mdRead boff len => Sys2Proof.Machine.execMdRead boff len s
  | .mdWrite boff len => Sys2Proof.Machine.execMdWrite boff len s
  | .mdReadWord addr => Sys2Proof.Machine.execMdReadWord addr s
  | .mdWriteWord addr val => Sys2Proof.Machine.execMdWriteWord addr val s
  | .mdWriteByte addr b => Sys2Proof.Machine.execMdWriteByte addr b s
  | .mdRamEnable => Sys2Proof.Machine.execMdRamEnable s
  | .mdRamDisable => Sys2Proof.Machine.execMdRamDisable s
  | .mdGetId => Sys2Proof.Machine.execMdGetId s
  | .mdHandshake => Sys2Proof.Machine.execMdHandshake s
  | .mdFlashErase addr => Sys2Proof.Machine.execMdFlashErase addr s
  | .mdFlashUnlockBypass => Sys2Proof.Machine.execMdFlashUnlockBypass s
  | .mdFlashResetBypass => Sys2Proof.Machine.execMdFlashResetBypass s
  | .mdFlashWrite boff len => Sys2Proof.Machine.execMdFlashWrite boff len s
  | .addr b => Sys2Proof.Machine.execAddr b s
  | .len b => Sys2Proof.Machine.execLen b s
  | .ry => Sys2Proof.Machine.execRy s
  | .delay d => Sys2Proof.Machine.execDelay d s
  | .rd => Sys2Proof.Machine.execRd s
  | .rdMode8 => Sys2Proof.Machine.execRdMode8 s
  | .rdDevId => Sys2Proof.Machine.execRdDevId s
  | .rdMode8DevId => Sys2Proof.Machine.execRdMode8DevId s
  | .rdSingle => Sys2Proof.Machine.execRdSingle s
  | .rdMode8Single => Sys2Proof.Machine.execRdMode8Single s
  | .rdDevIdSingle => Sys2Proof.Machine.execRdDevIdSingle s
  | .rdMode8DevIdSingle => Sys2Proof.Machine.execRdMode8DevIdSingle s
  | .rdInc => Sys2Proof.Machine.execRdInc s
  | .rdMode8Inc => Sys2Proof.Machine.execRdMode8Inc s
  | .rdDevIdInc => Sys2Proof.Machine.execRdDevIdInc s
  | .rdMode8DevIdInc => Sys2Proof.Machine.execRdMode8DevIdInc s
  | .rdSingleInc => Sys2Proof.Machine.execRdSingleInc s
  | .rdMode8SingleInc => Sys2Proof.Machine.execRdMode8SingleInc s
  | .rdDevIdSingleInc => Sys2Proof.Machine.execRdDevIdSingleInc s
  | .rdMode8DevIdSingleInc => Sys2Proof.Machine.execRdMode8DevIdSingleInc s
  | .wr data => Sys2Proof.Machine.execWr data s
  | .wrMode8 data => Sys2Proof.Machine.execWrMode8 data s
  | .wrDevId data => Sys2Proof.Machine.execWrDevId data s
  | .wrMode8DevId data => Sys2Proof.Machine.execWrMode8DevId data s
  | .wrSingle data => Sys2Proof.Machine.execWrSingle data s
  | .wrMode8Single data => Sys2Proof.Machine.execWrMode8Single data s
  | .wrDevIdSingle data => Sys2Proof.Machine.execWrDevIdSingle data s
  | .wrMode8DevIdSingle data => Sys2Proof.Machine.execWrMode8DevIdSingle data s
  | .wrInc data => Sys2Proof.Machine.execWrInc data s
  | .wrMode8Inc data => Sys2Proof.Machine.execWrMode8Inc data s
  | .wrDevIdInc data => Sys2Proof.Machine.execWrDevIdInc data s
  | .wrMode8DevIdInc data => Sys2Proof.Machine.execWrMode8DevIdInc data s
  | .wrSingleInc data => Sys2Proof.Machine.execWrSingleInc data s
  | .wrMode8SingleInc data => Sys2Proof.Machine.execWrMode8SingleInc data s
  | .wrDevIdSingleInc data => Sys2Proof.Machine.execWrDevIdSingleInc data s
  | .wrMode8DevIdSingleInc data => Sys2Proof.Machine.execWrMode8DevIdSingleInc data s
  | .mdReservedOp67 low flags => Sys2Proof.Machine.execMdReservedOp67 low flags s
  | .mdReservedOp8F low flags => Sys2Proof.Machine.execMdReservedOp8F low flags s
  | .mdReservedAddrWithFlags flags => Sys2Proof.Machine.execMdReservedAddrWithFlags flags s
  | .mdReservedLenWithFlags flags => Sys2Proof.Machine.execMdReservedLenWithFlags flags s
  | .mdReservedRyWithFlags flags => Sys2Proof.Machine.execMdReservedRyWithFlags flags s
  | .mdReservedDelayWithFlags flags => Sys2Proof.Machine.execMdReservedDelayWithFlags flags s
  | .gbAck => Sys2Proof.Machine.execGbAck s
  | .gbNak => Sys2Proof.Machine.execGbNak s
  | .gbEnd => Sys2Proof.Machine.execGbEnd s
  | .gbDataConfigRrom index frame trailer => Sys2Proof.Machine.execGbDataConfigRrom index frame trailer s
  | .gbDataConfigRram index frame trailer => Sys2Proof.Machine.execGbDataConfigRram index frame trailer s
  | .gbDataConfigWrom index frame trailer => Sys2Proof.Machine.execGbDataConfigWrom index frame trailer s
  | .gbDataConfigWram index frame trailer => Sys2Proof.Machine.execGbDataConfigWram index frame trailer s
  | .gbDataNormalData index frame trailer => Sys2Proof.Machine.execGbDataNormalData index frame trailer s
  | .gbDataLastData index frame trailer => Sys2Proof.Machine.execGbDataLastData index frame trailer s
  | .gbDataEraseEfla index frame trailer => Sys2Proof.Machine.execGbDataEraseEfla index frame trailer s
  | .gbDataEraseEram index frame trailer => Sys2Proof.Machine.execGbDataEraseEram index frame trailer s
  | .gbDataStatusNreadId index frame trailer => Sys2Proof.Machine.execGbDataStatusNreadId index frame trailer s
  | .gbDataStatusReadId index frame trailer => Sys2Proof.Machine.execGbDataStatusReadId index frame trailer s

end Sys2Proof.Machine
end

