-- ==== Sys2Proof/Machine/Fetch.lean ====
section
/-! DEFINITION. What the machine does next: which agent moves (R8), the instruction it finds on its interface, and the requester's actions
that are no instruction (R22, R61, R338, R360). Also where a word of the opcode table is placed so that it is found next. -/

namespace Sys2Proof.Machine

/-- What a step finds: an instruction with the state in which it runs, or something that is no instruction. -/
inductive Fetched where
  | instr (i : Instr) (s : State)
  | outcome (o : Host.Outcome State Fault Refusal)

/-- A request word that is no request (R91, R93): the request is accepted and raises IllegalRequest (R320, R322). decodeRequest has no
other error. -/
def rejectRequest (e : DecodeError) (s : State) : Host.Outcome State Fault Refusal :=
  match e with
  | .rsvdBits field => request (raise .rsvdBits field.toNat) s
  | _ => request (raise .badCode (s.req.extractLsb' 0 8).toNat) s

/-- A packet at the packet port that is no packet: the framer refuses it as R152 does; one of the wrong length does not exist. -/
def rejectPacket (e : DecodeError) (s : State) : Host.Outcome State Fault Refusal :=
  match e with
  | .invalidControl c => .next (s.raise .invalidControl (c.setWidth 32))
  | .invalidCommand m => .next (s.raise .invalidCommand (m.setWidth 32))
  | .invalidSubcommand m sub => .next (s.raise .invalidSubcommand (BitVec.ofNat 32 (m.toNat * 256 + sub.toNat)))
  | _ => .refused .notAPacket

/-- The requester writes REQ (R22, R320): ignored while BUSY = 1, otherwise it starts the request. -/
def writeRequest (w : BitVec 128) (s : State) : Fetched :=
  if s.busy then .outcome (.next s)
  else
    let s := { s with req := w }
    match decodeRequest w with
    | .ok i => .instr i s
    | .error e => .outcome (rejectRequest e s)

/-- An action of the requester that is no request, on its own: its end. -/
def portOutcome (m : Act Unit) (s : State) : Host.Outcome State Fault Refusal :=
  match m s with
  | .ok _ t => .next t
  | .error (.fault f) _ => .fault f
  | .error .raised t => .next t
  | .error .reset t => .next t

/-- The requester reads DBUF (R61); while BUSY = 1 it gets a free value (R371). -/
def readDbuf (off : Nat) (s : State) : Host.Outcome State Fault Refusal :=
  if s.busy then .next (busyReadDbuf s)
  else if s.cfg.dbufSize ≤ off then .fault .noSuchByte
  else
    match s.dbuf.get off with
    | none => .fault .unwrittenByte
    | some b => .next (s.noteRead (b.setWidth 32))

/-- The requester writes DBUF (R61); while BUSY = 1 the byte becomes free (R371). -/
def writeDbuf (off : Nat) (b : Byte) (s : State) : Host.Outcome State Fault Refusal :=
  if s.busy then .next (busyWriteDbuf off s)
  else if s.cfg.dbufSize ≤ off then .fault .noSuchByte
  else .next { s with dbuf := s.dbuf.set off b }

/-- The requester's next action. -/
def portAction (a : PortAction) (s : State) : Fetched :=
  match a with
  | .writeReq w => writeRequest w s
  | .readReg r => .outcome (portOutcome (readPort r) s)
  | .readDbuf off => .outcome (readDbuf off s)
  | .writeDbuf off b => .outcome (writeDbuf off b s)
  | .reset => .outcome (.next s.blockReset)

/-- The MD peer's next frame: a whole frame in state OP is an instruction; what is left of a stream that stops inside a frame is taken as
far as it goes, and a byte inside a frame is taken alone (R290, R294). -/
def peerFetch (s : State) : Fetched :=
  match s.peer.ps with
  | .op =>
    match decodeFrame s.peer.devLen s.peer.inbox with
    | .ok (i, rest) => .instr i { s with peer := { s.peer with inbox := rest } }
    | .error _ => .outcome (.next (drain s))
  | _ =>
    match s.peer.inbox with
    | [] => .outcome (.next s)
    | b :: rest => .outcome (.next (peerByte b { s with peer := { s.peer with inbox := rest } }))

/-- Whether TX bytes wait for an MD peer. -/
def State.peerPending (s : State) : Bool := s.adapter = .md && !s.peer.inbox.isEmpty

/-- What the machine does next: the MD peer first, then the packet port, then the requester; with nothing to do it rests (R339). -/
def fetch (s : State) : Fetched :=
  if s.peerPending then peerFetch s
  else
    match s.pktPort with
    | p :: rest =>
      let s := { s with pktPort := rest }
      match decodePacket p with
      | .ok i => .instr i s
      | .error e => .outcome (rejectPacket e s)
    | [] =>
      match s.port with
      | [] => .outcome (.next s)
      | a :: rest => portAction a { s with port := rest }

/-- The state with a code placed where the next fetch finds it: a frame ahead of what waits for the MD peer, a packet ahead of the packet
port, a request as the requester's next action with the block ready for it. -/
def placeCode (c : Code) (s : State) : State :=
  match c with
  | .frame bytes => { s with adapter := .md, peer := { s.peer with ps := .op, inbox := bytes ++ s.peer.inbox } }
  | .packet p => { s with peer := { s.peer with inbox := [] }, pktPort := p :: s.pktPort }
  | .request w => { s with busy := false, peer := { s.peer with inbox := [] }, pktPort := [], port := .writeReq w :: s.port }

end Sys2Proof.Machine
end

