-- ==== Sys2Proof/Machine/Step.lean ====
section
/-! DEFINITION. One step of the machine: what it finds next is run. -/

namespace Sys2Proof.Machine

/-- One step: the instruction found next is executed, or what was found instead takes place. -/
def step (s : State) : Host.Outcome State Fault Refusal :=
  match fetch s with
  | .instr i s => exec i s
  | .outcome o => o

/-- The state with a word of spec/opcode_table.json placed where step finds its next instruction; the bits above `nbits` are zero, and a
bulk WR frame has the data bytes that DEV_LEN asks for. -/
def State.withFetchWord (s : State) (nbits w : Nat) : State :=
  placeCode (tableCode s.peer.devLen nbits w) s

end Sys2Proof.Machine
end

