-- ==== Sys2Proof/Safety.lean ====
section
/-! DEFINITION. What a safe run is: the invariant every step keeps, and the terms in which claims speak of a request's end. -/

namespace Sys2Proof.Machine

/-! ### The invariant -/

/-- Between requests (R29, R36, R333): not busy, the GB sequencer idle, no handshake under way, no disturbed DBUF byte. -/
def State.Ready (s : State) : Prop :=
  s.busy = false ∧ s.xstate = .idle ∧ s.hsAttempt = 0 ∧ s.hazard = []

/-- The flags agree (R23), and the error registers are zero while no error was raised since reset (R24, R321). -/
def State.FlagsOk (s : State) : Prop :=
  ¬(s.done = true ∧ s.err = true) ∧ (s.err = true → s.stickyErr = true) ∧
    (s.stickyErr = false → s.errKind = 0 ∧ s.errSub = 0 ∧ s.errInfo = 0)

/-- Every byte store is in canonical form and inside its bounds (R27, R28, R60, R62). -/
def State.StoresOk (s : State) : Prop :=
  s.dbuf.wf = true ∧ s.dbuf.below s.cfg.dbufSize = true ∧ s.txpkt.wf = true ∧ s.txpkt.below 72 = true ∧
    s.rxpkt.wf = true ∧ s.rxpkt.below 72 = true ∧ s.cart.cells.wf = true ∧ s.cart.cells.below addressLimit = true

/-- TXLEN says what TXPKT holds (R27): nothing, a control packet of one byte, or a DATA packet of 72 bytes. -/
def State.TxOk (s : State) : Prop :=
  s.txlen = 0 ∨ (s.txlen = 1 ∧ ∃ c, s.txpkt.get 0 = some c ∧ c ≠ ctlData) ∨
    (s.txlen = 72 ∧ ∃ p, s.txpkt.getBytes 0 72 = some p ∧ packetByte p 0 = ctlData)

/-- RXLEN says what RXPKT holds (R28). -/
def State.RxOk (s : State) : Prop :=
  s.rxlen = 0 ∨ (s.rxlen = 1 ∧ ∃ c, s.rxpkt.get 0 = some c ∧ c ≠ ctlData) ∨
    (s.rxlen = 72 ∧ ∃ p, s.rxpkt.getBytes 0 72 = some p ∧ packetByte p 0 = ctlData)

/-- No GB transfer counts more bytes than it has, and its direction is one of the three (R30). -/
def State.TransferOk (s : State) : Prop :=
  s.xcount.toNat ≤ s.xlen.toNat ∧ s.xdir.toNat ≤ 2

/-- T_CUR is one of the two timeouts (R38). -/
def State.TimeoutOk (s : State) : Prop :=
  s.tCur = s.cfg.tChar ∨ s.tCur = s.cfg.tReopen

/-- A WR frame under way has taken part of the data bytes that its command byte and DEV_LEN ask for (R98, R294). -/
def State.PeerOk (s : State) : Prop :=
  match s.peer.ps with
  | .wrData left flags taken => 0 < left ∧ left + taken.length = wrDataLength flags s.peer.devLen
  | _ => True

/-- The invariant of the machine between steps. -/
def State.Inv (s : State) : Prop :=
  s.Ready ∧ s.FlagsOk ∧ s.StoresOk ∧ s.TxOk ∧ s.RxOk ∧ s.TransferOk ∧ s.TimeoutOk ∧ s.PeerOk

/-! ### The terms of claims -/

/-- No request runs, and the requester will not act while the next one does. -/
def State.Calm (s : State) : Prop := s.busy = false ∧ s.env.visits = []

/-- The requester will read no packet byte that holds no value now while a request runs (R27, R28). -/
def State.ReadsWritten (s : State) : Prop :=
  ∀ actions ∈ s.env.visits, ∀ r, PortAction.readReg r ∈ actions → readRegister r s ≠ none

/-- An action is no write of REQ. -/
def notReqWrite (a : PortAction) : Bool :=
  match a with
  | .writeReq _ => false
  | _ => true

/-- The same state, without the requester's writes of REQ during the next requests. -/
def State.withoutReqWrites (s : State) : State :=
  { s with env := { s.env with visits := s.env.visits.map fun actions => actions.filter notReqWrite } }

/-- The first identity reply the MD peer will give, and the free words left after it (R301, R307): the identity value, any word after
an open, and after a Reopen the identity value or an anomaly. -/
def State.FirstId (s : State) (id : Word) (free : List Word) : Prop :=
  match s.peer.idReply with
  | .settled => id = s.peer.identity ∧ free = s.env.free
  | .afterOpen => s.env.free = id :: free
  | .afterReopen => ∃ v, s.env.free = v :: free ∧ id = if anomaly v then v else s.peer.identity

/-- The MD adapter is in step with the block: it has taken every byte, stands between two frames, no reply is on the line, and what it
replies is what the block reads (R290, R379). -/
def State.InStep (s : State) : Prop :=
  s.adapter = .md ∧ s.syncLost = false ∧ s.peer.stale = false ∧ s.peer.ps = .op ∧ s.peer.inbox = [] ∧ s.peer.rxLine = []

/-- No block reset comes within the next step (R360, R361). -/
def State.ResetFree (s : State) : Prop :=
  s.port.head? ≠ some .reset ∧ ∀ actions ∈ s.env.visits, PortAction.reset ∉ actions

/-- A request has completed with a result (R320). -/
def State.completed (r : Reg32) (s : State) : State :=
  { s with result := r, done := true, err := false, busy := false, xstate := .idle, hazard := [] }

/-- A request has raised an error (R330). -/
def State.raised (kind sub : Byte) (info : Reg32) (s : State) : State :=
  { s with
    errKind := kind
    errSub := sub
    errInfo := info
    err := true
    stickyErr := true
    done := false
    busy := false
    xstate := .idle
    hsAttempt := 0
    hazard := [] }

/-- The transport has taken bytes in one TxWrite; `rest` are its answers to come. -/
def State.sent (bytes : List Byte) (rest : List TxDraw) (s : State) : State :=
  { s with
    env := { s.env with tx := rest }
    txLog := s.txLog ++ bytes
    peer := match s.adapter with
      | .md => { s.peer with inbox := s.peer.inbox ++ bytes }
      | .gb => s.peer }

/-- The transport's answers to the next reads are `rest`. -/
def State.received (rest : List RxDraw) (s : State) : State := { s with env := { s.env with rx := rest } }

/-- A TransportError (R329): SYNC_LOST, after which what comes on the line is free (R379). -/
def State.lost (s : State) : State := { s with syncLost := true, peer := { s.peer with stale := true } }

/-- An MD TransportError (R329): the cursor and delay copies are no longer valid either. -/
def State.mdLost (s : State) : State := { s.lost with cursorValid := false, delayValid := false }

/-- The requests of the MD unit, codes 0x30 to 0x43 (R329). -/
def isMdRequest : Instr → Bool
  | .mdSeek _ _ | .mdRead _ _ | .mdWrite _ _ | .mdReadWord _ | .mdWriteWord _ _ | .mdWriteByte _ _ | .mdRamEnable
  | .mdRamDisable | .mdGetId | .mdHandshake | .mdFlashErase _ | .mdFlashUnlockBypass | .mdFlashResetBypass
  | .mdFlashWrite _ _ => true
  | _ => false

/-- The requests of R92. -/
def isRequest (i : Instr) : Bool :=
  isMdRequest i || match i with
    | .crcClear | .crcByte _ | .crcBlock _ _ | .pktBuild _ _ _ _ _ | .pktSend | .pktReceive | .pktCheck | .gbReadRam _ _
    | .gbWriteRam _ _ | .gbReadDeviceStatus _ | .gbReadStatus _ => true
    | _ => false

/-- The MD peer has taken everything sent, stands between two frames, and CUR_W mirrors its cursor where it is valid (R32). -/
def State.Mirrors (s : State) : Prop :=
  s.adapter = .md ∧ (drain s).peer.ps = .op ∧ (s.cursorValid = true → (drain s).peer.devAddr = s.curW)

/-- The k-th data packet of a transfer (R107, R190): LAST_DATA or NORMAL_DATA. -/
def framePacket (layout : IndexLayout) (last : Bool) (k : Nat) (frame : List Byte) : List Byte :=
  withTrailer (dataPacket (if last then 0x02 else 0x01) 0x00 (idxField layout (k / 128) (k % 128)) frame 0)

/-- The k-th data packet of a transfer of n packets (R191): LAST_DATA for the last one, NORMAL_DATA for the others. -/
def transferPacket (layout : IndexLayout) (n k : Nat) (frame : List Byte) : List Byte :=
  framePacket layout (decide (k + 1 = n)) k frame

/-- The answers of a GB adapter that sends n data packets, the k-th with the k-th frame, LAST_DATA for those that `last` picks. -/
def packetReplies (layout : IndexLayout) (last : Nat → Bool) (n : Nat) (frames : List (List Byte)) : List RxDraw :=
  (List.range n).flatMap fun k =>
    let p := framePacket layout (last k) k (frames.getD k [])
    [.got (p.take 1), .got (p.drop 1)]

/-- The answers of a GB adapter that sends n data packets of a transfer of `total` packets, the k-th with the k-th frame. -/
def dataReplies (layout : IndexLayout) (total n : Nat) (frames : List (List Byte)) : List RxDraw :=
  packetReplies layout (fun k => decide (k + 1 = total)) n frames

/-- The CONFIG packet of a transfer of n bytes as it is on the wire (R183, R189, R182). -/
def configWire (sub : Byte) (n : Nat) : List Byte :=
  withTrailer (dataPacket 0x00 sub (BitVec.ofNat 24 ((n + 8191) / 8192)) (List.replicate 64 0x00) 0)

/-- The lengths a GB transfer may have (R73). -/
abbrev transferLength (n : Nat) : Prop := n = 2048 ∨ (n % 8192 = 0 ∧ 8192 ≤ n)

/-- The transport takes n TxWrites of up to `size` bytes each. -/
def Accepts (n size : Nat) (draws : List TxDraw) : Prop :=
  n ≤ draws.length ∧ ∀ d ∈ draws.take n, ∃ k, d = .accepted k ∧ size ≤ k

end Sys2Proof.Machine
end

