-- ==== Sys2Proof/Certificates/Slice0/Obligations.lean ====
section
/-! DEFINITION. The statements for the provers. -/

open Sys2Proof Sys2Proof.Machine

/-! ### Reset, the request port and the step -/

/-- The machine after reset (R41): every register with a reset value has it; TXPKT, RXPKT and DBUF hold no value. CUR_W, which R41
leaves unspecified, is not mentioned. -/
def Obligations.ResetValues : Prop :=
  State.reset.req = 0 ∧ State.reset.status = 0x0000 ∧ State.reset.busy = false ∧ State.reset.done = false ∧
  State.reset.err = false ∧ State.reset.stickyErr = false ∧ State.reset.cursorValid = false ∧ State.reset.ramEn = false ∧
  State.reset.bypass = false ∧ State.reset.syncLost = false ∧ State.reset.xstate = .idle ∧ State.reset.errKind = 0 ∧
  State.reset.errSub = 0 ∧ State.reset.errInfo = 0 ∧ State.reset.result = 0 ∧ State.reset.crc = 0x0000 ∧
  State.reset.txlen = 0 ∧ State.reset.rxlen = 0 ∧ State.reset.xdir = 0 ∧ State.reset.xlen = 0 ∧ State.reset.xcount = 0 ∧
  State.reset.xboff = 0 ∧ State.reset.delaySh = 0 ∧ State.reset.delayValid = false ∧ State.reset.hsAttempt = 0 ∧
  State.reset.tCur = State.reset.cfg.tChar ∧
  (∀ i, State.reset.txpkt.get i = none) ∧ (∀ i, State.reset.rxpkt.get i = none) ∧ (∀ i, State.reset.dbuf.get i = none)

/-- A reset between requests (R360, R362): every register of the block as after reset (CUR_W unspecified), T_CUR = T_CHAR; the adapter,
the peer, the cartridge, the transport's answers and what was sent are as they were. -/
def Obligations.BlockResetStep : Prop :=
  ∀ (s : State) (rest : List PortAction), s.peerPending = false → s.pktPort = [] → s.port = .reset :: rest →
    ∃ c, step s = .next { State.reset with
      cfg := s.cfg
      tCur := s.cfg.tChar
      curW := c
      adapter := s.adapter
      peer := s.peer
      cart := s.cart
      env := s.env
      port := rest
      reads := s.reads
      txLog := s.txLog }

/-- A reset during the TxWrite of MD_SEEK (R361): no complete and no raise, the registers reset, a prefix of the frame sent, the peer's
registers and the cartridge untouched. -/
def Obligations.ResetStopsSeek : Prop :=
  ∀ (s : State) (pre post : List PortAction) (more : List (List PortAction)) (addr : Reg32),
    s.busy = false → s.env.visits = (pre ++ .reset :: post) :: more → PortAction.reset ∉ pre →
    (∀ r, PortAction.readReg r ∈ pre → readRegister r s ≠ none) → addr.toNat < 2 ^ 25 →
    ∃ t n, exec (.mdSeek 0 addr) s = .next t ∧ t.status = 0x0000 ∧ t.result = 0 ∧ t.errKind = 0 ∧ t.errSub = 0 ∧
      t.errInfo = 0 ∧ t.txLog = s.txLog ++ (seekFrame (halved addr.toNat)).take n ∧ t.port = post ++ s.port ∧
      t.peer.devAddr = s.peer.devAddr ∧ t.peer.ps = s.peer.ps ∧ t.cart = s.cart

/-- The bits of STATUS (R23), XSTATE with its encoding (R29). -/
def Obligations.StatusLayout : Prop :=
  ∀ s : State, s.status.getLsbD 0 = s.busy ∧ s.status.getLsbD 1 = s.done ∧ s.status.getLsbD 2 = s.err ∧
    s.status.getLsbD 3 = s.stickyErr ∧ s.status.getLsbD 4 = s.cursorValid ∧ s.status.getLsbD 5 = s.ramEn ∧
    s.status.getLsbD 6 = s.bypass ∧ s.status.getLsbD 7 = s.syncLost ∧ s.status.extractLsb' 8 3 = (match s.xstate with
      | .idle => 0
      | .sendHeader => 1
      | .awaitResponse => 2
      | .continuing => 3
      | .done => 4
      | .error => 5) ∧
    s.status.extractLsb' 11 5 = 0

/-- While BUSY = 1 no request is accepted and a write of REQ changes nothing (R22): at the request port in a state with BUSY = 1, and,
while a request runs, wherever the requester acts: what a request does is the same without these writes. -/
def Obligations.BusyIgnoresRequests : Prop :=
  (∀ s : State, s.busy = true →
    (∀ i, isRequest i = true → exec i s = .next s) ∧
    (∀ w rest, s.peerPending = false → s.pktPort = [] → s.port = .writeReq w :: rest → step s = .next { s with port := rest })) ∧
  (∀ (i : Instr) (s : State), (∀ actions ∈ s.env.visits, PortAction.reset ∉ actions) →
    exec i s.withoutReqWrites = match exec i s with
      | .next t => .next t.withoutReqWrites
      | .fault f => .fault f
      | .refused r => .refused r)

/-- A step runs the instruction decoded on its interface: the request word the requester writes (R22, R320), the packet at the packet
port, the frame at the head of the MD peer's TX stream (R290). Around `exec` a step only takes the instruction from its
interface, and latches REQ. -/
def Obligations.StepRunsDecoded : Prop :=
  (∀ (s : State) w i rest, s.peerPending = false → s.pktPort = [] → s.port = .writeReq w :: rest → s.busy = false →
    decodeRequest w = .ok i → step s = exec i { s with port := rest, req := w }) ∧
  (∀ (s : State) p i rest, s.peerPending = false → s.pktPort = p :: rest → decodePacket p = .ok i →
    step s = exec i { s with pktPort := rest }) ∧
  (∀ (s : State) i rest, s.adapter = .md → s.peer.ps = .op → decodeFrame s.peer.devLen s.peer.inbox = .ok (i, rest) →
    step s = exec i { s with peer := { s.peer with inbox := rest } })

/-- The instruction that a word of the opcode table stands for is the one the next step runs after withFetchWord. -/
def Obligations.FetchWordRunsFirst : Prop :=
  ∀ (s : State) (nbits w : Nat) (i : Instr), decode s.peer.devLen (tableCode s.peer.devLen nbits w) = .ok i →
    step (s.withFetchWord nbits w) = exec i (match tableCode s.peer.devLen nbits w with
      | .request w => { s with busy := false, peer := { s.peer with inbox := [] }, pktPort := [], req := w }
      | .frame _ => { s with adapter := .md, peer := { s.peer with ps := .op } }
      | .packet _ => { s with peer := { s.peer with inbox := [] } })

/-! ### Encodings -/

/-- Decoding an encoded instruction gives it back, DEV_LEN announcing the units of a bulk WR frame (R90 to R110). -/
def Obligations.DecodeEncode : Prop :=
  ∀ (i : Instr) (devLen : Word), i.wellFormed = true → (∀ n, i.bulkUnits = some n → devLen.toNat = n) →
    decode devLen (encode i) = .ok i

/-- What is decoded is well formed, and a decoded frame or packet encodes back to its very bytes (R95 to R110). -/
def Obligations.DecodeIsInverse : Prop :=
  (∀ devLen c i, decode devLen c = .ok i → i.wellFormed = true) ∧
  (∀ devLen bytes i rest, decodeFrame devLen bytes = .ok (i, rest) → bytes = frameBytes i ++ rest) ∧
  (∀ p i, decodePacket p = .ok i → encode i = .packet p)

/-- The checks of a request word, in order: the code (R93), RSVD, WHENCE (R91, R322). What passes them is a request. -/
def Obligations.RequestWordChecks : Prop :=
  ∀ (s : State) (w : BitVec 128) (rest : List PortAction), s.peerPending = false → s.pktPort = [] →
    s.port = .writeReq w :: rest → s.busy = false →
    if w.extractLsb' 0 8 ∉ ([0x01, 0x02, 0x03, 0x10, 0x11, 0x12, 0x13, 0x20, 0x21, 0x22, 0x23, 0x30, 0x31, 0x32, 0x33, 0x34, 0x35,
        0x36, 0x37, 0x38, 0x39, 0x40, 0x41, 0x42, 0x43] : List Byte) then
      step s = .next (State.raised 7 1 ((w.extractLsb' 0 8).setWidth 32) { s with port := rest, req := w })
    else if w.extractLsb' 10 6 ≠ 0 then
      step s = .next (State.raised 7 2 ((w.extractLsb' 10 6).setWidth 32) { s with port := rest, req := w })
    else if w.extractLsb' 8 2 ≠ 0 ∧ w.extractLsb' 0 8 ≠ 0x30 then
      step s = .next (State.raised 7 2 ((w.extractLsb' 8 2).setWidth 32) { s with port := rest, req := w })
    else ∃ i, decodeRequest w = .ok i ∧ isRequest i = true

/-- A few words written out from the encodings (R90, R92, R98, R104), one of each interface and family. -/
def Obligations.DecodeWords : Prop :=
  decodeRequest 0x00000000000000000000000000550002 = .ok (.crcByte 0x55) ∧
  decodeRequest 0x00000040000000000100000255040010 = .ok (.pktBuild 0x55 0x04 0x01 0x000002 0x40) ∧
  decodeRequest 0x00000100000008000000000000000020 = .ok (.gbReadRam 0x100 0x800) ∧
  decodeRequest 0x00000000000000000000020000000230 = .ok (.mdSeek 2 0x200) ∧
  decodeRequest 0x00000000000000000001000000000040 = .ok (.mdFlashErase 0x10000) ∧
  decodeFrame 2 [0x83, 0x12, 0x34, 0x56, 0x78, 0x04] = .ok (.wrInc [0x12, 0x34, 0x56, 0x78], [0x04]) ∧
  decodeFrame 0 [0x62] = .ok (.rdDevIdSingle, []) ∧
  decodeFrame 0 [0x16] = .ok (.mdReservedOp67 0 1, []) ∧
  decodePacket ([0x55, 0x02, 0x00, 0x00, 0x00, 0x1F] ++ List.replicate 64 0x00 ++ [0x86, 0xA2]) =
    .ok (.gbDataLastData 0x00001F (List.replicate 64 0x00) 0x86A2) ∧
  decodePacket [0xAA] = .ok .gbAck

/-! ### The CRC unit -/

/-- The table-driven form computes the same function (R132). -/
def Obligations.CrcTableForm : Prop :=
  ∀ (seed : Word) (s : List Byte), crc16 seed s = crc16Table seed s

/-- The laws of R137: the trailer is not covered; linearity with its example; a single-bit change is seen; the residue. -/
def Obligations.CrcLaws : Prop :=
  (∀ p q : List Byte, p.take 70 = q.take 70 → packetCrc p = packetCrc q) ∧
  (∀ a b : List Byte, a.length = b.length → crc16 0 (List.zipWith (· ^^^ ·) a b) = crc16 0 a ^^^ crc16 0 b) ∧
  (∀ p : List Byte, p.length = 72 → p.getD 2 0 = 0x00 → packetCrc (p.set 2 0x01) = packetCrc p ^^^ 0x3AF7) ∧
  (∀ (p : List Byte) (i b : Nat), p.length = 72 → i < 70 → b < 8 →
    packetCrc (p.set i (p.getD i 0 ^^^ ((1 : Byte) <<< b))) ≠ packetCrc p) ∧
  (∀ s : List Byte, crc16 0 (s ++ [hiByte (crc16 0 s), loByte (crc16 0 s)]) = 0x0000) ∧
  (∀ p : List Byte, p.length = 72 → packetTrailer p = packetCrc p → crc16 0 p = 0x0000)

/-- CRC_CLEAR, CRC_BYTE and CRC_BLOCK complete and change CRC and RESULT only; CRC_BLOCK of a region that leaves DBUF raises
(R133, R134, R135). What the requester may do to DBUF before CRC_BLOCK reads it (R371) is in RequesterPort. -/
def Obligations.CrcRequestsComplete : Prop :=
  ∀ s : State, s.busy = false →
    exec .crcClear s = .next (State.completed 0 { s with crc := 0x0000 }) ∧
    (∀ b, exec (.crcByte b) s = .next (State.completed ((crc16 s.crc [b]).setWidth 32) { s with crc := crc16 s.crc [b] })) ∧
    (∀ boff len bytes, s.env.visits = [] → boff.toNat + len.toNat ≤ s.cfg.dbufSize →
      s.dbuf.getBytes boff.toNat len.toNat = some bytes → exec (.crcBlock boff len) s =
        .next (State.completed ((crc16 s.crc bytes).setWidth 32) { s with crc := crc16 s.crc bytes })) ∧
    (∀ boff len, s.cfg.dbufSize < boff.toNat + len.toNat → exec (.crcBlock boff len) s = .next (s.raised 7 3 boff))

/-- Where a request reads a byte of DBUF, TXPKT or RXPKT that nothing has written, the model stops (R27, R28, R61, I4): CRC_BLOCK and
PKT_BUILD once their checks have passed, PKT_SEND and PKT_CHECK for the packet, MD_WRITE, MD_FLASH_WRITE and GB_WRITE_RAM when they
come to send the byte, and not before: where the transport takes too few bytes to reach it, they raise SHORT_WRITE instead (log
entry 4). Nothing else stops but the requester's own read of an unwritten packet byte
during a request, and nothing is refused. -/
def Obligations.UnwrittenSourceFaults : Prop :=
  (∀ (s : State) boff len, s.Calm → boff.toNat + len.toNat ≤ s.cfg.dbufSize →
    s.dbuf.getBytes boff.toNat len.toNat = none → exec (.crcBlock boff len) s = .fault .unwrittenByte) ∧
  (∀ (s : State) m sub idx boff, s.Calm → validatePacket 0x55 m sub = none → boff.toNat + 64 ≤ s.cfg.dbufSize →
    s.dbuf.getBytes boff.toNat 64 = none → exec (.pktBuild 0x55 m sub idx boff) s = .fault .unwrittenByte) ∧
  (∀ s : State, s.busy = false → txPacket s = none → exec .pktSend s = .fault .unwrittenByte) ∧
  (∀ s : State, s.busy = false → rxPacket s = none → exec .pktCheck s = .fault .unwrittenByte) ∧
  (∀ (s : State) (boff len : Reg32) k txs, s.Calm → s.dbuf.wf = true → len.toNat % 2 = 0 →
    boff.toNat + len.toNat ≤ s.cfg.dbufSize → s.dbuf.getBytes boff.toNat len.toNat = none → s.env.tx = .accepted k :: txs →
    (5 * ((len.toNat + 65535) / 65536) + len.toNat ≤ k → exec (.mdWrite boff len) s = .fault .unwrittenByte) ∧
    (k < 5 * ((len.toNat + 65535) / 65536) + len.toNat →
      (∀ j < len.toNat, 5 * (j / 65536 + 1) + j < k → s.dbuf.get (boff.toNat + j) ≠ none) →
      ∃ t, exec (.mdWrite boff len) s = .next t ∧ t.errKind = 1 ∧ t.errSub = 1 ∧ t.errInfo = BitVec.ofNat 32 k ∧
        t.txLog.length = s.txLog.length + k)) ∧
  (∀ (s : State) (boff len : Reg32) (replies : List (List Byte)) rxs, s.Calm → s.adapter = .gb →
    s.cfg.readyPoll = .ryThenRdSingle → s.dbuf.wf = true → len.toNat % 2 = 0 → boff.toNat + len.toNat ≤ s.cfg.dbufSize →
    s.dbuf.getBytes boff.toNat len.toNat = none → Accepts (len.toNat / 2) 12 s.env.tx → replies.length = len.toNat / 2 →
    (∀ r ∈ replies, r.length = 2) → s.env.rx = replies.map .got ++ rxs →
    exec (.mdFlashWrite boff len) s = .fault .unwrittenByte) ∧
  (∀ (s : State) (boff len : Reg32) (m k : Nat) (replies : List (List Byte)) rxs, s.Calm → s.adapter = .gb →
    s.cfg.readyPoll = .ryThenRdSingle → s.dbuf.wf = true → len.toNat % 2 = 0 → boff.toNat + len.toNat ≤ s.cfg.dbufSize →
    m < len.toNat / 2 → Accepts m 12 s.env.tx → s.env.tx[m]? = some (.accepted k) → k < 12 → replies.length = m →
    (∀ r ∈ replies, r.length = 2) → s.env.rx = replies.map .got ++ rxs →
    (∀ j < len.toNat, 12 * (j / 2) + 8 + j % 2 < 12 * m + k → s.dbuf.get (boff.toNat + j) ≠ none) →
    ∃ t, exec (.mdFlashWrite boff len) s = .next t ∧ t.errKind = 1 ∧ t.errSub = 1 ∧ t.errInfo = BitVec.ofNat 32 k ∧
      t.txLog.length = s.txLog.length + 12 * m + k) ∧
  (∀ (s : State) (boff len : Reg32) k txs, s.Calm → s.cfg.readyPoll = .ryOnly → s.dbuf.wf = true → len.toNat % 2 = 0 →
    boff.toNat + len.toNat ≤ s.cfg.dbufSize → s.dbuf.getBytes boff.toNat len.toNat = none → s.env.tx = .accepted k :: txs →
    (11 * (len.toNat / 2) ≤ k → exec (.mdFlashWrite boff len) s = .fault .unwrittenByte) ∧
    (k < 11 * (len.toNat / 2) →
      (∀ j < len.toNat, 11 * (j / 2) + 8 + j % 2 < k → s.dbuf.get (boff.toNat + j) ≠ none) →
      ∃ t, exec (.mdFlashWrite boff len) s = .next t ∧ t.errKind = 1 ∧ t.errSub = 1 ∧ t.errInfo = BitVec.ofNat 32 k ∧
        t.txLog.length = s.txLog.length + k)) ∧
  (∀ (s : State) (boff len : Reg32) rxs, s.Calm → s.adapter = .gb → s.dbuf.wf = true → transferLength len.toNat →
    boff.toNat + len.toNat ≤ s.cfg.dbufSize → s.dbuf.getBytes boff.toNat len.toNat = none →
    Accepts (len.toNat / 64 + 1) 72 s.env.tx → s.env.rx = List.replicate (len.toNat / 64 + 1) (.got [0xAA]) ++ rxs →
    exec (.gbWriteRam boff len) s = .fault .unwrittenByte) ∧
  (∀ i s f, exec i s = .fault f → f = .unwrittenByte ∧ s.busy = false ∧
    ((∃ boff len : Reg32, (i = .crcBlock boff len ∨
          (len.toNat % 2 = 0 ∧ (i = .mdWrite boff len ∨ i = .mdFlashWrite boff len)) ∨
          (transferLength len.toNat ∧ i = .gbWriteRam boff len)) ∧
        boff.toNat + len.toNat ≤ s.cfg.dbufSize ∧ s.dbuf.getBytes boff.toNat len.toNat = none) ∨
      (∃ m sub idx boff, i = .pktBuild 0x55 m sub idx boff ∧ validatePacket 0x55 m sub = none ∧
        boff.toNat + 64 ≤ s.cfg.dbufSize ∧ s.dbuf.getBytes boff.toNat 64 = none) ∨
      (i = .pktSend ∧ txPacket s = none) ∨ (i = .pktCheck ∧ rxPacket s = none) ∨ (isRequest i = true ∧ ¬s.ReadsWritten))) ∧
  (∀ i s r, exec i s ≠ .refused r)

/-! ### The packet framer -/

/-- PKT_BUILD: the checks of R152 in their order, then BUFFER_RANGE, each raising with nothing else changed; otherwise the packet is
in TXPKT (R94, R151), the frame as DBUF has it if the requester leaves DBUF alone (R371; RequesterPort says what it may do). -/
def Obligations.PktBuildMeaning : Prop :=
  ∀ (s : State) (c m sub : Byte) (idx : BitVec 24) (boff : Reg32), s.busy = false →
    if c ≠ 0xAA ∧ c ≠ 0xF0 ∧ c ≠ 0x0F ∧ c ≠ 0x55 then
      exec (.pktBuild c m sub idx boff) s = .next (s.raised 2 1 (c.setWidth 32))
    else if c = 0x55 ∧ 4 < m.toNat then
      exec (.pktBuild c m sub idx boff) s = .next (s.raised 2 2 (m.setWidth 32))
    else if c = 0x55 ∧ [4, 1, 1, 2, 2].getD m.toNat 0 ≤ sub.toNat then
      exec (.pktBuild c m sub idx boff) s = .next (s.raised 2 3 (BitVec.ofNat 32 (m.toNat * 256 + sub.toNat)))
    else if c = 0x55 ∧ s.cfg.dbufSize < boff.toNat + 64 then
      exec (.pktBuild c m sub idx boff) s = .next (s.raised 7 3 boff)
    else if c = 0x55 then
      ∀ frame, s.env.visits = [] → s.dbuf.getBytes boff.toNat 64 = some frame →
        exec (.pktBuild c m sub idx boff) s = .next (State.completed 72 { s with
          txpkt := s.txpkt.setBytes 0 ([0x55, m, sub, idx.extractLsb' 16 8, idx.extractLsb' 8 8, idx.extractLsb' 0 8] ++
            frame ++ [0x00, 0x00])
          txlen := 72 })
    else exec (.pktBuild c m sub idx boff) s = .next (State.completed 1 { s with txpkt := s.txpkt.set 0 c, txlen := 1 })

/-- PKT_SEND: a DATA packet goes out as 72 bytes with its trailer computed, a control packet as one byte, nothing built raises
NO_PACKET (R153, R154, R155). -/
def Obligations.PktSendMeaning : Prop :=
  (∀ s : State, s.busy = false → s.txlen = 0 → exec .pktSend s = .next (s.raised 7 4 0)) ∧
  (∀ (s : State) p k rest, s.Calm → s.txlen = 72 → s.txpkt.getBytes 0 72 = some p → s.env.tx = .accepted k :: rest →
    72 ≤ k → exec .pktSend s = .next (State.completed 72 (State.sent (p.take 70 ++ [hiByte (packetCrc p), loByte (packetCrc p)])
      rest { s with txpkt := s.txpkt.setBytes 70 [hiByte (packetCrc p), loByte (packetCrc p)], crc := packetCrc p }))) ∧
  (∀ (s : State) c k rest, s.Calm → s.txlen = 1 → s.txpkt.getBytes 0 1 = some [c] → s.env.tx = .accepted k :: rest → 1 ≤ k →
    exec .pktSend s = .next (State.completed 1 (s.sent [c] rest)))

/-- The transport errors of sending and receiving a packet (R153, R157, R329): short and failed writes of a DATA packet and of a control
packet, empty, short, timed-out and failed reads, with the bytes moved as ERR_INFO, what came stored, RXLEN = 0 and SYNC_LOST set. -/
def Obligations.FramerTransportErrors : Prop :=
  (∀ (s : State) p d rest, s.Calm → s.txlen = 72 → s.txpkt.getBytes 0 72 = some p → s.env.tx = d :: rest →
    let q := p.take 70 ++ [hiByte (packetCrc p), loByte (packetCrc p)]
    let u : State := { s.lost with
      txpkt := s.txpkt.setBytes 70 [hiByte (packetCrc p), loByte (packetCrc p)]
      crc := packetCrc p }
    match d with
    | .accepted k => k < 72 → exec .pktSend s = .next (State.raised 1 1 (BitVec.ofNat 32 k) (State.sent (q.take k) rest u))
    | .failed k =>
      exec .pktSend s = .next (State.raised 1 4 (BitVec.ofNat 32 (min k 72)) (State.sent (q.take (min k 72)) rest u))) ∧
  (∀ (s : State) c d rest, s.Calm → s.txlen = 1 → s.txpkt.getBytes 0 1 = some [c] → s.env.tx = d :: rest →
    match d with
    | .accepted k => k < 1 → exec .pktSend s = .next (State.raised 1 1 0 (s.lost.sent [] rest))
    | .failed k => exec .pktSend s =
        .next (State.raised 1 4 (BitVec.ofNat 32 (min k 1)) (s.lost.sent ([c].take (min k 1)) rest))) ∧
  (∀ (s : State) d rest, s.Calm → s.adapter = .gb → s.env.rx = d :: rest →
    let u : State := { (s.received rest).lost with rxlen := 0 }
    match d with
    | .got [] => exec .pktReceive s = .next (State.raised 1 2 0 u)
    | .got (_ :: _) => True
    | .timedOut bytes => exec .pktReceive s = .next (State.raised 1 3 (BitVec.ofNat 32 (min 1 bytes.length))
        { u with rxpkt := s.rxpkt.setBytes 0 (bytes.take 1) })
    | .failed bytes => exec .pktReceive s = .next (State.raised 1 4 (BitVec.ofNat 32 (min 1 bytes.length))
        { u with rxpkt := s.rxpkt.setBytes 0 (bytes.take 1) })) ∧
  (∀ (s : State) more d rest, s.Calm → s.adapter = .gb → s.env.rx = .got (0x55 :: more) :: d :: rest →
    let u (bytes : List Byte) : State := { (s.received rest).lost with
      rxlen := 0
      rxpkt := (s.rxpkt.setBytes 0 [0x55]).setBytes 1 (bytes.take 71) }
    match d with
    | .got bytes => bytes.length < 71 → exec .pktReceive s = .next (State.raised 1 2 (BitVec.ofNat 32 bytes.length) (u bytes))
    | .timedOut bytes => exec .pktReceive s = .next (State.raised 1 3 (BitVec.ofNat 32 (min 71 bytes.length)) (u bytes))
    | .failed bytes => exec .pktReceive s = .next (State.raised 1 4 (BitVec.ofNat 32 (min 71 bytes.length)) (u bytes)))

/-- PKT_RECEIVE: any first byte but DATA is a whole one-byte reply; DATA is followed by 71 bytes more (R109, R156, R157). Nothing but the
length is checked (R161). -/
def Obligations.PktReceiveCompletes : Prop :=
  (∀ (s : State) c more rest, s.Calm → s.adapter = .gb → s.env.rx = .got (c :: more) :: rest → c ≠ 0x55 →
    exec .pktReceive s = .next (State.completed (BitVec.ofNat 32 (0x0100 + c.toNat))
      { s.received rest with rxpkt := s.rxpkt.setBytes 0 [c], rxlen := 1 })) ∧
  (∀ (s : State) more body rest, s.Calm → s.adapter = .gb → s.env.rx = .got (0x55 :: more) :: .got body :: rest →
    body.length = 71 → exec .pktReceive s = .next (State.completed 0x4855
      { s.received rest with rxpkt := (s.rxpkt.setBytes 0 [0x55]).setBytes 1 body, rxlen := 72 }))

/-- CheckPacket: NOT_DATA, CRC_MISMATCH, or the CRC, which it leaves in CRC (R158, R159). -/
def Obligations.PktCheckVerdicts : Prop :=
  ∀ s : State, s.busy = false →
    (s.rxlen ≠ 72 → exec .pktCheck s = .next (s.raised 2 7 (s.rxlen.setWidth 32))) ∧
    (∀ p, s.rxlen = 72 → s.rxpkt.getBytes 0 72 = some p →
      if p.getD 0 0 ≠ 0x55 then exec .pktCheck s = .next (s.raised 2 7 72)
      else if packetCrc p = packetTrailer p then
        exec .pktCheck s = .next (State.completed ((packetCrc p).setWidth 32) { s with crc := packetCrc p })
      else exec .pktCheck s = .next (State.raised 2 4 (packetCrc p ++ packetTrailer p : BitVec 32) { s with crc := packetCrc p }))

/-- A DATA packet that is sent, comes back as it was sent and is received passes its check (R162). -/
def Obligations.SendReceiveCheckRoundTrip : Prop :=
  ∀ (s : State) p k rest, s.Calm → s.adapter = .gb → s.txlen = 72 → s.txpkt.getBytes 0 72 = some p → p.getD 0 0 = 0x55 →
    s.env.tx = .accepted k :: rest → 72 ≤ k →
    ∃ t q, exec .pktSend s = .next t ∧ t.done = true ∧ q.length = 72 ∧ t.txLog = s.txLog ++ q ∧
      ∀ rxs, ∃ u v, exec .pktReceive { t with env := { t.env with rx := .got (q.take 1) :: .got (q.drop 1) :: rxs } } = .next u ∧
        u.done = true ∧ exec .pktCheck u = .next v ∧ v.done = true ∧ v.err = false ∧ v.result = (packetCrc q).setWidth 32

/-- A received packet that differs from a valid one in one bit of bytes 0..69 fails its check: CRC_MISMATCH, or NOT_DATA where the bit
is in the control byte (R162). -/
def Obligations.SingleBitCorruptionDetected : Prop :=
  ∀ (s : State) (q : List Byte) (i b : Nat), s.busy = false → q.length = 72 → q.getD 0 0 = 0x55 →
    packetCrc q = packetTrailer q → i < 70 → b < 8 → s.rxlen = 72 →
    s.rxpkt.getBytes 0 72 = some (q.set i (q.getD i 0 ^^^ ((1 : Byte) <<< b))) →
    ∃ t, exec .pktCheck s = .next t ∧ t.done = false ∧ t.err = true ∧ t.errKind = 2 ∧
      t.errSub = (if i = 0 then 7 else 4) ∧ t.result = s.result

/-- In a state of the invariant PKT_SEND and PKT_CHECK find every byte they read (R27, R28): they never stop the model, unless the
requester itself reads an unwritten packet byte meanwhile. -/
def Obligations.PacketRequestsNeverFault : Prop :=
  ∀ s : State, s.StoresOk → s.TxOk → s.RxOk → s.ReadsWritten → (∃ t, exec .pktSend s = .next t) ∧ (∃ t, exec .pktCheck s = .next t)

/-! ### GB transfers -/

/-- The argument checks of the paged transfers, in order (R73, R322, R324): XFER_SIZE, then BUFFER_RANGE, each raised with nothing else
changed; a transfer that passes them sets XDIR, XLEN and XBOFF (R30, R180). -/
def Obligations.GbTransferChecks : Prop :=
  ∀ (s : State) (boff len : Reg32), s.busy = false →
    if ¬transferLength len.toNat then
      exec (.gbReadRam boff len) s = .next (s.raised 3 1 len) ∧ exec (.gbWriteRam boff len) s = .next (s.raised 3 1 len)
    else if s.cfg.dbufSize < boff.toNat + len.toNat then
      exec (.gbReadRam boff len) s = .next (s.raised 7 3 boff) ∧ exec (.gbWriteRam boff len) s = .next (s.raised 7 3 boff)
    else s.env.visits = [] →
      (∃ t, exec (.gbReadRam boff len) s = .next t ∧ t.xdir = 0 ∧ t.xlen = len ∧ t.xboff = boff) ∧
      (∀ data, s.dbuf.getBytes boff.toNat len.toNat = some data →
        ∃ t, exec (.gbWriteRam boff len) s = .next t ∧ t.xdir = 1 ∧ t.xlen = len ∧ t.xboff = boff)

/-- GB_READ_RAM with an adapter that sends its packets in sequence (R183, R185, R187, R188), ended by a LAST_DATA that fills the buffer, or
by END after a NORMAL_DATA that does; a LAST_DATA before that is acknowledged and the transfer goes on. The frames are in DBUF, one CONFIG packet and one ACK after every packet that does not complete the
transfer were sent, TXPKT, RXPKT and CRC hold what the last packets left (R26, R27, R28), RESULT = XCOUNT = LEN, and nothing else
changes. Lengths up to 2^29 bytes, so that the page index fits the 16 bits of R107. -/
def Obligations.GbReadRamCompletes : Prop :=
  ∀ (s : State) (boff len : Reg32) (frames : List (List Byte)) (last : Nat → Bool) (rxs : List RxDraw),
    s.Calm → s.adapter = .gb → transferLength len.toNat → len.toNat ≤ 2 ^ 29 → boff.toNat + len.toNat ≤ s.cfg.dbufSize →
    frames.length = len.toNat / 64 → (∀ f ∈ frames, f.length = 64) →
    let n := len.toNat / 64
    let config := configWire s.cfg.subRram len.toNat
    let final := framePacket s.cfg.indexLayout (last (n - 1)) (n - 1) (frames.getD (n - 1) [])
    let ends (acks : Nat) (rxlen : BitVec 7) (rxpkt : List Byte) : Prop :=
      ∃ t, exec (.gbReadRam boff len) s = .next t ∧
        t = State.completed len { s with
          dbuf := t.dbuf
          txpkt := s.txpkt.setBytes 0 (0xAA :: config.drop 1)
          txlen := 1
          rxpkt := s.rxpkt.setBytes 0 rxpkt
          rxlen := rxlen
          crc := packetCrc final
          xdir := 0
          xlen := len
          xcount := len
          xboff := boff
          env := { s.env with tx := s.env.tx.drop (acks + 1), rx := rxs }
          txLog := s.txLog ++ config ++ List.replicate acks 0xAA } ∧
        (∀ k < n, ∀ j < 64, t.dbuf.get (boff.toNat + 64 * k + j) = (frames.getD k [])[j]?) ∧
        (∀ a, a < boff.toNat ∨ boff.toNat + len.toNat ≤ a → t.dbuf.get a = s.dbuf.get a)
    (last (n - 1) = true → Accepts n 72 s.env.tx → s.env.rx = packetReplies s.cfg.indexLayout last n frames ++ rxs →
      ends (n - 1) 72 final) ∧
    (∀ more, last (n - 1) = false → Accepts (n + 1) 72 s.env.tx →
      s.env.rx = packetReplies s.cfg.indexLayout last n frames ++ .got (0x0F :: more) :: rxs →
      ends n 1 (0x0F :: final.drop 1))

/-- GB_WRITE_RAM with an adapter that acknowledges every packet (R189 to R194): the CONFIG packet and the DBUF bytes in packets of 64
with their indices are sent, TXPKT, RXPKT and CRC hold what the last packets left (R26, R27, R28), RESULT = XCOUNT = LEN, and
nothing else changes (above 2^29 bytes the page index is cut to its 16 bits: log entry 31). A GB_READ_RAM to which the adapter
then returns those packets puts the same bytes into its own region (R200). -/
def Obligations.GbWriteRamCompletes : Prop :=
  ∀ (s : State) (boff len : Reg32) (data : List Byte) (rxs : List RxDraw),
    s.Calm → s.adapter = .gb → transferLength len.toNat → boff.toNat + len.toNat ≤ s.cfg.dbufSize →
    s.dbuf.getBytes boff.toNat len.toNat = some data →
    Accepts (len.toNat / 64 + 1) 72 s.env.tx → s.env.rx = List.replicate (len.toNat / 64 + 1) (.got [0xAA]) ++ rxs →
    let n := len.toNat / 64
    let frames := (List.range n).map fun k => (data.drop (64 * k)).take 64
    let packet (k : Nat) := transferPacket s.cfg.indexLayout n k (frames.getD k [])
    let t := State.completed len { s with
      txpkt := s.txpkt.setBytes 0 (packet (n - 1))
      txlen := 72
      rxpkt := s.rxpkt.setBytes 0 [0xAA]
      rxlen := 1
      crc := packetCrc (packet (n - 1))
      xdir := 1
      xlen := len
      xcount := len
      xboff := boff
      env := { s.env with tx := s.env.tx.drop (n + 1), rx := rxs }
      txLog := s.txLog ++ configWire s.cfg.subWram len.toNat ++ (List.range n).flatMap packet }
    exec (.gbWriteRam boff len) s = .next t ∧
    (∀ (boff2 : Reg32) txs2 rxs2, boff2.toNat + len.toNat ≤ s.cfg.dbufSize → len.toNat ≤ 2 ^ 29 → Accepts n 72 txs2 →
      ∃ u, exec (.gbReadRam boff2 len) { t with env := { t.env with
          tx := txs2
          rx := dataReplies s.cfg.indexLayout n n frames ++ rxs2 } } = .next u ∧
        u.done = true ∧ u.dbuf.getBytes boff2.toNat len.toNat = some data)

/-- The index bytes of a packet read back as the page and the packet index they were built from, in both layouts (R160); the position
expected after k packets is page k div 128, packet k mod 128 (R31). -/
def Obligations.IndexRoundTrip : Prop :=
  (∀ (layout : IndexLayout) (page packet : Nat) (m sub : Byte) (frame : List Byte) (trailer : Word),
    page < 65536 → packet < 128 →
    pageIdx layout (dataPacket m sub (idxField layout page packet) frame trailer) = page ∧
    packetIdx layout (dataPacket m sub (idxField layout page packet) frame trailer) = packet) ∧
  (∀ k, expPacket (64 * k) = k % 128 ∧ expPage (64 * k) = k / 128)

/-- The replies that end a transfer (R184, R186, R192), after any number of good packets (in a read NORMAL_DATA, or LAST_DATA that does not
fill the buffer): in a read a control byte other than END after a
full buffer, a DATA packet with a wrong CRC, a wrong command, a wrong index, or one beyond the transfer's length (OVERRUN); in a
write anything but ACK. The frames accepted before stay in DBUF, XCOUNT says how many bytes (for a write, how many acknowledged),
RESULT is as it was. -/
def Obligations.GbReplyErrors : Prop :=
  (∀ (s : State) (boff len : Reg32) (m : Nat) (frames : List (List Byte)) (last : Nat → Bool),
    s.Calm → s.adapter = .gb → transferLength len.toNat → len.toNat ≤ 2 ^ 29 → boff.toNat + len.toNat ≤ s.cfg.dbufSize →
    m ≤ len.toNat / 64 → (∀ k, k + 1 = len.toNat / 64 → last k = false) → frames.length = m → (∀ f ∈ frames, f.length = 64) → Accepts (m + 1) 72 s.env.tx →
    let ends (sub : Byte) (info : Reg32) : Prop :=
      ∃ t, exec (.gbReadRam boff len) s = .next t ∧ t.done = false ∧ t.err = true ∧ t.errKind = 2 ∧ t.errSub = sub ∧
        t.errInfo = info ∧ t.xcount = BitVec.ofNat 32 (64 * m) ∧ t.result = s.result ∧
        t.txLog = s.txLog ++ configWire s.cfg.subRram len.toNat ++ List.replicate m 0xAA ∧
        (∀ k < m, ∀ j < 64, t.dbuf.get (boff.toNat + 64 * k + j) = (frames.getD k [])[j]?) ∧
        (∀ a, a < boff.toNat ∨ boff.toNat + 64 * m ≤ a → t.dbuf.get a = s.dbuf.get a)
    (∀ c more rxs, c ≠ 0x55 → ¬(c = 0x0F ∧ 64 * m = len.toNat) →
      s.env.rx = packetReplies s.cfg.indexLayout last m frames ++ .got (c :: more) :: rxs →
      ends 6 (c.setWidth 32)) ∧
    (∀ more body rxs, body.length = 71 →
      s.env.rx = packetReplies s.cfg.indexLayout last m frames ++ .got (0x55 :: more) :: .got body :: rxs →
      let p : List Byte := 0x55 :: body
      if packetCrc p ≠ packetTrailer p then ends 4 (packetCrc p ++ packetTrailer p : BitVec 32)
      else if p.getD 1 0 ≠ 0x01 ∧ p.getD 1 0 ≠ 0x02 then ends 8 ((p.getD 1 0).setWidth 32)
      else if packetIdx s.cfg.indexLayout p ≠ m % 128 ∨ pageIdx s.cfg.indexLayout p ≠ m / 128 then
        ends 5 (BitVec.ofNat 32 (64 * m))
      else if 64 * m = len.toNat then ends 9 (BitVec.ofNat 32 (64 * m))
      else True)) ∧
  (∀ (s : State) (boff len : Reg32) (m : Nat) (data : List Byte),
    s.Calm → s.adapter = .gb → transferLength len.toNat → boff.toNat + len.toNat ≤ s.cfg.dbufSize → m ≤ len.toNat / 64 →
    s.dbuf.getBytes boff.toNat (64 * m) = some data → Accepts (m + 1) 72 s.env.tx →
    let ends (info : Reg32) : Prop :=
      ∃ t, exec (.gbWriteRam boff len) s = .next t ∧ t.done = false ∧ t.err = true ∧ t.errKind = 2 ∧ t.errSub = 6 ∧
        t.errInfo = info ∧ t.xcount = BitVec.ofNat 32 (64 * (m - 1)) ∧ t.result = s.result ∧ t.dbuf = s.dbuf ∧
        t.txLog.length = s.txLog.length + 72 * (m + 1)
    (∀ c more rxs, c ≠ 0x55 → c ≠ 0xAA → s.env.rx = List.replicate m (.got [0xAA]) ++ .got (c :: more) :: rxs →
      ends (c.setWidth 32)) ∧
    (∀ more body rxs, body.length = 71 →
      s.env.rx = List.replicate m (.got [0xAA]) ++ .got (0x55 :: more) :: .got body :: rxs → ends 0x55))

/-- The status queries (R195, R196, R197): a region that leaves DBUF raises; a CRC-valid DATA reply is stored and completes with 64; a
control reply raises NOT_DATA, a DATA reply with a wrong CRC raises CRC_MISMATCH, both storing nothing in DBUF. -/
def Obligations.StatusQueries : Prop :=
  ∀ (s : State) (boff : Reg32) (sub : Byte) (i : Instr),
    (sub, i) ∈ [((0 : Byte), Instr.gbReadDeviceStatus boff), ((1 : Byte), Instr.gbReadStatus boff)] → s.Calm → s.adapter = .gb →
    (s.cfg.dbufSize < boff.toNat + 64 → exec i s = .next (s.raised 7 3 boff)) ∧
    (boff.toNat + 64 ≤ s.cfg.dbufSize → ∀ k txs, s.env.tx = .accepted k :: txs → 72 ≤ k →
      let q := [0x55, 0x04, sub, 0x00, 0x00, 0x00] ++ List.replicate 64 0x00
      let started (rxs : List RxDraw) : State := { State.sent (q ++ [hiByte (crc16 0 q), loByte (crc16 0 q)]) txs (s.received rxs) with
        txpkt := (s.txpkt.setBytes 0 (q ++ [0x00, 0x00])).setBytes 70 [hiByte (crc16 0 q), loByte (crc16 0 q)]
        txlen := 72
        crc := crc16 0 q
        xdir := 2
        xlen := 64
        xcount := 0
        xboff := boff }
      (∀ c more rxs, c ≠ 0x55 → s.env.rx = .got (c :: more) :: rxs →
        exec i s = .next (State.raised 2 7 1 { started rxs with rxpkt := s.rxpkt.setBytes 0 [c], rxlen := 1 })) ∧
      (∀ more body rxs, body.length = 71 → s.env.rx = .got (0x55 :: more) :: .got body :: rxs →
        let p : List Byte := 0x55 :: body
        let u : State := { started rxs with
          rxpkt := (s.rxpkt.setBytes 0 [0x55]).setBytes 1 body
          rxlen := 72
          crc := packetCrc p }
        if packetCrc p = packetTrailer p then
          exec i s = .next (State.completed 64 { u with
            dbuf := s.dbuf.setBytes boff.toNat ((p.drop 6).take 64)
            xcount := 64 })
        else exec i s = .next (State.raised 2 4 (packetCrc p ++ packetTrailer p : BitVec 32) u)))

/-! ### The MD stream -/

/-- MD_SEEK: its checks in order, then the six bytes of the seek frame, whatever the transport answers (R225, R71, R329). -/
def Obligations.MdSeekMeaning : Prop :=
  ∀ (s : State) (whence : BitVec 2) (addr : Reg32), s.busy = false →
    if whence = 3 then exec (.mdSeek whence addr) s = .next (s.raised 7 2 3)
    else if whence = 1 then exec (.mdSeek whence addr) s = .next (s.raised 6 1 1)
    else if whence = 2 then exec (.mdSeek whence addr) s = .next (s.raised 6 2 2)
    else if 2 ^ 25 ≤ addr.toNat then exec (.mdSeek whence addr) s = .next (s.raised 3 4 addr)
    else ∀ d rest, s.env.visits = [] → s.env.tx = d :: rest →
      let w : WordAddr := BitVec.ofNat 24 (addr.toNat / 2)
      let frame : List Byte := [0x00, w.extractLsb' 16 8, 0x00, w.extractLsb' 8 8, 0x00, w.extractLsb' 0 8]
      match d with
      | .accepted k =>
        if 6 ≤ k then exec (.mdSeek whence addr) s =
          .next (State.completed (w.setWidth 32) { s.sent frame rest with curW := w, cursorValid := true })
        else exec (.mdSeek whence addr) s = .next (State.raised 1 1 (BitVec.ofNat 32 k) (s.sent (frame.take k) rest).mdLost)
      | .failed k => exec (.mdSeek whence addr) s =
          .next (State.raised 1 4 (BitVec.ofNat 32 (min k 6)) (s.sent (frame.take (min k 6)) rest).mdLost)

/-- MD_WRITE_WORD and MD_WRITE_BYTE: ADDRESS_RANGE, otherwise nine bytes, the byte with 0x00 before it (R231, R232). -/
def Obligations.MdWordWrites : Prop :=
  ∀ (s : State) (addr : Reg32) (v : Word) (b : Byte), s.busy = false →
    if 2 ^ 25 ≤ addr.toNat then
      exec (.mdWriteWord addr v) s = .next (s.raised 3 4 addr) ∧ exec (.mdWriteByte addr b) s = .next (s.raised 3 4 addr)
    else ∀ k rest, s.env.visits = [] → s.env.tx = .accepted k :: rest → 9 ≤ k →
      let w : WordAddr := BitVec.ofNat 24 (addr.toNat / 2)
      let seek : List Byte := [0x00, w.extractLsb' 16 8, 0x00, w.extractLsb' 8 8, 0x00, w.extractLsb' 0 8]
      exec (.mdWriteWord addr v) s = .next (State.completed 0
        { s.sent (seek ++ [0x43, v.extractLsb' 8 8, v.extractLsb' 0 8]) rest with curW := w, cursorValid := true }) ∧
      exec (.mdWriteByte addr b) s = .next (State.completed 0
        { s.sent (seek ++ [0x43, 0x00, b]) rest with curW := w, cursorValid := true })

/-- The requests that send a fixed sequence: MD_RAM_ENABLE and MD_RAM_DISABLE (R233, R234, R235), MD_FLASH_UNLOCK_BYPASS and
MD_FLASH_RESET_BYPASS (R275, R276), the cursor left at the last address written. -/
def Obligations.MdFixedSequences : Prop :=
  (∀ (s : State) k rest, s.Calm → s.env.tx = .accepted k :: rest → 11 ≤ k →
    let bytes (v : Word) (d : Byte) : List Byte :=
      [0x00, 0x50, 0x00, 0x98, 0x00, 0x00, 0x43, v.extractLsb' 8 8, v.extractLsb' 0 8, 0x05, d]
    exec .mdRamEnable s = .next (State.completed 0 { s.sent (bytes s.cfg.ramEnableWord s.cfg.ramEnableDelay) rest with
      curW := 0x509800, cursorValid := true, delaySh := s.cfg.ramEnableDelay, delayValid := true, ramEn := true }) ∧
    exec .mdRamDisable s = .next (State.completed 0 { s.sent (bytes s.cfg.ramDisableWord s.cfg.ramDisableDelay) rest with
      curW := 0x509800, cursorValid := true, delaySh := s.cfg.ramDisableDelay, delayValid := true, ramEn := false })) ∧
  (∀ (s : State) k rest pre a v, s.Calm → s.env.tx = .accepted k :: rest →
    let bytes (seq : List (Nat × Word)) : List Byte := seq.flatMap fun c =>
      let w : WordAddr := BitVec.ofNat 24 (c.1 / 2)
      [0x00, w.extractLsb' 16 8, 0x00, w.extractLsb' 8 8, 0x00, w.extractLsb' 0 8, 0x43, c.2.extractLsb' 8 8, c.2.extractLsb' 0 8]
    9 * (pre.length + 1) ≤ k →
    (s.cfg.unlockBypassSeq = pre ++ [(a, v)] → exec .mdFlashUnlockBypass s = .next (State.completed 0
      { s.sent (bytes s.cfg.unlockBypassSeq) rest with curW := BitVec.ofNat 24 (a / 2), cursorValid := true, bypass := true })) ∧
    (s.cfg.resetBypassSeq = pre ++ [(a, v)] → exec .mdFlashResetBypass s = .next (State.completed 0
      { s.sent (bytes s.cfg.resetBypassSeq) rest with curW := BitVec.ofNat 24 (a / 2), cursorValid := true, bypass := false })))

/-- MD_READ_WORD and MD_GET_ID whatever two bytes the reply brings (R230, R236, R222): the word is the two bytes, the first one high. -/
def Obligations.MdWordReplies : Prop :=
  ∀ (s : State) (k : Nat) (txs : List TxDraw) (b0 b1 : Byte) (more : List Byte) (rxs : List RxDraw),
    s.Calm → s.adapter = .gb → s.env.tx = .accepted k :: txs → s.env.rx = .got (b0 :: b1 :: more) :: rxs →
    (1 ≤ k → exec .mdGetId s =
      .next (State.completed ((b0 ++ b1 : BitVec 16).setWidth 32) (State.sent [0x62] txs (s.received rxs)))) ∧
    (∀ addr : Reg32, 2 ^ 25 ≤ addr.toNat → exec (.mdReadWord addr) s = .next (s.raised 3 4 addr)) ∧
    (∀ addr : Reg32, addr.toNat < 2 ^ 25 → 7 ≤ k →
      let w : WordAddr := BitVec.ofNat 24 (addr.toNat / 2)
      exec (.mdReadWord addr) s = .next (State.completed ((b0 ++ b1 : BitVec 16).setWidth 32)
        { State.sent [0x00, w.extractLsb' 16 8, 0x00, w.extractLsb' 8 8, 0x00, w.extractLsb' 0 8, 0x42] txs (s.received rxs) with
          curW := w
          cursorValid := true }))

/-- With the MD adapter in step with the block, MD_READ_WORD gives the word the cartridge holds (R230, R297), whose bytes are known,
MD_READ of one chunk the words from the cursor on, high byte first, in DBUF (R226, R298, R68), and MD_GET_ID the adapter's
identity, or after a Reopen an anomaly (R301, R307). -/
def Obligations.PeerReplies : Prop :=
  ∀ (s : State) (k : Nat) (txs : List TxDraw) (offered : List Byte) (rxs : List RxDraw),
    s.Calm → s.InStep → s.env.tx = .accepted k :: txs → s.env.rx = .got offered :: rxs →
    (∀ (addr : Reg32) (h l : Byte), addr.toNat < 2 ^ 25 → 7 ≤ k → 2 ≤ offered.length →
      s.cart.known (addr.toNat / 2) = (some h, some l) →
      ∃ t, exec (.mdReadWord addr) s = .next t ∧ t.done = true ∧ t.result = (h ++ l : BitVec 16).setWidth 32 ∧
        t.peer.devAddr = BitVec.ofNat 24 (addr.toNat / 2) ∧ t.curW = t.peer.devAddr ∧ t.cursorValid = true ∧
        t.peer.rxLine = []) ∧
    (∀ (boff len : Reg32) (h l : Nat → Byte), 5 ≤ k → len.toNat % 2 = 0 → 0 < len.toNat → len.toNat ≤ 65536 →
      len.toNat ≤ offered.length → boff.toNat + len.toNat ≤ s.cfg.dbufSize → s.cfg.readSideEffects = .none →
      (∀ i < len.toNat / 2, s.cart.known (s.peer.devAddr + BitVec.ofNat 24 i).toNat = (some (h i), some (l i))) →
      ∃ t, exec (.mdRead boff len) s = .next t ∧ t.done = true ∧ t.result = len ∧
        (∀ i < len.toNat / 2, t.dbuf.get (boff.toNat + 2 * i) = some (h i) ∧ t.dbuf.get (boff.toNat + 2 * i + 1) = some (l i)) ∧
        (∀ a, a < boff.toNat ∨ boff.toNat + len.toNat ≤ a → t.dbuf.get a = s.dbuf.get a) ∧
        t.peer.devAddr = s.peer.devAddr + BitVec.ofNat 24 (len.toNat / 2) ∧ t.peer.rxLine = [] ∧ t.cart = s.cart) ∧
    (1 ≤ k → 2 ≤ offered.length →
      ∃ t, exec .mdGetId s = .next t ∧ t.done = true ∧ t.peer.devAddr = s.peer.devAddr ∧ t.peer.idReply = .settled ∧
      (s.peer.idReply = .settled → t.result = s.peer.identity.setWidth 32) ∧
      (s.peer.idReply = .afterReopen → t.result = s.peer.identity.setWidth 32 ∨
        ∃ id : Word, t.result = id.setWidth 32 ∧ id ≠ 0 ∧ id.extractLsb' 8 8 = id.extractLsb' 0 8))

/-- MD_HANDSHAKE (R237, R238, R327): no anomaly; one anomaly and a recovery; two anomalies; a Reopen that fails. First with the two ids
given by the transport, then with the MD adapter in step, whose ids are the identity value or what R307 allows (R301). -/
def Obligations.MdHandshakePaths : Prop :=
  let anomalous (id : Word) : Prop := id.extractLsb' 8 8 = id.extractLsb' 0 8 ∧ id ≠ 0x0000
  (∀ (s : State) k txs b0 b1 more rxs, s.Calm → s.adapter = .gb → s.env.tx = .accepted k :: txs → 1 ≤ k →
    s.env.rx = .got (b0 :: b1 :: more) :: rxs → ¬anomalous (b0 ++ b1) →
    exec .mdHandshake s = .next (State.completed ((b0 ++ b1 : BitVec 16).setWidth 32)
      { State.sent [0x62] txs (s.received rxs) with hsAttempt := 0 })) ∧
  (∀ (s : State) k txs b0 b1 more rxs ros, s.Calm → s.adapter = .gb → s.env.tx = .accepted k :: txs → 1 ≤ k →
    s.env.rx = .got (b0 :: b1 :: more) :: rxs → anomalous (b0 ++ b1) → s.env.reopen = false :: ros →
    ∃ t, exec .mdHandshake s = .next t ∧ t.err = true ∧ t.errKind = 1 ∧ t.errSub = 4 ∧ t.errInfo = 0 ∧ t.hsAttempt = 0 ∧
      t.tCur = s.cfg.tReopen ∧ t.syncLost = true ∧ t.cursorValid = false ∧ t.delayValid = false ∧ t.txLog = s.txLog ++ [0x62]) ∧
  (∀ (s : State) k1 k2 k3 txs b0 b1 more1 c0 c1 more2 rxs ros, s.Calm → s.adapter = .gb →
    s.env.tx = .accepted k1 :: .accepted k2 :: .accepted k3 :: txs → 1 ≤ k1 → 1 ≤ k2 → 2 ≤ k3 →
    s.env.rx = .got (b0 :: b1 :: more1) :: .got (c0 :: c1 :: more2) :: rxs → s.env.reopen = true :: ros →
    anomalous (b0 ++ b1) →
    ∃ t, exec .mdHandshake s = .next t ∧ t.hsAttempt = 0 ∧ t.tCur = s.cfg.tReopen ∧ t.curW = s.curW ∧
      t.cursorValid = s.cursorValid ∧ t.syncLost = s.syncLost ∧ t.dbuf = s.dbuf ∧
      (¬anomalous (c0 ++ c1) → t.done = true ∧ t.result = (c0 ++ c1 : BitVec 16).setWidth 32 ∧ t.delaySh = 0x00 ∧
        t.delayValid = true ∧ t.txLog = s.txLog ++ [0x62, 0x62, 0x05, 0x00]) ∧
      (anomalous (c0 ++ c1) → t.err = true ∧ t.errKind = 5 ∧ t.errSub = 1 ∧ t.errInfo = (c0 ++ c1 : BitVec 16).setWidth 32 ∧
        t.result = s.result ∧ t.delaySh = s.delaySh ∧ t.delayValid = s.delayValid ∧ t.txLog = s.txLog ++ [0x62, 0x62])) ∧
  (∀ (s : State) k txs offered rxs (id : Word) free, s.Calm → s.InStep → s.FirstId id free → s.env.tx = .accepted k :: txs → 1 ≤ k →
    s.env.rx = .got offered :: rxs → 2 ≤ offered.length →
    (¬anomalous id → exec .mdHandshake s = .next (State.completed (id.setWidth 32) { s with
      hsAttempt := 0
      env := { s.env with tx := txs, rx := rxs, free := free }
      peer := { s.peer with idReply := .settled }
      txLog := s.txLog ++ [0x62] })) ∧
    (∀ ros, anomalous id → s.env.reopen = false :: ros →
      ∃ t, exec .mdHandshake s = .next t ∧ t.err = true ∧ t.errKind = 1 ∧ t.errSub = 4 ∧ t.tCur = s.cfg.tReopen ∧
        t.txLog = s.txLog ++ [0x62]) ∧
    (∀ ros k2 k3 txs2 offered2 rxs2 v free2, anomalous id → s.env.reopen = true :: ros →
      txs = .accepted k2 :: .accepted k3 :: txs2 → 1 ≤ k2 → 2 ≤ k3 → rxs = .got offered2 :: rxs2 → 2 ≤ offered2.length →
      free = v :: free2 →
      let id2 := if anomaly v then v else s.peer.identity
      ∃ t, exec .mdHandshake s = .next t ∧ t.hsAttempt = 0 ∧ t.tCur = s.cfg.tReopen ∧ t.curW = s.curW ∧
        t.cursorValid = s.cursorValid ∧ t.syncLost = false ∧ t.dbuf = s.dbuf ∧ t.cart = s.cart ∧
        (¬anomalous id2 → t.done = true ∧ t.result = id2.setWidth 32 ∧ t.delaySh = 0x00 ∧ t.delayValid = true ∧
          t.peer.inbox = [0x05, 0x00] ∧ t.txLog = s.txLog ++ [0x62, 0x62, 0x05, 0x00]) ∧
        (anomalous id2 → t.InStep ∧ t.err = true ∧ t.errKind = 5 ∧ t.errSub = 1 ∧ t.errInfo = id2.setWidth 32 ∧
          t.result = s.result ∧ t.delaySh = s.delaySh ∧ t.delayValid = s.delayValid ∧ t.txLog = s.txLog ++ [0x62, 0x62])))

/-- MD_READ of any even length in chunks of at most 65536 bytes, one read for each (R226, R227, R229, R239): the bytes are in DBUF in
arrival order, five bytes were sent for each chunk, CUR_W has moved by the words while it is valid; nothing else changes. -/
def Obligations.MdReadCompletes : Prop :=
  ∀ (s : State) (boff len : Reg32) (parts : List (List Byte)) (rxs : List RxDraw),
    s.Calm → s.adapter = .gb → len.toNat % 2 = 0 → boff.toNat + len.toNat ≤ s.cfg.dbufSize →
    parts.map List.length = chunks len.toNat → Accepts parts.length 5 s.env.tx → s.env.rx = parts.map .got ++ rxs →
    ∃ t, exec (.mdRead boff len) s = .next t ∧
      t = State.completed len { s with
        dbuf := t.dbuf
        curW := if s.cursorValid then s.curW + BitVec.ofNat 24 (len.toNat / 2) else s.curW
        env := { s.env with tx := s.env.tx.drop parts.length, rx := rxs }
        txLog := s.txLog ++ parts.flatMap fun part =>
          [0x01, BitVec.ofNat 8 (part.length / 512), 0x01, BitVec.ofNat 8 (part.length / 2), 0x82] } ∧
      (∀ j < len.toNat, t.dbuf.get (boff.toNat + j) = parts.flatten[j]?) ∧
      (∀ a, a < boff.toNat ∨ boff.toNat + len.toNat ≤ a → t.dbuf.get a = s.dbuf.get a)

/-- MD_WRITE of any even length (R228, R229, R239): for each chunk of at most 65536 bytes its word count and its DBUF bytes in order are
sent, all in one TxWrite (R221; log entry 14), CUR_W has moved by the words while it is valid; DBUF and everything else unchanged. -/
def Obligations.MdWriteCompletes : Prop :=
  ∀ (s : State) (boff len : Reg32) (data : List Byte),
    s.Calm → len.toNat % 2 = 0 → boff.toNat + len.toNat ≤ s.cfg.dbufSize →
    s.dbuf.getBytes boff.toNat len.toNat = some data →
    let stream : List Byte := (List.range ((len.toNat + 65535) / 65536)).flatMap fun j =>
      let part := (data.drop (65536 * j)).take 65536
      [0x01, BitVec.ofNat 8 (part.length / 512), 0x01, BitVec.ofNat 8 (part.length / 2), 0x83] ++ part
    (len ≠ 0 → Accepts 1 stream.length s.env.tx) →
    exec (.mdWrite boff len) s = .next (State.completed len
      { s.sent stream (s.env.tx.drop (if len = 0 then 0 else 1)) with
        curW := if s.cursorValid then s.curW + BitVec.ofNat 24 (len.toNat / 2) else s.curW })

/-- The argument checks of MD_READ, MD_WRITE and MD_FLASH_WRITE (R70, R239, R240, R322): ODD_LENGTH, then BUFFER_RANGE, with nothing sent
and nothing else changed; a length of 0 completes without I/O. -/
def Obligations.MdBulkChecks : Prop :=
  ∀ (s : State) (boff len : Reg32) (i : Instr),
    i ∈ [Instr.mdRead boff len, Instr.mdWrite boff len, Instr.mdFlashWrite boff len] → s.busy = false →
    if len.toNat % 2 = 1 then exec i s = .next (s.raised 3 3 len)
    else if s.cfg.dbufSize < boff.toNat + len.toNat then exec i s = .next (s.raised 7 3 boff)
    else if len = 0 then exec i s = .next (s.completed 0)
    else True

/-- The chunks of an even length (R227): full ones first, then the remainder; each even, nonzero and at most 65536; together the length. -/
def Obligations.ChunkList : Prop :=
  (∀ n, n % 2 = 0 → chunks n = List.replicate (n / 65536) 65536 ++ (if n % 65536 ≠ 0 then [n % 65536] else []) ∧
    (chunks n).sum = n ∧ ∀ c ∈ chunks n, c % 2 = 0 ∧ 0 < c ∧ c ≤ 65536) ∧
  chunks 0 = [] ∧ chunks 150000 = [65536, 65536, 18928]

/-- While the MD peer follows and CUR_W is valid, CUR_W is the peer's cursor (R32, R229, R374): every MD request that meets no transport
error keeps it so, whatever the transport and the cartridge answer. -/
def Obligations.CursorMirrorsPeer : Prop :=
  ∀ (i : Instr) (s t : State), isMdRequest i = true → s.Calm → s.Mirrors → exec i s = .next t → t.syncLost = false → t.Mirrors

/-- RxFill (R224, R76): partial reads are collected until the chunk is full; an empty read or a timeout raises with the bytes collected so
far as ERR_INFO, and these are stored. -/
def Obligations.PartialReads : Prop :=
  ∀ (s : State) (boff len : Reg32) (pieces : List (List Byte)) (k : Nat) (txs : List TxDraw) (rxs : List RxDraw),
    s.Calm → s.adapter = .gb → len.toNat % 2 = 0 → 0 < len.toNat → len.toNat ≤ 65536 →
    boff.toNat + len.toNat ≤ s.cfg.dbufSize → s.env.tx = .accepted k :: txs → 5 ≤ k → (∀ p ∈ pieces, p ≠ []) →
    (pieces.flatten.length = len.toNat → s.env.rx = pieces.map .got ++ rxs →
      ∃ t, exec (.mdRead boff len) s = .next t ∧ t.done = true ∧ t.result = len ∧ t.env.rx = rxs ∧
        ∀ j < len.toNat, t.dbuf.get (boff.toNat + j) = pieces.flatten[j]?) ∧
    (pieces.flatten.length < len.toNat → ∀ d ∈ [(RxDraw.got [], (2 : Byte)), (RxDraw.timedOut [], 3), (RxDraw.failed [], 4)],
      s.env.rx = pieces.map .got ++ d.1 :: rxs →
      ∃ t, exec (.mdRead boff len) s = .next t ∧ t.err = true ∧ t.errKind = 1 ∧ t.errSub = d.2 ∧
        t.errInfo = BitVec.ofNat 32 pieces.flatten.length ∧ t.syncLost = true ∧ t.cursorValid = false ∧ t.curW = s.curW ∧
        t.result = s.result ∧
        (∀ j < pieces.flatten.length, t.dbuf.get (boff.toNat + j) = pieces.flatten[j]?) ∧
        (∀ a, a < boff.toNat ∨ boff.toNat + pieces.flatten.length ≤ a → t.dbuf.get a = s.dbuf.get a))

/-! ### The end of a request -/

/-- A TransportError sets SYNC_LOST, and in an MD request clears CURSOR_VALID and DELAY_VALID (R325, R329). Replies are free draws while
SYNC_LOST = 1 and, also after a block reset, until the line has been opened anew (R379; log entry 35): MD_GET_ID then returns what the
draw brings, whatever the peer holds, and leaves the peer's own replies on the line (log entry 40). The Reopen of MD_HANDSHAKE ends
it where SYNC_LOST = 0, and only there: the second id is then the peer's. -/
def Obligations.TransportErrorEffects : Prop :=
  let free (s : State) : Prop := s.syncLost = true ∨ s.peer.stale = true
  (∀ (i : Instr) (s t : State), isRequest i = true → s.busy = false → exec i s = .next t → t.err = true → t.errKind = 1 →
    t.syncLost = true ∧ t.peer.stale = true ∧ (isMdRequest i = true → t.cursorValid = false ∧ t.delayValid = false)) ∧
  (∀ (i : Instr) (s t : State), isRequest i = true → s.Calm → i ≠ .mdHandshake → free s → exec i s = .next t → free t) ∧
  (∀ (s : State) fam n offered, free s → s.repliesBound fam = false ∧ takeReplies fam n offered s = (offered.take n, s)) ∧
  (∀ (s : State) k txs b0 b1 more rxs, s.Calm → s.adapter = .md → free s → s.env.tx = .accepted k :: txs → 1 ≤ k →
    s.env.rx = .got (b0 :: b1 :: more) :: rxs →
    ∃ t, exec .mdGetId s = .next t ∧ t.done = true ∧ t.result = (b0 ++ b1 : BitVec 16).setWidth 32 ∧
      t.peer.rxLine = (drain { s with peer := { s.peer with inbox := s.peer.inbox ++ [0x62] } }).peer.rxLine) ∧
  (∀ (s : State) k1 k2 k3 txs (b : Byte) more1 c0 c1 more2 rxs ros v fs, s.Calm → s.adapter = .md → free s → s.peer.ps = .op →
    s.peer.inbox = [] → s.peer.idReply = .settled → s.env.tx = .accepted k1 :: .accepted k2 :: .accepted k3 :: txs → 1 ≤ k1 →
    1 ≤ k2 → 2 ≤ k3 → b ≠ 0x00 → s.env.rx = .got (b :: b :: more1) :: .got (c0 :: c1 :: more2) :: rxs →
    s.env.reopen = true :: ros → s.env.free = v :: fs →
    let id : Word := if s.syncLost then c0 ++ c1 else if anomaly v then v else s.peer.identity
    ∃ t, exec .mdHandshake s = .next t ∧ t.peer.stale = s.syncLost ∧ t.syncLost = s.syncLost ∧
      (if anomaly id then t.err = true ∧ t.errKind = 5 ∧ t.errInfo = id.setWidth 32
      else t.done = true ∧ t.result = id.setWidth 32))

/-- Every accepted request that no reset stops ends (R320, R330, R333): completed, with the error registers as they were, or raised, with
ERR and STICKY_ERR set and RESULT as it was (R24, R25); never both; XSTATE is IDLE. -/
def Obligations.RequestsEnd : Prop :=
  ∀ (i : Instr) (s t : State), isRequest i = true → s.busy = false → s.ResetFree → exec i s = .next t →
    t.busy = false ∧ t.xstate = .idle ∧
    ((t.done = true ∧ t.err = false ∧ t.errKind = s.errKind ∧ t.errSub = s.errSub ∧ t.errInfo = s.errInfo ∧
        t.stickyErr = s.stickyErr) ∨
      (t.done = false ∧ t.err = true ∧ t.stickyErr = true ∧ t.result = s.result))

/-- Every CapacityMismatch, UnsupportedSeek and IllegalRequest, and every error of PKT_BUILD, changes nothing but the error registers and
STATUS (R323): first the errors a request raises, then those of a word that is no request (only REQ has latched it). -/
def Obligations.ChecksChangeNothing : Prop :=
  (∀ (i : Instr) (s t : State), isRequest i = true → s.Ready → exec i s = .next t → t.err = true →
    (t.errKind = 3 ∨ t.errKind = 6 ∨ t.errKind = 7 ∨ ∃ c m sub idx boff, i = .pktBuild c m sub idx boff) →
    t = { s with
      errKind := t.errKind
      errSub := t.errSub
      errInfo := t.errInfo
      err := true
      stickyErr := true
      done := false }) ∧
  (∀ (s : State) w rest e, s.Ready → s.peerPending = false → s.pktPort = [] → s.port = .writeReq w :: rest →
    decodeRequest w = .error e →
    ∃ t, step s = .next t ∧ t = { s with
      port := rest
      req := w
      errKind := 7
      errSub := t.errSub
      errInfo := t.errInfo
      err := true
      stickyErr := true
      done := false })

/-! ### Flash -/

/-- MD_FLASH_ERASE (R271, R272, R273, R274): ADDRESS_RANGE, then ERASE_ALIGN; otherwise the unlock sequence, the eight sector writes and
the ready-poll are sent, and the cursor is at the last sector written. Under RY_THEN_RD_SINGLE the two reply bytes are read and
discarded; under RY_ONLY nothing is read. With the MD adapter in step, the reply comes from the peer, which has executed the whole
stream and is in step again, and the cartridge is as the stream leaves it (FlashReadsBack says how). -/
def Obligations.FlashEraseRequest : Prop :=
  ∀ (s : State) (addr : Reg32), s.busy = false →
    if 2 ^ 25 ≤ addr.toNat then exec (.mdFlashErase addr) s = .next (s.raised 3 4 addr)
    else if addr.toNat % 65536 ≠ 0 then exec (.mdFlashErase addr) s = .next (s.raised 3 2 addr)
    else ∀ k txs, s.env.visits = [] → s.env.tx = .accepted k :: txs →
      let write (a : Nat) (v : Word) : List Byte :=
        let w : WordAddr := BitVec.ofNat 24 (a / 2)
        [0x00, w.extractLsb' 16 8, 0x00, w.extractLsb' 8 8, 0x00, w.extractLsb' 0 8, 0x43, v.extractLsb' 8 8, v.extractLsb' 0 8]
      let erase : List Byte :=
        write 0xAAA 0x00AA ++ write 0x554 0x0055 ++ write 0xAAA 0x0080 ++ write 0xAAA 0x00AA ++ write 0x554 0x0055 ++
          ((List.range 8).flatMap fun i => write (addr.toNat + i * s.cfg.eraseStep) 0x0030)
      (∀ b0 b1 more rxs, s.adapter = .gb → s.cfg.readyPoll = .ryThenRdSingle → 119 ≤ k → s.env.rx = .got (b0 :: b1 :: more) :: rxs →
        exec (.mdFlashErase addr) s = .next (State.completed 0 { State.sent (erase ++ [0x04, 0x42]) txs (s.received rxs) with
          curW := BitVec.ofNat 24 ((addr.toNat + 7 * s.cfg.eraseStep) / 2)
          cursorValid := true })) ∧
      (∀ offered rxs, s.InStep → s.cfg.readyPoll = .ryThenRdSingle → 119 ≤ k → s.env.rx = .got offered :: rxs →
        2 ≤ offered.length →
        ∃ fs count, exec (.mdFlashErase addr) s = .next (State.completed 0 { s with
          curW := BitVec.ofNat 24 ((addr.toNat + 7 * s.cfg.eraseStep) / 2)
          cursorValid := true
          peer := { s.peer with devAddr := BitVec.ofNat 24 ((addr.toNat + 7 * s.cfg.eraseStep) / 2) }
          cart := (peerFeed (erase ++ [0x04, 0x42]) s).cart
          env := { s.env with tx := txs, rx := rxs, free := fs, count := count }
          txLog := s.txLog ++ erase ++ [0x04, 0x42] })) ∧
      (s.cfg.readyPoll = .ryOnly → 118 ≤ k →
        exec (.mdFlashErase addr) s = .next (State.completed 0 { s.sent (erase ++ [0x04]) txs with
          curW := BitVec.ofNat 24 ((addr.toNat + 7 * s.cfg.eraseStep) / 2)
          cursorValid := true }))

/-- MD_FLASH_WRITE (R277, R278, R279): the cursor one word further for each word, RESULT = LEN. Under RY_THEN_RD_SINGLE twelve bytes are
sent for every word and two reply bytes discarded after each; under RY_ONLY eleven bytes for every word, all in one TxWrite
(R221; log entry 14), and nothing is read. With the MD adapter in step, the replies come from the peer, which has executed the whole
stream, its cursor moved by the words, and is in step again; the cartridge is as the stream leaves it (FlashReadsBack says how). -/
def Obligations.FlashWriteCompletes : Prop :=
  ∀ (s : State) (boff len : Reg32) (data : List Byte),
    s.Calm → len.toNat % 2 = 0 → boff.toNat + len.toNat ≤ s.cfg.dbufSize →
    s.dbuf.getBytes boff.toNat len.toNat = some data →
    let moved := if s.cursorValid then s.curW + BitVec.ofNat 24 (len.toNat / 2) else s.curW
    let stream (poll : List Byte) : List Byte := (List.range (len.toNat / 2)).flatMap fun i =>
      [0x01, 0x00, 0x01, 0x01, 0x43, 0x00, 0xA0, 0x83, data.getD (2 * i) 0, data.getD (2 * i + 1) 0] ++ poll
    (∀ (replies : List (List Byte)) (rxs : List RxDraw), s.adapter = .gb → s.cfg.readyPoll = .ryThenRdSingle →
      Accepts (len.toNat / 2) 12 s.env.tx → replies.length = len.toNat / 2 → (∀ r ∈ replies, r.length = 2) →
      s.env.rx = replies.map .got ++ rxs →
      exec (.mdFlashWrite boff len) s = .next (State.completed len
        { State.sent (stream [0x04, 0x42]) (s.env.tx.drop (len.toNat / 2)) (s.received rxs) with curW := moved })) ∧
    (∀ (replies : List (List Byte)) (rxs : List RxDraw), s.InStep → s.cfg.readyPoll = .ryThenRdSingle →
      Accepts (len.toNat / 2) 12 s.env.tx → replies.length = len.toNat / 2 → (∀ r ∈ replies, 2 ≤ r.length) →
      s.env.rx = replies.map .got ++ rxs →
      ∃ fs count, exec (.mdFlashWrite boff len) s = .next (State.completed len { s with
        curW := moved
        peer := { s.peer with
          devAddr := s.peer.devAddr + BitVec.ofNat 24 (len.toNat / 2)
          devLen := if len = 0 then s.peer.devLen else 1 }
        cart := (peerFeed (stream [0x04, 0x42]) s).cart
        env := { s.env with tx := s.env.tx.drop (len.toNat / 2), rx := rxs, free := fs, count := count }
        txLog := s.txLog ++ stream [0x04, 0x42] })) ∧
    (s.cfg.readyPoll = .ryOnly → (len ≠ 0 → Accepts 1 (11 * (len.toNat / 2)) s.env.tx) →
      exec (.mdFlashWrite boff len) s = .next (State.completed len
        { s.sent (stream [0x04]) (s.env.tx.drop (if len = 0 then 0 else 1)) with curW := moved }))

/-- What the erase stream, the program stream and the reset sequence leave in the flash of the reference cartridge (R274, R280, R282):
after an erase every byte of the 64 KiB block reads 0xFF; a programmed word that was erased reads back as written, and no other
byte changes; the program stream outside bypass mode opens the word it addresses and nothing else (R278, I7), and a chip in read mode
is in read mode after it; the reset sequence returns the chip to read mode. The chip's command states are the model's, and so is that a
chip still busy takes a write as a ready one does (log entry 18). -/
def Obligations.FlashReadsBack : Prop :=
  (∀ (s : State) (a : Nat), s.peer.ps = .op → s.cfg.readSideEffects = .none → s.cfg.readyPoll = .ryThenRdSingle →
    s.cfg.eraseStep = 0x2000 → s.cart.ramMode = .unbanked → s.cart.flash = .read → a % 65536 = 0 → a < 2 ^ 25 →
    (∀ w, a / 2 ≤ w → w < a / 2 + 32768 → regionAt s.cart.map w = some .flash) →
    (∀ w ∈ [0x555, 0x2AA], regionAt s.cart.map w ≠ some .ram ∧ regionAt s.cart.map w ≠ some .rom) →
    ∀ w, a / 2 ≤ w → w < a / 2 + 32768 →
      (peerFeed (eraseStream s.cfg a) s).cart.known w = (some 0xFF, some 0xFF)) ∧
  (∀ (s : State) (v : Word), s.peer.ps = .op → s.cfg.readSideEffects = .none → s.cfg.readyPoll = .ryThenRdSingle →
    s.cart.ramMode = .unbanked → s.cart.flash = .bypass → s.peer.devAddr ≠ mapperWord →
    regionAt s.cart.map s.peer.devAddr.toNat = some .flash →
    s.cart.cells.get (2 * s.peer.devAddr.toNat) = some 0xFF →
    s.cart.cells.get (2 * s.peer.devAddr.toNat + 1) = some 0xFF →
    let t := peerFeed (lenFrame 1 ++ wordWrFrame 0x00A0 ++ incWrFrame v ++ readyPollTx s.cfg.readyPoll) s
    t.cart.cells.get (2 * s.peer.devAddr.toNat) = some (v.extractLsb' 8 8) ∧
    t.cart.cells.get (2 * s.peer.devAddr.toNat + 1) = some (v.extractLsb' 0 8) ∧
    (∀ b, b ≠ 2 * s.peer.devAddr.toNat → b ≠ 2 * s.peer.devAddr.toNat + 1 →
      t.cart.cells.get b = s.cart.cells.get b) ∧
    t.cart.flash = .bypass ∧ t.cart.ramMode = .unbanked ∧ t.peer.ps = .op ∧ t.peer.devAddr = s.peer.devAddr + 1) ∧
  (∀ (s : State) (v : Word), s.peer.ps = .op → s.cfg.readSideEffects = .none → s.cfg.readyPoll = .ryThenRdSingle →
    s.cart.ramMode = .unbanked → s.cart.flash = .read → s.cart.flashBusy = false → s.peer.devAddr ≠ mapperWord →
    regionAt s.cart.map s.peer.devAddr.toNat = some .flash →
    let t := peerFeed (lenFrame 1 ++ wordWrFrame 0x00A0 ++ incWrFrame v ++ readyPollTx s.cfg.readyPoll) s
    t.cart.known s.peer.devAddr.toNat = (none, none) ∧
    t.cart.cells.get (2 * s.peer.devAddr.toNat) = none ∧ t.cart.cells.get (2 * s.peer.devAddr.toNat + 1) = none ∧
    (∀ w, w ≠ s.peer.devAddr.toNat → t.cart.known w = s.cart.known w) ∧
    t.cart.flash = .read ∧ t.cart.ramMode = .unbanked ∧ t.peer.ps = .op ∧ t.peer.devAddr = s.peer.devAddr + 1) ∧
  (∀ s : State, s.peer.ps = .op → s.cart.ramMode = .unbanked → s.cart.flash = .bypass → s.cart.flashBusy = false →
    regionAt s.cart.map 0 = some .flash → ∀ w, regionAt s.cart.map w = some .flash →
      (peerFeed (cmdWrites [(0x000, 0x0090), (0x000, 0x0000)]) s).cart.known w =
        (s.cart.cells.get (2 * w), s.cart.cells.get (2 * w + 1)))

/-- After MD_FLASH_ERASE or MD_FLASH_WRITE has raised in its I/O, no byte of its target is known any more (R281); after MD_RAM_ENABLE or
MD_RAM_DISABLE has, the cartridge's RAM mode is unknown (R373; for the enable, log entry 38). -/
def Obligations.FailedFlashForgets : Prop :=
  (∀ (s t : State) (addr : Reg32), s.busy = false → exec (.mdFlashErase addr) s = .next t → t.err = true → t.errKind = 1 →
    ∀ b, addr.toNat ≤ b → b < addr.toNat + 65536 → t.cart.cells.get b = none) ∧
  (∀ (s t : State) (boff len : Reg32), s.busy = false → s.peer.inbox = [] → exec (.mdFlashWrite boff len) s = .next t →
    t.err = true → t.errKind = 1 →
    ∀ b, 2 * s.peer.devAddr.toNat ≤ b → b < 2 * s.peer.devAddr.toNat + len.toNat → t.cart.cells.get b = none) ∧
  (∀ (i : Instr) (s t : State), i ∈ [Instr.mdRamEnable, Instr.mdRamDisable] → s.busy = false → exec i s = .next t →
    t.err = true → t.cart.ramMode = .unknown)

/-! ### The MD peer -/

/-- ADDR, LEN, RY and DELAY (R295, R296, R303, R304; what RY does to the chip is log entry 18): each operand byte is shifted into its register; the block's three ADDR pairs and two
LEN pairs load it whatever it held. In state OP the frames complete and change nothing else; RY ends the flash's busy time. -/
def Obligations.ParameterFrames : Prop :=
  ∀ s : State, s.peer.ps = .op →
    peerByte 0x00 s = { s with peer := { s.peer with ps := .addrB } } ∧
    peerByte 0x01 s = { s with peer := { s.peer with ps := .lenB } } ∧
    peerByte 0x05 s = { s with peer := { s.peer with ps := .delayB } } ∧
    (∀ b : Byte, peerByte b { s with peer := { s.peer with ps := .addrB } } =
      { s with peer := { s.peer with devAddr := (s.peer.devAddr.extractLsb' 0 16 ++ b : BitVec 24) } }) ∧
    (∀ b : Byte, peerByte b { s with peer := { s.peer with ps := .lenB } } =
      { s with peer := { s.peer with devLen := (s.peer.devLen.extractLsb' 0 8 ++ b : BitVec 16) } }) ∧
    (∀ d : Byte, peerByte d { s with peer := { s.peer with ps := .delayB } } = { s with peer := { s.peer with devDelay := d } }) ∧
    (∀ b : Byte, exec (.addr b) s =
      .next { s with peer := { s.peer with devAddr := (s.peer.devAddr.extractLsb' 0 16 ++ b : BitVec 24) } }) ∧
    (∀ b : Byte, exec (.len b) s =
      .next { s with peer := { s.peer with devLen := (s.peer.devLen.extractLsb' 0 8 ++ b : BitVec 16) } }) ∧
    (∀ d : Byte, exec (.delay d) s = .next { s with peer := { s.peer with devDelay := d } }) ∧
    exec .ry s = .next { s with cart := s.cart.ready } ∧
    (∀ w, peerFeed (seekFrame w) s = { s with peer := { s.peer with devAddr := w } }) ∧
    (∀ c, peerFeed (lenFrame c) s = { s with peer := { s.peer with devLen := c } })

/-- RD with any flags in state OP (R297, R298, R301, R302; RD, RD|MODE8, RD|DEV_ID, RD|SINGLE, RD|INC and all their combinations): it
completes, replies with a unit for each word of the transfer, moves the cursor only with INC and without SINGLE and DEV_ID. Where the
cartridge bytes are known the reply is those; with DEV_ID it is the identity value, once the first replies are over (R307). The byte 52
moves one unit (log entry 36); DEV_ID with other flags is log entry 25. -/
def Obligations.RdFrames : Prop :=
  ∀ (s : State) (flags : BitVec 4), s.peer.ps = .op →
    let f := mdFlags flags
    let n := if f.single then 1 else s.peer.devLen.toNat
    let moves := f.inc && !f.single && !f.devId
    let wordAt (i : Nat) : WordAddr := if moves then s.peer.devAddr + BitVec.ofNat 24 i else s.peer.devAddr
    let unit (h l : Byte) : List Byte := if f.mode8 then [l] else [h, l]
    ∃ env cart idr bytes, exec (rdInstr flags) s = .next { s with
        env := env
        cart := cart
        peer := { s.peer with
          devAddr := wordAt n
          idReply := idr
          rxLine := s.peer.rxLine ++ bytes } } ∧
      bytes.length = n * (if f.mode8 then 1 else 2) ∧
      (s.cfg.readSideEffects = .none ∨ f.devId = true → cart = s.cart) ∧
      (∀ h l : Nat → Byte, f.devId = false → s.cfg.readSideEffects = .none →
        (∀ i < n, s.cart.known (wordAt i).toNat = (some (h i), some (l i))) →
        bytes = (List.range n).flatMap fun i => unit (h i) (l i)) ∧
      (f.devId = true → s.peer.idReply = .settled →
        bytes = (List.range n).flatMap fun _ => unit (hiByte s.peer.identity) (loByte s.peer.identity))

/-- WR with any flags and all its data bytes in state OP (R299, R300, R301, R302; WR, WR|MODE8, WR|DEV_ID, WR|SINGLE, WR|INC and all their
combinations): it completes, writes its words in order, the low byte alone with MODE8, sends no reply, moves the cursor only with
INC and without SINGLE; DEV_ID makes no difference. Nothing else changes. -/
def Obligations.WrFrames : Prop :=
  ∀ (s : State) (flags : BitVec 4) (data : List Byte), s.peer.ps = .op →
    let f := mdFlags flags
    let n := if f.single then 1 else s.peer.devLen.toNat
    let moves := f.inc && !f.single
    let wordAt (i : Nat) : WordAddr := if moves then s.peer.devAddr + BitVec.ofNat 24 i else s.peer.devAddr
    data.length = n * (if f.mode8 then 1 else 2) →
    exec (wrInstr flags data) s = .next { s with
      cart := (List.range n).foldl (fun c i => c.write s.cfg (wordAt i).toNat
        (if f.mode8 then none else some (data.getD (2 * i) 0)) (data.getD (if f.mode8 then i else 2 * i + 1) 0)) s.cart
      peer := { s.peer with devAddr := wordAt n } }

/-- The reserved command bytes (R97, R305; the six reserved classes): DEV_PS becomes UNDEF and nothing is known of the cartridge any more; in
UNDEF every frame completes without effect and no reply is bound to the peer. -/
def Obligations.ReservedFrames : Prop :=
  (∀ (s : State) (i : Instr) (flags : BitVec 4) (low1 : BitVec 1) (low3 : BitVec 3), s.peer.ps = .op →
    i ∈ [Instr.mdReservedOp67 low1 flags, Instr.mdReservedOp8F low3 flags, Instr.mdReservedAddrWithFlags flags,
      Instr.mdReservedLenWithFlags flags, Instr.mdReservedRyWithFlags flags, Instr.mdReservedDelayWithFlags flags] →
    exec i s = .next { s with cart := s.cart.forgetAll, peer := { s.peer with ps := .undef } }) ∧
  (∀ (s : State) (b : Byte), s.peer.ps = .op → mdKind b = .reserved →
    peerByte b s = { s with cart := s.cart.forgetAll, peer := { s.peer with ps := .undef } }) ∧
  (∀ (s : State) (i : Instr) fam, s.peer.ps = .undef → frameBytes i ≠ [] → exec i s = .next s ∧ s.repliesBound fam = false)

/-- Executing a frame in state OP is feeding its bytes to the parser one at a time (R290, R294), for every well-formed MD frame. -/
def Obligations.FramesAreStreams : Prop :=
  ∀ (i : Instr) (s : State), frameBytes i ≠ [] → i.wellFormed = true →
    (∀ n, i.bulkUnits = some n → s.peer.devLen.toNat = n) → s.peer.ps = .op → exec i s = .next (peerFeed (frameBytes i) s)

/-- What is written to cartridge RAM while RAM is banked in reads back (R306), with the MD adapter in step: MD_WRITE_BYTE and then
MD_READ_WORD of the same address complete, and RESULT[7:0] is the byte (R232, R230); MD_SEEK, MD_WRITE of one chunk, MD_SEEK and
MD_READ of the same words complete, and the low byte of every word is back (R240). It stays the last value written while RAM is
banked out: no word write then changes a byte of RAM, a flash command and a sector erase over a mixed block among them. Which words
are RAM, and that a write to one while RAM is banked out does not reach it, is log entry 19. -/
def Obligations.RamByteReadsBack : Prop :=
  (∀ (s : State) (w : WordAddr) (hi : Option Byte) (lo : Byte), s.cart.ramMode = .unbanked → w ≠ mapperWord →
    s.cart.cells.wf = true → ∀ x, regionAt s.cart.map x = some .ram →
      (cartWrite w hi lo s).cart.cells.get (2 * x + 1) = s.cart.cells.get (2 * x + 1)) ∧
  ∀ (s : State) (addr : Reg32), s.Calm → s.InStep → s.cfg.readSideEffects = .none → s.cart.ramMode = .banked →
    addr.toNat < 2 ^ 25 →
    (∀ (b : Byte) (k1 k2 : Nat) (txs : List TxDraw) (offered : List Byte) (rxs : List RxDraw), addr.toNat / 2 ≠ 0x509800 →
      regionAt s.cart.map (addr.toNat / 2) = some .ram → s.env.tx = .accepted k1 :: .accepted k2 :: txs → 9 ≤ k1 → 7 ≤ k2 →
      s.env.rx = .got offered :: rxs → 2 ≤ offered.length →
      ∃ t u, exec (.mdWriteByte addr b) s = .next t ∧ t.done = true ∧ exec (.mdReadWord addr) t = .next u ∧ u.done = true ∧
        u.result.extractLsb' 0 8 = b) ∧
    (∀ (boff boff2 len : Reg32) (data offered : List Byte) (rxs : List RxDraw), len.toNat % 2 = 0 → 0 < len.toNat →
      len.toNat ≤ 65536 → boff.toNat + len.toNat ≤ s.cfg.dbufSize → boff2.toNat + len.toNat ≤ s.cfg.dbufSize →
      s.dbuf.getBytes boff.toNat len.toNat = some data →
      (∀ i < len.toNat / 2, (halved addr.toNat + BitVec.ofNat 24 i).toNat ≠ 0x509800 ∧
        regionAt s.cart.map (halved addr.toNat + BitVec.ofNat 24 i).toNat = some .ram) →
      Accepts 4 (5 + len.toNat) s.env.tx → s.env.rx = .got offered :: rxs → len.toNat ≤ offered.length →
      ∃ t u v w, exec (.mdSeek 0 addr) s = .next t ∧ exec (.mdWrite boff len) t = .next u ∧ u.done = true ∧
        exec (.mdSeek 0 addr) u = .next v ∧ exec (.mdRead boff2 len) v = .next w ∧ w.done = true ∧
        ∀ i < len.toNat / 2, w.dbuf.get (boff2.toNat + 2 * i + 1) = data[2 * i + 1]?)

/-! ### GB packets at the framer -/

/-- The control packets ACK, NAK and END, and the ten DATA packets of R106, each built and sent by the framer (R102, R103, R104, R151, R153):
TXPKT holds the packet, a DATA packet with its computed trailer, and its bytes are on the wire. -/
def Obligations.GbPacketsSend : Prop :=
  (∀ (s : State) k rest, s.env.tx = .accepted k :: rest → 1 ≤ k →
    ∀ p ∈ [(Instr.gbAck, (0xAA : Byte)), (Instr.gbNak, 0xF0), (Instr.gbEnd, 0x0F)],
      exec p.1 s = .next (State.sent [p.2] rest { s with txpkt := s.txpkt.set 0 p.2, txlen := 1 })) ∧
  (∀ (s : State) k rest (idx : BitVec 24) (frame : List Byte) (trailer : Word), s.env.tx = .accepted k :: rest → 72 ≤ k →
    frame.length = 64 →
    ∀ p ∈ [(Instr.gbDataConfigRrom idx frame trailer, (0x00 : Byte), (0x00 : Byte)),
        (Instr.gbDataConfigRram idx frame trailer, 0x00, 0x01), (Instr.gbDataConfigWrom idx frame trailer, 0x00, 0x02),
        (Instr.gbDataConfigWram idx frame trailer, 0x00, 0x03), (Instr.gbDataNormalData idx frame trailer, 0x01, 0x00),
        (Instr.gbDataLastData idx frame trailer, 0x02, 0x00), (Instr.gbDataEraseEfla idx frame trailer, 0x03, 0x00),
        (Instr.gbDataEraseEram idx frame trailer, 0x03, 0x01), (Instr.gbDataStatusNreadId idx frame trailer, 0x04, 0x00),
        (Instr.gbDataStatusReadId idx frame trailer, 0x04, 0x01)],
      let q : List Byte := [0x55, p.2.1, p.2.2, idx.extractLsb' 16 8, idx.extractLsb' 8 8, idx.extractLsb' 0 8] ++ frame
      let c := crc16 0x0000 q
      exec p.1 s = .next (State.sent (q ++ [c.extractLsb' 8 8, c.extractLsb' 0 8]) rest { s with
        txpkt := (s.txpkt.setBytes 0 (q ++ [trailer.extractLsb' 8 8, trailer.extractLsb' 0 8])).setBytes 70
          [c.extractLsb' 8 8, c.extractLsb' 0 8]
        txlen := 72
        crc := c }))

/-! ### The whole machine -/

/-- Every step keeps the invariant of Safety.lean: between steps the block is idle, its flags agree, every byte store is canonical and in
bounds, TXLEN and RXLEN say what the packet buffers hold, XCOUNT is at most XLEN, T_CUR is one of the two timeouts, and a WR frame
under way fits its command byte. -/
def Obligations.StepKeepsInv : Prop :=
  ∀ s t : State, s.Inv → step s = .next t → t.Inv

/-- The invariant holds after reset. -/
def Obligations.ResetInv : Prop := State.reset.Inv

/-- No step changes a parameter (R10), the kind of the adapter (R378), its identity value or the cartridge's layout; what was sent stays sent
and what was read stays read (R80); STICKY_ERR and SYNC_LOST are cleared by reset only (R23, R37). -/
def Obligations.StepKeepsParameters : Prop :=
  ∀ s t : State, step s = .next t →
    t.cfg = s.cfg ∧ t.adapter = s.adapter ∧ t.peer.identity = s.peer.identity ∧ t.cart.map = s.cart.map ∧
    s.txLog <+: t.txLog ∧ s.reads <+: t.reads ∧
    (s.ResetFree → (s.stickyErr = true → t.stickyErr = true) ∧ (s.syncLost = true → t.syncLost = true))

/-- The requester at DBUF and at the registers (R60, R61, R338, R371). Between requests a DBUF write is kept, a DBUF read gives what was
written, an offset outside DBUF (log entry 23) or a byte without a value stops the model. Every readable register reads as its
value at any time, a packet byte without a value stopping the model (R27, R28, I4). While a request runs, at each transport call and
before CRC_BLOCK and PKT_BUILD take their bytes, a write of REQ does nothing, a DBUF read gives a free value, a DBUF write leaves the
byte free: so it runs in MD_SEEK. Where the requester wrote, a byte that MD_WRITE sends, that CRC_BLOCK covers or that PKT_BUILD
copies is a free byte of its own, not the one DBUF then holds. A STATUS read sees BUSY and the sequencer at work in a GB write
(R180). -/
def Obligations.RequesterPort : Prop :=
  (∀ (s : State) (rest : List PortAction), s.peerPending = false → s.pktPort = [] →
    (∀ off b, s.port = .writeDbuf off b :: rest → s.busy = false →
      step s = if off < s.cfg.dbufSize then .next { s with port := rest, dbuf := s.dbuf.set off b } else .fault .noSuchByte) ∧
    (∀ off, s.port = .readDbuf off :: rest → s.busy = false →
      step s = if off < s.cfg.dbufSize then
        (match s.dbuf.get off with
          | some b => .next { s with port := rest, reads := s.reads ++ [b.setWidth 32] }
          | none => .fault .unwrittenByte)
        else .fault .noSuchByte) ∧
    (∀ r, s.port = .readReg r :: rest →
      step s = match readRegister r s with
        | some v => .next { s with port := rest, reads := s.reads ++ [v] }
        | none => .fault .unwrittenByte)) ∧
  (∀ s : State, readRegister .status s = some (s.status.setWidth 32) ∧ readRegister .errKind s = some (s.errKind.setWidth 32) ∧
    readRegister .errSub s = some (s.errSub.setWidth 32) ∧ readRegister .errInfo s = some s.errInfo ∧
    readRegister .result s = some s.result ∧ readRegister .crc s = some (s.crc.setWidth 32) ∧
    readRegister .txlen s = some (s.txlen.setWidth 32) ∧ readRegister .rxlen s = some (s.rxlen.setWidth 32) ∧
    readRegister .xcount s = some s.xcount ∧ readRegister .curW s = some (s.curW.setWidth 32) ∧
    readRegister .delaySh s = some (s.delaySh.setWidth 32) ∧
    (∀ i, readRegister (.txpkt i) s = (s.txpkt.get i).map fun b => b.setWidth 32) ∧
    (∀ i, readRegister (.rxpkt i) s = (s.rxpkt.get i).map fun b => b.setWidth 32)) ∧
  (∀ (s : State) (v : Word) (fs : List Word) (off : Nat) (b : Byte), s.env.free = v :: fs →
    (∀ w, visitAction (.writeReq w) s = .ok () s) ∧
    (∀ r, visitAction (.readReg r) s = match readRegister r s with
      | some x => .ok () { s with reads := s.reads ++ [x] }
      | none => .error (.fault .unwrittenByte) s) ∧
    visitAction (.readDbuf off) s =
      .ok () { s with reads := s.reads ++ [(v.extractLsb' 0 8).setWidth 32], env := { s.env with free := fs } } ∧
    visitAction (.writeDbuf off b) s = .ok () (if off < s.cfg.dbufSize then
      { s with dbuf := s.dbuf.set off (v.extractLsb' 0 8), hazard := off :: s.hazard, env := { s.env with free := fs } } else s)) ∧
  (∀ (s u : State) (actions : List PortAction) (more : List (List PortAction)) (addr : Reg32) k txs, s.busy = false →
    s.env.visits = actions :: more →
    visitActions actions { s.accept with env := { s.env with visits := more } } = .ok none u →
    u.env.tx = .accepted k :: txs → 6 ≤ k → addr.toNat < 2 ^ 25 →
    exec (.mdSeek 0 addr) s = .next (State.completed ((halved addr.toNat).setWidth 32)
      { u.sent (seekFrame (halved addr.toNat)) txs with curW := halved addr.toNat, cursorValid := true })) ∧
  (∀ (s : State) (off : Nat) (b : Byte) (v w : Word) fs, s.busy = false → s.env.visits = [[.writeDbuf off b]] →
    s.env.free = v :: w :: fs →
    (∀ (boff len : Reg32) (data : List Byte) k txs, len.toNat % 2 = 0 → len.toNat ≤ 65536 →
      boff.toNat + len.toNat ≤ s.cfg.dbufSize → s.dbuf.getBytes boff.toNat len.toNat = some data →
      boff.toNat ≤ off → off < boff.toNat + len.toNat → s.env.tx = .accepted k :: txs → 5 + len.toNat ≤ k →
      ∃ t, exec (.mdWrite boff len) s = .next t ∧ t.done = true ∧ t.dbuf.get off = some (v.extractLsb' 0 8) ∧
        t.txLog = s.txLog ++ [0x01, BitVec.ofNat 8 (len.toNat / 512), 0x01, BitVec.ofNat 8 (len.toNat / 2), 0x83] ++
          data.set (off - boff.toNat) (w.extractLsb' 0 8)) ∧
    (∀ (boff len : Reg32) (data : List Byte), boff.toNat + len.toNat ≤ s.cfg.dbufSize →
      s.dbuf.getBytes boff.toNat len.toNat = some data → boff.toNat ≤ off → off < boff.toNat + len.toNat →
      ∃ t, exec (.crcBlock boff len) s = .next t ∧ t.done = true ∧ t.dbuf.get off = some (v.extractLsb' 0 8) ∧
        t.crc = crc16 s.crc (data.set (off - boff.toNat) (w.extractLsb' 0 8))) ∧
    (∀ (m sub : Byte) (idx : BitVec 24) (boff : Reg32) (frame : List Byte), validatePacket 0x55 m sub = none →
      boff.toNat + 64 ≤ s.cfg.dbufSize → s.dbuf.getBytes boff.toNat 64 = some frame →
      boff.toNat ≤ off → off < boff.toNat + 64 →
      ∃ t, exec (.pktBuild 0x55 m sub idx boff) s = .next t ∧ t.done = true ∧ t.dbuf.get off = some (v.extractLsb' 0 8) ∧
        t.txpkt.getBytes 6 64 = some (frame.set (off - boff.toNat) (w.extractLsb' 0 8)))) ∧
  (∀ (s : State) (boff len : Reg32) (data : List Byte) k1 k2 txs c more rxs, s.busy = false → s.adapter = .gb →
    transferLength len.toNat → boff.toNat + len.toNat ≤ s.cfg.dbufSize → s.dbuf.getBytes boff.toNat 64 = some data →
    s.env.visits = List.replicate 4 [.readReg .status] → s.env.tx = .accepted k1 :: .accepted k2 :: txs → 72 ≤ k1 → 72 ≤ k2 →
    s.env.rx = .got [0xAA] :: .got (c :: more) :: rxs → c ≠ 0x55 → c ≠ 0xAA →
    ∃ t seen, exec (.gbWriteRam boff len) s = .next t ∧ t.reads = s.reads ++ seen ∧
      seen.map (fun x => (x.extractLsb' 8 3, x.getLsbD 0)) = [(1, true), (2, true), (3, true), (2, true)])

/-- A reset while a request runs ends it there (R361): wherever the requester resets, no complete and no raise
happen, every register is as after reset (CUR_W unspecified), what was sent stays sent, and the requester's later actions follow.
For instance in the RxRead of PKT_RECEIVE, in the wait for an ACK of GB_WRITE_RAM, in the Reopen of MD_HANDSHAKE. -/
def Obligations.ResetStopsRequests : Prop :=
  let stopped (s t : State) (post : List PortAction) : Prop :=
    t = { State.reset with
      cfg := s.cfg
      tCur := s.cfg.tChar
      curW := t.curW
      adapter := s.adapter
      peer := t.peer
      cart := t.cart
      env := t.env
      pktPort := s.pktPort
      port := post ++ s.port
      reads := t.reads
      txLog := t.txLog } ∧ t.status = 0x0000 ∧ s.txLog <+: t.txLog ∧ s.reads <+: t.reads
  (∀ (i : Instr) (s t : State) (before : List (List PortAction)) (pre post : List PortAction), isRequest i = true →
    s.busy = false → s.env.visits = before ++ [pre ++ .reset :: post] → (∀ actions ∈ before, PortAction.reset ∉ actions) →
    PortAction.reset ∉ pre → exec i s = .next t → t.env.visits = [] → stopped s t post) ∧
  (∀ (s : State) post more, s.busy = false → s.env.visits = (.reset :: post) :: more →
    ∃ t, exec .pktReceive s = .next t ∧ stopped s t post ∧ t.env.rx = s.env.rx ∧ t.peer = s.peer ∧ t.txLog = s.txLog) ∧
  (∀ (s : State) (boff len : Reg32) post more k txs, s.busy = false → transferLength len.toNat →
    boff.toNat + len.toNat ≤ s.cfg.dbufSize → s.env.visits = [] :: (.reset :: post) :: more → s.env.tx = .accepted k :: txs →
    72 ≤ k → ∃ t, exec (.gbWriteRam boff len) s = .next t ∧ stopped s t post ∧
      t.txLog = s.txLog ++ configWire s.cfg.subWram len.toNat) ∧
  (∀ (s : State) post more k txs b0 b1 extra rxs, s.busy = false → s.adapter = .gb →
    s.env.visits = [] :: [] :: (.reset :: post) :: more → s.env.tx = .accepted k :: txs → 1 ≤ k →
    s.env.rx = .got (b0 :: b1 :: extra) :: rxs → b0 = b1 → b0 ≠ 0x00 →
    ∃ t, exec .mdHandshake s = .next t ∧ stopped s t post ∧ t.env.reopen = s.env.reopen)
end

