-- ==== Sys2Proof/Laws/State.lean ====
section
/-! SUPPORT. What each named update of the state leaves in each field. -/

namespace Sys2Proof.Machine

/-! ### State.accept -/

@[simp] theorem State.accept_cfg (s : State) : (s.accept).cfg = s.cfg := rfl
@[simp] theorem State.accept_req (s : State) : (s.accept).req = s.req := rfl
@[simp] theorem State.accept_busy (s : State) : (s.accept).busy = true := rfl
@[simp] theorem State.accept_done (s : State) : (s.accept).done = false := rfl
@[simp] theorem State.accept_err (s : State) : (s.accept).err = false := rfl
@[simp] theorem State.accept_stickyErr (s : State) : (s.accept).stickyErr = s.stickyErr := rfl
@[simp] theorem State.accept_cursorValid (s : State) : (s.accept).cursorValid = s.cursorValid := rfl
@[simp] theorem State.accept_ramEn (s : State) : (s.accept).ramEn = s.ramEn := rfl
@[simp] theorem State.accept_bypass (s : State) : (s.accept).bypass = s.bypass := rfl
@[simp] theorem State.accept_syncLost (s : State) : (s.accept).syncLost = s.syncLost := rfl
@[simp] theorem State.accept_xstate (s : State) : (s.accept).xstate = s.xstate := rfl
@[simp] theorem State.accept_errKind (s : State) : (s.accept).errKind = s.errKind := rfl
@[simp] theorem State.accept_errSub (s : State) : (s.accept).errSub = s.errSub := rfl
@[simp] theorem State.accept_errInfo (s : State) : (s.accept).errInfo = s.errInfo := rfl
@[simp] theorem State.accept_result (s : State) : (s.accept).result = s.result := rfl
@[simp] theorem State.accept_crc (s : State) : (s.accept).crc = s.crc := rfl
@[simp] theorem State.accept_txpkt (s : State) : (s.accept).txpkt = s.txpkt := rfl
@[simp] theorem State.accept_txlen (s : State) : (s.accept).txlen = s.txlen := rfl
@[simp] theorem State.accept_rxpkt (s : State) : (s.accept).rxpkt = s.rxpkt := rfl
@[simp] theorem State.accept_rxlen (s : State) : (s.accept).rxlen = s.rxlen := rfl
@[simp] theorem State.accept_xdir (s : State) : (s.accept).xdir = s.xdir := rfl
@[simp] theorem State.accept_xlen (s : State) : (s.accept).xlen = s.xlen := rfl
@[simp] theorem State.accept_xcount (s : State) : (s.accept).xcount = s.xcount := rfl
@[simp] theorem State.accept_xboff (s : State) : (s.accept).xboff = s.xboff := rfl
@[simp] theorem State.accept_curW (s : State) : (s.accept).curW = s.curW := rfl
@[simp] theorem State.accept_delaySh (s : State) : (s.accept).delaySh = s.delaySh := rfl
@[simp] theorem State.accept_delayValid (s : State) : (s.accept).delayValid = s.delayValid := rfl
@[simp] theorem State.accept_hsAttempt (s : State) : (s.accept).hsAttempt = s.hsAttempt := rfl
@[simp] theorem State.accept_tCur (s : State) : (s.accept).tCur = s.tCur := rfl
@[simp] theorem State.accept_dbuf (s : State) : (s.accept).dbuf = s.dbuf := rfl
@[simp] theorem State.accept_hazard (s : State) : (s.accept).hazard = [] := rfl
@[simp] theorem State.accept_adapter (s : State) : (s.accept).adapter = s.adapter := rfl
@[simp] theorem State.accept_peer (s : State) : (s.accept).peer = s.peer := rfl
@[simp] theorem State.accept_cart (s : State) : (s.accept).cart = s.cart := rfl
@[simp] theorem State.accept_env (s : State) : (s.accept).env = s.env := rfl
@[simp] theorem State.accept_pktPort (s : State) : (s.accept).pktPort = s.pktPort := rfl
@[simp] theorem State.accept_port (s : State) : (s.accept).port = s.port := rfl
@[simp] theorem State.accept_reads (s : State) : (s.accept).reads = s.reads := rfl
@[simp] theorem State.accept_txLog (s : State) : (s.accept).txLog = s.txLog := rfl

/-! ### State.complete -/

@[simp] theorem State.complete_cfg (r : Reg32) (s : State) : (s.complete r).cfg = s.cfg := rfl
@[simp] theorem State.complete_req (r : Reg32) (s : State) : (s.complete r).req = s.req := rfl
@[simp] theorem State.complete_busy (r : Reg32) (s : State) : (s.complete r).busy = false := rfl
@[simp] theorem State.complete_done (r : Reg32) (s : State) : (s.complete r).done = true := rfl
@[simp] theorem State.complete_err (r : Reg32) (s : State) : (s.complete r).err = s.err := rfl
@[simp] theorem State.complete_stickyErr (r : Reg32) (s : State) : (s.complete r).stickyErr = s.stickyErr := rfl
@[simp] theorem State.complete_cursorValid (r : Reg32) (s : State) : (s.complete r).cursorValid = s.cursorValid := rfl
@[simp] theorem State.complete_ramEn (r : Reg32) (s : State) : (s.complete r).ramEn = s.ramEn := rfl
@[simp] theorem State.complete_bypass (r : Reg32) (s : State) : (s.complete r).bypass = s.bypass := rfl
@[simp] theorem State.complete_syncLost (r : Reg32) (s : State) : (s.complete r).syncLost = s.syncLost := rfl
@[simp] theorem State.complete_xstate (r : Reg32) (s : State) : (s.complete r).xstate = .idle := rfl
@[simp] theorem State.complete_errKind (r : Reg32) (s : State) : (s.complete r).errKind = s.errKind := rfl
@[simp] theorem State.complete_errSub (r : Reg32) (s : State) : (s.complete r).errSub = s.errSub := rfl
@[simp] theorem State.complete_errInfo (r : Reg32) (s : State) : (s.complete r).errInfo = s.errInfo := rfl
@[simp] theorem State.complete_result (r : Reg32) (s : State) : (s.complete r).result = r := rfl
@[simp] theorem State.complete_crc (r : Reg32) (s : State) : (s.complete r).crc = s.crc := rfl
@[simp] theorem State.complete_txpkt (r : Reg32) (s : State) : (s.complete r).txpkt = s.txpkt := rfl
@[simp] theorem State.complete_txlen (r : Reg32) (s : State) : (s.complete r).txlen = s.txlen := rfl
@[simp] theorem State.complete_rxpkt (r : Reg32) (s : State) : (s.complete r).rxpkt = s.rxpkt := rfl
@[simp] theorem State.complete_rxlen (r : Reg32) (s : State) : (s.complete r).rxlen = s.rxlen := rfl
@[simp] theorem State.complete_xdir (r : Reg32) (s : State) : (s.complete r).xdir = s.xdir := rfl
@[simp] theorem State.complete_xlen (r : Reg32) (s : State) : (s.complete r).xlen = s.xlen := rfl
@[simp] theorem State.complete_xcount (r : Reg32) (s : State) : (s.complete r).xcount = s.xcount := rfl
@[simp] theorem State.complete_xboff (r : Reg32) (s : State) : (s.complete r).xboff = s.xboff := rfl
@[simp] theorem State.complete_curW (r : Reg32) (s : State) : (s.complete r).curW = s.curW := rfl
@[simp] theorem State.complete_delaySh (r : Reg32) (s : State) : (s.complete r).delaySh = s.delaySh := rfl
@[simp] theorem State.complete_delayValid (r : Reg32) (s : State) : (s.complete r).delayValid = s.delayValid := rfl
@[simp] theorem State.complete_hsAttempt (r : Reg32) (s : State) : (s.complete r).hsAttempt = s.hsAttempt := rfl
@[simp] theorem State.complete_tCur (r : Reg32) (s : State) : (s.complete r).tCur = s.tCur := rfl
@[simp] theorem State.complete_dbuf (r : Reg32) (s : State) : (s.complete r).dbuf = s.dbuf := rfl
@[simp] theorem State.complete_hazard (r : Reg32) (s : State) : (s.complete r).hazard = [] := rfl
@[simp] theorem State.complete_adapter (r : Reg32) (s : State) : (s.complete r).adapter = s.adapter := rfl
@[simp] theorem State.complete_peer (r : Reg32) (s : State) : (s.complete r).peer = s.peer := rfl
@[simp] theorem State.complete_cart (r : Reg32) (s : State) : (s.complete r).cart = s.cart := rfl
@[simp] theorem State.complete_env (r : Reg32) (s : State) : (s.complete r).env = s.env := rfl
@[simp] theorem State.complete_pktPort (r : Reg32) (s : State) : (s.complete r).pktPort = s.pktPort := rfl
@[simp] theorem State.complete_port (r : Reg32) (s : State) : (s.complete r).port = s.port := rfl
@[simp] theorem State.complete_reads (r : Reg32) (s : State) : (s.complete r).reads = s.reads := rfl
@[simp] theorem State.complete_txLog (r : Reg32) (s : State) : (s.complete r).txLog = s.txLog := rfl

/-! ### State.raise -/

@[simp] theorem State.raise_cfg (e : Err) (info : Reg32) (s : State) : (s.raise e info).cfg = s.cfg := rfl
@[simp] theorem State.raise_req (e : Err) (info : Reg32) (s : State) : (s.raise e info).req = s.req := rfl
@[simp] theorem State.raise_busy (e : Err) (info : Reg32) (s : State) : (s.raise e info).busy = false := rfl
@[simp] theorem State.raise_done (e : Err) (info : Reg32) (s : State) : (s.raise e info).done = false := rfl
@[simp] theorem State.raise_err (e : Err) (info : Reg32) (s : State) : (s.raise e info).err = true := rfl
@[simp] theorem State.raise_stickyErr (e : Err) (info : Reg32) (s : State) : (s.raise e info).stickyErr = true := rfl
@[simp] theorem State.raise_cursorValid (e : Err) (info : Reg32) (s : State) : (s.raise e info).cursorValid = s.cursorValid := rfl
@[simp] theorem State.raise_ramEn (e : Err) (info : Reg32) (s : State) : (s.raise e info).ramEn = s.ramEn := rfl
@[simp] theorem State.raise_bypass (e : Err) (info : Reg32) (s : State) : (s.raise e info).bypass = s.bypass := rfl
@[simp] theorem State.raise_syncLost (e : Err) (info : Reg32) (s : State) : (s.raise e info).syncLost = s.syncLost := rfl
@[simp] theorem State.raise_xstate (e : Err) (info : Reg32) (s : State) : (s.raise e info).xstate = .idle := rfl
@[simp] theorem State.raise_errKind (e : Err) (info : Reg32) (s : State) : (s.raise e info).errKind = e.kind := rfl
@[simp] theorem State.raise_errSub (e : Err) (info : Reg32) (s : State) : (s.raise e info).errSub = e.sub := rfl
@[simp] theorem State.raise_errInfo (e : Err) (info : Reg32) (s : State) : (s.raise e info).errInfo = info := rfl
@[simp] theorem State.raise_result (e : Err) (info : Reg32) (s : State) : (s.raise e info).result = s.result := rfl
@[simp] theorem State.raise_crc (e : Err) (info : Reg32) (s : State) : (s.raise e info).crc = s.crc := rfl
@[simp] theorem State.raise_txpkt (e : Err) (info : Reg32) (s : State) : (s.raise e info).txpkt = s.txpkt := rfl
@[simp] theorem State.raise_txlen (e : Err) (info : Reg32) (s : State) : (s.raise e info).txlen = s.txlen := rfl
@[simp] theorem State.raise_rxpkt (e : Err) (info : Reg32) (s : State) : (s.raise e info).rxpkt = s.rxpkt := rfl
@[simp] theorem State.raise_rxlen (e : Err) (info : Reg32) (s : State) : (s.raise e info).rxlen = s.rxlen := rfl
@[simp] theorem State.raise_xdir (e : Err) (info : Reg32) (s : State) : (s.raise e info).xdir = s.xdir := rfl
@[simp] theorem State.raise_xlen (e : Err) (info : Reg32) (s : State) : (s.raise e info).xlen = s.xlen := rfl
@[simp] theorem State.raise_xcount (e : Err) (info : Reg32) (s : State) : (s.raise e info).xcount = s.xcount := rfl
@[simp] theorem State.raise_xboff (e : Err) (info : Reg32) (s : State) : (s.raise e info).xboff = s.xboff := rfl
@[simp] theorem State.raise_curW (e : Err) (info : Reg32) (s : State) : (s.raise e info).curW = s.curW := rfl
@[simp] theorem State.raise_delaySh (e : Err) (info : Reg32) (s : State) : (s.raise e info).delaySh = s.delaySh := rfl
@[simp] theorem State.raise_delayValid (e : Err) (info : Reg32) (s : State) : (s.raise e info).delayValid = s.delayValid := rfl
@[simp] theorem State.raise_hsAttempt (e : Err) (info : Reg32) (s : State) : (s.raise e info).hsAttempt = 0 := rfl
@[simp] theorem State.raise_tCur (e : Err) (info : Reg32) (s : State) : (s.raise e info).tCur = s.tCur := rfl
@[simp] theorem State.raise_dbuf (e : Err) (info : Reg32) (s : State) : (s.raise e info).dbuf = s.dbuf := rfl
@[simp] theorem State.raise_hazard (e : Err) (info : Reg32) (s : State) : (s.raise e info).hazard = [] := rfl
@[simp] theorem State.raise_adapter (e : Err) (info : Reg32) (s : State) : (s.raise e info).adapter = s.adapter := rfl
@[simp] theorem State.raise_peer (e : Err) (info : Reg32) (s : State) : (s.raise e info).peer = s.peer := rfl
@[simp] theorem State.raise_cart (e : Err) (info : Reg32) (s : State) : (s.raise e info).cart = s.cart := rfl
@[simp] theorem State.raise_env (e : Err) (info : Reg32) (s : State) : (s.raise e info).env = s.env := rfl
@[simp] theorem State.raise_pktPort (e : Err) (info : Reg32) (s : State) : (s.raise e info).pktPort = s.pktPort := rfl
@[simp] theorem State.raise_port (e : Err) (info : Reg32) (s : State) : (s.raise e info).port = s.port := rfl
@[simp] theorem State.raise_reads (e : Err) (info : Reg32) (s : State) : (s.raise e info).reads = s.reads := rfl
@[simp] theorem State.raise_txLog (e : Err) (info : Reg32) (s : State) : (s.raise e info).txLog = s.txLog := rfl

/-! ### State.blockReset -/

@[simp] theorem State.blockReset_cfg (s : State) : (s.blockReset).cfg = s.cfg := rfl
@[simp] theorem State.blockReset_req (s : State) : (s.blockReset).req = 0 := rfl
@[simp] theorem State.blockReset_busy (s : State) : (s.blockReset).busy = false := rfl
@[simp] theorem State.blockReset_done (s : State) : (s.blockReset).done = false := rfl
@[simp] theorem State.blockReset_err (s : State) : (s.blockReset).err = false := rfl
@[simp] theorem State.blockReset_stickyErr (s : State) : (s.blockReset).stickyErr = false := rfl
@[simp] theorem State.blockReset_cursorValid (s : State) : (s.blockReset).cursorValid = false := rfl
@[simp] theorem State.blockReset_ramEn (s : State) : (s.blockReset).ramEn = false := rfl
@[simp] theorem State.blockReset_bypass (s : State) : (s.blockReset).bypass = false := rfl
@[simp] theorem State.blockReset_syncLost (s : State) : (s.blockReset).syncLost = false := rfl
@[simp] theorem State.blockReset_xstate (s : State) : (s.blockReset).xstate = .idle := rfl
@[simp] theorem State.blockReset_errKind (s : State) : (s.blockReset).errKind = 0 := rfl
@[simp] theorem State.blockReset_errSub (s : State) : (s.blockReset).errSub = 0 := rfl
@[simp] theorem State.blockReset_errInfo (s : State) : (s.blockReset).errInfo = 0 := rfl
@[simp] theorem State.blockReset_result (s : State) : (s.blockReset).result = 0 := rfl
@[simp] theorem State.blockReset_crc (s : State) : (s.blockReset).crc = 0 := rfl
@[simp] theorem State.blockReset_txpkt (s : State) : (s.blockReset).txpkt = [] := rfl
@[simp] theorem State.blockReset_txlen (s : State) : (s.blockReset).txlen = 0 := rfl
@[simp] theorem State.blockReset_rxpkt (s : State) : (s.blockReset).rxpkt = [] := rfl
@[simp] theorem State.blockReset_rxlen (s : State) : (s.blockReset).rxlen = 0 := rfl
@[simp] theorem State.blockReset_xdir (s : State) : (s.blockReset).xdir = 0 := rfl
@[simp] theorem State.blockReset_xlen (s : State) : (s.blockReset).xlen = 0 := rfl
@[simp] theorem State.blockReset_xcount (s : State) : (s.blockReset).xcount = 0 := rfl
@[simp] theorem State.blockReset_xboff (s : State) : (s.blockReset).xboff = 0 := rfl
@[simp] theorem State.blockReset_curW (s : State) : (s.blockReset).curW = 0 := rfl
@[simp] theorem State.blockReset_delaySh (s : State) : (s.blockReset).delaySh = 0 := rfl
@[simp] theorem State.blockReset_delayValid (s : State) : (s.blockReset).delayValid = false := rfl
@[simp] theorem State.blockReset_hsAttempt (s : State) : (s.blockReset).hsAttempt = 0 := rfl
@[simp] theorem State.blockReset_tCur (s : State) : (s.blockReset).tCur = s.cfg.tChar := rfl
@[simp] theorem State.blockReset_dbuf (s : State) : (s.blockReset).dbuf = [] := rfl
@[simp] theorem State.blockReset_hazard (s : State) : (s.blockReset).hazard = [] := rfl
@[simp] theorem State.blockReset_adapter (s : State) : (s.blockReset).adapter = s.adapter := rfl
@[simp] theorem State.blockReset_peer (s : State) : (s.blockReset).peer = s.peer := rfl
@[simp] theorem State.blockReset_cart (s : State) : (s.blockReset).cart = s.cart := rfl
@[simp] theorem State.blockReset_env (s : State) : (s.blockReset).env = s.env := rfl
@[simp] theorem State.blockReset_pktPort (s : State) : (s.blockReset).pktPort = s.pktPort := rfl
@[simp] theorem State.blockReset_port (s : State) : (s.blockReset).port = s.port := rfl
@[simp] theorem State.blockReset_reads (s : State) : (s.blockReset).reads = s.reads := rfl
@[simp] theorem State.blockReset_txLog (s : State) : (s.blockReset).txLog = s.txLog := rfl

/-! ### State.countDraw -/

@[simp] theorem State.countDraw_cfg (s : State) : (s.countDraw).cfg = s.cfg := rfl
@[simp] theorem State.countDraw_req (s : State) : (s.countDraw).req = s.req := rfl
@[simp] theorem State.countDraw_busy (s : State) : (s.countDraw).busy = s.busy := rfl
@[simp] theorem State.countDraw_done (s : State) : (s.countDraw).done = s.done := rfl
@[simp] theorem State.countDraw_err (s : State) : (s.countDraw).err = s.err := rfl
@[simp] theorem State.countDraw_stickyErr (s : State) : (s.countDraw).stickyErr = s.stickyErr := rfl
@[simp] theorem State.countDraw_cursorValid (s : State) : (s.countDraw).cursorValid = s.cursorValid := rfl
@[simp] theorem State.countDraw_ramEn (s : State) : (s.countDraw).ramEn = s.ramEn := rfl
@[simp] theorem State.countDraw_bypass (s : State) : (s.countDraw).bypass = s.bypass := rfl
@[simp] theorem State.countDraw_syncLost (s : State) : (s.countDraw).syncLost = s.syncLost := rfl
@[simp] theorem State.countDraw_xstate (s : State) : (s.countDraw).xstate = s.xstate := rfl
@[simp] theorem State.countDraw_errKind (s : State) : (s.countDraw).errKind = s.errKind := rfl
@[simp] theorem State.countDraw_errSub (s : State) : (s.countDraw).errSub = s.errSub := rfl
@[simp] theorem State.countDraw_errInfo (s : State) : (s.countDraw).errInfo = s.errInfo := rfl
@[simp] theorem State.countDraw_result (s : State) : (s.countDraw).result = s.result := rfl
@[simp] theorem State.countDraw_crc (s : State) : (s.countDraw).crc = s.crc := rfl
@[simp] theorem State.countDraw_txpkt (s : State) : (s.countDraw).txpkt = s.txpkt := rfl
@[simp] theorem State.countDraw_txlen (s : State) : (s.countDraw).txlen = s.txlen := rfl
@[simp] theorem State.countDraw_rxpkt (s : State) : (s.countDraw).rxpkt = s.rxpkt := rfl
@[simp] theorem State.countDraw_rxlen (s : State) : (s.countDraw).rxlen = s.rxlen := rfl
@[simp] theorem State.countDraw_xdir (s : State) : (s.countDraw).xdir = s.xdir := rfl
@[simp] theorem State.countDraw_xlen (s : State) : (s.countDraw).xlen = s.xlen := rfl
@[simp] theorem State.countDraw_xcount (s : State) : (s.countDraw).xcount = s.xcount := rfl
@[simp] theorem State.countDraw_xboff (s : State) : (s.countDraw).xboff = s.xboff := rfl
@[simp] theorem State.countDraw_curW (s : State) : (s.countDraw).curW = s.curW := rfl
@[simp] theorem State.countDraw_delaySh (s : State) : (s.countDraw).delaySh = s.delaySh := rfl
@[simp] theorem State.countDraw_delayValid (s : State) : (s.countDraw).delayValid = s.delayValid := rfl
@[simp] theorem State.countDraw_hsAttempt (s : State) : (s.countDraw).hsAttempt = s.hsAttempt := rfl
@[simp] theorem State.countDraw_tCur (s : State) : (s.countDraw).tCur = s.tCur := rfl
@[simp] theorem State.countDraw_dbuf (s : State) : (s.countDraw).dbuf = s.dbuf := rfl
@[simp] theorem State.countDraw_hazard (s : State) : (s.countDraw).hazard = s.hazard := rfl
@[simp] theorem State.countDraw_adapter (s : State) : (s.countDraw).adapter = s.adapter := rfl
@[simp] theorem State.countDraw_peer (s : State) : (s.countDraw).peer = s.peer := rfl
@[simp] theorem State.countDraw_cart (s : State) : (s.countDraw).cart = s.cart := rfl
@[simp] theorem State.countDraw_env (s : State) : (s.countDraw).env = { s.env with count := s.env.count + 1 } := rfl
@[simp] theorem State.countDraw_pktPort (s : State) : (s.countDraw).pktPort = s.pktPort := rfl
@[simp] theorem State.countDraw_port (s : State) : (s.countDraw).port = s.port := rfl
@[simp] theorem State.countDraw_reads (s : State) : (s.countDraw).reads = s.reads := rfl
@[simp] theorem State.countDraw_txLog (s : State) : (s.countDraw).txLog = s.txLog := rfl

/-! ### State.noteRead -/

@[simp] theorem State.noteRead_cfg (v : Reg32) (s : State) : (s.noteRead v).cfg = s.cfg := rfl
@[simp] theorem State.noteRead_req (v : Reg32) (s : State) : (s.noteRead v).req = s.req := rfl
@[simp] theorem State.noteRead_busy (v : Reg32) (s : State) : (s.noteRead v).busy = s.busy := rfl
@[simp] theorem State.noteRead_done (v : Reg32) (s : State) : (s.noteRead v).done = s.done := rfl
@[simp] theorem State.noteRead_err (v : Reg32) (s : State) : (s.noteRead v).err = s.err := rfl
@[simp] theorem State.noteRead_stickyErr (v : Reg32) (s : State) : (s.noteRead v).stickyErr = s.stickyErr := rfl
@[simp] theorem State.noteRead_cursorValid (v : Reg32) (s : State) : (s.noteRead v).cursorValid = s.cursorValid := rfl
@[simp] theorem State.noteRead_ramEn (v : Reg32) (s : State) : (s.noteRead v).ramEn = s.ramEn := rfl
@[simp] theorem State.noteRead_bypass (v : Reg32) (s : State) : (s.noteRead v).bypass = s.bypass := rfl
@[simp] theorem State.noteRead_syncLost (v : Reg32) (s : State) : (s.noteRead v).syncLost = s.syncLost := rfl
@[simp] theorem State.noteRead_xstate (v : Reg32) (s : State) : (s.noteRead v).xstate = s.xstate := rfl
@[simp] theorem State.noteRead_errKind (v : Reg32) (s : State) : (s.noteRead v).errKind = s.errKind := rfl
@[simp] theorem State.noteRead_errSub (v : Reg32) (s : State) : (s.noteRead v).errSub = s.errSub := rfl
@[simp] theorem State.noteRead_errInfo (v : Reg32) (s : State) : (s.noteRead v).errInfo = s.errInfo := rfl
@[simp] theorem State.noteRead_result (v : Reg32) (s : State) : (s.noteRead v).result = s.result := rfl
@[simp] theorem State.noteRead_crc (v : Reg32) (s : State) : (s.noteRead v).crc = s.crc := rfl
@[simp] theorem State.noteRead_txpkt (v : Reg32) (s : State) : (s.noteRead v).txpkt = s.txpkt := rfl
@[simp] theorem State.noteRead_txlen (v : Reg32) (s : State) : (s.noteRead v).txlen = s.txlen := rfl
@[simp] theorem State.noteRead_rxpkt (v : Reg32) (s : State) : (s.noteRead v).rxpkt = s.rxpkt := rfl
@[simp] theorem State.noteRead_rxlen (v : Reg32) (s : State) : (s.noteRead v).rxlen = s.rxlen := rfl
@[simp] theorem State.noteRead_xdir (v : Reg32) (s : State) : (s.noteRead v).xdir = s.xdir := rfl
@[simp] theorem State.noteRead_xlen (v : Reg32) (s : State) : (s.noteRead v).xlen = s.xlen := rfl
@[simp] theorem State.noteRead_xcount (v : Reg32) (s : State) : (s.noteRead v).xcount = s.xcount := rfl
@[simp] theorem State.noteRead_xboff (v : Reg32) (s : State) : (s.noteRead v).xboff = s.xboff := rfl
@[simp] theorem State.noteRead_curW (v : Reg32) (s : State) : (s.noteRead v).curW = s.curW := rfl
@[simp] theorem State.noteRead_delaySh (v : Reg32) (s : State) : (s.noteRead v).delaySh = s.delaySh := rfl
@[simp] theorem State.noteRead_delayValid (v : Reg32) (s : State) : (s.noteRead v).delayValid = s.delayValid := rfl
@[simp] theorem State.noteRead_hsAttempt (v : Reg32) (s : State) : (s.noteRead v).hsAttempt = s.hsAttempt := rfl
@[simp] theorem State.noteRead_tCur (v : Reg32) (s : State) : (s.noteRead v).tCur = s.tCur := rfl
@[simp] theorem State.noteRead_dbuf (v : Reg32) (s : State) : (s.noteRead v).dbuf = s.dbuf := rfl
@[simp] theorem State.noteRead_hazard (v : Reg32) (s : State) : (s.noteRead v).hazard = s.hazard := rfl
@[simp] theorem State.noteRead_adapter (v : Reg32) (s : State) : (s.noteRead v).adapter = s.adapter := rfl
@[simp] theorem State.noteRead_peer (v : Reg32) (s : State) : (s.noteRead v).peer = s.peer := rfl
@[simp] theorem State.noteRead_cart (v : Reg32) (s : State) : (s.noteRead v).cart = s.cart := rfl
@[simp] theorem State.noteRead_env (v : Reg32) (s : State) : (s.noteRead v).env = s.env := rfl
@[simp] theorem State.noteRead_pktPort (v : Reg32) (s : State) : (s.noteRead v).pktPort = s.pktPort := rfl
@[simp] theorem State.noteRead_port (v : Reg32) (s : State) : (s.noteRead v).port = s.port := rfl
@[simp] theorem State.noteRead_reads (v : Reg32) (s : State) : (s.noteRead v).reads = s.reads ++ [v] := rfl
@[simp] theorem State.noteRead_txLog (v : Reg32) (s : State) : (s.noteRead v).txLog = s.txLog := rfl

/-! ### State.loseSync -/

@[simp] theorem State.loseSync_cfg (fam : Family) (s : State) : (s.loseSync fam).cfg = s.cfg := by cases fam <;> rfl
@[simp] theorem State.loseSync_req (fam : Family) (s : State) : (s.loseSync fam).req = s.req := by cases fam <;> rfl
@[simp] theorem State.loseSync_busy (fam : Family) (s : State) : (s.loseSync fam).busy = s.busy := by cases fam <;> rfl
@[simp] theorem State.loseSync_done (fam : Family) (s : State) : (s.loseSync fam).done = s.done := by cases fam <;> rfl
@[simp] theorem State.loseSync_err (fam : Family) (s : State) : (s.loseSync fam).err = s.err := by cases fam <;> rfl
@[simp] theorem State.loseSync_stickyErr (fam : Family) (s : State) : (s.loseSync fam).stickyErr = s.stickyErr := by cases fam <;> rfl
@[simp] theorem State.loseSync_cursorValid (fam : Family) (s : State) : (s.loseSync fam).cursorValid = (match fam with | .gb => s.cursorValid | .md => false) := by cases fam <;> rfl
@[simp] theorem State.loseSync_ramEn (fam : Family) (s : State) : (s.loseSync fam).ramEn = s.ramEn := by cases fam <;> rfl
@[simp] theorem State.loseSync_bypass (fam : Family) (s : State) : (s.loseSync fam).bypass = s.bypass := by cases fam <;> rfl
@[simp] theorem State.loseSync_syncLost (fam : Family) (s : State) : (s.loseSync fam).syncLost = true := by cases fam <;> rfl
@[simp] theorem State.loseSync_xstate (fam : Family) (s : State) : (s.loseSync fam).xstate = s.xstate := by cases fam <;> rfl
@[simp] theorem State.loseSync_errKind (fam : Family) (s : State) : (s.loseSync fam).errKind = s.errKind := by cases fam <;> rfl
@[simp] theorem State.loseSync_errSub (fam : Family) (s : State) : (s.loseSync fam).errSub = s.errSub := by cases fam <;> rfl
@[simp] theorem State.loseSync_errInfo (fam : Family) (s : State) : (s.loseSync fam).errInfo = s.errInfo := by cases fam <;> rfl
@[simp] theorem State.loseSync_result (fam : Family) (s : State) : (s.loseSync fam).result = s.result := by cases fam <;> rfl
@[simp] theorem State.loseSync_crc (fam : Family) (s : State) : (s.loseSync fam).crc = s.crc := by cases fam <;> rfl
@[simp] theorem State.loseSync_txpkt (fam : Family) (s : State) : (s.loseSync fam).txpkt = s.txpkt := by cases fam <;> rfl
@[simp] theorem State.loseSync_txlen (fam : Family) (s : State) : (s.loseSync fam).txlen = s.txlen := by cases fam <;> rfl
@[simp] theorem State.loseSync_rxpkt (fam : Family) (s : State) : (s.loseSync fam).rxpkt = s.rxpkt := by cases fam <;> rfl
@[simp] theorem State.loseSync_rxlen (fam : Family) (s : State) : (s.loseSync fam).rxlen = s.rxlen := by cases fam <;> rfl
@[simp] theorem State.loseSync_xdir (fam : Family) (s : State) : (s.loseSync fam).xdir = s.xdir := by cases fam <;> rfl
@[simp] theorem State.loseSync_xlen (fam : Family) (s : State) : (s.loseSync fam).xlen = s.xlen := by cases fam <;> rfl
@[simp] theorem State.loseSync_xcount (fam : Family) (s : State) : (s.loseSync fam).xcount = s.xcount := by cases fam <;> rfl
@[simp] theorem State.loseSync_xboff (fam : Family) (s : State) : (s.loseSync fam).xboff = s.xboff := by cases fam <;> rfl
@[simp] theorem State.loseSync_curW (fam : Family) (s : State) : (s.loseSync fam).curW = s.curW := by cases fam <;> rfl
@[simp] theorem State.loseSync_delaySh (fam : Family) (s : State) : (s.loseSync fam).delaySh = s.delaySh := by cases fam <;> rfl
@[simp] theorem State.loseSync_delayValid (fam : Family) (s : State) : (s.loseSync fam).delayValid = (match fam with | .gb => s.delayValid | .md => false) := by cases fam <;> rfl
@[simp] theorem State.loseSync_hsAttempt (fam : Family) (s : State) : (s.loseSync fam).hsAttempt = s.hsAttempt := by cases fam <;> rfl
@[simp] theorem State.loseSync_tCur (fam : Family) (s : State) : (s.loseSync fam).tCur = s.tCur := by cases fam <;> rfl
@[simp] theorem State.loseSync_dbuf (fam : Family) (s : State) : (s.loseSync fam).dbuf = s.dbuf := by cases fam <;> rfl
@[simp] theorem State.loseSync_hazard (fam : Family) (s : State) : (s.loseSync fam).hazard = s.hazard := by cases fam <;> rfl
@[simp] theorem State.loseSync_adapter (fam : Family) (s : State) : (s.loseSync fam).adapter = s.adapter := by cases fam <;> rfl
@[simp] theorem State.loseSync_peer (fam : Family) (s : State) : (s.loseSync fam).peer = { s.peer with stale := true } := by cases fam <;> rfl
@[simp] theorem State.loseSync_cart (fam : Family) (s : State) : (s.loseSync fam).cart = s.cart := by cases fam <;> rfl
@[simp] theorem State.loseSync_env (fam : Family) (s : State) : (s.loseSync fam).env = s.env := by cases fam <;> rfl
@[simp] theorem State.loseSync_pktPort (fam : Family) (s : State) : (s.loseSync fam).pktPort = s.pktPort := by cases fam <;> rfl
@[simp] theorem State.loseSync_port (fam : Family) (s : State) : (s.loseSync fam).port = s.port := by cases fam <;> rfl
@[simp] theorem State.loseSync_reads (fam : Family) (s : State) : (s.loseSync fam).reads = s.reads := by cases fam <;> rfl
@[simp] theorem State.loseSync_txLog (fam : Family) (s : State) : (s.loseSync fam).txLog = s.txLog := by cases fam <;> rfl

/-! ### State.transmit -/

@[simp] theorem State.transmit_cfg (bytes : List Byte) (s : State) : (s.transmit bytes).cfg = s.cfg := by cases h : s.adapter <;> simp [State.transmit, h]
@[simp] theorem State.transmit_req (bytes : List Byte) (s : State) : (s.transmit bytes).req = s.req := by cases h : s.adapter <;> simp [State.transmit, h]
@[simp] theorem State.transmit_busy (bytes : List Byte) (s : State) : (s.transmit bytes).busy = s.busy := by cases h : s.adapter <;> simp [State.transmit, h]
@[simp] theorem State.transmit_done (bytes : List Byte) (s : State) : (s.transmit bytes).done = s.done := by cases h : s.adapter <;> simp [State.transmit, h]
@[simp] theorem State.transmit_err (bytes : List Byte) (s : State) : (s.transmit bytes).err = s.err := by cases h : s.adapter <;> simp [State.transmit, h]
@[simp] theorem State.transmit_stickyErr (bytes : List Byte) (s : State) : (s.transmit bytes).stickyErr = s.stickyErr := by cases h : s.adapter <;> simp [State.transmit, h]
@[simp] theorem State.transmit_cursorValid (bytes : List Byte) (s : State) : (s.transmit bytes).cursorValid = s.cursorValid := by cases h : s.adapter <;> simp [State.transmit, h]
@[simp] theorem State.transmit_ramEn (bytes : List Byte) (s : State) : (s.transmit bytes).ramEn = s.ramEn := by cases h : s.adapter <;> simp [State.transmit, h]
@[simp] theorem State.transmit_bypass (bytes : List Byte) (s : State) : (s.transmit bytes).bypass = s.bypass := by cases h : s.adapter <;> simp [State.transmit, h]
@[simp] theorem State.transmit_syncLost (bytes : List Byte) (s : State) : (s.transmit bytes).syncLost = s.syncLost := by cases h : s.adapter <;> simp [State.transmit, h]
@[simp] theorem State.transmit_xstate (bytes : List Byte) (s : State) : (s.transmit bytes).xstate = s.xstate := by cases h : s.adapter <;> simp [State.transmit, h]
@[simp] theorem State.transmit_errKind (bytes : List Byte) (s : State) : (s.transmit bytes).errKind = s.errKind := by cases h : s.adapter <;> simp [State.transmit, h]
@[simp] theorem State.transmit_errSub (bytes : List Byte) (s : State) : (s.transmit bytes).errSub = s.errSub := by cases h : s.adapter <;> simp [State.transmit, h]
@[simp] theorem State.transmit_errInfo (bytes : List Byte) (s : State) : (s.transmit bytes).errInfo = s.errInfo := by cases h : s.adapter <;> simp [State.transmit, h]
@[simp] theorem State.transmit_result (bytes : List Byte) (s : State) : (s.transmit bytes).result = s.result := by cases h : s.adapter <;> simp [State.transmit, h]
@[simp] theorem State.transmit_crc (bytes : List Byte) (s : State) : (s.transmit bytes).crc = s.crc := by cases h : s.adapter <;> simp [State.transmit, h]
@[simp] theorem State.transmit_txpkt (bytes : List Byte) (s : State) : (s.transmit bytes).txpkt = s.txpkt := by cases h : s.adapter <;> simp [State.transmit, h]
@[simp] theorem State.transmit_txlen (bytes : List Byte) (s : State) : (s.transmit bytes).txlen = s.txlen := by cases h : s.adapter <;> simp [State.transmit, h]
@[simp] theorem State.transmit_rxpkt (bytes : List Byte) (s : State) : (s.transmit bytes).rxpkt = s.rxpkt := by cases h : s.adapter <;> simp [State.transmit, h]
@[simp] theorem State.transmit_rxlen (bytes : List Byte) (s : State) : (s.transmit bytes).rxlen = s.rxlen := by cases h : s.adapter <;> simp [State.transmit, h]
@[simp] theorem State.transmit_xdir (bytes : List Byte) (s : State) : (s.transmit bytes).xdir = s.xdir := by cases h : s.adapter <;> simp [State.transmit, h]
@[simp] theorem State.transmit_xlen (bytes : List Byte) (s : State) : (s.transmit bytes).xlen = s.xlen := by cases h : s.adapter <;> simp [State.transmit, h]
@[simp] theorem State.transmit_xcount (bytes : List Byte) (s : State) : (s.transmit bytes).xcount = s.xcount := by cases h : s.adapter <;> simp [State.transmit, h]
@[simp] theorem State.transmit_xboff (bytes : List Byte) (s : State) : (s.transmit bytes).xboff = s.xboff := by cases h : s.adapter <;> simp [State.transmit, h]
@[simp] theorem State.transmit_curW (bytes : List Byte) (s : State) : (s.transmit bytes).curW = s.curW := by cases h : s.adapter <;> simp [State.transmit, h]
@[simp] theorem State.transmit_delaySh (bytes : List Byte) (s : State) : (s.transmit bytes).delaySh = s.delaySh := by cases h : s.adapter <;> simp [State.transmit, h]
@[simp] theorem State.transmit_delayValid (bytes : List Byte) (s : State) : (s.transmit bytes).delayValid = s.delayValid := by cases h : s.adapter <;> simp [State.transmit, h]
@[simp] theorem State.transmit_hsAttempt (bytes : List Byte) (s : State) : (s.transmit bytes).hsAttempt = s.hsAttempt := by cases h : s.adapter <;> simp [State.transmit, h]
@[simp] theorem State.transmit_tCur (bytes : List Byte) (s : State) : (s.transmit bytes).tCur = s.tCur := by cases h : s.adapter <;> simp [State.transmit, h]
@[simp] theorem State.transmit_dbuf (bytes : List Byte) (s : State) : (s.transmit bytes).dbuf = s.dbuf := by cases h : s.adapter <;> simp [State.transmit, h]
@[simp] theorem State.transmit_hazard (bytes : List Byte) (s : State) : (s.transmit bytes).hazard = s.hazard := by cases h : s.adapter <;> simp [State.transmit, h]
@[simp] theorem State.transmit_adapter (bytes : List Byte) (s : State) : (s.transmit bytes).adapter = s.adapter := by cases h : s.adapter <;> simp [State.transmit, h]
@[simp] theorem State.transmit_cart (bytes : List Byte) (s : State) : (s.transmit bytes).cart = s.cart := by cases h : s.adapter <;> simp [State.transmit, h]
@[simp] theorem State.transmit_env (bytes : List Byte) (s : State) : (s.transmit bytes).env = s.env := by cases h : s.adapter <;> simp [State.transmit, h]
@[simp] theorem State.transmit_pktPort (bytes : List Byte) (s : State) : (s.transmit bytes).pktPort = s.pktPort := by cases h : s.adapter <;> simp [State.transmit, h]
@[simp] theorem State.transmit_port (bytes : List Byte) (s : State) : (s.transmit bytes).port = s.port := by cases h : s.adapter <;> simp [State.transmit, h]
@[simp] theorem State.transmit_reads (bytes : List Byte) (s : State) : (s.transmit bytes).reads = s.reads := by cases h : s.adapter <;> simp [State.transmit, h]
@[simp] theorem State.transmit_txLog (bytes : List Byte) (s : State) : (s.transmit bytes).txLog = s.txLog ++ bytes := by cases h : s.adapter <;> simp [State.transmit, h]

/-! ### setCursor -/

@[simp] theorem setCursor_cfg (w : WordAddr) (s : State) : (setCursor w s).cfg = s.cfg := rfl
@[simp] theorem setCursor_req (w : WordAddr) (s : State) : (setCursor w s).req = s.req := rfl
@[simp] theorem setCursor_busy (w : WordAddr) (s : State) : (setCursor w s).busy = s.busy := rfl
@[simp] theorem setCursor_done (w : WordAddr) (s : State) : (setCursor w s).done = s.done := rfl
@[simp] theorem setCursor_err (w : WordAddr) (s : State) : (setCursor w s).err = s.err := rfl
@[simp] theorem setCursor_stickyErr (w : WordAddr) (s : State) : (setCursor w s).stickyErr = s.stickyErr := rfl
@[simp] theorem setCursor_cursorValid (w : WordAddr) (s : State) : (setCursor w s).cursorValid = true := rfl
@[simp] theorem setCursor_ramEn (w : WordAddr) (s : State) : (setCursor w s).ramEn = s.ramEn := rfl
@[simp] theorem setCursor_bypass (w : WordAddr) (s : State) : (setCursor w s).bypass = s.bypass := rfl
@[simp] theorem setCursor_syncLost (w : WordAddr) (s : State) : (setCursor w s).syncLost = s.syncLost := rfl
@[simp] theorem setCursor_xstate (w : WordAddr) (s : State) : (setCursor w s).xstate = s.xstate := rfl
@[simp] theorem setCursor_errKind (w : WordAddr) (s : State) : (setCursor w s).errKind = s.errKind := rfl
@[simp] theorem setCursor_errSub (w : WordAddr) (s : State) : (setCursor w s).errSub = s.errSub := rfl
@[simp] theorem setCursor_errInfo (w : WordAddr) (s : State) : (setCursor w s).errInfo = s.errInfo := rfl
@[simp] theorem setCursor_result (w : WordAddr) (s : State) : (setCursor w s).result = s.result := rfl
@[simp] theorem setCursor_crc (w : WordAddr) (s : State) : (setCursor w s).crc = s.crc := rfl
@[simp] theorem setCursor_txpkt (w : WordAddr) (s : State) : (setCursor w s).txpkt = s.txpkt := rfl
@[simp] theorem setCursor_txlen (w : WordAddr) (s : State) : (setCursor w s).txlen = s.txlen := rfl
@[simp] theorem setCursor_rxpkt (w : WordAddr) (s : State) : (setCursor w s).rxpkt = s.rxpkt := rfl
@[simp] theorem setCursor_rxlen (w : WordAddr) (s : State) : (setCursor w s).rxlen = s.rxlen := rfl
@[simp] theorem setCursor_xdir (w : WordAddr) (s : State) : (setCursor w s).xdir = s.xdir := rfl
@[simp] theorem setCursor_xlen (w : WordAddr) (s : State) : (setCursor w s).xlen = s.xlen := rfl
@[simp] theorem setCursor_xcount (w : WordAddr) (s : State) : (setCursor w s).xcount = s.xcount := rfl
@[simp] theorem setCursor_xboff (w : WordAddr) (s : State) : (setCursor w s).xboff = s.xboff := rfl
@[simp] theorem setCursor_curW (w : WordAddr) (s : State) : (setCursor w s).curW = w := rfl
@[simp] theorem setCursor_delaySh (w : WordAddr) (s : State) : (setCursor w s).delaySh = s.delaySh := rfl
@[simp] theorem setCursor_delayValid (w : WordAddr) (s : State) : (setCursor w s).delayValid = s.delayValid := rfl
@[simp] theorem setCursor_hsAttempt (w : WordAddr) (s : State) : (setCursor w s).hsAttempt = s.hsAttempt := rfl
@[simp] theorem setCursor_tCur (w : WordAddr) (s : State) : (setCursor w s).tCur = s.tCur := rfl
@[simp] theorem setCursor_dbuf (w : WordAddr) (s : State) : (setCursor w s).dbuf = s.dbuf := rfl
@[simp] theorem setCursor_hazard (w : WordAddr) (s : State) : (setCursor w s).hazard = s.hazard := rfl
@[simp] theorem setCursor_adapter (w : WordAddr) (s : State) : (setCursor w s).adapter = s.adapter := rfl
@[simp] theorem setCursor_peer (w : WordAddr) (s : State) : (setCursor w s).peer = s.peer := rfl
@[simp] theorem setCursor_cart (w : WordAddr) (s : State) : (setCursor w s).cart = s.cart := rfl
@[simp] theorem setCursor_env (w : WordAddr) (s : State) : (setCursor w s).env = s.env := rfl
@[simp] theorem setCursor_pktPort (w : WordAddr) (s : State) : (setCursor w s).pktPort = s.pktPort := rfl
@[simp] theorem setCursor_port (w : WordAddr) (s : State) : (setCursor w s).port = s.port := rfl
@[simp] theorem setCursor_reads (w : WordAddr) (s : State) : (setCursor w s).reads = s.reads := rfl
@[simp] theorem setCursor_txLog (w : WordAddr) (s : State) : (setCursor w s).txLog = s.txLog := rfl

/-! ### setDelay -/

@[simp] theorem setDelay_cfg (d : Byte) (s : State) : (setDelay d s).cfg = s.cfg := rfl
@[simp] theorem setDelay_req (d : Byte) (s : State) : (setDelay d s).req = s.req := rfl
@[simp] theorem setDelay_busy (d : Byte) (s : State) : (setDelay d s).busy = s.busy := rfl
@[simp] theorem setDelay_done (d : Byte) (s : State) : (setDelay d s).done = s.done := rfl
@[simp] theorem setDelay_err (d : Byte) (s : State) : (setDelay d s).err = s.err := rfl
@[simp] theorem setDelay_stickyErr (d : Byte) (s : State) : (setDelay d s).stickyErr = s.stickyErr := rfl
@[simp] theorem setDelay_cursorValid (d : Byte) (s : State) : (setDelay d s).cursorValid = s.cursorValid := rfl
@[simp] theorem setDelay_ramEn (d : Byte) (s : State) : (setDelay d s).ramEn = s.ramEn := rfl
@[simp] theorem setDelay_bypass (d : Byte) (s : State) : (setDelay d s).bypass = s.bypass := rfl
@[simp] theorem setDelay_syncLost (d : Byte) (s : State) : (setDelay d s).syncLost = s.syncLost := rfl
@[simp] theorem setDelay_xstate (d : Byte) (s : State) : (setDelay d s).xstate = s.xstate := rfl
@[simp] theorem setDelay_errKind (d : Byte) (s : State) : (setDelay d s).errKind = s.errKind := rfl
@[simp] theorem setDelay_errSub (d : Byte) (s : State) : (setDelay d s).errSub = s.errSub := rfl
@[simp] theorem setDelay_errInfo (d : Byte) (s : State) : (setDelay d s).errInfo = s.errInfo := rfl
@[simp] theorem setDelay_result (d : Byte) (s : State) : (setDelay d s).result = s.result := rfl
@[simp] theorem setDelay_crc (d : Byte) (s : State) : (setDelay d s).crc = s.crc := rfl
@[simp] theorem setDelay_txpkt (d : Byte) (s : State) : (setDelay d s).txpkt = s.txpkt := rfl
@[simp] theorem setDelay_txlen (d : Byte) (s : State) : (setDelay d s).txlen = s.txlen := rfl
@[simp] theorem setDelay_rxpkt (d : Byte) (s : State) : (setDelay d s).rxpkt = s.rxpkt := rfl
@[simp] theorem setDelay_rxlen (d : Byte) (s : State) : (setDelay d s).rxlen = s.rxlen := rfl
@[simp] theorem setDelay_xdir (d : Byte) (s : State) : (setDelay d s).xdir = s.xdir := rfl
@[simp] theorem setDelay_xlen (d : Byte) (s : State) : (setDelay d s).xlen = s.xlen := rfl
@[simp] theorem setDelay_xcount (d : Byte) (s : State) : (setDelay d s).xcount = s.xcount := rfl
@[simp] theorem setDelay_xboff (d : Byte) (s : State) : (setDelay d s).xboff = s.xboff := rfl
@[simp] theorem setDelay_curW (d : Byte) (s : State) : (setDelay d s).curW = s.curW := rfl
@[simp] theorem setDelay_delaySh (d : Byte) (s : State) : (setDelay d s).delaySh = d := rfl
@[simp] theorem setDelay_delayValid (d : Byte) (s : State) : (setDelay d s).delayValid = true := rfl
@[simp] theorem setDelay_hsAttempt (d : Byte) (s : State) : (setDelay d s).hsAttempt = s.hsAttempt := rfl
@[simp] theorem setDelay_tCur (d : Byte) (s : State) : (setDelay d s).tCur = s.tCur := rfl
@[simp] theorem setDelay_dbuf (d : Byte) (s : State) : (setDelay d s).dbuf = s.dbuf := rfl
@[simp] theorem setDelay_hazard (d : Byte) (s : State) : (setDelay d s).hazard = s.hazard := rfl
@[simp] theorem setDelay_adapter (d : Byte) (s : State) : (setDelay d s).adapter = s.adapter := rfl
@[simp] theorem setDelay_peer (d : Byte) (s : State) : (setDelay d s).peer = s.peer := rfl
@[simp] theorem setDelay_cart (d : Byte) (s : State) : (setDelay d s).cart = s.cart := rfl
@[simp] theorem setDelay_env (d : Byte) (s : State) : (setDelay d s).env = s.env := rfl
@[simp] theorem setDelay_pktPort (d : Byte) (s : State) : (setDelay d s).pktPort = s.pktPort := rfl
@[simp] theorem setDelay_port (d : Byte) (s : State) : (setDelay d s).port = s.port := rfl
@[simp] theorem setDelay_reads (d : Byte) (s : State) : (setDelay d s).reads = s.reads := rfl
@[simp] theorem setDelay_txLog (d : Byte) (s : State) : (setDelay d s).txLog = s.txLog := rfl

/-! ### advanceCursor -/

@[simp] theorem advanceCursor_cfg (n : Nat) (s : State) : (advanceCursor n s).cfg = s.cfg := by cases h : s.cursorValid <;> simp [advanceCursor, h]
@[simp] theorem advanceCursor_req (n : Nat) (s : State) : (advanceCursor n s).req = s.req := by cases h : s.cursorValid <;> simp [advanceCursor, h]
@[simp] theorem advanceCursor_busy (n : Nat) (s : State) : (advanceCursor n s).busy = s.busy := by cases h : s.cursorValid <;> simp [advanceCursor, h]
@[simp] theorem advanceCursor_done (n : Nat) (s : State) : (advanceCursor n s).done = s.done := by cases h : s.cursorValid <;> simp [advanceCursor, h]
@[simp] theorem advanceCursor_err (n : Nat) (s : State) : (advanceCursor n s).err = s.err := by cases h : s.cursorValid <;> simp [advanceCursor, h]
@[simp] theorem advanceCursor_stickyErr (n : Nat) (s : State) : (advanceCursor n s).stickyErr = s.stickyErr := by cases h : s.cursorValid <;> simp [advanceCursor, h]
@[simp] theorem advanceCursor_cursorValid (n : Nat) (s : State) : (advanceCursor n s).cursorValid = s.cursorValid := by cases h : s.cursorValid <;> simp [advanceCursor, h]
@[simp] theorem advanceCursor_ramEn (n : Nat) (s : State) : (advanceCursor n s).ramEn = s.ramEn := by cases h : s.cursorValid <;> simp [advanceCursor, h]
@[simp] theorem advanceCursor_bypass (n : Nat) (s : State) : (advanceCursor n s).bypass = s.bypass := by cases h : s.cursorValid <;> simp [advanceCursor, h]
@[simp] theorem advanceCursor_syncLost (n : Nat) (s : State) : (advanceCursor n s).syncLost = s.syncLost := by cases h : s.cursorValid <;> simp [advanceCursor, h]
@[simp] theorem advanceCursor_xstate (n : Nat) (s : State) : (advanceCursor n s).xstate = s.xstate := by cases h : s.cursorValid <;> simp [advanceCursor, h]
@[simp] theorem advanceCursor_errKind (n : Nat) (s : State) : (advanceCursor n s).errKind = s.errKind := by cases h : s.cursorValid <;> simp [advanceCursor, h]
@[simp] theorem advanceCursor_errSub (n : Nat) (s : State) : (advanceCursor n s).errSub = s.errSub := by cases h : s.cursorValid <;> simp [advanceCursor, h]
@[simp] theorem advanceCursor_errInfo (n : Nat) (s : State) : (advanceCursor n s).errInfo = s.errInfo := by cases h : s.cursorValid <;> simp [advanceCursor, h]
@[simp] theorem advanceCursor_result (n : Nat) (s : State) : (advanceCursor n s).result = s.result := by cases h : s.cursorValid <;> simp [advanceCursor, h]
@[simp] theorem advanceCursor_crc (n : Nat) (s : State) : (advanceCursor n s).crc = s.crc := by cases h : s.cursorValid <;> simp [advanceCursor, h]
@[simp] theorem advanceCursor_txpkt (n : Nat) (s : State) : (advanceCursor n s).txpkt = s.txpkt := by cases h : s.cursorValid <;> simp [advanceCursor, h]
@[simp] theorem advanceCursor_txlen (n : Nat) (s : State) : (advanceCursor n s).txlen = s.txlen := by cases h : s.cursorValid <;> simp [advanceCursor, h]
@[simp] theorem advanceCursor_rxpkt (n : Nat) (s : State) : (advanceCursor n s).rxpkt = s.rxpkt := by cases h : s.cursorValid <;> simp [advanceCursor, h]
@[simp] theorem advanceCursor_rxlen (n : Nat) (s : State) : (advanceCursor n s).rxlen = s.rxlen := by cases h : s.cursorValid <;> simp [advanceCursor, h]
@[simp] theorem advanceCursor_xdir (n : Nat) (s : State) : (advanceCursor n s).xdir = s.xdir := by cases h : s.cursorValid <;> simp [advanceCursor, h]
@[simp] theorem advanceCursor_xlen (n : Nat) (s : State) : (advanceCursor n s).xlen = s.xlen := by cases h : s.cursorValid <;> simp [advanceCursor, h]
@[simp] theorem advanceCursor_xcount (n : Nat) (s : State) : (advanceCursor n s).xcount = s.xcount := by cases h : s.cursorValid <;> simp [advanceCursor, h]
@[simp] theorem advanceCursor_xboff (n : Nat) (s : State) : (advanceCursor n s).xboff = s.xboff := by cases h : s.cursorValid <;> simp [advanceCursor, h]
@[simp] theorem advanceCursor_delaySh (n : Nat) (s : State) : (advanceCursor n s).delaySh = s.delaySh := by cases h : s.cursorValid <;> simp [advanceCursor, h]
@[simp] theorem advanceCursor_delayValid (n : Nat) (s : State) : (advanceCursor n s).delayValid = s.delayValid := by cases h : s.cursorValid <;> simp [advanceCursor, h]
@[simp] theorem advanceCursor_hsAttempt (n : Nat) (s : State) : (advanceCursor n s).hsAttempt = s.hsAttempt := by cases h : s.cursorValid <;> simp [advanceCursor, h]
@[simp] theorem advanceCursor_tCur (n : Nat) (s : State) : (advanceCursor n s).tCur = s.tCur := by cases h : s.cursorValid <;> simp [advanceCursor, h]
@[simp] theorem advanceCursor_dbuf (n : Nat) (s : State) : (advanceCursor n s).dbuf = s.dbuf := by cases h : s.cursorValid <;> simp [advanceCursor, h]
@[simp] theorem advanceCursor_hazard (n : Nat) (s : State) : (advanceCursor n s).hazard = s.hazard := by cases h : s.cursorValid <;> simp [advanceCursor, h]
@[simp] theorem advanceCursor_adapter (n : Nat) (s : State) : (advanceCursor n s).adapter = s.adapter := by cases h : s.cursorValid <;> simp [advanceCursor, h]
@[simp] theorem advanceCursor_peer (n : Nat) (s : State) : (advanceCursor n s).peer = s.peer := by cases h : s.cursorValid <;> simp [advanceCursor, h]
@[simp] theorem advanceCursor_cart (n : Nat) (s : State) : (advanceCursor n s).cart = s.cart := by cases h : s.cursorValid <;> simp [advanceCursor, h]
@[simp] theorem advanceCursor_env (n : Nat) (s : State) : (advanceCursor n s).env = s.env := by cases h : s.cursorValid <;> simp [advanceCursor, h]
@[simp] theorem advanceCursor_pktPort (n : Nat) (s : State) : (advanceCursor n s).pktPort = s.pktPort := by cases h : s.cursorValid <;> simp [advanceCursor, h]
@[simp] theorem advanceCursor_port (n : Nat) (s : State) : (advanceCursor n s).port = s.port := by cases h : s.cursorValid <;> simp [advanceCursor, h]
@[simp] theorem advanceCursor_reads (n : Nat) (s : State) : (advanceCursor n s).reads = s.reads := by cases h : s.cursorValid <;> simp [advanceCursor, h]
@[simp] theorem advanceCursor_txLog (n : Nat) (s : State) : (advanceCursor n s).txLog = s.txLog := by cases h : s.cursorValid <;> simp [advanceCursor, h]

/-! ### buildPacket -/

@[simp] theorem buildPacket_cfg (p : List Byte) (s : State) : (buildPacket p s).cfg = s.cfg := by by_cases h : p.length = 72 <;> simp [buildPacket, h]
@[simp] theorem buildPacket_req (p : List Byte) (s : State) : (buildPacket p s).req = s.req := by by_cases h : p.length = 72 <;> simp [buildPacket, h]
@[simp] theorem buildPacket_busy (p : List Byte) (s : State) : (buildPacket p s).busy = s.busy := by by_cases h : p.length = 72 <;> simp [buildPacket, h]
@[simp] theorem buildPacket_done (p : List Byte) (s : State) : (buildPacket p s).done = s.done := by by_cases h : p.length = 72 <;> simp [buildPacket, h]
@[simp] theorem buildPacket_err (p : List Byte) (s : State) : (buildPacket p s).err = s.err := by by_cases h : p.length = 72 <;> simp [buildPacket, h]
@[simp] theorem buildPacket_stickyErr (p : List Byte) (s : State) : (buildPacket p s).stickyErr = s.stickyErr := by by_cases h : p.length = 72 <;> simp [buildPacket, h]
@[simp] theorem buildPacket_cursorValid (p : List Byte) (s : State) : (buildPacket p s).cursorValid = s.cursorValid := by by_cases h : p.length = 72 <;> simp [buildPacket, h]
@[simp] theorem buildPacket_ramEn (p : List Byte) (s : State) : (buildPacket p s).ramEn = s.ramEn := by by_cases h : p.length = 72 <;> simp [buildPacket, h]
@[simp] theorem buildPacket_bypass (p : List Byte) (s : State) : (buildPacket p s).bypass = s.bypass := by by_cases h : p.length = 72 <;> simp [buildPacket, h]
@[simp] theorem buildPacket_syncLost (p : List Byte) (s : State) : (buildPacket p s).syncLost = s.syncLost := by by_cases h : p.length = 72 <;> simp [buildPacket, h]
@[simp] theorem buildPacket_xstate (p : List Byte) (s : State) : (buildPacket p s).xstate = s.xstate := by by_cases h : p.length = 72 <;> simp [buildPacket, h]
@[simp] theorem buildPacket_errKind (p : List Byte) (s : State) : (buildPacket p s).errKind = s.errKind := by by_cases h : p.length = 72 <;> simp [buildPacket, h]
@[simp] theorem buildPacket_errSub (p : List Byte) (s : State) : (buildPacket p s).errSub = s.errSub := by by_cases h : p.length = 72 <;> simp [buildPacket, h]
@[simp] theorem buildPacket_errInfo (p : List Byte) (s : State) : (buildPacket p s).errInfo = s.errInfo := by by_cases h : p.length = 72 <;> simp [buildPacket, h]
@[simp] theorem buildPacket_result (p : List Byte) (s : State) : (buildPacket p s).result = s.result := by by_cases h : p.length = 72 <;> simp [buildPacket, h]
@[simp] theorem buildPacket_crc (p : List Byte) (s : State) : (buildPacket p s).crc = s.crc := by by_cases h : p.length = 72 <;> simp [buildPacket, h]
@[simp] theorem buildPacket_txlen (p : List Byte) (s : State) : (buildPacket p s).txlen = (if p.length = 72 then 72 else 1) := by by_cases h : p.length = 72 <;> simp [buildPacket, h]
@[simp] theorem buildPacket_rxpkt (p : List Byte) (s : State) : (buildPacket p s).rxpkt = s.rxpkt := by by_cases h : p.length = 72 <;> simp [buildPacket, h]
@[simp] theorem buildPacket_rxlen (p : List Byte) (s : State) : (buildPacket p s).rxlen = s.rxlen := by by_cases h : p.length = 72 <;> simp [buildPacket, h]
@[simp] theorem buildPacket_xdir (p : List Byte) (s : State) : (buildPacket p s).xdir = s.xdir := by by_cases h : p.length = 72 <;> simp [buildPacket, h]
@[simp] theorem buildPacket_xlen (p : List Byte) (s : State) : (buildPacket p s).xlen = s.xlen := by by_cases h : p.length = 72 <;> simp [buildPacket, h]
@[simp] theorem buildPacket_xcount (p : List Byte) (s : State) : (buildPacket p s).xcount = s.xcount := by by_cases h : p.length = 72 <;> simp [buildPacket, h]
@[simp] theorem buildPacket_xboff (p : List Byte) (s : State) : (buildPacket p s).xboff = s.xboff := by by_cases h : p.length = 72 <;> simp [buildPacket, h]
@[simp] theorem buildPacket_curW (p : List Byte) (s : State) : (buildPacket p s).curW = s.curW := by by_cases h : p.length = 72 <;> simp [buildPacket, h]
@[simp] theorem buildPacket_delaySh (p : List Byte) (s : State) : (buildPacket p s).delaySh = s.delaySh := by by_cases h : p.length = 72 <;> simp [buildPacket, h]
@[simp] theorem buildPacket_delayValid (p : List Byte) (s : State) : (buildPacket p s).delayValid = s.delayValid := by by_cases h : p.length = 72 <;> simp [buildPacket, h]
@[simp] theorem buildPacket_hsAttempt (p : List Byte) (s : State) : (buildPacket p s).hsAttempt = s.hsAttempt := by by_cases h : p.length = 72 <;> simp [buildPacket, h]
@[simp] theorem buildPacket_tCur (p : List Byte) (s : State) : (buildPacket p s).tCur = s.tCur := by by_cases h : p.length = 72 <;> simp [buildPacket, h]
@[simp] theorem buildPacket_dbuf (p : List Byte) (s : State) : (buildPacket p s).dbuf = s.dbuf := by by_cases h : p.length = 72 <;> simp [buildPacket, h]
@[simp] theorem buildPacket_hazard (p : List Byte) (s : State) : (buildPacket p s).hazard = s.hazard := by by_cases h : p.length = 72 <;> simp [buildPacket, h]
@[simp] theorem buildPacket_adapter (p : List Byte) (s : State) : (buildPacket p s).adapter = s.adapter := by by_cases h : p.length = 72 <;> simp [buildPacket, h]
@[simp] theorem buildPacket_peer (p : List Byte) (s : State) : (buildPacket p s).peer = s.peer := by by_cases h : p.length = 72 <;> simp [buildPacket, h]
@[simp] theorem buildPacket_cart (p : List Byte) (s : State) : (buildPacket p s).cart = s.cart := by by_cases h : p.length = 72 <;> simp [buildPacket, h]
@[simp] theorem buildPacket_env (p : List Byte) (s : State) : (buildPacket p s).env = s.env := by by_cases h : p.length = 72 <;> simp [buildPacket, h]
@[simp] theorem buildPacket_pktPort (p : List Byte) (s : State) : (buildPacket p s).pktPort = s.pktPort := by by_cases h : p.length = 72 <;> simp [buildPacket, h]
@[simp] theorem buildPacket_port (p : List Byte) (s : State) : (buildPacket p s).port = s.port := by by_cases h : p.length = 72 <;> simp [buildPacket, h]
@[simp] theorem buildPacket_reads (p : List Byte) (s : State) : (buildPacket p s).reads = s.reads := by by_cases h : p.length = 72 <;> simp [buildPacket, h]
@[simp] theorem buildPacket_txLog (p : List Byte) (s : State) : (buildPacket p s).txLog = s.txLog := by by_cases h : p.length = 72 <;> simp [buildPacket, h]

/-! ### sealPacket -/

@[simp] theorem sealPacket_cfg (p : List Byte) (s : State) : (sealPacket p s).cfg = s.cfg := rfl
@[simp] theorem sealPacket_req (p : List Byte) (s : State) : (sealPacket p s).req = s.req := rfl
@[simp] theorem sealPacket_busy (p : List Byte) (s : State) : (sealPacket p s).busy = s.busy := rfl
@[simp] theorem sealPacket_done (p : List Byte) (s : State) : (sealPacket p s).done = s.done := rfl
@[simp] theorem sealPacket_err (p : List Byte) (s : State) : (sealPacket p s).err = s.err := rfl
@[simp] theorem sealPacket_stickyErr (p : List Byte) (s : State) : (sealPacket p s).stickyErr = s.stickyErr := rfl
@[simp] theorem sealPacket_cursorValid (p : List Byte) (s : State) : (sealPacket p s).cursorValid = s.cursorValid := rfl
@[simp] theorem sealPacket_ramEn (p : List Byte) (s : State) : (sealPacket p s).ramEn = s.ramEn := rfl
@[simp] theorem sealPacket_bypass (p : List Byte) (s : State) : (sealPacket p s).bypass = s.bypass := rfl
@[simp] theorem sealPacket_syncLost (p : List Byte) (s : State) : (sealPacket p s).syncLost = s.syncLost := rfl
@[simp] theorem sealPacket_xstate (p : List Byte) (s : State) : (sealPacket p s).xstate = s.xstate := rfl
@[simp] theorem sealPacket_errKind (p : List Byte) (s : State) : (sealPacket p s).errKind = s.errKind := rfl
@[simp] theorem sealPacket_errSub (p : List Byte) (s : State) : (sealPacket p s).errSub = s.errSub := rfl
@[simp] theorem sealPacket_errInfo (p : List Byte) (s : State) : (sealPacket p s).errInfo = s.errInfo := rfl
@[simp] theorem sealPacket_result (p : List Byte) (s : State) : (sealPacket p s).result = s.result := rfl
@[simp] theorem sealPacket_crc (p : List Byte) (s : State) : (sealPacket p s).crc = packetCrc p := rfl
@[simp] theorem sealPacket_txpkt (p : List Byte) (s : State) : (sealPacket p s).txpkt = s.txpkt.setBytes 70 [hiByte (packetCrc p), loByte (packetCrc p)] := rfl
@[simp] theorem sealPacket_txlen (p : List Byte) (s : State) : (sealPacket p s).txlen = s.txlen := rfl
@[simp] theorem sealPacket_rxpkt (p : List Byte) (s : State) : (sealPacket p s).rxpkt = s.rxpkt := rfl
@[simp] theorem sealPacket_rxlen (p : List Byte) (s : State) : (sealPacket p s).rxlen = s.rxlen := rfl
@[simp] theorem sealPacket_xdir (p : List Byte) (s : State) : (sealPacket p s).xdir = s.xdir := rfl
@[simp] theorem sealPacket_xlen (p : List Byte) (s : State) : (sealPacket p s).xlen = s.xlen := rfl
@[simp] theorem sealPacket_xcount (p : List Byte) (s : State) : (sealPacket p s).xcount = s.xcount := rfl
@[simp] theorem sealPacket_xboff (p : List Byte) (s : State) : (sealPacket p s).xboff = s.xboff := rfl
@[simp] theorem sealPacket_curW (p : List Byte) (s : State) : (sealPacket p s).curW = s.curW := rfl
@[simp] theorem sealPacket_delaySh (p : List Byte) (s : State) : (sealPacket p s).delaySh = s.delaySh := rfl
@[simp] theorem sealPacket_delayValid (p : List Byte) (s : State) : (sealPacket p s).delayValid = s.delayValid := rfl
@[simp] theorem sealPacket_hsAttempt (p : List Byte) (s : State) : (sealPacket p s).hsAttempt = s.hsAttempt := rfl
@[simp] theorem sealPacket_tCur (p : List Byte) (s : State) : (sealPacket p s).tCur = s.tCur := rfl
@[simp] theorem sealPacket_dbuf (p : List Byte) (s : State) : (sealPacket p s).dbuf = s.dbuf := rfl
@[simp] theorem sealPacket_hazard (p : List Byte) (s : State) : (sealPacket p s).hazard = s.hazard := rfl
@[simp] theorem sealPacket_adapter (p : List Byte) (s : State) : (sealPacket p s).adapter = s.adapter := rfl
@[simp] theorem sealPacket_peer (p : List Byte) (s : State) : (sealPacket p s).peer = s.peer := rfl
@[simp] theorem sealPacket_cart (p : List Byte) (s : State) : (sealPacket p s).cart = s.cart := rfl
@[simp] theorem sealPacket_env (p : List Byte) (s : State) : (sealPacket p s).env = s.env := rfl
@[simp] theorem sealPacket_pktPort (p : List Byte) (s : State) : (sealPacket p s).pktPort = s.pktPort := rfl
@[simp] theorem sealPacket_port (p : List Byte) (s : State) : (sealPacket p s).port = s.port := rfl
@[simp] theorem sealPacket_reads (p : List Byte) (s : State) : (sealPacket p s).reads = s.reads := rfl
@[simp] theorem sealPacket_txLog (p : List Byte) (s : State) : (sealPacket p s).txLog = s.txLog := rfl

/-! ### storeRx -/

@[simp] theorem storeRx_cfg (off : Nat) (bytes : List Byte) (s : State) : (storeRx off bytes s).cfg = s.cfg := rfl
@[simp] theorem storeRx_req (off : Nat) (bytes : List Byte) (s : State) : (storeRx off bytes s).req = s.req := rfl
@[simp] theorem storeRx_busy (off : Nat) (bytes : List Byte) (s : State) : (storeRx off bytes s).busy = s.busy := rfl
@[simp] theorem storeRx_done (off : Nat) (bytes : List Byte) (s : State) : (storeRx off bytes s).done = s.done := rfl
@[simp] theorem storeRx_err (off : Nat) (bytes : List Byte) (s : State) : (storeRx off bytes s).err = s.err := rfl
@[simp] theorem storeRx_stickyErr (off : Nat) (bytes : List Byte) (s : State) : (storeRx off bytes s).stickyErr = s.stickyErr := rfl
@[simp] theorem storeRx_cursorValid (off : Nat) (bytes : List Byte) (s : State) : (storeRx off bytes s).cursorValid = s.cursorValid := rfl
@[simp] theorem storeRx_ramEn (off : Nat) (bytes : List Byte) (s : State) : (storeRx off bytes s).ramEn = s.ramEn := rfl
@[simp] theorem storeRx_bypass (off : Nat) (bytes : List Byte) (s : State) : (storeRx off bytes s).bypass = s.bypass := rfl
@[simp] theorem storeRx_syncLost (off : Nat) (bytes : List Byte) (s : State) : (storeRx off bytes s).syncLost = s.syncLost := rfl
@[simp] theorem storeRx_xstate (off : Nat) (bytes : List Byte) (s : State) : (storeRx off bytes s).xstate = s.xstate := rfl
@[simp] theorem storeRx_errKind (off : Nat) (bytes : List Byte) (s : State) : (storeRx off bytes s).errKind = s.errKind := rfl
@[simp] theorem storeRx_errSub (off : Nat) (bytes : List Byte) (s : State) : (storeRx off bytes s).errSub = s.errSub := rfl
@[simp] theorem storeRx_errInfo (off : Nat) (bytes : List Byte) (s : State) : (storeRx off bytes s).errInfo = s.errInfo := rfl
@[simp] theorem storeRx_result (off : Nat) (bytes : List Byte) (s : State) : (storeRx off bytes s).result = s.result := rfl
@[simp] theorem storeRx_crc (off : Nat) (bytes : List Byte) (s : State) : (storeRx off bytes s).crc = s.crc := rfl
@[simp] theorem storeRx_txpkt (off : Nat) (bytes : List Byte) (s : State) : (storeRx off bytes s).txpkt = s.txpkt := rfl
@[simp] theorem storeRx_txlen (off : Nat) (bytes : List Byte) (s : State) : (storeRx off bytes s).txlen = s.txlen := rfl
@[simp] theorem storeRx_rxpkt (off : Nat) (bytes : List Byte) (s : State) : (storeRx off bytes s).rxpkt = s.rxpkt.setBytes off bytes := rfl
@[simp] theorem storeRx_rxlen (off : Nat) (bytes : List Byte) (s : State) : (storeRx off bytes s).rxlen = s.rxlen := rfl
@[simp] theorem storeRx_xdir (off : Nat) (bytes : List Byte) (s : State) : (storeRx off bytes s).xdir = s.xdir := rfl
@[simp] theorem storeRx_xlen (off : Nat) (bytes : List Byte) (s : State) : (storeRx off bytes s).xlen = s.xlen := rfl
@[simp] theorem storeRx_xcount (off : Nat) (bytes : List Byte) (s : State) : (storeRx off bytes s).xcount = s.xcount := rfl
@[simp] theorem storeRx_xboff (off : Nat) (bytes : List Byte) (s : State) : (storeRx off bytes s).xboff = s.xboff := rfl
@[simp] theorem storeRx_curW (off : Nat) (bytes : List Byte) (s : State) : (storeRx off bytes s).curW = s.curW := rfl
@[simp] theorem storeRx_delaySh (off : Nat) (bytes : List Byte) (s : State) : (storeRx off bytes s).delaySh = s.delaySh := rfl
@[simp] theorem storeRx_delayValid (off : Nat) (bytes : List Byte) (s : State) : (storeRx off bytes s).delayValid = s.delayValid := rfl
@[simp] theorem storeRx_hsAttempt (off : Nat) (bytes : List Byte) (s : State) : (storeRx off bytes s).hsAttempt = s.hsAttempt := rfl
@[simp] theorem storeRx_tCur (off : Nat) (bytes : List Byte) (s : State) : (storeRx off bytes s).tCur = s.tCur := rfl
@[simp] theorem storeRx_dbuf (off : Nat) (bytes : List Byte) (s : State) : (storeRx off bytes s).dbuf = s.dbuf := rfl
@[simp] theorem storeRx_hazard (off : Nat) (bytes : List Byte) (s : State) : (storeRx off bytes s).hazard = s.hazard := rfl
@[simp] theorem storeRx_adapter (off : Nat) (bytes : List Byte) (s : State) : (storeRx off bytes s).adapter = s.adapter := rfl
@[simp] theorem storeRx_peer (off : Nat) (bytes : List Byte) (s : State) : (storeRx off bytes s).peer = s.peer := rfl
@[simp] theorem storeRx_cart (off : Nat) (bytes : List Byte) (s : State) : (storeRx off bytes s).cart = s.cart := rfl
@[simp] theorem storeRx_env (off : Nat) (bytes : List Byte) (s : State) : (storeRx off bytes s).env = s.env := rfl
@[simp] theorem storeRx_pktPort (off : Nat) (bytes : List Byte) (s : State) : (storeRx off bytes s).pktPort = s.pktPort := rfl
@[simp] theorem storeRx_port (off : Nat) (bytes : List Byte) (s : State) : (storeRx off bytes s).port = s.port := rfl
@[simp] theorem storeRx_reads (off : Nat) (bytes : List Byte) (s : State) : (storeRx off bytes s).reads = s.reads := rfl
@[simp] theorem storeRx_txLog (off : Nat) (bytes : List Byte) (s : State) : (storeRx off bytes s).txLog = s.txLog := rfl

/-! ### setPs -/

@[simp] theorem setPs_cfg (ps : DevPs) (s : State) : (setPs ps s).cfg = s.cfg := rfl
@[simp] theorem setPs_req (ps : DevPs) (s : State) : (setPs ps s).req = s.req := rfl
@[simp] theorem setPs_busy (ps : DevPs) (s : State) : (setPs ps s).busy = s.busy := rfl
@[simp] theorem setPs_done (ps : DevPs) (s : State) : (setPs ps s).done = s.done := rfl
@[simp] theorem setPs_err (ps : DevPs) (s : State) : (setPs ps s).err = s.err := rfl
@[simp] theorem setPs_stickyErr (ps : DevPs) (s : State) : (setPs ps s).stickyErr = s.stickyErr := rfl
@[simp] theorem setPs_cursorValid (ps : DevPs) (s : State) : (setPs ps s).cursorValid = s.cursorValid := rfl
@[simp] theorem setPs_ramEn (ps : DevPs) (s : State) : (setPs ps s).ramEn = s.ramEn := rfl
@[simp] theorem setPs_bypass (ps : DevPs) (s : State) : (setPs ps s).bypass = s.bypass := rfl
@[simp] theorem setPs_syncLost (ps : DevPs) (s : State) : (setPs ps s).syncLost = s.syncLost := rfl
@[simp] theorem setPs_xstate (ps : DevPs) (s : State) : (setPs ps s).xstate = s.xstate := rfl
@[simp] theorem setPs_errKind (ps : DevPs) (s : State) : (setPs ps s).errKind = s.errKind := rfl
@[simp] theorem setPs_errSub (ps : DevPs) (s : State) : (setPs ps s).errSub = s.errSub := rfl
@[simp] theorem setPs_errInfo (ps : DevPs) (s : State) : (setPs ps s).errInfo = s.errInfo := rfl
@[simp] theorem setPs_result (ps : DevPs) (s : State) : (setPs ps s).result = s.result := rfl
@[simp] theorem setPs_crc (ps : DevPs) (s : State) : (setPs ps s).crc = s.crc := rfl
@[simp] theorem setPs_txpkt (ps : DevPs) (s : State) : (setPs ps s).txpkt = s.txpkt := rfl
@[simp] theorem setPs_txlen (ps : DevPs) (s : State) : (setPs ps s).txlen = s.txlen := rfl
@[simp] theorem setPs_rxpkt (ps : DevPs) (s : State) : (setPs ps s).rxpkt = s.rxpkt := rfl
@[simp] theorem setPs_rxlen (ps : DevPs) (s : State) : (setPs ps s).rxlen = s.rxlen := rfl
@[simp] theorem setPs_xdir (ps : DevPs) (s : State) : (setPs ps s).xdir = s.xdir := rfl
@[simp] theorem setPs_xlen (ps : DevPs) (s : State) : (setPs ps s).xlen = s.xlen := rfl
@[simp] theorem setPs_xcount (ps : DevPs) (s : State) : (setPs ps s).xcount = s.xcount := rfl
@[simp] theorem setPs_xboff (ps : DevPs) (s : State) : (setPs ps s).xboff = s.xboff := rfl
@[simp] theorem setPs_curW (ps : DevPs) (s : State) : (setPs ps s).curW = s.curW := rfl
@[simp] theorem setPs_delaySh (ps : DevPs) (s : State) : (setPs ps s).delaySh = s.delaySh := rfl
@[simp] theorem setPs_delayValid (ps : DevPs) (s : State) : (setPs ps s).delayValid = s.delayValid := rfl
@[simp] theorem setPs_hsAttempt (ps : DevPs) (s : State) : (setPs ps s).hsAttempt = s.hsAttempt := rfl
@[simp] theorem setPs_tCur (ps : DevPs) (s : State) : (setPs ps s).tCur = s.tCur := rfl
@[simp] theorem setPs_dbuf (ps : DevPs) (s : State) : (setPs ps s).dbuf = s.dbuf := rfl
@[simp] theorem setPs_hazard (ps : DevPs) (s : State) : (setPs ps s).hazard = s.hazard := rfl
@[simp] theorem setPs_adapter (ps : DevPs) (s : State) : (setPs ps s).adapter = s.adapter := rfl
@[simp] theorem setPs_peer (ps : DevPs) (s : State) : (setPs ps s).peer = { s.peer with ps := ps } := rfl
@[simp] theorem setPs_cart (ps : DevPs) (s : State) : (setPs ps s).cart = s.cart := rfl
@[simp] theorem setPs_env (ps : DevPs) (s : State) : (setPs ps s).env = s.env := rfl
@[simp] theorem setPs_pktPort (ps : DevPs) (s : State) : (setPs ps s).pktPort = s.pktPort := rfl
@[simp] theorem setPs_port (ps : DevPs) (s : State) : (setPs ps s).port = s.port := rfl
@[simp] theorem setPs_reads (ps : DevPs) (s : State) : (setPs ps s).reads = s.reads := rfl
@[simp] theorem setPs_txLog (ps : DevPs) (s : State) : (setPs ps s).txLog = s.txLog := rfl

/-! ### reopened -/

@[simp] theorem reopened_cfg (t : Nat) (s : State) : (reopened t s).cfg = s.cfg := rfl
@[simp] theorem reopened_req (t : Nat) (s : State) : (reopened t s).req = s.req := rfl
@[simp] theorem reopened_busy (t : Nat) (s : State) : (reopened t s).busy = s.busy := rfl
@[simp] theorem reopened_done (t : Nat) (s : State) : (reopened t s).done = s.done := rfl
@[simp] theorem reopened_err (t : Nat) (s : State) : (reopened t s).err = s.err := rfl
@[simp] theorem reopened_stickyErr (t : Nat) (s : State) : (reopened t s).stickyErr = s.stickyErr := rfl
@[simp] theorem reopened_cursorValid (t : Nat) (s : State) : (reopened t s).cursorValid = s.cursorValid := rfl
@[simp] theorem reopened_ramEn (t : Nat) (s : State) : (reopened t s).ramEn = s.ramEn := rfl
@[simp] theorem reopened_bypass (t : Nat) (s : State) : (reopened t s).bypass = s.bypass := rfl
@[simp] theorem reopened_syncLost (t : Nat) (s : State) : (reopened t s).syncLost = s.syncLost := rfl
@[simp] theorem reopened_xstate (t : Nat) (s : State) : (reopened t s).xstate = s.xstate := rfl
@[simp] theorem reopened_errKind (t : Nat) (s : State) : (reopened t s).errKind = s.errKind := rfl
@[simp] theorem reopened_errSub (t : Nat) (s : State) : (reopened t s).errSub = s.errSub := rfl
@[simp] theorem reopened_errInfo (t : Nat) (s : State) : (reopened t s).errInfo = s.errInfo := rfl
@[simp] theorem reopened_result (t : Nat) (s : State) : (reopened t s).result = s.result := rfl
@[simp] theorem reopened_crc (t : Nat) (s : State) : (reopened t s).crc = s.crc := rfl
@[simp] theorem reopened_txpkt (t : Nat) (s : State) : (reopened t s).txpkt = s.txpkt := rfl
@[simp] theorem reopened_txlen (t : Nat) (s : State) : (reopened t s).txlen = s.txlen := rfl
@[simp] theorem reopened_rxpkt (t : Nat) (s : State) : (reopened t s).rxpkt = s.rxpkt := rfl
@[simp] theorem reopened_rxlen (t : Nat) (s : State) : (reopened t s).rxlen = s.rxlen := rfl
@[simp] theorem reopened_xdir (t : Nat) (s : State) : (reopened t s).xdir = s.xdir := rfl
@[simp] theorem reopened_xlen (t : Nat) (s : State) : (reopened t s).xlen = s.xlen := rfl
@[simp] theorem reopened_xcount (t : Nat) (s : State) : (reopened t s).xcount = s.xcount := rfl
@[simp] theorem reopened_xboff (t : Nat) (s : State) : (reopened t s).xboff = s.xboff := rfl
@[simp] theorem reopened_curW (t : Nat) (s : State) : (reopened t s).curW = s.curW := rfl
@[simp] theorem reopened_delaySh (t : Nat) (s : State) : (reopened t s).delaySh = s.delaySh := rfl
@[simp] theorem reopened_delayValid (t : Nat) (s : State) : (reopened t s).delayValid = s.delayValid := rfl
@[simp] theorem reopened_hsAttempt (t : Nat) (s : State) : (reopened t s).hsAttempt = s.hsAttempt := rfl
@[simp] theorem reopened_tCur (t : Nat) (s : State) : (reopened t s).tCur = t := rfl
@[simp] theorem reopened_dbuf (t : Nat) (s : State) : (reopened t s).dbuf = s.dbuf := rfl
@[simp] theorem reopened_hazard (t : Nat) (s : State) : (reopened t s).hazard = s.hazard := rfl
@[simp] theorem reopened_adapter (t : Nat) (s : State) : (reopened t s).adapter = s.adapter := rfl
@[simp] theorem reopened_peer (t : Nat) (s : State) : (reopened t s).peer = { s.peer with rxLine := [], idReply := .afterReopen, stale := s.syncLost } := rfl
@[simp] theorem reopened_cart (t : Nat) (s : State) : (reopened t s).cart = s.cart := rfl
@[simp] theorem reopened_env (t : Nat) (s : State) : (reopened t s).env = s.env := rfl
@[simp] theorem reopened_pktPort (t : Nat) (s : State) : (reopened t s).pktPort = s.pktPort := rfl
@[simp] theorem reopened_port (t : Nat) (s : State) : (reopened t s).port = s.port := rfl
@[simp] theorem reopened_reads (t : Nat) (s : State) : (reopened t s).reads = s.reads := rfl
@[simp] theorem reopened_txLog (t : Nat) (s : State) : (reopened t s).txLog = s.txLog := rfl

/-! ### reply -/

@[simp] theorem reply_cfg (bytes : List Byte) (s : State) : (reply bytes s).cfg = s.cfg := rfl
@[simp] theorem reply_req (bytes : List Byte) (s : State) : (reply bytes s).req = s.req := rfl
@[simp] theorem reply_busy (bytes : List Byte) (s : State) : (reply bytes s).busy = s.busy := rfl
@[simp] theorem reply_done (bytes : List Byte) (s : State) : (reply bytes s).done = s.done := rfl
@[simp] theorem reply_err (bytes : List Byte) (s : State) : (reply bytes s).err = s.err := rfl
@[simp] theorem reply_stickyErr (bytes : List Byte) (s : State) : (reply bytes s).stickyErr = s.stickyErr := rfl
@[simp] theorem reply_cursorValid (bytes : List Byte) (s : State) : (reply bytes s).cursorValid = s.cursorValid := rfl
@[simp] theorem reply_ramEn (bytes : List Byte) (s : State) : (reply bytes s).ramEn = s.ramEn := rfl
@[simp] theorem reply_bypass (bytes : List Byte) (s : State) : (reply bytes s).bypass = s.bypass := rfl
@[simp] theorem reply_syncLost (bytes : List Byte) (s : State) : (reply bytes s).syncLost = s.syncLost := rfl
@[simp] theorem reply_xstate (bytes : List Byte) (s : State) : (reply bytes s).xstate = s.xstate := rfl
@[simp] theorem reply_errKind (bytes : List Byte) (s : State) : (reply bytes s).errKind = s.errKind := rfl
@[simp] theorem reply_errSub (bytes : List Byte) (s : State) : (reply bytes s).errSub = s.errSub := rfl
@[simp] theorem reply_errInfo (bytes : List Byte) (s : State) : (reply bytes s).errInfo = s.errInfo := rfl
@[simp] theorem reply_result (bytes : List Byte) (s : State) : (reply bytes s).result = s.result := rfl
@[simp] theorem reply_crc (bytes : List Byte) (s : State) : (reply bytes s).crc = s.crc := rfl
@[simp] theorem reply_txpkt (bytes : List Byte) (s : State) : (reply bytes s).txpkt = s.txpkt := rfl
@[simp] theorem reply_txlen (bytes : List Byte) (s : State) : (reply bytes s).txlen = s.txlen := rfl
@[simp] theorem reply_rxpkt (bytes : List Byte) (s : State) : (reply bytes s).rxpkt = s.rxpkt := rfl
@[simp] theorem reply_rxlen (bytes : List Byte) (s : State) : (reply bytes s).rxlen = s.rxlen := rfl
@[simp] theorem reply_xdir (bytes : List Byte) (s : State) : (reply bytes s).xdir = s.xdir := rfl
@[simp] theorem reply_xlen (bytes : List Byte) (s : State) : (reply bytes s).xlen = s.xlen := rfl
@[simp] theorem reply_xcount (bytes : List Byte) (s : State) : (reply bytes s).xcount = s.xcount := rfl
@[simp] theorem reply_xboff (bytes : List Byte) (s : State) : (reply bytes s).xboff = s.xboff := rfl
@[simp] theorem reply_curW (bytes : List Byte) (s : State) : (reply bytes s).curW = s.curW := rfl
@[simp] theorem reply_delaySh (bytes : List Byte) (s : State) : (reply bytes s).delaySh = s.delaySh := rfl
@[simp] theorem reply_delayValid (bytes : List Byte) (s : State) : (reply bytes s).delayValid = s.delayValid := rfl
@[simp] theorem reply_hsAttempt (bytes : List Byte) (s : State) : (reply bytes s).hsAttempt = s.hsAttempt := rfl
@[simp] theorem reply_tCur (bytes : List Byte) (s : State) : (reply bytes s).tCur = s.tCur := rfl
@[simp] theorem reply_dbuf (bytes : List Byte) (s : State) : (reply bytes s).dbuf = s.dbuf := rfl
@[simp] theorem reply_hazard (bytes : List Byte) (s : State) : (reply bytes s).hazard = s.hazard := rfl
@[simp] theorem reply_adapter (bytes : List Byte) (s : State) : (reply bytes s).adapter = s.adapter := rfl
@[simp] theorem reply_peer (bytes : List Byte) (s : State) : (reply bytes s).peer = { s.peer with rxLine := s.peer.rxLine ++ bytes } := rfl
@[simp] theorem reply_cart (bytes : List Byte) (s : State) : (reply bytes s).cart = s.cart := rfl
@[simp] theorem reply_env (bytes : List Byte) (s : State) : (reply bytes s).env = s.env := rfl
@[simp] theorem reply_pktPort (bytes : List Byte) (s : State) : (reply bytes s).pktPort = s.pktPort := rfl
@[simp] theorem reply_port (bytes : List Byte) (s : State) : (reply bytes s).port = s.port := rfl
@[simp] theorem reply_reads (bytes : List Byte) (s : State) : (reply bytes s).reads = s.reads := rfl
@[simp] theorem reply_txLog (bytes : List Byte) (s : State) : (reply bytes s).txLog = s.txLog := rfl

/-! ### cartWrite -/

@[simp] theorem cartWrite_cfg (w : WordAddr) (hi : Option Byte) (lo : Byte) (s : State) : (cartWrite w hi lo s).cfg = s.cfg := rfl
@[simp] theorem cartWrite_req (w : WordAddr) (hi : Option Byte) (lo : Byte) (s : State) : (cartWrite w hi lo s).req = s.req := rfl
@[simp] theorem cartWrite_busy (w : WordAddr) (hi : Option Byte) (lo : Byte) (s : State) : (cartWrite w hi lo s).busy = s.busy := rfl
@[simp] theorem cartWrite_done (w : WordAddr) (hi : Option Byte) (lo : Byte) (s : State) : (cartWrite w hi lo s).done = s.done := rfl
@[simp] theorem cartWrite_err (w : WordAddr) (hi : Option Byte) (lo : Byte) (s : State) : (cartWrite w hi lo s).err = s.err := rfl
@[simp] theorem cartWrite_stickyErr (w : WordAddr) (hi : Option Byte) (lo : Byte) (s : State) : (cartWrite w hi lo s).stickyErr = s.stickyErr := rfl
@[simp] theorem cartWrite_cursorValid (w : WordAddr) (hi : Option Byte) (lo : Byte) (s : State) : (cartWrite w hi lo s).cursorValid = s.cursorValid := rfl
@[simp] theorem cartWrite_ramEn (w : WordAddr) (hi : Option Byte) (lo : Byte) (s : State) : (cartWrite w hi lo s).ramEn = s.ramEn := rfl
@[simp] theorem cartWrite_bypass (w : WordAddr) (hi : Option Byte) (lo : Byte) (s : State) : (cartWrite w hi lo s).bypass = s.bypass := rfl
@[simp] theorem cartWrite_syncLost (w : WordAddr) (hi : Option Byte) (lo : Byte) (s : State) : (cartWrite w hi lo s).syncLost = s.syncLost := rfl
@[simp] theorem cartWrite_xstate (w : WordAddr) (hi : Option Byte) (lo : Byte) (s : State) : (cartWrite w hi lo s).xstate = s.xstate := rfl
@[simp] theorem cartWrite_errKind (w : WordAddr) (hi : Option Byte) (lo : Byte) (s : State) : (cartWrite w hi lo s).errKind = s.errKind := rfl
@[simp] theorem cartWrite_errSub (w : WordAddr) (hi : Option Byte) (lo : Byte) (s : State) : (cartWrite w hi lo s).errSub = s.errSub := rfl
@[simp] theorem cartWrite_errInfo (w : WordAddr) (hi : Option Byte) (lo : Byte) (s : State) : (cartWrite w hi lo s).errInfo = s.errInfo := rfl
@[simp] theorem cartWrite_result (w : WordAddr) (hi : Option Byte) (lo : Byte) (s : State) : (cartWrite w hi lo s).result = s.result := rfl
@[simp] theorem cartWrite_crc (w : WordAddr) (hi : Option Byte) (lo : Byte) (s : State) : (cartWrite w hi lo s).crc = s.crc := rfl
@[simp] theorem cartWrite_txpkt (w : WordAddr) (hi : Option Byte) (lo : Byte) (s : State) : (cartWrite w hi lo s).txpkt = s.txpkt := rfl
@[simp] theorem cartWrite_txlen (w : WordAddr) (hi : Option Byte) (lo : Byte) (s : State) : (cartWrite w hi lo s).txlen = s.txlen := rfl
@[simp] theorem cartWrite_rxpkt (w : WordAddr) (hi : Option Byte) (lo : Byte) (s : State) : (cartWrite w hi lo s).rxpkt = s.rxpkt := rfl
@[simp] theorem cartWrite_rxlen (w : WordAddr) (hi : Option Byte) (lo : Byte) (s : State) : (cartWrite w hi lo s).rxlen = s.rxlen := rfl
@[simp] theorem cartWrite_xdir (w : WordAddr) (hi : Option Byte) (lo : Byte) (s : State) : (cartWrite w hi lo s).xdir = s.xdir := rfl
@[simp] theorem cartWrite_xlen (w : WordAddr) (hi : Option Byte) (lo : Byte) (s : State) : (cartWrite w hi lo s).xlen = s.xlen := rfl
@[simp] theorem cartWrite_xcount (w : WordAddr) (hi : Option Byte) (lo : Byte) (s : State) : (cartWrite w hi lo s).xcount = s.xcount := rfl
@[simp] theorem cartWrite_xboff (w : WordAddr) (hi : Option Byte) (lo : Byte) (s : State) : (cartWrite w hi lo s).xboff = s.xboff := rfl
@[simp] theorem cartWrite_curW (w : WordAddr) (hi : Option Byte) (lo : Byte) (s : State) : (cartWrite w hi lo s).curW = s.curW := rfl
@[simp] theorem cartWrite_delaySh (w : WordAddr) (hi : Option Byte) (lo : Byte) (s : State) : (cartWrite w hi lo s).delaySh = s.delaySh := rfl
@[simp] theorem cartWrite_delayValid (w : WordAddr) (hi : Option Byte) (lo : Byte) (s : State) : (cartWrite w hi lo s).delayValid = s.delayValid := rfl
@[simp] theorem cartWrite_hsAttempt (w : WordAddr) (hi : Option Byte) (lo : Byte) (s : State) : (cartWrite w hi lo s).hsAttempt = s.hsAttempt := rfl
@[simp] theorem cartWrite_tCur (w : WordAddr) (hi : Option Byte) (lo : Byte) (s : State) : (cartWrite w hi lo s).tCur = s.tCur := rfl
@[simp] theorem cartWrite_dbuf (w : WordAddr) (hi : Option Byte) (lo : Byte) (s : State) : (cartWrite w hi lo s).dbuf = s.dbuf := rfl
@[simp] theorem cartWrite_hazard (w : WordAddr) (hi : Option Byte) (lo : Byte) (s : State) : (cartWrite w hi lo s).hazard = s.hazard := rfl
@[simp] theorem cartWrite_adapter (w : WordAddr) (hi : Option Byte) (lo : Byte) (s : State) : (cartWrite w hi lo s).adapter = s.adapter := rfl
@[simp] theorem cartWrite_peer (w : WordAddr) (hi : Option Byte) (lo : Byte) (s : State) : (cartWrite w hi lo s).peer = s.peer := rfl
@[simp] theorem cartWrite_cart (w : WordAddr) (hi : Option Byte) (lo : Byte) (s : State) : (cartWrite w hi lo s).cart = s.cart.write s.cfg w.toNat hi lo := rfl
@[simp] theorem cartWrite_env (w : WordAddr) (hi : Option Byte) (lo : Byte) (s : State) : (cartWrite w hi lo s).env = s.env := rfl
@[simp] theorem cartWrite_pktPort (w : WordAddr) (hi : Option Byte) (lo : Byte) (s : State) : (cartWrite w hi lo s).pktPort = s.pktPort := rfl
@[simp] theorem cartWrite_port (w : WordAddr) (hi : Option Byte) (lo : Byte) (s : State) : (cartWrite w hi lo s).port = s.port := rfl
@[simp] theorem cartWrite_reads (w : WordAddr) (hi : Option Byte) (lo : Byte) (s : State) : (cartWrite w hi lo s).reads = s.reads := rfl
@[simp] theorem cartWrite_txLog (w : WordAddr) (hi : Option Byte) (lo : Byte) (s : State) : (cartWrite w hi lo s).txLog = s.txLog := rfl

/-! ### The conditional parts -/

/-- Where the attached adapter is the MD one, transmitted bytes wait for it. -/
theorem State.transmit_peer_md (bytes : List Byte) (s : State) (h : s.adapter = .md) :
    (s.transmit bytes).peer = { s.peer with inbox := s.peer.inbox ++ bytes } := by
  simp [State.transmit, h]

/-- A GB adapter has no queue of bytes in the state. -/
theorem State.transmit_peer_gb (bytes : List Byte) (s : State) (h : s.adapter = .gb) : (s.transmit bytes).peer = s.peer := by
  simp [State.transmit, h]

/-- CUR_W advances only while it is valid (R229). -/
theorem advanceCursor_curW (n : Nat) (s : State) :
    (advanceCursor n s).curW = if s.cursorValid then s.curW + BitVec.ofNat 24 n else s.curW := by
  cases h : s.cursorValid <;> simp [advanceCursor, h]

end Sys2Proof.Machine
end

