-- ==== Sys2Proof/Laws/Act.lean ====
section
/-! SUPPORT. Running pieces of a request: what sequencing, register access and raising do, and the rule by which a property that every
piece keeps is kept by the whole request. -/

namespace Sys2Proof.Machine

variable {α β : Type}

/-! ### Sequencing -/

theorem act_bind (m : Act α) (f : α → Act β) (s : State) :
    (m >>= f) s = match m s with
      | .ok a t => f a t
      | .error e t => .error e t := by
  show EStateM.bind m f s = _
  unfold EStateM.bind
  cases m s <;> rfl

/-- A sequence whose first piece completes goes on with the second. -/
theorem act_bind_ok {m : Act α} {f : α → Act β} {s t : State} {a : α} (h : m s = .ok a t) : (m >>= f) s = f a t := by
  rw [act_bind, h]

/-- A sequence whose first piece ends the request ends there. -/
theorem act_bind_error {m : Act α} {f : α → Act β} {s t : State} {e : Ended} (h : m s = .error e t) :
    (m >>= f) s = .error e t := by
  rw [act_bind, h]

@[simp] theorem act_pure (a : α) (s : State) : (pure a : Act α) s = .ok a s := rfl

@[simp] theorem upd_run (f : State → State) (s : State) : upd f s = .ok () (f s) := rfl

@[simp] theorem look_run (f : State → α) (s : State) : look f s = .ok (f s) s := rfl

@[simp] theorem raise_run (e : Err) (info : Nat) (s : State) :
    (raise e info : Act α) s = .error .raised (s.raise e (BitVec.ofNat 32 info)) := rfl

@[simp] theorem raiseTransport_run (fam : Family) (e : Err) (info : Nat) (s : State) :
    (raiseTransport fam e info : Act α) s = .error .raised (s.raiseTransport fam e info) := rfl

/-- A check that holds does nothing. -/
@[simp] theorem check_true (e : Err) (info : Nat) (s : State) : check true e info s = .ok () s := rfl

/-- A check that fails raises. -/
@[simp] theorem check_false (e : Err) (info : Nat) (s : State) :
    check false e info s = .error .raised (s.raise e (BitVec.ofNat 32 info)) := rfl

@[simp] theorem stop_run (f : Fault) (s : State) : (stop f : Act α) s = .error (.fault f) s := rfl

@[simp] theorem draw_run (take : State → α × State) (s : State) : draw take s = .ok (take s).1 (take s).2 := rfl

/-- An optional read that finds a value. -/
theorem orStop_some {f : State → Option α} {s : State} {a : α} (h : f s = some a) : orStop f s = .ok a s := by
  simp [orStop, h]

/-- An optional read that finds none stops the model (I4). -/
theorem orStop_none {f : State → Option α} {s : State} (h : f s = none) : orStop f s = .error (.fault .unwrittenByte) s := by
  simp [orStop, h]

/-- An error's effect beside the error itself leaves a piece that completes as it is. -/
theorem onRaise_ok {f : State → State} {m : Act α} {s t : State} {a : α} (h : m s = .ok a t) : onRaise f m s = .ok a t := by
  simp [onRaise, h]

/-- An error's effect beside the error itself. -/
theorem onRaise_raised {f : State → State} {m : Act α} {s t : State} (h : m s = .error .raised t) :
    onRaise f m s = .error .raised (f t) := by
  simp [onRaise, h]

/-! ### A whole request -/

/-- A request that completes. -/
theorem runRequest_ok {m : Act Reg32} {s t : State} {r : Reg32} (h : m s.accept = .ok r t) :
    runRequest m s = .next (t.complete r) := by
  simp [runRequest, h, settle]

/-- A request that raises. -/
theorem runRequest_raised {m : Act Reg32} {s t : State} (h : m s.accept = .error .raised t) : runRequest m s = .next t := by
  simp [runRequest, h, settle]

/-- A request that a reset ends. -/
theorem runRequest_reset {m : Act Reg32} {s t : State} (h : m s.accept = .error .reset t) : runRequest m s = .next t := by
  simp [runRequest, h, settle]

/-- A request in which the model stops. -/
theorem runRequest_fault {m : Act Reg32} {s t : State} {f : Fault} (h : m s.accept = .error (.fault f) t) :
    runRequest m s = .fault f := by
  simp [runRequest, h, settle]

/-- Everything a request can end in: completion, an error, a reset, a stop; never a refusal. -/
theorem runRequest_cases (m : Act Reg32) (s : State) :
    (∃ r t, m s.accept = .ok r t ∧ runRequest m s = .next (t.complete r)) ∨
    (∃ t, m s.accept = .error .raised t ∧ runRequest m s = .next t) ∨
    (∃ t, m s.accept = .error .reset t ∧ runRequest m s = .next t) ∨
    (∃ f t, m s.accept = .error (.fault f) t ∧ runRequest m s = .fault f) := by
  cases h : m s.accept with
  | ok r t => exact .inl ⟨r, t, rfl, runRequest_ok h⟩
  | error e t =>
    cases e with
    | raised => exact .inr (.inl ⟨t, rfl, runRequest_raised h⟩)
    | reset => exact .inr (.inr (.inl ⟨t, rfl, runRequest_reset h⟩))
    | fault f => exact .inr (.inr (.inr ⟨f, t, rfl, runRequest_fault h⟩))

/-- A request while BUSY = 1 does nothing (R22). -/
theorem request_busy {m : Act Reg32} {s : State} (h : s.busy = true) : request m s = .next s := by
  simp [request, h]

/-- A request while BUSY = 0 runs. -/
theorem request_ready {m : Act Reg32} {s : State} (h : s.busy = false) : request m s = runRequest m s := by
  simp [request, h]

/-! ### Properties that every piece keeps -/

/-- A piece of a request keeps a property however it ends. -/
def Keeps (P : State → Prop) (m : Act α) : Prop :=
  ∀ s, P s → match m s with
    | .ok _ t => P t
    | .error _ t => P t

theorem keeps_pure (P : State → Prop) (a : α) : Keeps P (pure a : Act α) := fun _ h => h

theorem keeps_bind {P : State → Prop} {m : Act α} {f : α → Act β} (h1 : Keeps P m) (h2 : ∀ a, Keeps P (f a)) :
    Keeps P (m >>= f) := by
  intro s hs
  have h := h1 s hs
  rw [act_bind]
  cases hm : m s <;> simp only [hm] at h ⊢
  · exact h2 _ _ h
  · exact h

theorem keeps_upd {P : State → Prop} {f : State → State} (h : ∀ s, P s → P (f s)) : Keeps P (upd f) := h

theorem keeps_look (P : State → Prop) (f : State → α) : Keeps P (look f) := fun _ h => h

theorem keeps_raise {P : State → Prop} {e : Err} {info : Nat} (h : ∀ s r, P s → P (s.raise e r)) :
    Keeps P (raise e info : Act α) := fun s hs => h s _ hs

theorem keeps_check {P : State → Prop} {ok : Bool} {e : Err} {info : Nat} (h : ∀ s r, P s → P (s.raise e r)) :
    Keeps P (check ok e info) := by
  cases ok
  · exact keeps_raise h
  · exact keeps_pure P ()

/-- A stop keeps every property. -/
theorem keeps_stop (P : State → Prop) (f : Fault) : Keeps P (stop f : Act α) := fun _ h => h

/-- An optional read keeps every property. -/
theorem keeps_orStop (P : State → Prop) (f : State → Option α) : Keeps P (orStop f) := by
  intro s hs
  unfold orStop
  cases f s <;> exact hs

/-- A draw keeps a property that taking it keeps. -/
theorem keeps_draw {P : State → Prop} {take : State → α × State} (h : ∀ s, P s → P (take s).2) : Keeps P (draw take) := h

/-- An error's effect beside the error itself keeps a property that it and the piece keep. -/
theorem keeps_onRaise {P : State → Prop} {f : State → State} {m : Act α} (hf : ∀ s, P s → P (f s)) (hm : Keeps P m) :
    Keeps P (onRaise f m) := by
  intro s hs
  have h := hm s hs
  unfold onRaise
  cases hr : m s with
  | ok a t => simpa [hr] using h
  | error e t =>
    simp only [hr] at h
    cases e with
    | raised => exact hf t h
    | reset => exact h
    | fault g => exact h

/-- A request keeps a property that acceptance, completion and every piece keep. -/
theorem keeps_runRequest {P : State → Prop} {m : Act Reg32} (ha : ∀ s, P s → P s.accept) (hc : ∀ s r, P s → P (s.complete r))
    (hm : Keeps P m) {s t : State} (h : P s) (ht : runRequest m s = .next t) : P t := by
  have hk := hm s.accept (ha s h)
  rcases runRequest_cases m s with ⟨r, u, hu, he⟩ | ⟨u, hu, he⟩ | ⟨u, hu, he⟩ | ⟨f, u, hu, he⟩ <;>
    rw [he] at ht <;> simp only [hu] at hk
  · cases ht; exact hc _ _ hk
  · cases ht; exact hk
  · cases ht; exact hk
  · cases ht

end Sys2Proof.Machine
end

