-- ==== Sys2Proof/Laws/Memory.lean ====
section
/-! SUPPORT. The byte stores: reading after writing, and the canonical form, which every operation keeps. -/

namespace Sys2Proof.Machine

/-! ### Reading after writing -/

@[simp] theorem Memory.get_nil (x : Nat) : Memory.get [] x = none := rfl

/-- A written byte reads back; every other offset is left alone. -/
theorem Memory.get_set (m : Memory) (a : Nat) (b : Byte) (x : Nat) : (m.set a b).get x = if x = a then some b else m.get x := by
  induction m with
  | nil => simp only [Memory.set, Memory.get, eq_comm (a := a)]
  | cons c rest ih =>
    obtain ⟨k, v⟩ := c
    simp only [Memory.set]
    split
    · simp only [Memory.get, eq_comm (a := a)]
    · split
      · subst k; simp only [Memory.get, eq_comm (a := a)]; split <;> rfl
      · simp only [Memory.get, ih]
        by_cases hk : k = x
        · rw [if_pos hk, if_pos hk, if_neg (by omega)]
        · rw [if_neg hk, if_neg hk]

/-- An entry that a filter keeps reads as before; every other offset reads as nothing. -/
theorem Memory.get_filter (m : Memory) (p : Nat → Bool) (x : Nat) :
    Memory.get (m.filter fun c => p c.1) x = if p x then m.get x else none := by
  induction m with
  | nil => simp [Memory.get]
  | cons c rest ih =>
    obtain ⟨k, v⟩ := c
    simp only [List.filter_cons]
    split
    · simp only [Memory.get, ih]; split <;> simp_all
    · simp only [Memory.get, ih]
      by_cases h : k = x <;> simp_all

theorem Memory.get_append (m n : Memory) (x : Nat) : Memory.get (m ++ n) x = (m.get x).or (n.get x) := by
  induction m with
  | nil => simp [Memory.get]
  | cons c rest ih =>
    obtain ⟨k, v⟩ := c
    simp only [List.cons_append, Memory.get, ih]
    split <;> simp

theorem Memory.get_cells (bytes : List Byte) (a x : Nat) :
    Memory.get (Memory.cells a bytes) x = if a ≤ x then bytes[x - a]? else none := by
  induction bytes generalizing a with
  | nil => simp [Memory.cells]
  | cons b rest ih =>
    simp only [Memory.cells, Memory.get, ih]
    by_cases h : a = x
    · subst h; simp
    · by_cases h' : a ≤ x
      · have : x - a = (x - (a + 1)) + 1 := by omega
        rw [if_neg h, if_pos (by omega), if_pos h', this, List.getElem?_cons_succ]
      · rw [if_neg h, if_neg (by omega), if_neg h']

/-- Written bytes read back; every other offset is left alone. -/
theorem Memory.get_setBytes (m : Memory) (a : Nat) (bytes : List Byte) (x : Nat) :
    (m.setBytes a bytes).get x = if a ≤ x ∧ x < a + bytes.length then bytes[x - a]? else m.get x := by
  cases bytes with
  | nil => simp only [Memory.setBytes, List.length_nil]; rw [if_neg (by omega)]
  | cons b rest =>
    have h1 : (fun c : Host.Cell => decide (c.1 < a)) = fun c => (fun k => decide (k < a)) c.1 := rfl
    have h2 : (fun c : Host.Cell => decide (a + (b :: rest).length ≤ c.1)) =
        fun c => (fun k => decide (a + (b :: rest).length ≤ k)) c.1 := rfl
    simp only [Memory.setBytes]
    rw [h1, h2, Memory.get_append, Memory.get_append, Memory.get_filter m fun k => decide (k < a),
      Memory.get_filter m fun k => decide (a + (b :: rest).length ≤ k), Memory.get_cells]
    by_cases ha : x < a
    · have e1 : ¬ a ≤ x := by omega
      have e2 : ¬ a + (b :: rest).length ≤ x := by omega
      simp only [decide_true, ha, e1, e2, decide_false, if_true, if_false, false_and]
      cases m.get x <;> simp
    · by_cases hb : x < a + (b :: rest).length
      · have e1 : a ≤ x := by omega
        have e2 : ¬ a + (b :: rest).length ≤ x := by omega
        simp only [ha, e1, e2, hb, decide_false, if_true, and_self, Option.or]
        rw [List.getElem?_eq_getElem (by omega)]; rfl
      · have e1 : a ≤ x := by omega
        have e2 : a + (b :: rest).length ≤ x := by omega
        simp only [ha, e1, e2, hb, decide_false, decide_true, if_true, and_false, if_false]
        rw [List.getElem?_eq_none (by omega)]; simp

/-- Forgotten offsets hold no value; every other one is left alone. -/
theorem Memory.get_removeRange (m : Memory) (a n x : Nat) :
    (m.removeRange a n).get x = if a ≤ x ∧ x < a + n then none else m.get x := by
  have h := Memory.get_filter m (fun k => k < a || a + n ≤ k) x
  unfold Memory.removeRange
  rw [h]
  by_cases h1 : x < a <;> by_cases h2 : a + n ≤ x <;> simp [h1, h2]

/-! ### The canonical form -/

/-- The canonical form as a relation between any two entries. -/
theorem Memory.wf_iff (m : Memory) : m.wf = true ↔ m.Pairwise fun c d => c.1 < d.1 := by
  induction m with
  | nil => simp [Memory.wf]
  | cons c rest ih =>
    obtain ⟨a, v⟩ := c
    cases rest with
    | nil => simp [Memory.wf]
    | cons d rest =>
      obtain ⟨b, w⟩ := d
      simp only [Memory.wf, Bool.and_eq_true, decide_eq_true_eq, ih, List.pairwise_cons, List.mem_cons, forall_eq_or_imp]
      constructor
      · rintro ⟨h, h1, h2⟩
        exact ⟨⟨h, fun c hc => Nat.lt_trans h (h1 c hc)⟩, h1, h2⟩
      · rintro ⟨⟨h, -⟩, h1, h2⟩
        exact ⟨h, h1, h2⟩

theorem Memory.below_iff (m : Memory) (n : Nat) : m.below n = true ↔ ∀ c ∈ m, c.1 < n := by
  simp [Memory.below]

theorem Memory.mem_set (m : Memory) (a : Nat) (b : Byte) (c : Host.Cell) (h : c ∈ m.set a b) : c = (a, b) ∨ c ∈ m := by
  induction m with
  | nil => simpa [Memory.set] using h
  | cons d rest ih =>
    obtain ⟨k, v⟩ := d
    simp only [Memory.set] at h
    split at h
    · simpa using h
    · split at h
      · rcases List.mem_cons.1 h with h | h
        · exact .inl h
        · exact .inr (List.mem_cons_of_mem _ h)
      · rcases List.mem_cons.1 h with h | h
        · exact .inr (h ▸ List.mem_cons_self)
        · rcases ih h with h | h
          · exact .inl h
          · exact .inr (List.mem_cons_of_mem _ h)

/-- Writing a byte keeps the canonical form. -/
theorem Memory.wf_set (m : Memory) (a : Nat) (b : Byte) (h : m.wf = true) : (m.set a b).wf = true := by
  rw [Memory.wf_iff] at *
  induction m with
  | nil => simp [Memory.set]
  | cons d rest ih =>
    obtain ⟨k, v⟩ := d
    obtain ⟨h1, h2⟩ := List.pairwise_cons.1 h
    simp only [Memory.set]
    split
    · refine List.pairwise_cons.2 ⟨fun c hc => ?_, h⟩
      rcases List.mem_cons.1 hc with rfl | hc
      · assumption
      · exact Nat.lt_trans ‹_› (h1 c hc)
    · split
      · rename_i hk; subst hk; exact List.pairwise_cons.2 ⟨h1, h2⟩
      · refine List.pairwise_cons.2 ⟨fun c hc => ?_, ih h2⟩
        rcases Memory.mem_set _ _ _ _ hc with rfl | hc
        · show k < a; omega
        · exact h1 c hc

theorem Memory.mem_cells (bytes : List Byte) (a : Nat) (c : Host.Cell) (h : c ∈ Memory.cells a bytes) :
    a ≤ c.1 ∧ c.1 < a + bytes.length := by
  induction bytes generalizing a with
  | nil => simp [Memory.cells] at h
  | cons b rest ih =>
    rcases List.mem_cons.1 h with rfl | h
    · simp
    · have := ih (a + 1) h; simp only [List.length_cons]; omega

theorem Memory.pairwise_cells (bytes : List Byte) (a : Nat) : (Memory.cells a bytes).Pairwise fun c d => c.1 < d.1 := by
  induction bytes generalizing a with
  | nil => exact .nil
  | cons b rest ih =>
    refine List.pairwise_cons.2 ⟨fun c hc => ?_, ih (a + 1)⟩
    have := Memory.mem_cells rest (a + 1) c hc
    show a < c.1; omega

/-- Writing bytes keeps the canonical form. -/
theorem Memory.wf_setBytes (m : Memory) (a : Nat) (bytes : List Byte) (h : m.wf = true) : (m.setBytes a bytes).wf = true := by
  cases bytes with
  | nil => exact h
  | cons b rest =>
    rw [Memory.wf_iff] at *
    simp only [Memory.setBytes, List.append_assoc]
    refine List.pairwise_append.2 ⟨h.filter _, List.pairwise_append.2 ⟨Memory.pairwise_cells _ _, h.filter _, ?_⟩, ?_⟩
    · intro c hc d hd
      have h1 := Memory.mem_cells _ _ c hc
      have h2 := (List.mem_filter.1 hd).2
      simp only [decide_eq_true_eq] at h2
      omega
    · intro c hc d hd
      have h1 := (List.mem_filter.1 hc).2
      simp only [decide_eq_true_eq] at h1
      rcases List.mem_append.1 hd with hd | hd
      · have := Memory.mem_cells _ _ d hd; omega
      · have h2 := (List.mem_filter.1 hd).2
        simp only [decide_eq_true_eq] at h2
        omega

/-- Forgetting bytes keeps the canonical form. -/
theorem Memory.wf_removeRange (m : Memory) (a n : Nat) (h : m.wf = true) : (m.removeRange a n).wf = true := by
  rw [Memory.wf_iff] at *
  exact h.filter _

/-- A byte written below a bound keeps every offset below it. -/
theorem Memory.below_set (m : Memory) (a : Nat) (b : Byte) (n : Nat) (h : m.below n = true) (ha : a < n) :
    (m.set a b).below n = true := by
  rw [Memory.below_iff] at *
  intro c hc
  rcases Memory.mem_set _ _ _ _ hc with rfl | hc
  · exact ha
  · exact h c hc

/-- Bytes written below a bound keep every offset below it. -/
theorem Memory.below_setBytes (m : Memory) (a : Nat) (bytes : List Byte) (n : Nat) (h : m.below n = true)
    (ha : a + bytes.length ≤ n) : (m.setBytes a bytes).below n = true := by
  cases bytes with
  | nil => exact h
  | cons b rest =>
    rw [Memory.below_iff] at *
    intro c hc
    simp only [Memory.setBytes, List.append_assoc, List.mem_append, List.mem_filter] at hc
    rcases hc with hc | hc | hc
    · exact h c hc.1
    · have := Memory.mem_cells _ _ c hc; omega
    · exact h c hc.1

/-! ### Reading several bytes -/

theorem Memory.get_none_of_lt (m : Memory) (a : Nat) (h : ∀ c ∈ m, a < c.1) : m.get a = none := by
  induction m with
  | nil => rfl
  | cons c rest ih =>
    obtain ⟨k, v⟩ := c
    have : a < k := h (k, v) List.mem_cons_self
    simp only [Memory.get]
    rw [if_neg (by omega), ih fun c hc => h c (List.mem_cons_of_mem _ hc)]

theorem Memory.run_eq_some (m : Memory) (a n : Nat) (bytes : List Byte) (h : m.wf = true) (hm : ∀ c ∈ m, a ≤ c.1) :
    Memory.run m a n = some bytes ↔ bytes.length = n ∧ ∀ i < n, m.get (a + i) = bytes[i]? := by
  rw [Memory.wf_iff] at h
  induction n generalizing m a bytes with
  | zero =>
    have : Memory.run m a 0 = some [] := by cases m <;> rfl
    rw [this]
    constructor
    · rintro h; cases h; simp
    · rintro ⟨h, -⟩; simp [List.eq_nil_of_length_eq_zero h]
  | succ n ih =>
    cases m with
    | nil =>
      simp only [Memory.run, Memory.get_nil, reduceCtorEq, false_iff, not_and]
      intro hl hg
      have := hg 0 (by omega)
      rw [List.getElem?_eq_getElem (by omega)] at this
      cases this
    | cons c rest =>
      obtain ⟨k, v⟩ := c
      obtain ⟨h1, h2⟩ := List.pairwise_cons.1 h
      by_cases hk : k = a
      · subst hk
        have hrest : ∀ c ∈ rest, k + 1 ≤ c.1 := fun c hc => h1 c hc
        have key : ∀ i, Memory.get ((k, v) :: rest) (k + (i + 1)) = Memory.get rest (k + 1 + i) := by
          intro i
          have : k + (i + 1) = k + 1 + i := by omega
          simp only [Memory.get, this]
          rw [if_neg (by omega)]
        simp only [Memory.run, if_true]
        cases hr : Memory.run rest (k + 1) n with
        | none =>
          simp only [reduceCtorEq, false_iff, not_and]
          intro hl hg
          cases bytes with
          | nil => simp at hl
          | cons b bs =>
            have := (ih rest (k + 1) bs h2 hrest).2 ⟨by simpa using hl, fun i hi => by
              have := hg (i + 1) (by omega)
              rw [key] at this
              simpa using this⟩
            rw [hr] at this; cases this
        | some bs =>
          have hbs := (ih rest (k + 1) bs h2 hrest).1 hr
          constructor
          · intro he
            cases he
            refine ⟨by simp [hbs.1], fun i hi => ?_⟩
            cases i with
            | zero => simp [Memory.get]
            | succ i => rw [key, hbs.2 i (by omega)]; simp
          · rintro ⟨hl, hg⟩
            cases bytes with
            | nil => simp at hl
            | cons b bs' =>
              have h0 := hg 0 (by omega)
              simp only [Nat.add_zero, Memory.get, if_true, List.getElem?_cons_zero, Option.some.injEq] at h0
              have := (ih rest (k + 1) bs' h2 hrest).2 ⟨by simpa using hl, fun i hi => by
                have := hg (i + 1) (by omega)
                rw [key] at this
                simpa using this⟩
              rw [hr] at this; cases this; rw [h0]
      · have hka : a < k := by
          have : a ≤ k := hm (k, v) List.mem_cons_self
          omega
        simp only [Memory.run, hk, if_false, reduceCtorEq, false_iff, not_and]
        intro hl hg
        have h0 := hg 0 (by omega)
        rw [Nat.add_zero, Memory.get_none_of_lt _ _ (by
          intro c hc
          rcases List.mem_cons.1 hc with rfl | hc
          · exact hka
          · exact Nat.lt_trans hka (h1 c hc)), List.getElem?_eq_getElem (by omega)] at h0
        cases h0

/-- The entries of a store of canonical form from an offset on. -/
theorem Memory.dropWhile_ge (m : Memory) (a : Nat) (h : m.wf = true) :
    Memory.wf (m.dropWhile fun c => c.1 < a) = true ∧ ∀ c ∈ m.dropWhile fun c => c.1 < a, a ≤ c.1 := by
  rw [Memory.wf_iff] at h
  have hd : (m.dropWhile fun c => c.1 < a).Pairwise fun c d => c.1 < d.1 := h.sublist (List.dropWhile_sublist _)
  refine ⟨(Memory.wf_iff _).2 hd, ?_⟩
  cases hm : m.dropWhile fun c => c.1 < a with
  | nil => simp
  | cons d rest =>
    have hne : (m.dropWhile fun c => decide (c.1 < a)) ≠ [] := by simp [hm]
    have h0 := List.head_dropWhile_not (fun c : Host.Cell => decide (c.1 < a)) hne
    simp only [hm, List.head_cons, decide_eq_false_iff_not] at h0
    rw [hm] at hd
    intro c hc
    rcases List.mem_cons.1 hc with rfl | hc
    · omega
    · have := (List.pairwise_cons.1 hd).1 c hc; omega

/-- The entries below an offset hold nothing at it or above. -/
theorem Memory.get_takeWhile_lt (m : Memory) (a x : Nat) (h : a ≤ x) : Memory.get (m.takeWhile fun c => c.1 < a) x = none := by
  have hall : ∀ l : Memory, (∀ c ∈ l, c.1 < a) → l.get x = none := by
    intro l hl
    induction l with
    | nil => rfl
    | cons c r ih =>
      obtain ⟨k, v⟩ := c
      have : k < a := hl (k, v) List.mem_cons_self
      simp only [Memory.get]
      rw [if_neg (by omega), ih fun c hc => hl c (List.mem_cons_of_mem _ hc)]
  exact hall _ fun c hc => by simpa using List.mem_takeWhile_imp hc

/-- What MemRead reads in a store of canonical form: byte by byte what `get` reads. -/
theorem Memory.getBytes_eq_some (m : Memory) (a n : Nat) (bytes : List Byte) (h : m.wf = true) :
    m.getBytes a n = some bytes ↔ bytes.length = n ∧ ∀ i < n, m.get (a + i) = bytes[i]? := by
  obtain ⟨hd, hge⟩ := Memory.dropWhile_ge m a h
  have hget : ∀ i, Memory.get (m.dropWhile fun c => c.1 < a) (a + i) = m.get (a + i) := by
    intro i
    conv =>
      rhs
      rw [← List.takeWhile_append_dropWhile (p := fun c : Host.Cell => decide (c.1 < a)) (l := m), Memory.get_append,
        Memory.get_takeWhile_lt m a (a + i) (by omega)]
    simp
  unfold Memory.getBytes
  rw [Memory.run_eq_some _ _ _ _ hd hge]
  simp only [hget]

/-- The first bytes of a run of entries are there where the whole run is. -/
theorem Memory.run_take (m : Memory) (a n k : Nat) (bytes : List Byte) (h : Memory.run m a n = some bytes) :
    Memory.run m a (min n k) = some (bytes.take k) := by
  induction m generalizing a n k bytes with
  | nil =>
    cases n with
    | zero => simp only [Memory.run] at h; cases h; simp [Memory.run]
    | succ n => simp [Memory.run] at h
  | cons c rest ih =>
    obtain ⟨x, v⟩ := c
    cases n with
    | zero => simp only [Memory.run] at h; cases h; simp [Memory.run]
    | succ n =>
      cases k with
      | zero => simp [Memory.run]
      | succ k =>
        rw [Nat.succ_min_succ]
        simp only [Memory.run] at h ⊢
        split at h
        · rename_i hx
          cases hr : Memory.run rest (a + 1) n with
          | none => simp [hr] at h
          | some tail =>
            simp only [hr] at h
            cases h
            simp [hx, ih (a + 1) n k tail hr]
        · cases h

/-- The first bytes of a region read as they do in the whole region. -/
theorem Memory.getBytes_take (m : Memory) (a n k : Nat) (bytes : List Byte) (h : m.getBytes a n = some bytes) :
    m.getBytes a (min n k) = some (bytes.take k) :=
  Memory.run_take _ a n k bytes h

/-! ### Filling -/

theorem Memory.mem_fillFrom (p : Nat → Bool) (b : Byte) (n a : Nat) (m : Memory) (c : Host.Cell)
    (h : c ∈ Memory.fillFrom p b n a m) : (a ≤ c.1 ∧ c.1 < a + n) ∨ c ∈ m := by
  induction n generalizing a m with
  | zero => exact .inr h
  | succ n ih =>
    have tail : ∀ m', c ∈ Memory.fillFrom p b n (a + 1) m' → (a ≤ c.1 ∧ c.1 < a + (n + 1)) ∨ c ∈ m' := fun m' h' => by
      rcases ih (a + 1) m' h' with h'' | h''
      · exact .inl ⟨by omega, by omega⟩
      · exact .inr h''
    have head : ∀ v, c = (a, v) → (a ≤ c.1 ∧ c.1 < a + (n + 1)) ∨ c ∈ m := fun v hc => by
      subst hc
      exact .inl ⟨Nat.le_refl a, Nat.lt_add_of_pos_right (by omega)⟩
    cases m with
    | nil =>
      simp only [Memory.fillFrom] at h
      split at h
      · rcases List.mem_cons.1 h with h | h
        · exact head b h
        · exact tail _ h
      · exact tail _ h
    | cons d rest =>
      obtain ⟨k, v⟩ := d
      simp only [Memory.fillFrom] at h
      split at h
      · rcases List.mem_cons.1 h with h | h
        · exact head _ h
        · rcases tail _ h with h | h
          · exact .inl h
          · exact .inr (List.mem_cons_of_mem _ h)
      · split at h
        · rcases List.mem_cons.1 h with h | h
          · exact head b h
          · exact tail _ h
        · exact tail _ h

/-- What is filled reads as the filling, in any store. -/
theorem Memory.get_fillFrom_of (p : Nat → Bool) (b : Byte) (n a x : Nat) (m : Memory) (hx : a ≤ x) (hn : x < a + n) (hp : p x = true) :
    (Memory.fillFrom p b n a m).get x = some b := by
  induction n generalizing a m with
  | zero => omega
  | succ n ih =>
    by_cases hax : a = x
    · subst hax
      cases m with
      | nil => simp [Memory.fillFrom, hp, Memory.get]
      | cons d rest =>
        obtain ⟨k, v⟩ := d
        simp only [Memory.fillFrom, hp, if_true]
        split <;> simp [Memory.get]
    · have tail : ∀ m', (Memory.fillFrom p b n (a + 1) m').get x = some b := fun m' => ih (a + 1) m' (by omega) (by omega)
      cases m with
      | nil =>
        simp only [Memory.fillFrom]
        split
        · simp only [Memory.get]; rw [if_neg hax, tail]
        · exact tail _
      | cons d rest =>
        obtain ⟨k, v⟩ := d
        simp only [Memory.fillFrom]
        split
        · simp only [Memory.get]; rw [if_neg hax, tail]
        · split
          · simp only [Memory.get]; rw [if_neg hax, tail]
          · exact tail _

/-- What is not filled reads as it did, in a store of canonical form whose offsets are not below the start. -/
theorem Memory.get_fillFrom_other (p : Nat → Bool) (b : Byte) (n a x : Nat) (m : Memory) (hm : m.wf = true)
    (hge : ∀ c ∈ m, a ≤ c.1) (hx : ¬(a ≤ x ∧ x < a + n ∧ p x = true)) : (Memory.fillFrom p b n a m).get x = m.get x := by
  induction n generalizing a m with
  | zero => rfl
  | succ n ih =>
    cases m with
    | nil =>
      have tail := ih (a + 1) [] rfl (by simp) (by intro h; exact hx ⟨by omega, by omega, h.2.2⟩)
      simp only [Memory.fillFrom]
      split
      · rename_i hpa
        simp only [Memory.get]
        rw [if_neg fun h : a = x => hx (by subst h; exact ⟨Nat.le_refl a, by omega, hpa⟩)]
        exact tail
      · exact tail
    | cons d rest =>
      obtain ⟨k, v⟩ := d
      have hp := (Memory.wf_iff _).1 hm
      obtain ⟨h1, h2⟩ := List.pairwise_cons.1 hp
      have hk : a ≤ k := hge (k, v) List.mem_cons_self
      simp only [Memory.fillFrom]
      split
      · rename_i hka
        subst hka
        simp only [Memory.get]
        by_cases hkx : k = x
        · subst hkx
          have hpk : p k = false := by
            cases h : p k with
            | false => rfl
            | true => exact absurd ⟨Nat.le_refl k, by omega, h⟩ hx
          simp [hpk]
        · rw [if_neg hkx, if_neg hkx]
          exact ih (k + 1) rest ((Memory.wf_iff _).2 h2) (fun c hc => h1 c hc) (by intro h; exact hx ⟨by omega, by omega, h.2.2⟩)
      · rename_i hka
        have hge' : ∀ c ∈ (k, v) :: rest, a + 1 ≤ c.1 := fun c hc => by
          rcases List.mem_cons.1 hc with rfl | hc
          · show a + 1 ≤ k; omega
          · have := h1 c hc
            show a + 1 ≤ c.1
            simp only at this; omega
        have tail := ih (a + 1) ((k, v) :: rest) hm hge' (by intro h; exact hx ⟨by omega, by omega, h.2.2⟩)
        split
        · rename_i hpa
          rw [show ∀ l : Memory, Memory.get ((a, b) :: l) x = if a = x then some b else l.get x from fun _ => rfl,
            if_neg fun h : a = x => hx (by subst h; exact ⟨Nat.le_refl a, by omega, hpa⟩)]
          exact tail
        · exact tail

/-- What filling leaves in a store of canonical form. -/
theorem Memory.wf_fillFrom (p : Nat → Bool) (b : Byte) (n a : Nat) (m : Memory) (hm : m.wf = true) (hge : ∀ c ∈ m, a ≤ c.1) :
    (Memory.fillFrom p b n a m).Pairwise fun c d => c.1 < d.1 := by
  induction n generalizing a m with
  | zero => exact (Memory.wf_iff _).1 hm
  | succ n ih =>
    have head : ∀ (v : Byte) (m' : Memory), (∀ c ∈ m', a + 1 ≤ c.1) →
        (Memory.fillFrom p b n (a + 1) m').Pairwise (fun c d => c.1 < d.1) →
        ((a, v) :: Memory.fillFrom p b n (a + 1) m').Pairwise fun c d => c.1 < d.1 := fun v m' hm' h =>
      List.pairwise_cons.2 ⟨fun c hc => by
        show a < c.1
        rcases Memory.mem_fillFrom _ _ _ _ _ _ hc with h | h
        · omega
        · have := hm' c h; omega, h⟩
    cases m with
    | nil =>
      have tail := ih (a + 1) [] rfl (by simp)
      simp only [Memory.fillFrom]
      split
      · exact head b [] (by simp) tail
      · exact tail
    | cons d rest =>
      obtain ⟨k, v⟩ := d
      obtain ⟨h1, h2⟩ := List.pairwise_cons.1 ((Memory.wf_iff _).1 hm)
      have hk : a ≤ k := hge (k, v) List.mem_cons_self
      simp only [Memory.fillFrom]
      split
      · rename_i hka
        subst hka
        exact head _ rest (fun c hc => h1 c hc) (ih (k + 1) rest ((Memory.wf_iff _).2 h2) fun c hc => h1 c hc)
      · have hge' : ∀ c ∈ (k, v) :: rest, a + 1 ≤ c.1 := fun c hc => by
          rcases List.mem_cons.1 hc with rfl | hc
          · show a + 1 ≤ k; omega
          · have := h1 c hc
            show a + 1 ≤ c.1
            simp only at this; omega
        have tail := ih (a + 1) ((k, v) :: rest) hm hge'
        split
        · exact head b _ hge' tail
        · exact tail

/-- What is filled reads as the filling, in any store. -/
theorem Memory.get_fill_of (m : Memory) (p : Nat → Bool) (b : Byte) (a n x : Nat) (hx : a ≤ x) (hn : x < a + n) (hp : p x = true) :
    (m.fill p b a n).get x = some b := by
  unfold Memory.fill
  rw [Memory.get_append, Memory.get_takeWhile_lt m a x hx, Memory.get_fillFrom_of p b n a x _ hx hn hp]
  rfl

/-- Filling writes what the filter picks in its range and leaves every other byte of a store of canonical form alone. -/
theorem Memory.get_fill (m : Memory) (p : Nat → Bool) (b : Byte) (a n x : Nat) (h : m.wf = true) :
    (m.fill p b a n).get x = if a ≤ x ∧ x < a + n ∧ p x = true then some b else m.get x := by
  split
  · rename_i hx
    exact Memory.get_fill_of m p b a n x hx.1 hx.2.1 hx.2.2
  · rename_i hx
    obtain ⟨h1, h2⟩ := Memory.dropWhile_ge m a h
    unfold Memory.fill
    rw [Memory.get_append, Memory.get_fillFrom_other p b n a x _ h1 h2 hx, ← Memory.get_append, List.takeWhile_append_dropWhile]

/-- Filling keeps the canonical form. -/
theorem Memory.wf_fill (m : Memory) (p : Nat → Bool) (b : Byte) (a n : Nat) (h : m.wf = true) : (m.fill p b a n).wf = true := by
  obtain ⟨h1, h2⟩ := Memory.dropWhile_ge m a h
  rw [Memory.wf_iff]
  refine List.pairwise_append.2 ⟨((Memory.wf_iff _).1 h).sublist (List.takeWhile_sublist _), Memory.wf_fillFrom p b n a _ h1 h2, ?_⟩
  intro c hc d hd
  have hc : c.1 < a := by simpa using List.mem_takeWhile_imp hc
  rcases Memory.mem_fillFrom _ _ _ _ _ _ hd with hd | hd
  · omega
  · have := h2 d hd; omega

/-- Filling below a bound keeps every offset below it. -/
theorem Memory.below_fill (m : Memory) (p : Nat → Bool) (b : Byte) (a n bound : Nat) (h : m.below bound = true)
    (hn : n = 0 ∨ a + n ≤ bound) : (m.fill p b a n).below bound = true := by
  rw [Memory.below_iff] at *
  intro c hc
  rcases List.mem_append.1 hc with hc | hc
  · exact h c ((List.takeWhile_sublist _).mem hc)
  · rcases Memory.mem_fillFrom _ _ _ _ _ _ hc with hc | hc
    · omega
    · exact h c ((List.dropWhile_sublist _).mem hc)

end Sys2Proof.Machine
end

