-- ==== Sys2Proof/Laws/Cart.lean ====
section
/-! SUPPORT. The reference cartridge: what each of its operations leaves known, byte by byte, and that its bytes stay in canonical form
inside the cartridge space. -/

namespace Sys2Proof.Machine

/-! ### What is known -/

/-- Forgetting a range opens its bytes and no others (R281, I8). -/
theorem Cart.get_forgetRange (c : Cart) (a n x : Nat) :
    (c.forgetRange a n).cells.get x = if a ≤ x ∧ x < a + n then none else c.cells.get x :=
  Memory.get_removeRange c.cells a n x

/-- Forgetting a word opens its two bytes and no others (I7, I8). -/
theorem Cart.get_forgetWord (c : Cart) (w x : Nat) :
    (c.forgetWord w).cells.get x = if 2 * w ≤ x ∧ x < 2 * w + 2 then none else c.cells.get x :=
  Memory.get_removeRange c.cells (2 * w) 2 x

/-- After a sector erase each flash byte of the sector is 0xFF (R273, R282). -/
theorem Cart.get_eraseSector_of (cfg : Params) (c : Cart) (w x : Nat) (hx : 2 * w ≤ x)
    (hn : x < 2 * w + sectorBytes cfg (2 * w)) (hf : c.isFlash (x / 2) = true) : (c.eraseSector cfg w).cells.get x = some 0xFF :=
  Memory.get_fill_of c.cells _ _ _ _ _ hx hn hf

/-- A sector erase changes the flash bytes of the sector and no other byte (R273, R306). -/
theorem Cart.get_eraseSector (cfg : Params) (c : Cart) (w x : Nat) (h : c.cells.wf = true) :
    (c.eraseSector cfg w).cells.get x =
      if 2 * w ≤ x ∧ x < 2 * w + sectorBytes cfg (2 * w) ∧ c.isFlash (x / 2) = true then some 0xFF else c.cells.get x :=
  Memory.get_fill c.cells _ _ _ _ _ h

/-- Forgetting a sector opens its flash bytes and no others. -/
theorem Cart.get_forgetSector (cfg : Params) (c : Cart) (w x : Nat) :
    (c.forgetSector cfg w).cells.get x =
      if 2 * w ≤ x ∧ x < 2 * w + sectorBytes cfg (2 * w) ∧ c.isFlash (x / 2) = true then none else c.cells.get x := by
  unfold Cart.forgetSector
  dsimp only
  rw [Memory.get_filter _ fun k => k < 2 * w || 2 * w + sectorBytes cfg (2 * w) ≤ k || !c.isFlash (k / 2)]
  by_cases h1 : x < 2 * w <;> by_cases h2 : 2 * w + sectorBytes cfg (2 * w) ≤ x <;> by_cases h3 : c.isFlash (x / 2) = true <;>
    simp [h1, h2, h3]

/-- A word programmed over 0xFFFF is known as written, its high byte being open after an 8-bit transfer, and no other byte has changed
(R277, R282, R302). -/
theorem Cart.get_program (c : Cart) (w x : Nat) (hi : Option Byte) (l : Byte) (hh : c.cells.get (2 * w) = some 0xFF)
    (hl : c.cells.get (2 * w + 1) = some 0xFF) :
    (c.program w hi l).cells.get x = if x = 2 * w + 1 then some l else if x = 2 * w then hi else c.cells.get x := by
  unfold Cart.program
  dsimp only
  rw [if_pos ⟨hh, hl⟩]
  dsimp only
  rw [Memory.get_set]
  cases hi with
  | some h => rw [Memory.get_set]
  | none =>
    dsimp only
    rw [Memory.get_removeRange]
    by_cases h1 : x = 2 * w
    · simp [h1]
    · rw [if_neg (show ¬(2 * w ≤ x ∧ x < 2 * w + 1) by omega), if_neg h1]

/-! ### The canonical form -/

/-- The known bytes are in canonical form and lie in the cartridge space. -/
def Cart.CellsOk (c : Cart) : Prop := c.cells.wf = true ∧ c.cells.below addressLimit = true

/-- A filter of entries keeps the canonical form and the bound. -/
theorem Cart.cellsOk_filter {c : Cart} {m : Memory} (p : Host.Cell → Bool) (hw : m.wf = true)
    (hb : m.below addressLimit = true) : Cart.CellsOk { c with cells := m.filter p } := by
  refine ⟨?_, ?_⟩
  · exact (Memory.wf_iff _).2 (((Memory.wf_iff _).1 hw).filter _)
  · exact (Memory.below_iff _ _).2 fun e he => (Memory.below_iff _ _).1 hb e (List.mem_of_mem_filter he)

theorem Cart.cellsOk_forgetRange {c : Cart} (h : c.CellsOk) (a n : Nat) : (c.forgetRange a n).CellsOk :=
  Cart.cellsOk_filter (c := c) _ h.1 h.2

theorem Cart.cellsOk_forgetWord {c : Cart} (h : c.CellsOk) (w : Nat) : (c.forgetWord w).CellsOk :=
  Cart.cellsOk_forgetRange h _ _

theorem Cart.cellsOk_eraseSector {c : Cart} (cfg : Params) (h : c.CellsOk) (w : Nat) : (c.eraseSector cfg w).CellsOk := by
  refine ⟨Memory.wf_fill _ _ _ _ _ h.1, Memory.below_fill _ _ _ _ _ _ h.2 ?_⟩
  unfold sectorBytes
  omega

theorem Cart.cellsOk_forgetSector {c : Cart} (cfg : Params) (h : c.CellsOk) (w : Nat) : (c.forgetSector cfg w).CellsOk :=
  Cart.cellsOk_filter (c := c) _ h.1 h.2

theorem Cart.cellsOk_strayProgram {c : Cart} (h : c.CellsOk) (w : Nat) (next : FlashState) : (c.strayProgram w next).CellsOk :=
  Cart.cellsOk_forgetWord h w

theorem Cart.cellsOk_program {c : Cart} (h : c.CellsOk) (w : Nat) (hi : Option Byte) (lo : Byte)
    (hw : 2 * w + 1 < addressLimit) : (c.program w hi lo).CellsOk := by
  unfold Cart.program
  dsimp only
  split
  · split
    · exact ⟨Memory.wf_set _ _ _ (Memory.wf_set _ _ _ h.1),
        Memory.below_set _ _ _ _ (Memory.below_set _ _ _ _ h.2 (by omega)) hw⟩
    · have hf := Cart.cellsOk_forgetRange h (2 * w) 1
      exact ⟨Memory.wf_set _ _ _ hf.1, Memory.below_set _ _ _ _ hf.2 hw⟩
  · exact Cart.cellsOk_forgetWord (c := { c with flashBusy := true }) h w

theorem Cart.cellsOk_strayWrite {c : Cart} (cfg : Params) (h : c.CellsOk) (w : Nat) (lo : Byte) :
    (c.strayWrite cfg w lo).CellsOk := by
  have hd : Cart.CellsOk { c.forgetWord w with flash := .unknown } := Cart.cellsOk_forgetWord h w
  unfold Cart.strayWrite
  dsimp only
  split
  · exact Cart.cellsOk_forgetSector cfg hd w
  · exact hd

theorem Cart.cellsOk_flashWrite {c : Cart} (cfg : Params) (h : c.CellsOk) (w : Nat) (hi : Option Byte) (lo : Byte)
    (hw : 2 * w + 1 < addressLimit) : (c.flashWrite cfg w hi lo).CellsOk := by
  unfold Cart.flashWrite
  repeat' split
  all_goals first
    | exact h
    | exact Cart.cellsOk_strayWrite cfg h w lo
    | exact Cart.cellsOk_eraseSector cfg h w
    | exact Cart.cellsOk_strayProgram h w _
    | exact Cart.cellsOk_forgetWord h w
    | exact Cart.cellsOk_program h w hi lo hw

theorem Cart.cellsOk_doubtfulWrite {c : Cart} (cfg : Params) (h : c.CellsOk) (w : Nat) (lo : Byte) :
    (c.doubtfulWrite cfg w lo).CellsOk := by
  unfold Cart.doubtfulWrite
  repeat' split
  all_goals first
    | exact Cart.cellsOk_strayProgram h w _
    | exact Cart.cellsOk_strayWrite cfg h w lo

/-- Every word write keeps the known bytes in canonical form and inside the cartridge space. -/
theorem Cart.cellsOk_write {c : Cart} (cfg : Params) (h : c.CellsOk) (w : Nat) (hi : Option Byte) (lo : Byte)
    (hw : 2 * w + 1 < addressLimit) : (c.write cfg w hi lo).CellsOk := by
  unfold Cart.write
  split
  · exact h
  · split
    · exact ⟨Memory.wf_set _ _ _ h.1, Memory.below_set _ _ _ _ h.2 hw⟩
    · exact h
    · exact Cart.cellsOk_forgetWord h w
    · exact Cart.cellsOk_forgetWord h w
    · exact Cart.cellsOk_flashWrite cfg h w hi lo hw
    · exact Cart.cellsOk_doubtfulWrite cfg h w lo

end Sys2Proof.Machine
end

