-- ==== Sys2Proof/Laws/Ops.lean ====
section
/-! SUPPORT. The shared operations: for each, once, what it can do. -/

namespace Sys2Proof.Machine

/-! ### The requester during a transport call -/

/-- With no action of the requester to come, nothing happens. -/
theorem visit_none {s : State} (h : s.env.visits = []) : visit s = .ok none s := by
  simp [visit, h]

@[simp] theorem endVisit_none (s : State) : endVisit none s = .ok () s := rfl

@[simp] theorem endVisit_some (rest : List PortAction) (s : State) :
    endVisit (some rest) s = .error .reset { s.blockReset with port := rest ++ s.port } := rfl

/-- An action that is no reset is one piece of the visit. -/
theorem visitActions_cons {a : PortAction} (rest : List PortAction) (h : a ≠ .reset) :
    visitActions (a :: rest) = (visitAction a >>= fun _ => visitActions rest) := by
  simp [visitActions, h]

@[simp] theorem visitActions_reset (rest : List PortAction) (s : State) :
    visitActions (.reset :: rest) s = .ok (some rest) s := rfl

/-- A visit never ends a request: it completes, or the model stops in it. -/
theorem visitActions_error {actions : List PortAction} {s t : State} {e : Ended} (h : visitActions actions s = .error e t) :
    e = .fault .unwrittenByte := by
  induction actions generalizing s with
  | nil => cases h
  | cons a rest ih =>
    by_cases ha : a = .reset
    · subst ha; cases h
    · rw [visitActions_cons rest ha, act_bind] at h
      cases hm : visitAction a s with
      | ok x u => rw [hm] at h; exact ih h
      | error e' u =>
        rw [hm] at h
        cases a with
        | readReg r =>
          cases hr : readRegister r s with
          | none =>
            have : visitAction (.readReg r) s = .error (.fault .unwrittenByte) s := by
              simp only [visitAction, readPort]; rw [act_bind_error (orStop_none hr)]
            rw [this] at hm
            cases hm
            cases h; rfl
          | some v =>
            have : visitAction (.readReg r) s = .ok () (s.noteRead v) := by
              simp only [visitAction, readPort]; rw [act_bind_ok (orStop_some hr)]; rfl
            rw [this] at hm
            cases hm
        | writeReq w => cases hm
        | readDbuf off => cases hm
        | writeDbuf off b => cases hm
        | reset => exact absurd rfl ha

/-- Everything a visit can do: complete, with the actions after a reset where there is one, or stop the model (I4). -/
theorem visit_cases (s : State) : (∃ r t, visit s = .ok r t) ∨ ∃ t, visit s = .error (.fault .unwrittenByte) t := by
  cases h : visit s with
  | ok r t => exact .inl ⟨r, t, rfl⟩
  | error e t =>
    unfold visit at h
    split at h
    · cases h
    · exact .inr ⟨t, by rw [visitActions_error h]⟩

/-- With no action of the requester to come, a moment at which it may act passes. -/
theorem meet_calm {s : State} (h : s.env.visits = []) : meet s = .ok () s := by
  unfold meet
  rw [act_bind_ok (visit_none h), endVisit_none]

/-- Everything such a moment can do: pass, end the request by a reset, or stop the model. -/
theorem meet_cases (s : State) :
    (∃ t, visit s = .ok none t ∧ meet s = .ok () t) ∨
    (∃ rest t, visit s = .ok (some rest) t ∧ meet s = .error .reset { t.blockReset with port := rest ++ t.port }) ∨
    (∃ t, meet s = .error (.fault .unwrittenByte) t) := by
  unfold meet
  rcases visit_cases s with ⟨r, t, h⟩ | ⟨t, h⟩
  · cases r with
    | none => exact .inl ⟨t, h, by rw [act_bind_ok h, endVisit_none]⟩
    | some rest => exact .inr (.inl ⟨rest, t, h, by rw [act_bind_ok h, endVisit_some]⟩)
  · exact .inr (.inr ⟨t, by rw [act_bind_error h]⟩)

/-! ### Draws -/

theorem takeTx_cons {s : State} {d : TxDraw} {rest : List TxDraw} (h : s.env.tx = d :: rest) :
    takeTx s = (d, { s with env := { s.env with tx := rest } }) := by
  simp [takeTx, h]

theorem takeRx_cons {s : State} {d : RxDraw} {rest : List RxDraw} (h : s.env.rx = d :: rest) :
    takeRx s = (d, { s with env := { s.env with rx := rest } }) := by
  simp [takeRx, h]

theorem takeReopen_cons {s : State} {d : Bool} {rest : List Bool} (h : s.env.reopen = d :: rest) :
    takeReopen s = (d, { s with env := { s.env with reopen := rest } }) := by
  simp [takeReopen, h]

/-- Taking a free word touches the draws only. -/
theorem takeFree_frame (s : State) : (takeFree s).2 = { s with env := (takeFree s).2.env } := by
  unfold takeFree
  split <;> rfl

/-! ### TxWrite -/

/-- A TxWrite without a requester's action: the answer, the accepted bytes sent, then success or a TransportError (R14, R221, R325). -/
theorem txWriteOf_calm {fam : Family} {n : Nat} {first : Nat → Act (List Byte)} {s t : State} {d : TxDraw} {rest : List TxDraw}
    {bytes : List Byte} (hv : s.env.visits = []) (ht : s.env.tx = d :: rest)
    (hf : first (acceptedOf d n) { s with env := { s.env with tx := rest } } = .ok bytes t) :
    txWriteOf fam n first s = (match d with
      | .accepted _ => if acceptedOf d n < n then raiseTransport fam .shortWrite (acceptedOf d n) else pure ()
      | .failed _ => raiseTransport fam .ioFailure (acceptedOf d n) : Act Unit) (t.transmit bytes) := by
  unfold txWriteOf
  rw [act_bind_ok (visit_none hv), act_bind_ok (draw_run _ _), takeTx_cons ht, act_bind_ok hf, act_bind_ok (upd_run _ _),
    act_bind_ok (endVisit_none _)]
  cases d <;> rfl

/-- A TxWrite whose bytes are all accepted. -/
theorem txWrite_accepted {fam : Family} {bytes : List Byte} {s : State} {k : Nat} {rest : List TxDraw}
    (hv : s.env.visits = []) (ht : s.env.tx = .accepted k :: rest) (hk : bytes.length ≤ k) :
    txWrite fam bytes s = .ok () (State.transmit bytes { s with env := { s.env with tx := rest } }) := by
  have hmin : min k bytes.length = bytes.length := Nat.min_eq_right hk
  unfold txWrite
  rw [txWriteOf_calm hv ht (act_pure _ _)]
  simp [acceptedOf, hmin]

/-- A TxWrite of which the transport takes only a part (R221). -/
theorem txWrite_short {fam : Family} {bytes : List Byte} {s : State} {k : Nat} {rest : List TxDraw}
    (hv : s.env.visits = []) (ht : s.env.tx = .accepted k :: rest) (hk : k < bytes.length) :
    txWrite fam bytes s = .error .raised
      ((State.transmit (bytes.take k) { s with env := { s.env with tx := rest } }).raiseTransport fam .shortWrite k) := by
  have hmin : min k bytes.length = k := Nat.min_eq_left (Nat.le_of_lt hk)
  unfold txWrite
  rw [txWriteOf_calm hv ht (act_pure _ _)]
  simp [acceptedOf, hmin, hk]

/-- A TxWrite that the transport reports as failed (R221). -/
theorem txWrite_failed {fam : Family} {bytes : List Byte} {s : State} {k : Nat} {rest : List TxDraw}
    (hv : s.env.visits = []) (ht : s.env.tx = .failed k :: rest) :
    txWrite fam bytes s = .error .raised
      ((State.transmit (bytes.take (min k bytes.length)) { s with env := { s.env with tx := rest } }).raiseTransport fam
        .ioFailure (min k bytes.length)) := by
  unfold txWrite
  rw [txWriteOf_calm hv ht (act_pure _ _)]
  rfl

/-- Everything a completed TxWrite can have done: the requester's visit without a reset, one answer that accepts every byte, the bytes
as they are then, sent. -/
theorem txWriteOf_ok {fam : Family} {n : Nat} {first : Nat → Act (List Byte)} {s t : State}
    (h : txWriteOf fam n first s = .ok () t) :
    ∃ u v k bytes, visit s = .ok none u ∧ (takeTx u).1 = .accepted k ∧ n ≤ k ∧ first n (takeTx u).2 = .ok bytes v ∧
      t = v.transmit bytes := by
  unfold txWriteOf at h
  rw [act_bind] at h
  cases hv : visit s with
  | error e u => rw [hv] at h; cases h
  | ok r u =>
    rw [hv] at h
    simp only [act_bind_ok (draw_run takeTx u)] at h
    rw [act_bind] at h
    cases hf : first (acceptedOf (takeTx u).1 n) (takeTx u).2 with
    | error e v => rw [hf] at h; cases h
    | ok bytes v =>
      rw [hf] at h
      simp only [act_bind_ok (upd_run (State.transmit bytes) v)] at h
      cases r with
      | some more => rw [act_bind_error (endVisit_some _ _)] at h; cases h
      | none =>
        rw [act_bind_ok (endVisit_none _)] at h
        cases hd : (takeTx u).1 with
        | failed k => rw [hd] at h; cases h
        | accepted k =>
          rw [hd] at h hf
          by_cases hk : acceptedOf (.accepted k) n < n
          · dsimp only at h; rw [if_pos hk] at h; cases h
          · dsimp only at h; rw [if_neg hk] at h
            have hmin : acceptedOf (.accepted k) n = min k n := rfl
            rw [show acceptedOf (.accepted k) n = n by omega] at hf
            refine ⟨u, v, k, bytes, rfl, hd, by omega, hf, ?_⟩
            cases h; rfl

/-! ### RxRead -/

/-- In a GB request, and with a GB adapter attached, the bytes of a read are the draw's own (R64, R378). -/
theorem takeReplies_free {fam : Family} {n : Nat} {offered : List Byte} {s : State} (h : s.repliesBound fam = false) :
    takeReplies fam n offered s = (offered.take n, s) := by
  simp [takeReplies, h]

/-- A GB adapter takes no frames. -/
theorem settlePeer_gb {s : State} (h : s.adapter = .gb) : settlePeer s = s := by
  simp [settlePeer, h]

/-- A read without a requester's action: the peer settles, the answer is taken, then its bytes (R14, R290). -/
theorem rxRead_calm {fam : Family} {n : Nat} {s : State} (hv : s.env.visits = []) :
    rxRead fam n s =
      let d := takeRx (settlePeer s)
      let b := takeReplies fam n (rxBytes d.1) d.2
      .ok (rxWithBytes b.1 d.1) b.2 := by
  unfold rxRead
  rw [act_bind_ok (meet_calm hv), act_bind_ok (upd_run _ _), act_bind_ok (draw_run _ _), act_bind_ok (draw_run _ _)]
  rfl

/-- A read from a GB adapter: the answer's own bytes, as many as were asked for. -/
theorem rxRead_gb {fam : Family} {n : Nat} {s : State} {d : RxDraw} {rest : List RxDraw}
    (hv : s.env.visits = []) (ha : s.adapter = .gb) (hr : s.env.rx = d :: rest) :
    rxRead fam n s = .ok (rxWithBytes ((rxBytes d).take n) d) { s with env := { s.env with rx := rest } } := by
  have hb : State.repliesBound fam { s with env := { s.env with rx := rest } } = false := by simp [State.repliesBound, ha]
  rw [rxRead_calm hv, settlePeer_gb ha, takeRx_cons hr]
  simp only [takeReplies_free hb]

/-- A read from a GB adapter that brings bytes. -/
theorem rxRead_got {fam : Family} {n : Nat} {s : State} {offered : List Byte} {rest : List RxDraw}
    (hv : s.env.visits = []) (ha : s.adapter = .gb) (hr : s.env.rx = .got offered :: rest) :
    rxRead fam n s = .ok (.got (offered.take n)) { s with env := { s.env with rx := rest } } := rxRead_gb hv ha hr

/-- A read never brings more bytes than were asked for (R14). -/
theorem takeReplies_length (fam : Family) (n : Nat) (offered : List Byte) (s : State) :
    (takeReplies fam n offered s).1.length ≤ n := by
  unfold takeReplies
  split
  · simp only [List.length_take]; omega
  · simp only [List.length_take]; omega

/-! ### DBUF -/

/-- Where the requester has disturbed nothing, a running request takes and stores the bytes as they are. -/
theorem maskHazard_none (off : Nat) (bytes : List Byte) (s : State) (h : s.hazard = []) :
    maskHazard off bytes s = .ok bytes s := by
  induction bytes generalizing off with
  | nil => rfl
  | cons b rest ih =>
    have h1 : maskByte off b s = .ok b s := by simp [maskByte, h]
    simp only [maskHazard]
    rw [act_bind_ok h1, act_bind_ok (ih (off + 1))]
    rfl

/-- Everything taking or storing bytes can do: as many bytes as there were, those the requester has not disturbed as they were; only
draws are used up (R371, I5). -/
theorem maskHazard_cases (off : Nat) (bytes : List Byte) (s : State) :
    ∃ out t, maskHazard off bytes s = .ok out t ∧ t = { s with env := t.env } ∧ out.length = bytes.length ∧
      ∀ i < bytes.length, off + i ∉ s.hazard → out[i]? = bytes[i]? := by
  induction bytes generalizing off s with
  | nil => exact ⟨[], s, rfl, rfl, rfl, fun i hi => absurd hi (Nat.not_lt_zero i)⟩
  | cons b rest ih =>
    obtain ⟨v, u, hv, hu, hb⟩ : ∃ v u, maskByte off b s = .ok v u ∧ u = { s with env := u.env } ∧ (off ∉ s.hazard → v = b) := by
      by_cases hm : off ∈ s.hazard
      · refine ⟨(takeFreeByte s).1, (takeFreeByte s).2, by simp [maskByte, hm], takeFree_frame s, fun h => absurd hm h⟩
      · exact ⟨b, s, by simp [maskByte, hm], rfl, fun _ => rfl⟩
    have hz : u.hazard = s.hazard := by rw [hu]
    obtain ⟨out, t, ho, ht, hl, hg⟩ := ih (off + 1) u
    refine ⟨v :: out, t, ?_, ?_, by simp [hl], fun i hi hn => ?_⟩
    · simp only [maskHazard]
      rw [act_bind_ok hv, act_bind_ok ho]
      rfl
    · rw [ht, hu]
    · cases i with
      | zero => simp [hb hn]
      | succ i =>
        simp only [List.length_cons] at hi
        simp only [List.getElem?_cons_succ]
        exact hg i (by omega) (by rw [hz]; rwa [show off + 1 + i = off + (i + 1) by omega])

/-- MemRead of bytes that are there, the requester having disturbed nothing. -/
theorem memRead_some {off n : Nat} {s : State} {bytes : List Byte} (h : s.dbuf.getBytes off n = some bytes)
    (hz : s.hazard = []) : memRead off n s = .ok bytes s := by
  unfold memRead
  rw [act_bind_ok (orStop_some h), maskHazard_none off bytes s hz]

/-- MemRead of a byte that nothing has written stops the model (R61, I4). -/
theorem memRead_none {off n : Nat} {s : State} (h : s.dbuf.getBytes off n = none) :
    memRead off n s = .error (.fault .unwrittenByte) s := by
  unfold memRead
  rw [act_bind_error (orStop_none h)]

/-- The bytes of a stream, none where a byte of DBUF holds no value. -/
def streamBytes (m : Memory) : List TxPart → Option (List Byte)
  | [] => some []
  | .bytes b :: rest => (streamBytes m rest).map (b ++ ·)
  | .dbuf off n :: rest =>
    match m.getBytes off n, streamBytes m rest with
    | some b, some more => some (b ++ more)
    | _, _ => none

/-- What was read of a region is as long as the region. -/
theorem Memory.run_length (m : Memory) (a n : Nat) (bytes : List Byte) (h : Memory.run m a n = some bytes) : bytes.length = n := by
  induction m generalizing a n bytes with
  | nil => cases n <;> simp [Memory.run] at h; simp [h]
  | cons c rest ih =>
    obtain ⟨x, v⟩ := c
    cases n with
    | zero => simp only [Memory.run] at h; cases h; rfl
    | succ n =>
      simp only [Memory.run] at h
      split at h
      · cases hr : Memory.run rest (a + 1) n with
        | none => simp [hr] at h
        | some tail => simp only [hr] at h; cases h; simp [ih _ _ _ hr]
      · cases h

/-- A stream whose bytes are all there and undisturbed gives its first k bytes, and reading them changes nothing. -/
theorem txBytes_eq {parts : List TxPart} {s : State} {bytes : List Byte} (k : Nat) (hz : s.hazard = [])
    (h : streamBytes s.dbuf parts = some bytes) : txBytes parts k s = .ok (bytes.take k) s := by
  induction parts generalizing k bytes with
  | nil => simp only [streamBytes] at h; cases h; simp [txBytes]
  | cons part rest ih =>
    cases part with
    | bytes b =>
      simp only [streamBytes, Option.map_eq_some_iff] at h
      obtain ⟨more, hm, rfl⟩ := h
      simp only [txBytes]
      rw [act_bind_ok (ih (k - b.length) hm), List.take_append]
      rfl
    | dbuf off n =>
      simp only [streamBytes] at h
      cases hb : s.dbuf.getBytes off n with
      | none => simp [hb] at h
      | some b =>
        cases hm : streamBytes s.dbuf rest with
        | none => simp [hb, hm] at h
        | some more =>
          simp only [hb, hm] at h
          cases h
          have hl : b.length = n := Memory.run_length _ off n b hb
          simp only [txBytes]
          rw [act_bind_ok (memRead_some (Memory.getBytes_take _ off n k b hb) hz), act_bind_ok (ih (k - n) hm), List.take_append, hl]
          rfl

/-- MemWrite by a running request, the requester having disturbed nothing. -/
theorem storeDbuf_none (off : Nat) (bytes : List Byte) (s : State) (h : s.hazard = []) :
    storeDbuf off bytes s = .ok () { s with dbuf := s.dbuf.setBytes off bytes } := by
  unfold storeDbuf
  rw [act_bind_ok (maskHazard_none off bytes s h)]
  rfl

/-- The bounds check of a region inside DBUF does nothing. -/
theorem checkDbuf_ok {boff : Reg32} {n : Nat} {s : State} (h : boff.toNat + n ≤ s.cfg.dbufSize) :
    checkDbuf boff n s = .ok () s := by
  simp [checkDbuf, act_bind, inDbuf, h]

/-- The bounds check of a region that leaves DBUF raises BUFFER_RANGE (R324). -/
theorem checkDbuf_raises {boff : Reg32} {n : Nat} {s : State} (h : s.cfg.dbufSize < boff.toNat + n) :
    checkDbuf boff n s = .error .raised (s.raise .bufferRange (BitVec.ofNat 32 boff.toNat)) := by
  simp [checkDbuf, act_bind, inDbuf, Nat.not_le.2 h]

/-! ### RxFill -/

/-- RxFill when one read brings everything. -/
theorem rxFill_one {d : Destination} {n : Nat} {s t : State} {bytes : List Byte} (hn : 0 < n) (hl : bytes.length = n)
    (hr : rxRead .md n s = .ok (.got bytes) t) :
    rxFill d n s = (storeAt d 0 bytes >>= fun _ => pure bytes : Act (List Byte)) t := by
  obtain ⟨m, rfl⟩ : ∃ m, n = m + 1 := ⟨n - 1, by omega⟩
  have hne : bytes ≠ [] := by intro h; simp [h] at hl
  simp only [rxFill, rxFillLoop, List.length_nil, Nat.sub_zero, List.nil_append]
  rw [if_neg (by omega)]
  rw [act_bind_ok hr]
  simp only [hne, if_false]
  cases m with
  | zero => simp only [rxFillLoop]
  | succ m => simp only [rxFillLoop, hl, Nat.le_refl, if_true]

/-- RxFill of nothing reads nothing. -/
theorem rxFill_zero (d : Destination) (s : State) : rxFill d 0 s = .ok [] s := rfl

end Sys2Proof.Machine
end

