-- ==== Sys2Proof/Laws/Framer.lean ====
section
/-! SUPPORT. The framer's shared operations: what sending and receiving a packet does when the transport delivers. -/

namespace Sys2Proof.Machine

/-- Sending a DATA packet that the transport takes whole (R153). -/
theorem sendPacket_data {p : List Byte} {s : State} {k : Nat} {rest : List TxDraw} (hp : p.length = 72)
    (hv : s.env.visits = []) (ht : s.env.tx = .accepted k :: rest) (hk : 72 ≤ k) :
    sendPacket p s = .ok 72
      (State.transmit (withTrailer p) { sealPacket p s with env := { s.env with tx := rest } }) := by
  have hl : (withTrailer p).length = 72 := by simp [withTrailer, hp]
  have hw : txWrite .gb (withTrailer p) (sealPacket p s) = _ :=
    txWrite_accepted (s := sealPacket p s) (rest := rest) (k := k) (by simpa using hv) (by simpa using ht) (by omega)
  unfold sendPacket
  rw [if_pos hp, act_bind_ok (upd_run _ _), act_bind_ok hw]
  rfl

/-- Sending a control packet that the transport takes (R153, R155). -/
theorem sendPacket_control {c : Byte} {s : State} {k : Nat} {rest : List TxDraw}
    (hv : s.env.visits = []) (ht : s.env.tx = .accepted k :: rest) (hk : 1 ≤ k) :
    sendPacket [c] s = .ok 1 (State.transmit [c] { s with env := { s.env with tx := rest } }) := by
  have hw : txWrite .gb [c] s = _ := txWrite_accepted (rest := rest) (k := k) hv ht (by simpa using hk)
  unfold sendPacket
  rw [if_neg (by simp), List.take_of_length_le (by simp), act_bind_ok hw]
  rfl

/-- Building and sending a packet is sending it in the state in which it is built. -/
theorem sendBuilt_eq (p : List Byte) (s : State) : sendBuilt p s = sendPacket p (buildPacket p s) := by
  unfold sendBuilt
  rw [act_bind_ok (upd_run _ _)]

/-- Receiving a control byte (R109, R157). -/
theorem receivePacket_control {s : State} {c : Byte} {more : List Byte} {rest : List RxDraw} (hv : s.env.visits = [])
    (ha : s.adapter = .gb) (hr : s.env.rx = .got (c :: more) :: rest) (hc : c ≠ ctlData) :
    receivePacket s = .ok [c] { storeRx 0 [c] { s with env := { s.env with rx := rest } } with rxlen := 1 } := by
  have h1 : rxRead .gb 1 { s with rxlen := 0 } = _ :=
    rxRead_got (s := { s with rxlen := 0 }) (offered := c :: more) (rest := rest) hv ha hr
  unfold receivePacket
  rw [act_bind_ok (upd_run _ _), act_bind_ok h1]
  show ((upd (storeRx 0 [c]) >>= fun _ => _ : Act (List Byte))) _ = _
  rw [act_bind_ok (upd_run _ _), if_pos hc]
  rfl

/-- Receiving a DATA packet whole (R109, R157). -/
theorem receivePacket_data {s : State} {body more : List Byte} {rest : List RxDraw} (hv : s.env.visits = [])
    (ha : s.adapter = .gb) (hr : s.env.rx = .got (ctlData :: more) :: .got body :: rest) (hb : body.length = 71) :
    receivePacket s = .ok (ctlData :: body)
      { storeRx 1 body (storeRx 0 [ctlData] { s with env := { s.env with rx := rest } }) with rxlen := 72 } := by
  have h1 : rxRead .gb 1 { s with rxlen := 0 } = _ :=
    rxRead_got (s := { s with rxlen := 0 }) (offered := ctlData :: more) (rest := .got body :: rest) hv ha hr
  have ht : body.take 71 = body := List.take_of_length_le (by omega)
  have h2 : rxRead .gb 71 (storeRx 0 [ctlData] { s with rxlen := 0, env := { s.env with rx := .got body :: rest } }) = _ :=
    rxRead_got (offered := body) (rest := rest) (by simpa using hv) (by simpa using ha) (by simp)
  rw [ht] at h2
  unfold receivePacket
  rw [act_bind_ok (upd_run _ _), act_bind_ok h1]
  show ((upd (storeRx 0 [ctlData]) >>= fun _ => _ : Act (List Byte))) _ = _
  rw [act_bind_ok (upd_run _ _), if_neg (by simp), act_bind_ok h2]
  show ((upd (storeRx 1 body) >>= fun _ => _ : Act (List Byte))) _ = _
  rw [act_bind_ok (upd_run _ _), if_neg (by omega)]
  rfl

/-- The checks of a packet whose trailer is its CRC pass, and CRC holds its value (R159). -/
theorem checkPacket_ok {p : List Byte} {s : State} (hn : s.rxlen = 72) (hd : packetByte p 0 = ctlData)
    (hc : packetCrc p = packetTrailer p) : checkPacket p s = .ok (packetCrc p) { s with crc := packetCrc p } := by
  unfold checkPacket
  rw [act_bind_ok (look_run _ _), if_neg (by simp [hn, hd]), act_bind_ok (upd_run _ _)]
  simp [hc, act_bind]

end Sys2Proof.Machine
end

