-- ==== Sys2Proof/Laws/Peer.lean ====
section
/-! SUPPORT. The reference peer: streams taken in pieces, and what the frames the block emits do to the peer. -/

namespace Sys2Proof.Machine

@[simp] theorem peerFeed_nil (s : State) : peerFeed [] s = s := rfl

@[simp] theorem peerFeed_cons (b : Byte) (rest : List Byte) (s : State) : peerFeed (b :: rest) s = peerFeed rest (peerByte b s) := rfl

/-- A stream taken in two pieces (R290). -/
theorem peerFeed_append (a b : List Byte) (s : State) : peerFeed (a ++ b) s = peerFeed b (peerFeed a s) := by
  induction a generalizing s with
  | nil => rfl
  | cons x rest ih => exact ih _

/-- After a reserved command byte the peer takes no frame any more (R305). -/
theorem peerFeed_undef (bytes : List Byte) (s : State) (h : s.peer.ps = .undef) : peerFeed bytes s = s := by
  induction bytes generalizing s with
  | nil => rfl
  | cons b rest ih =>
    have : peerByte b s = s := by simp [peerByte, h]
    rw [peerFeed_cons, this, ih s h]

/-- One ADDR pair (R295). -/
theorem peerFeed_addr (b : Byte) (s : State) (h : s.peer.ps = .op) : peerFeed [0x00, b] s = peerAddr b s := by
  have h1 : peerByte 0x00 s = setPs .addrB s := by
    simp only [peerByte, h, peerCommand]; rfl
  simp only [peerFeed_cons, peerFeed_nil, h1]
  rfl

/-- One LEN pair (R296). -/
theorem peerFeed_len (b : Byte) (s : State) (h : s.peer.ps = .op) : peerFeed [0x01, b] s = peerLen b s := by
  have h1 : peerByte 0x01 s = setPs .lenB s := by
    simp only [peerByte, h, peerCommand]; rfl
  simp only [peerFeed_cons, peerFeed_nil, h1]
  rfl

/-- One DELAY pair (R304). -/
theorem peerFeed_delay (d : Byte) (s : State) (h : s.peer.ps = .op) : peerFeed [0x05, d] s = peerDelay d s := by
  have h1 : peerByte 0x05 s = setPs .delayB s := by
    simp only [peerByte, h, peerCommand]; rfl
  simp only [peerFeed_cons, peerFeed_nil, h1]
  rfl

/-- RY (R303). -/
theorem peerFeed_ry (s : State) (h : s.peer.ps = .op) : peerFeed [0x04] s = peerRy s := by
  simp only [peerFeed_cons, peerFeed_nil, peerByte, h, peerCommand]
  rfl

@[simp] theorem peerAddr_ps (b : Byte) (s : State) : (peerAddr b s).peer.ps = .op := rfl
@[simp] theorem peerLen_ps (b : Byte) (s : State) : (peerLen b s).peer.ps = .op := rfl
@[simp] theorem peerDelay_ps (d : Byte) (s : State) : (peerDelay d s).peer.ps = .op := rfl
@[simp] theorem peerRy_ps (s : State) : (peerRy s).peer.ps = .op := rfl
@[simp] theorem peerUndef_ps (s : State) : (peerUndef s).peer.ps = .undef := rfl
@[simp] theorem peerRd_ps (f : MdFlags) (s : State) : (peerRd f s).peer.ps = .op := rfl
@[simp] theorem peerWr_ps (f : MdFlags) (data : List Byte) (s : State) : (peerWr f data s).peer.ps = .op := rfl

/-- A frame executed in state OP has the effect of its rule. -/
theorem mdFrame_op {i : Instr} {effect : State → State} {s : State} (h : s.peer.ps = .op) :
    mdFrame i effect s = .next (effect s) := by
  simp [mdFrame, h]

/-- A whole WR frame executed in state OP has the effect of its rule. -/
theorem wrFrame_op {i : Instr} {f : MdFlags} {data : List Byte} {s : State} (h : s.peer.ps = .op)
    (hl : data.length = wrDataLength f s.peer.devLen) : wrFrame i f data s = .next (peerWr f data s) := by
  simp [wrFrame, h, hl]

/-- Taking a free word touches the draws only. -/
theorem takeFree_env (s : State) : ∃ env, (takeFree s).2 = { s with env := env } := by
  unfold takeFree
  split <;> exact ⟨_, rfl⟩

/-- One unit of a read touches the draws, the cartridge and the identity reply only. -/
theorem rdUnit_frame (f : MdFlags) (w : WordAddr) (s : State) : ∃ env cart idr,
    (if f.devId then identityWord f s else cartRead w s).2 =
      { s with env := env, cart := cart, peer := { s.peer with idReply := idr } } := by
  obtain ⟨env, he⟩ := takeFree_env s
  split
  · unfold identityWord
    split
    · dsimp only
      split
      · exact ⟨s.env, s.cart, s.peer.idReply, rfl⟩
      · rw [he]; exact ⟨env, s.cart, .settled, rfl⟩
      · rw [he]; exact ⟨env, s.cart, .settled, rfl⟩
    · exact ⟨s.env, s.cart, s.peer.idReply, rfl⟩
  · unfold cartRead
    dsimp only
    split
    · exact ⟨s.env, _, s.peer.idReply, rfl⟩
    · rw [he]; exact ⟨env, _, s.peer.idReply, rfl⟩
    · rw [he]; exact ⟨env, _, s.peer.idReply, rfl⟩
    · rw [he]; exact ⟨env, _, s.peer.idReply, rfl⟩

/-- The units of a read touch the draws, the cartridge and the identity reply only. -/
theorem rdUnits_frame (f : MdFlags) (n : Nat) (w : WordAddr) (s : State) : ∃ env cart idr,
    (rdUnits f n w s).2 = { s with env := env, cart := cart, peer := { s.peer with idReply := idr } } := by
  induction n generalizing w s with
  | zero => exact ⟨s.env, s.cart, s.peer.idReply, rfl⟩
  | succ n ih =>
    obtain ⟨e1, c1, i1, h1⟩ := rdUnit_frame f w s
    simp only [rdUnits]
    rw [h1]
    obtain ⟨e2, c2, i2, h2⟩ := ih (if rdMoves f then w + 1 else w)
      { s with env := e1, cart := c1, peer := { s.peer with idReply := i1 } }
    rw [h2]
    exact ⟨e2, c2, i2, rfl⟩

/-- The words of a WR frame touch the cartridge only. -/
theorem wrWords_frame (moves : Bool) (data : List Byte) (w : WordAddr) (s : State) : ∃ cart,
    wrWords moves data w s = { s with cart := cart } := by
  induction data using List.twoStepInduction generalizing w s with
  | nil => exact ⟨s.cart, rfl⟩
  | singleton x => exact ⟨s.cart, rfl⟩
  | cons_cons h l rest ih _ =>
    obtain ⟨c, hc⟩ := ih (if moves then w + 1 else w) (cartWrite w (some h) l s)
    simp only [wrWords]
    rw [hc]
    exact ⟨c, rfl⟩

/-- The bytes of a WR frame with MODE8 touch the cartridge only. -/
theorem wrLowBytes_frame (moves : Bool) (data : List Byte) (w : WordAddr) (s : State) : ∃ cart,
    wrLowBytes moves data w s = { s with cart := cart } := by
  induction data generalizing w s with
  | nil => exact ⟨s.cart, rfl⟩
  | cons l rest ih =>
    obtain ⟨c, hc⟩ := ih (if moves then w + 1 else w) (cartWrite w none l s)
    simp only [wrLowBytes]
    rw [hc]
    exact ⟨c, rfl⟩

/-- Everything WR can do: write the cartridge, move the cursor, return to state OP (R299, R300). -/
theorem peerWr_frame (f : MdFlags) (data : List Byte) (s : State) : ∃ cart,
    peerWr f data s = { s with
      cart := cart
      peer := { s.peer with
        devAddr := if wrMoves f then s.peer.devAddr + BitVec.ofNat 24 (mdUnits f s.peer.devLen) else s.peer.devAddr
        ps := .op } } := by
  obtain ⟨c1, h1⟩ := wrLowBytes_frame (wrMoves f) data s.peer.devAddr s
  obtain ⟨c2, h2⟩ := wrWords_frame (wrMoves f) data s.peer.devAddr s
  unfold peerWr
  dsimp only
  split
  · rw [h1]; exact ⟨c1, rfl⟩
  · rw [h2]; exact ⟨c2, rfl⟩

/-- Everything RD can do: draw, reply, read the cartridge, move the cursor, return to state OP (R297, R298, R301). -/
theorem peerRd_frame (f : MdFlags) (s : State) : ∃ env cart idr,
    peerRd f s = { s with
      env := env
      cart := cart
      peer := { s.peer with
        devAddr := if rdMoves f then s.peer.devAddr + BitVec.ofNat 24 (mdUnits f s.peer.devLen) else s.peer.devAddr
        ps := .op
        idReply := idr
        rxLine := s.peer.rxLine ++ (rdUnits f (mdUnits f s.peer.devLen) s.peer.devAddr s).1 } } := by
  obtain ⟨e, c, i, h⟩ := rdUnits_frame f (mdUnits f s.peer.devLen) s.peer.devAddr s
  unfold peerRd
  dsimp only
  generalize hr : rdUnits f (mdUnits f s.peer.devLen) s.peer.devAddr s = r at h ⊢
  obtain ⟨bytes, t⟩ := r
  dsimp only at h ⊢
  rw [h]
  exact ⟨e, c, i, rfl⟩

/-- How many bytes a read replies (R98). -/
theorem rdUnits_length (f : MdFlags) (n : Nat) (w : WordAddr) (s : State) :
    (rdUnits f n w s).1.length = n * mdUnitBytes f := by
  induction n generalizing w s with
  | zero => simp [rdUnits]
  | succ n ih =>
    have h := ih (if rdMoves f then w + 1 else w) (if f.devId then identityWord f s else cartRead w s).2
    rw [Nat.succ_mul, ← h]
    cases hm : f.mode8 <;> simp [rdUnits, mdUnitBytes, hm]

end Sys2Proof.Machine
end

