-- ==== Sys2Proof/Tests/Slice0.lean ====
section
/-! SUPPORT. Tests: ill-formed terms, decoding of words written out from the spec's encodings, one-step runs against the spec's own
vectors (95_test_vectors.md), and for every statement a state that meets its hypotheses. -/

namespace Sys2Proof.Tests

set_option Elab.async false
set_option synthInstance.maxSize 2000
set_option synthInstance.maxHeartbeats 200000

open Sys2Proof Sys2Proof.Machine

/-! ### A small machine -/

/-- The parameters of the vectors of 95_test_vectors.md, with a DBUF of 200000 bytes. -/
def testCfg : Params where
  dbufSize := 200000
  tChar := 5
  tReopen := 50
  indexLayout := .page16Packet8
  subRrom := 0
  subRram := 1
  subWrom := 2
  subWram := 3
  subEfla := 0
  subEram := 1
  ramEnableWord := 0x0001
  ramDisableWord := 0x0000
  ramEnableDelay := 0x01
  ramDisableDelay := 0x00
  readyPoll := .ryThenRdSingle
  eraseStep := 0x2000
  unlockBypassSeq := [(0xAAA, 0x00AA), (0x554, 0x0055), (0xAAA, 0x0020)]
  resetBypassSeq := [(0x000, 0x0090), (0x000, 0x0000)]
  flashWriteForm := .len1CmdInc
  statusFields := ⟨0, 2, 2, 2, 4, 2, 6, 0, 7, 8, 24, 25, 26, 27, 28, 29⟩
  readSideEffects := .none

/-- Flash below word 0x100000 and RAM from there; words 0x100 and 0x101 hold 0x1234 and 0x5678 (P1). -/
def testCart : Cart where
  map := [⟨0, 0x100000, .flash⟩, ⟨0x100000, 0x10000, .ram⟩]
  ramMode := .unbanked
  flash := .read
  flashBusy := false
  cells := [(0x200, 0x12), (0x201, 0x34), (0x202, 0x56), (0x203, 0x78)]

/-- The adapter of the vectors: its id is 0x1205. -/
def testPeer : Peer where
  devAddr := 0x123456
  devLen := 2
  devDelay := 0
  ps := .op
  identity := 0x1205
  idReply := .settled
  inbox := []
  rxLine := []
  stale := false

/-- Scripted answers of the transport. -/
def answers (tx : List TxDraw) (rx : List RxDraw) : Env :=
  { Env.start with tx := tx, rx := rx, reopen := [true], free := [0x9999, 0x8888] }

/-- An MD session, the transport answering as scripted. -/
def mdState (tx : List TxDraw) (rx : List RxDraw) : State :=
  { State.reset with cfg := testCfg, tCur := 5, cart := testCart, peer := testPeer, env := answers tx rx }

/-- A GB session, the transport answering as scripted. -/
def gbState (tx : List TxDraw) (rx : List RxDraw) : State :=
  { mdState tx rx with adapter := .gb }

/-- An MD session in which every transport call does what is asked of it. -/
def md : State := mdState (List.replicate 8 (.accepted 100000)) (List.replicate 8 (.got (List.replicate 16 0)))

/-- A GB session in which every write is taken and nothing is received. -/
def gb : State := gbState (List.replicate 8 (.accepted 100000)) []

/-- DBUF with some bytes from an offset on. -/
def withDbuf (off : Nat) (bytes : List Byte) (s : State) : State := { s with dbuf := Memory.cells off bytes }

/-- A packet received in two reads (R157). -/
def inTwo (p : List Byte) : List RxDraw := [.got (p.take 1), .got (p.drop 1)]

/-- What is seen of the next state; none where the machine stops. -/
def sees {α : Type} (o : Host.Outcome State Fault Refusal) (f : State → α) : Option α :=
  match o with
  | .next t => some (f t)
  | _ => none

/-- ERR and the error registers (R24). -/
structure Raised where
  err : Bool
  kind : Byte
  sub : Byte
  info : Reg32
deriving DecidableEq

/-- What a request raised. -/
def raisedWith (t : State) : Raised := ⟨t.err, t.errKind, t.errSub, t.errInfo⟩

/-- A frame with the bytes 0x00 to 0x3F. -/
def testFrame : List Byte :=
  [0x00, 0x01, 0x02, 0x03, 0x04, 0x05, 0x06, 0x07, 0x08, 0x09, 0x0A, 0x0B, 0x0C, 0x0D, 0x0E, 0x0F,
   0x10, 0x11, 0x12, 0x13, 0x14, 0x15, 0x16, 0x17, 0x18, 0x19, 0x1A, 0x1B, 0x1C, 0x1D, 0x1E, 0x1F,
   0x20, 0x21, 0x22, 0x23, 0x24, 0x25, 0x26, 0x27, 0x28, 0x29, 0x2A, 0x2B, 0x2C, 0x2D, 0x2E, 0x2F,
   0x30, 0x31, 0x32, 0x33, 0x34, 0x35, 0x36, 0x37, 0x38, 0x39, 0x3A, 0x3B, 0x3C, 0x3D, 0x3E, 0x3F]

/-- The 72 bytes of a packet, from its first six bytes, its frame and its trailer. -/
def packet (head frame trailer : List Byte) : List Byte := head ++ frame ++ trailer

/-- 64 zero bytes. -/
def zeros : List Byte := List.replicate 64 0x00

/-- The packet of V1. -/
def v1 : List Byte := packet [0x55, 0x04, 0x00, 0x00, 0x00, 0x00] zeros [0xA3, 0xC1]

/-! ### Ill-formed terms -/

/-- A bulk WR frame carries an even number of bytes, fewer than 65536 words (R98, R292). -/
theorem test_illformed_bulk_words :
    Instr.wellFormed (.wr [1]) = false ∧ Instr.wellFormed (.wrDevId [1, 2, 3]) = false ∧
    Instr.wellFormed (.wrInc [1]) = false ∧ Instr.wellFormed (.wrDevIdInc [1]) = false ∧
    Instr.wellFormed (.wr (List.replicate 131072 0)) = false := by
  simp only [Instr.wellFormed, bulkWords, List.length_replicate]
  decide

/-- A bulk WR frame with MODE8 carries fewer than 65536 bytes (R98, R302). -/
theorem test_illformed_bulk_bytes :
    Instr.wellFormed (.wrMode8 (List.replicate 65536 0)) = false ∧
    Instr.wellFormed (.wrMode8DevId (List.replicate 65536 0)) = false ∧
    Instr.wellFormed (.wrMode8Inc (List.replicate 65536 0)) = false ∧
    Instr.wellFormed (.wrMode8DevIdInc (List.replicate 65536 0)) = false := by
  simp only [Instr.wellFormed, bulkBytes, List.length_replicate]
  decide

/-- A WR frame with SINGLE carries one unit (R98). -/
theorem test_illformed_single :
    Instr.wellFormed (.wrSingle [1]) = false ∧ Instr.wellFormed (.wrMode8Single [1, 2]) = false ∧
    Instr.wellFormed (.wrDevIdSingle []) = false ∧ Instr.wellFormed (.wrMode8DevIdSingle []) = false ∧
    Instr.wellFormed (.wrSingleInc [1, 2, 3]) = false ∧ Instr.wellFormed (.wrMode8SingleInc []) = false ∧
    Instr.wellFormed (.wrDevIdSingleInc [1]) = false ∧ Instr.wellFormed (.wrMode8DevIdSingleInc [1, 2]) = false := by
  decide

/-- Without a flag these command bytes are ADDR, LEN, RY and DELAY (R97). -/
theorem test_illformed_reserved :
    Instr.wellFormed (.mdReservedAddrWithFlags 0) = false ∧ Instr.wellFormed (.mdReservedLenWithFlags 0) = false ∧
    Instr.wellFormed (.mdReservedRyWithFlags 0) = false ∧ Instr.wellFormed (.mdReservedDelayWithFlags 0) = false := by
  decide

/-- A DATA packet has a frame of 64 bytes (R104). -/
theorem test_illformed_frames :
    Instr.wellFormed (.gbDataConfigRrom 0 [] 0) = false ∧ Instr.wellFormed (.gbDataConfigRram 0 [1] 0) = false ∧
    Instr.wellFormed (.gbDataConfigWrom 0 [] 0) = false ∧ Instr.wellFormed (.gbDataConfigWram 0 [] 0) = false ∧
    Instr.wellFormed (.gbDataNormalData 0 (0 :: zeros) 0) = false ∧ Instr.wellFormed (.gbDataLastData 0 [] 0) = false ∧
    Instr.wellFormed (.gbDataEraseEfla 0 [] 0) = false ∧ Instr.wellFormed (.gbDataEraseEram 0 [] 0) = false ∧
    Instr.wellFormed (.gbDataStatusNreadId 0 [] 0) = false ∧ Instr.wellFormed (.gbDataStatusReadId 0 [] 0) = false := by
  decide

/-! ### Decoding -/

theorem test_decode_crc :
    decodeRequest 0x112233445566778899AABBCCDDEE0001 = .ok .crcClear ∧
    decodeRequest 0x112233445566778899AABBCCDDEE0002 = .ok (.crcByte 0xEE) ∧
    decodeRequest 0x112233445566778899AABBCCDDEE0003 = .ok (.crcBlock 0x11223344 0x55667788) := by
  decide +kernel

theorem test_decode_framer :
    decodeRequest 0x112233445566778899AABBCCDDEE0010 = .ok (.pktBuild 0xDD 0xEE 0x99 0xAABBCC 0x11223344) ∧
    decodeRequest 0x112233445566778899AABBCCDDEE0011 = .ok .pktSend ∧
    decodeRequest 0x112233445566778899AABBCCDDEE0012 = .ok .pktReceive ∧
    decodeRequest 0x112233445566778899AABBCCDDEE0013 = .ok .pktCheck := by
  decide +kernel

theorem test_decode_transfers :
    decodeRequest 0x112233445566778899AABBCCDDEE0020 = .ok (.gbReadRam 0x11223344 0x55667788) ∧
    decodeRequest 0x112233445566778899AABBCCDDEE0021 = .ok (.gbWriteRam 0x11223344 0x55667788) ∧
    decodeRequest 0x112233445566778899AABBCCDDEE0022 = .ok (.gbReadDeviceStatus 0x11223344) ∧
    decodeRequest 0x112233445566778899AABBCCDDEE0023 = .ok (.gbReadStatus 0x11223344) := by
  decide +kernel

theorem test_decode_stream :
    decodeRequest 0x112233445566778899AABBCCDDEE0230 = .ok (.mdSeek 2 0x99AABBCC) ∧
    decodeRequest 0x112233445566778899AABBCCDDEE0031 = .ok (.mdRead 0x11223344 0x55667788) ∧
    decodeRequest 0x112233445566778899AABBCCDDEE0032 = .ok (.mdWrite 0x11223344 0x55667788) ∧
    decodeRequest 0x112233445566778899AABBCCDDEE0033 = .ok (.mdReadWord 0x99AABBCC) ∧
    decodeRequest 0x112233445566778899AABBCCDDEE0034 = .ok (.mdWriteWord 0x99AABBCC 0xDDEE) ∧
    decodeRequest 0x112233445566778899AABBCCDDEE0035 = .ok (.mdWriteByte 0x99AABBCC 0xEE) ∧
    decodeRequest 0x112233445566778899AABBCCDDEE0036 = .ok .mdRamEnable ∧
    decodeRequest 0x112233445566778899AABBCCDDEE0037 = .ok .mdRamDisable ∧
    decodeRequest 0x112233445566778899AABBCCDDEE0038 = .ok .mdGetId ∧
    decodeRequest 0x112233445566778899AABBCCDDEE0039 = .ok .mdHandshake := by
  decide +kernel

theorem test_decode_flash :
    decodeRequest 0x112233445566778899AABBCCDDEE0040 = .ok (.mdFlashErase 0x99AABBCC) ∧
    decodeRequest 0x112233445566778899AABBCCDDEE0041 = .ok .mdFlashUnlockBypass ∧
    decodeRequest 0x112233445566778899AABBCCDDEE0042 = .ok .mdFlashResetBypass ∧
    decodeRequest 0x112233445566778899AABBCCDDEE0043 = .ok (.mdFlashWrite 0x11223344 0x55667788) := by
  decide +kernel

/-- Command bytes 0x00, 0x01, 0x04 and 0x05 with their operand bytes (R96, R98). -/
theorem test_decode_parameters :
    decodeFrame 0 [0x00, 0xAB, 0x04] = .ok (.addr 0xAB, [0x04]) ∧
    decodeFrame 0 [0x01, 0xCD] = .ok (.len 0xCD, []) ∧
    decodeFrame 0 [0x04, 0x42] = .ok (.ry, [0x42]) ∧
    decodeFrame 0 [0x05, 0x03] = .ok (.delay 0x03, []) := by
  decide +kernel

/-- OP 2 with every combination of MODE8 0x10, DEV_ID 0x20, SINGLE 0x40 and INC 0x80 (R95, R96). -/
theorem test_decode_rd :
    decodeFrame 2 [0x02, 0x04] = .ok (.rd, [0x04]) ∧
    decodeFrame 2 [0x12, 0x04] = .ok (.rdMode8, [0x04]) ∧
    decodeFrame 2 [0x22, 0x04] = .ok (.rdDevId, [0x04]) ∧
    decodeFrame 2 [0x32, 0x04] = .ok (.rdMode8DevId, [0x04]) ∧
    decodeFrame 2 [0x42, 0x04] = .ok (.rdSingle, [0x04]) ∧
    decodeFrame 2 [0x52, 0x04] = .ok (.rdMode8Single, [0x04]) ∧
    decodeFrame 2 [0x62, 0x04] = .ok (.rdDevIdSingle, [0x04]) ∧
    decodeFrame 2 [0x72, 0x04] = .ok (.rdMode8DevIdSingle, [0x04]) ∧
    decodeFrame 2 [0x82, 0x04] = .ok (.rdInc, [0x04]) ∧
    decodeFrame 2 [0x92, 0x04] = .ok (.rdMode8Inc, [0x04]) ∧
    decodeFrame 2 [0xA2, 0x04] = .ok (.rdDevIdInc, [0x04]) ∧
    decodeFrame 2 [0xB2, 0x04] = .ok (.rdMode8DevIdInc, [0x04]) ∧
    decodeFrame 2 [0xC2, 0x04] = .ok (.rdSingleInc, [0x04]) ∧
    decodeFrame 2 [0xD2, 0x04] = .ok (.rdMode8SingleInc, [0x04]) ∧
    decodeFrame 2 [0xE2, 0x04] = .ok (.rdDevIdSingleInc, [0x04]) ∧
    decodeFrame 2 [0xF2, 0x04] = .ok (.rdMode8DevIdSingleInc, [0x04]) := by
  decide +kernel

/-- OP 3 with every combination of flags, DEV_LEN = 2 (R95, R98). -/
theorem test_decode_wr :
    decodeFrame 2 [0x03, 0x12, 0x34, 0x56, 0x78, 0x04] = .ok (.wr [0x12, 0x34, 0x56, 0x78], [0x04]) ∧
    decodeFrame 2 [0x13, 0x12, 0x34, 0x04] = .ok (.wrMode8 [0x12, 0x34], [0x04]) ∧
    decodeFrame 2 [0x23, 0x12, 0x34, 0x56, 0x78, 0x04] = .ok (.wrDevId [0x12, 0x34, 0x56, 0x78], [0x04]) ∧
    decodeFrame 2 [0x33, 0x12, 0x34, 0x04] = .ok (.wrMode8DevId [0x12, 0x34], [0x04]) ∧
    decodeFrame 2 [0x43, 0x12, 0x34, 0x04] = .ok (.wrSingle [0x12, 0x34], [0x04]) ∧
    decodeFrame 2 [0x53, 0x12, 0x04] = .ok (.wrMode8Single [0x12], [0x04]) ∧
    decodeFrame 2 [0x63, 0x12, 0x34, 0x04] = .ok (.wrDevIdSingle [0x12, 0x34], [0x04]) ∧
    decodeFrame 2 [0x73, 0x12, 0x04] = .ok (.wrMode8DevIdSingle [0x12], [0x04]) ∧
    decodeFrame 2 [0x83, 0x12, 0x34, 0x56, 0x78, 0x04] = .ok (.wrInc [0x12, 0x34, 0x56, 0x78], [0x04]) ∧
    decodeFrame 2 [0x93, 0x12, 0x34, 0x04] = .ok (.wrMode8Inc [0x12, 0x34], [0x04]) ∧
    decodeFrame 2 [0xA3, 0x12, 0x34, 0x56, 0x78, 0x04] = .ok (.wrDevIdInc [0x12, 0x34, 0x56, 0x78], [0x04]) ∧
    decodeFrame 2 [0xB3, 0x12, 0x34, 0x04] = .ok (.wrMode8DevIdInc [0x12, 0x34], [0x04]) ∧
    decodeFrame 2 [0xC3, 0x12, 0x34, 0x04] = .ok (.wrSingleInc [0x12, 0x34], [0x04]) ∧
    decodeFrame 2 [0xD3, 0x12, 0x04] = .ok (.wrMode8SingleInc [0x12], [0x04]) ∧
    decodeFrame 2 [0xE3, 0x12, 0x34, 0x04] = .ok (.wrDevIdSingleInc [0x12, 0x34], [0x04]) ∧
    decodeFrame 2 [0xF3, 0x12, 0x04] = .ok (.wrMode8DevIdSingleInc [0x12], [0x04]) := by
  decide +kernel

/-- The reserved command bytes (R97). -/
theorem test_decode_reserved :
    decodeFrame 0 [0x16] = .ok (.mdReservedOp67 0 1, []) ∧
    decodeFrame 0 [0xC7] = .ok (.mdReservedOp67 1 0xC, []) ∧
    decodeFrame 0 [0x08] = .ok (.mdReservedOp8F 0 0, []) ∧
    decodeFrame 0 [0x9D] = .ok (.mdReservedOp8F 5 9, []) ∧
    decodeFrame 0 [0x10] = .ok (.mdReservedAddrWithFlags 1, []) ∧
    decodeFrame 0 [0x21] = .ok (.mdReservedLenWithFlags 2, []) ∧
    decodeFrame 0 [0x84] = .ok (.mdReservedRyWithFlags 8, []) ∧
    decodeFrame 0 [0xF5] = .ok (.mdReservedDelayWithFlags 0xF, []) := by
  decide +kernel

/-- The packets: byte 0 control, 1 command, 2 subcommand, 3..5 index, 6..69 frame, 70..71 trailer (R102 to R106). -/
theorem test_decode_packets :
    decodePacket [0xAA] = .ok .gbAck ∧
    decodePacket [0xF0] = .ok .gbNak ∧
    decodePacket [0x0F] = .ok .gbEnd ∧
    decodePacket ([0x55, 0x00, 0x00, 0x12, 0x34, 0x56] ++ testFrame ++ [0x9A, 0xBC]) = .ok (.gbDataConfigRrom 0x123456 testFrame 0x9ABC) ∧
    decodePacket ([0x55, 0x00, 0x01, 0x12, 0x34, 0x56] ++ testFrame ++ [0x9A, 0xBC]) = .ok (.gbDataConfigRram 0x123456 testFrame 0x9ABC) ∧
    decodePacket ([0x55, 0x00, 0x02, 0x12, 0x34, 0x56] ++ testFrame ++ [0x9A, 0xBC]) = .ok (.gbDataConfigWrom 0x123456 testFrame 0x9ABC) ∧
    decodePacket ([0x55, 0x00, 0x03, 0x12, 0x34, 0x56] ++ testFrame ++ [0x9A, 0xBC]) = .ok (.gbDataConfigWram 0x123456 testFrame 0x9ABC) ∧
    decodePacket ([0x55, 0x01, 0x00, 0x12, 0x34, 0x56] ++ testFrame ++ [0x9A, 0xBC]) = .ok (.gbDataNormalData 0x123456 testFrame 0x9ABC) ∧
    decodePacket ([0x55, 0x02, 0x00, 0x12, 0x34, 0x56] ++ testFrame ++ [0x9A, 0xBC]) = .ok (.gbDataLastData 0x123456 testFrame 0x9ABC) ∧
    decodePacket ([0x55, 0x03, 0x00, 0x12, 0x34, 0x56] ++ testFrame ++ [0x9A, 0xBC]) = .ok (.gbDataEraseEfla 0x123456 testFrame 0x9ABC) ∧
    decodePacket ([0x55, 0x03, 0x01, 0x12, 0x34, 0x56] ++ testFrame ++ [0x9A, 0xBC]) = .ok (.gbDataEraseEram 0x123456 testFrame 0x9ABC) ∧
    decodePacket ([0x55, 0x04, 0x00, 0x12, 0x34, 0x56] ++ testFrame ++ [0x9A, 0xBC]) = .ok (.gbDataStatusNreadId 0x123456 testFrame 0x9ABC) ∧
    decodePacket ([0x55, 0x04, 0x01, 0x12, 0x34, 0x56] ++ testFrame ++ [0x9A, 0xBC]) = .ok (.gbDataStatusReadId 0x123456 testFrame 0x9ABC) := by
  decide +kernel

/-- The codes beside those of R92, the reserved bits and a misplaced WHENCE, in the order of R322 (table 2.7). -/
theorem test_decode_rejects_requests :
    decodeRequest 0x00 = .error (.badCode 0x00) ∧ decodeRequest 0x14 = .error (.badCode 0x14) ∧
    decodeRequest 0x44 = .error (.badCode 0x44) ∧ decodeRequest 0x0400 = .error (.badCode 0x00) ∧
    decodeRequest 0xFC01 = .error (.rsvdBits 0x3F) ∧ decodeRequest 0x0131 = .error (.rsvdBits 1) := by
  decide +kernel

/-- Streams and packets that are no instruction (R98, R103 to R106, R110). -/
theorem test_decode_rejects_bytes :
    decodeFrame 2 [] = .error .incomplete ∧ decodeFrame 2 [0x00] = .error .incomplete ∧
    decodeFrame 2 [0x83, 0x12, 0x34, 0x56] = .error .incomplete ∧
    decode 0 (.frame [0x04, 0x04]) = .error .extraBytes ∧ decodePacket [0x33] = .error (.invalidControl 0x33) ∧
    decodePacket (packet [0x55, 0x05, 0, 0, 0, 0] zeros [0, 0]) = .error (.invalidCommand 0x05) ∧
    decodePacket (packet [0x55, 0x01, 1, 0, 0, 0] zeros [0, 0]) = .error (.invalidSubcommand 0x01 0x01) ∧
    decodePacket (packet [0x55, 0x01, 0, 0, 0, 0] zeros [0]) = .error .wrongLength ∧
    decodePacket (packet [0x55, 0x01, 0, 0, 0, 0] zeros [0, 0, 0]) = .error .wrongLength ∧
    decodePacket [0xAA, 0x00, 0x00] = .error .extraBytes := by
  decide +kernel

/-- The words of the opcode table: a request, a frame, a control packet, a DATA packet. -/
theorem test_decode_table_words :
    decodeTableWord 16 0x11 = some .pktSend ∧ decodeTableWord 8 0x42 = some .rdSingle ∧
    decodeTableWord 8 0x43 = some (.wrSingle [0, 0]) ∧ decodeTableWord 8 0xAA = some .gbAck ∧
    decodeTableWord 24 0x550401 = some (.gbDataStatusReadId 0 (List.replicate 64 0) 0) := by
  decide +kernel

/-! ### The CRC unit (tables 1 and 2.1) -/

theorem test_crc_clear : sees (exec .crcClear { md with crc := 0x1234, result := 7 }) (fun t => (t.crc, t.result, t.done)) =
    some (0x0000, 0, true) := by
  decide +kernel

theorem test_crc_byte : sees (exec (.crcByte 0x55) md) (fun t => (t.crc, t.result)) = some (0x0A50, 0x0A50) := by
  decide +kernel

/-- A nonzero seed is not hidden. -/
theorem test_crc_byte_seed : sees (exec (.crcByte 0x00) { md with crc := 0x1234 }) (·.crc) = some 0x0673 := by
  decide +kernel

/-- The bytes of "123456789". -/
theorem test_crc_block :
    sees (exec (.crcBlock 10 9) (withDbuf 10 [0x31, 0x32, 0x33, 0x34, 0x35, 0x36, 0x37, 0x38, 0x39] md)) (·.crc) = some 0x31C3 := by
  decide +kernel

theorem test_crc_block_range : sees (exec (.crcBlock 200000 1) { md with crc := 0xBEEF }) (fun t => (t.crc, raisedWith t)) =
    some (0xBEEF, ⟨true, 7, 3, 200000⟩) := by
  decide +kernel

/-- The packet CRCs of V1, V2 and a few rows of table 2.2. -/
theorem test_packet_crc :
    packetCrc v1 = 0xA3C1 ∧ packetCrc (v1.set 2 0x01) = 0x9936 ∧
    packetCrc (packet [0x55, 0x01, 0, 0, 0, 0] testFrame []) = 0x7868 ∧
    packetCrc (packet [0x55, 0x02, 0, 0, 0x03, 0x7F] zeros []) = 0x6BB3 := by
  decide +kernel

/-! ### The framer (table 2.2, P7) -/

theorem test_pkt_build_data : sees (exec (.pktBuild 0x55 0x04 0x01 0x010203 5) (withDbuf 5 testFrame gb))
    (fun t => (t.result, t.txlen, t.txpkt.getBytes 0 72)) =
    some (72, 72, some (packet [0x55, 0x04, 0x01, 0x01, 0x02, 0x03] testFrame [0, 0])) := by
  decide +kernel

theorem test_pkt_build_subcommand : sees (exec (.pktBuild 0x55 0x03 0x02 0 0) gb) (fun t => (t.txlen, raisedWith t)) =
    some (0, ⟨true, 2, 3, 0x0302⟩) := by
  decide +kernel

theorem test_pkt_send_data :
    sees (exec .pktSend { gb with txpkt := Memory.cells 0 (v1.set 70 0x12), txlen := 72 }) (fun t => (t.txLog, t.result, t.crc)) =
      some (v1, 72, 0xA3C1) := by
  decide +kernel

theorem test_pkt_send_nothing : sees (exec .pktSend gb) (fun t => (t.txLog, raisedWith t)) = some ([], ⟨true, 7, 4, 0⟩) := by
  decide +kernel

theorem test_pkt_receive_control :
    sees (exec .pktReceive (gbState [] [.got [0x33]])) (fun t => (t.result, t.rxlen)) = some (0x0133, 1) := by
  decide +kernel

theorem test_pkt_receive_short :
    sees (exec .pktReceive (gbState [] [.got [0x55], .got (List.replicate 10 7)]))
      (fun t => (t.rxlen, t.rxpkt.getBytes 0 11, t.syncLost, raisedWith t)) =
      some (0, some (0x55 :: List.replicate 10 7), true, ⟨true, 1, 2, 10⟩) := by
  decide +kernel

theorem test_pkt_check_ok : sees (exec .pktCheck { gb with rxpkt := Memory.cells 0 v1, rxlen := 72 }) (fun t => (t.result, t.crc)) =
    some (0xA3C1, 0xA3C1) := by
  decide +kernel

/-- V4: byte 69 changed. -/
theorem test_pkt_check_corrupt : sees (exec .pktCheck { gb with rxpkt := Memory.cells 0 (v1.set 69 0x01), rxlen := 72 }) raisedWith =
    some ⟨true, 2, 4, 0xB3E0A3C1⟩ := by
  decide +kernel

/-! ### GB transfers (table 2.3) -/

/-- Packet 0 is good, then comes a packet with index 2. -/
theorem test_gb_read_ram_sequence :
    sees (exec (.gbReadRam 0 2048) (gbState (List.replicate 3 (.accepted 72))
      (inTwo (packet [0x55, 0x01, 0, 0, 0, 0] testFrame [0x78, 0x68]) ++ inTwo (packet [0x55, 0x01, 0, 0, 0, 2] zeros [0xA2, 0xFB]))))
      (fun t => (t.txLog, t.xcount, t.dbuf.getBytes 0 64, raisedWith t)) =
      some (packet [0x55, 0x00, 0x01, 0, 0, 1] zeros [0x71, 0xC0] ++ [0xAA], 64, some testFrame, ⟨true, 2, 5, 64⟩) := by
  decide +kernel

theorem test_gb_read_ram_size : sees (exec (.gbReadRam 0 6144) gb) (fun t => (t.txLog, raisedWith t)) = some ([], ⟨true, 3, 1, 6144⟩) := by
  decide +kernel

/-- The adapter acknowledges the header and refuses packet 0. -/
theorem test_gb_write_ram_nak :
    sees (exec (.gbWriteRam 0 2048) (withDbuf 0 (testFrame ++ List.replicate 1984 0)
      (gbState (List.replicate 2 (.accepted 72)) [.got [0xAA], .got [0xF0]]))) (fun t => (t.txLog, t.xcount, raisedWith t)) =
      some (packet [0x55, 0x00, 0x03, 0, 0, 1] zeros [0x04, 0x2E] ++ packet [0x55, 0x01, 0, 0, 0, 0] testFrame [0x78, 0x68],
        0, ⟨true, 2, 6, 0xF0⟩) := by
  decide +kernel

theorem test_gb_read_device_status :
    sees (exec (.gbReadDeviceStatus 7) (gbState [.accepted 72] (inTwo v1))) (fun t => (t.txLog, t.result, t.dbuf.getBytes 7 64)) =
      some (v1, 64, some zeros) := by
  decide +kernel

theorem test_gb_read_status :
    sees (exec (.gbReadStatus 7) (gbState [.accepted 72] (inTwo (packet [0x55, 0x04, 0x01, 0, 0, 0] testFrame [0xB2, 0xC3]))))
      (fun t => (t.txLog.take 3, t.result, t.dbuf.getBytes 7 64)) = some ([0x55, 0x04, 0x01], 64, some testFrame) := by
  decide +kernel

theorem test_gb_read_status_control : sees (exec (.gbReadStatus 7) (gbState [.accepted 72] [.got [0xAA]])) raisedWith =
    some ⟨true, 2, 7, 1⟩ := by
  decide +kernel

/-- The header is refused before any byte of DBUF is read (R189). -/
theorem test_gb_write_ram_refused : sees (exec (.gbWriteRam 0 2048) (gbState [.accepted 72] [.got [0xF0]])) raisedWith =
    some ⟨true, 2, 6, 0xF0⟩ := by
  decide +kernel

/-- A packet byte that nothing has written is read during a request (R28, I4). -/
theorem test_read_unwritten_during_request :
    exec .pktReceive { gb with env := { gb.env with visits := [[.readReg (.rxpkt 5)]] } } = .fault .unwrittenByte := by
  rfl

/-! ### The MD stream (table 2.4) -/

theorem test_md_seek : sees (exec (.mdSeek 0 0x1FFFFFF) md) (fun t => (t.txLog, t.result, t.status)) =
    some ([0x00, 0xFF, 0x00, 0xFF, 0x00, 0xFF], 0xFFFFFF, 0x0012) := by
  decide +kernel

theorem test_md_seek_end : sees (exec (.mdSeek 2 0) md) (fun t => (t.txLog, raisedWith t)) = some ([], ⟨true, 6, 2, 2⟩) := by
  decide +kernel

/-- The machine with the peer's cursor at word 0x100 and the block's copy of it valid. -/
def at100 : State := { md with curW := 0x100, cursorValid := true, peer := { testPeer with devAddr := 0x100 } }

/-- Step 3 of P1. -/
theorem test_md_read : sees (exec (.mdRead 0 4) at100)
    (fun t => (t.txLog, t.dbuf.getBytes 0 4, t.curW, t.peer.devAddr, t.result)) =
    some ([0x01, 0x00, 0x01, 0x02, 0x82], some [0x12, 0x34, 0x56, 0x78], 0x102, 0x102, 4) := by
  decide +kernel

/-- A read of 2 bytes, then one of none. -/
theorem test_md_read_short : sees (exec (.mdRead 0 4) (gbState [.accepted 5] [.got [1, 2], .got []]))
    (fun t => (t.dbuf.getBytes 0 2, t.cursorValid, t.syncLost, raisedWith t)) = some (some [1, 2], false, true, ⟨true, 1, 2, 2⟩) := by
  decide +kernel

theorem test_md_write : sees (exec (.mdWrite 3 2) (withDbuf 3 [0xAB, 0xCD] md)) (fun t => (t.txLog, t.result)) =
    some ([0x01, 0x00, 0x01, 0x01, 0x83, 0xAB, 0xCD], 2) := by
  decide +kernel

theorem test_md_write_odd : sees (exec (.mdWrite 0 1) md) (fun t => (t.txLog, raisedWith t)) = some ([], ⟨true, 3, 3, 1⟩) := by
  decide +kernel

theorem test_md_read_word : sees (exec (.mdReadWord 0x200000) (gbState [.accepted 7] [.got [0x00, 0x5A]]))
    (fun t => (t.txLog, t.result, t.curW)) = some ([0x00, 0x10, 0x00, 0x00, 0x00, 0x00, 0x42], 0x005A, 0x100000) := by
  decide +kernel

theorem test_md_write_word : sees (exec (.mdWriteWord 0xAAA 0x00AA) md) (fun t => (t.txLog, t.result, t.curW)) =
    some ([0x00, 0x00, 0x00, 0x05, 0x00, 0x55, 0x43, 0x00, 0xAA], 0, 0x555) := by
  decide +kernel

theorem test_md_write_byte : sees (exec (.mdWriteByte 0x200002 0x5A) md) (·.txLog) =
    some [0x00, 0x10, 0x00, 0x00, 0x00, 0x01, 0x43, 0x00, 0x5A] := by
  decide +kernel

theorem test_md_ram_enable : sees (exec .mdRamEnable md) (fun t => (t.txLog, t.ramEn, t.curW, t.delaySh)) =
    some ([0x00, 0x50, 0x00, 0x98, 0x00, 0x00, 0x43, 0x00, 0x01, 0x05, 0x01], true, 0x509800, 1) := by
  decide +kernel

theorem test_md_ram_disable : sees (exec .mdRamDisable { md with ramEn := true }) (fun t => (t.txLog, t.ramEn, t.delaySh)) =
    some ([0x00, 0x50, 0x00, 0x98, 0x00, 0x00, 0x43, 0x00, 0x00, 0x05, 0x00], false, 0) := by
  decide +kernel

theorem test_md_get_id : sees (exec .mdGetId md) (fun t => (t.txLog, t.result)) = some ([0x62], 0x1205) := by
  decide +kernel

/-- The first id is an echo: Reopen, the id again, DELAY 0. -/
theorem test_md_handshake : sees (exec .mdHandshake (gbState (List.replicate 3 (.accepted 9)) [.got [0x62, 0x62], .got [0x12, 0x05]]))
    (fun t => (t.txLog, t.result, t.tCur, t.delayValid)) = some ([0x62, 0x62, 0x05, 0x00], 0x1205, 50, true) := by
  decide +kernel

theorem test_md_handshake_second_echo :
    sees (exec .mdHandshake (gbState (List.replicate 2 (.accepted 9)) [.got [0x62, 0x62], .got [0x55, 0x55]])) raisedWith =
      some ⟨true, 5, 1, 0x5555⟩ := by
  decide +kernel

/-! ### Flash (table 2.5) -/

theorem test_md_flash_erase : sees (exec (.mdFlashErase 0x10000) (gbState [.accepted 119] [.got [0, 0]])) (fun t => (t.txLog.length, t.txLog.take 9, t.txLog.drop 108,
      t.curW, t.result)) =
    some (119, [0x00, 0x00, 0x00, 0x05, 0x00, 0x55, 0x43, 0x00, 0xAA],
      [0x00, 0x00, 0x00, 0xF0, 0x00, 0x00, 0x43, 0x00, 0x30, 0x04, 0x42], 0xF000, 0) := by
  decide +kernel

theorem test_md_flash_erase_align : sees (exec (.mdFlashErase 0x18000) md) raisedWith = some ⟨true, 3, 2, 0x18000⟩ := by
  decide +kernel

theorem test_md_flash_unlock_bypass : sees (exec .mdFlashUnlockBypass md) (fun t => (t.txLog, t.bypass, t.curW)) =
    some ([0x00, 0x00, 0x00, 0x05, 0x00, 0x55, 0x43, 0x00, 0xAA, 0x00, 0x00, 0x00, 0x02, 0x00, 0xAA, 0x43, 0x00, 0x55, 0x00, 0x00,
      0x00, 0x05, 0x00, 0x55, 0x43, 0x00, 0x20], true, 0x555) := by
  decide +kernel

theorem test_md_flash_reset_bypass : sees (exec .mdFlashResetBypass { md with bypass := true }) (fun t => (t.txLog, t.bypass, t.curW)) =
    some ([0x00, 0x00, 0x00, 0x00, 0x00, 0x00, 0x43, 0x00, 0x90, 0x00, 0x00, 0x00, 0x00, 0x00, 0x00, 0x43, 0x00, 0x00], false, 0) := by
  decide +kernel

theorem test_md_flash_write : sees (exec (.mdFlashWrite 0 2) (withDbuf 0 [0x12, 0x34] { md with curW := 5, cursorValid := true }))
    (fun t => (t.txLog, t.result, t.curW)) =
    some ([0x01, 0x00, 0x01, 0x01, 0x43, 0x00, 0xA0, 0x83, 0x12, 0x34, 0x04, 0x42], 2, 6) := by
  decide +kernel

theorem test_md_flash_write_nothing : sees (exec (.mdFlashWrite 0 0) md) (fun t => (t.txLog, t.result, t.done)) = some ([], 0, true) := by
  decide +kernel

/-- Under RY_ONLY the words are one run of TX bytes, so a short write counts from its start (R221). -/
theorem test_md_flash_write_short :
    sees (exec (.mdFlashWrite 0 4) (withDbuf 0 [1, 2, 3, 4] { mdState [.accepted 15] [] with cfg := { testCfg with readyPoll := .ryOnly } }))
      (fun t => (t.txLog.length, raisedWith t)) = some (15, ⟨true, 1, 1, 15⟩) := by
  decide +kernel

/-- Erased words read 0xFFFF (R282); programming over one that was not erased leaves the others as they are (I8). -/
theorem test_cart_erase_and_program :
    let c := testCart.eraseSector { testCfg with eraseStep := 4 } 0x100
    (c.ready.known 0x100, c.ready.known 0x101) = ((some 0xFF, some 0xFF), (some 0xFF, some 0xFF)) ∧
    ((c.program 0x100 (some 0x12) 0xFF).program 0x101 (some 0x00) 0x01).ready.known 0x100 = (some 0x12, some 0xFF) ∧
    (testCart.program 0x100 (some 0x00) 0x01).known 0x101 = (none, none) ∧
    (testCart.program 0x100 (some 0x00) 0x01).ready.known 0x101 = (some 0x56, some 0x78) := by
  decide +kernel

/-- A MODE8 data byte programmed over an erased word is its low byte (R302). -/
theorem test_cart_program_mode8 :
    let c := { testCart with flash := .bypassProgram, cells := [(0x200, 0xFF), (0x201, 0xFF), (0x202, 0x56)] }
    (c.write testCfg 0x100 none 0xAB).cells = [(0x201, 0xAB), (0x202, 0x56)] := by
  decide +kernel

/-- The offsets of the status fields count from the start of the frame, byte 6 of the packet (R10, R17, R198). -/
theorem test_status_info :
    let info := statusInfo testCfg.statusFields (packet [0x55, 0x04, 0, 0, 0, 0] (testFrame.set 24 0x80 |>.set 10 0x00) [0, 0])
    info.firmware = [0x00, 0x01] ∧ info.logoValid = 0x07 ∧ info.gameName = [0x08, 0x09] ∧ info.cgb = true ∧ info.sgb = false ∧
    info.headerCrc = [0x1D, 0x1E] := by
  decide +kernel

/-- The program command outside bypass mode opens its word alone, whatever the low byte of the data (R278, I7). -/
theorem test_cart_program_outside_bypass : ∀ lo ∈ [(0x30 : Byte), 0x90],
    let c := (testCart.write testCfg 0x100 (some 0x00) 0xA0).write testCfg 0x100 (some 0x12) lo
    c.flash = .read ∧ c.known 0x100 = (none, none) ∧ c.known 0x101 = (some 0x56, some 0x78) := by
  simp only [List.mem_cons, List.not_mem_nil, or_false, forall_eq_or_imp, forall_eq]
  decide +kernel

/-- A sector erase over flash word 0x100 and RAM word 0x101 leaves RAM as it is (R306). -/
theorem test_cart_erase_keeps_ram :
    let c := { testCart with
      map := [⟨0, 0x101, .flash⟩, ⟨0x101, 1, .ram⟩]
      flash := .eraseReady }
    (c.write { testCfg with eraseStep := 4 } 0x100 (some 0x00) 0x30).cells =
      [(0x200, 0xFF), (0x201, 0xFF), (0x202, 0x56), (0x203, 0x78)] := by
  decide +kernel

/-- A RAM disable that fails leaves the RAM mode unknown (R373). -/
theorem test_md_ram_disable_fails :
    sees (exec .mdRamDisable { mdState [.accepted 9] [] with cart := { testCart with ramMode := .banked } })
      (fun t => (t.cart.ramMode, t.syncLost)) = some (.unknown, true) := by
  decide +kernel

/-! ### The peer (table 2.6) -/

theorem test_frame_parameters :
    sees (exec (.addr 0xAB) md) (·.peer.devAddr) = some 0x3456AB ∧ sees (exec (.len 0x02) md) (·.peer.devLen) = some 0x0202 ∧
    sees (exec (.delay 0x03) md) (·.peer.devDelay) = some 3 ∧
    sees (exec .ry { md with cart := { testCart with flash := .eraseReady, flashBusy := true } }) (fun t => (t.cart.flash, t.cart.flashBusy)) =
      some (.read, false) := by
  decide +kernel

/-- What the peer replies and where its cursor is after a frame. -/
def replies (i : Instr) : Option (List Byte × WordAddr) := sees (exec i at100) fun t => (t.peer.rxLine, t.peer.devAddr)

/-- Words read (R297, R298), low bytes with MODE8 (R302), the identity value with DEV_ID (R301); SINGLE wins over INC. -/
theorem test_frame_rd :
    replies .rd = some ([0x12, 0x34, 0x12, 0x34], 0x100) ∧ replies .rdMode8 = some ([0x34, 0x34], 0x100) ∧
    replies .rdDevId = some ([0x12, 0x05, 0x12, 0x05], 0x100) ∧ replies .rdMode8DevId = some ([0x05, 0x05], 0x100) ∧
    replies .rdSingle = some ([0x12, 0x34], 0x100) ∧ replies .rdMode8Single = some ([0x34], 0x100) ∧
    replies .rdDevIdSingle = some ([0x12, 0x05], 0x100) ∧ replies .rdMode8DevIdSingle = some ([0x05], 0x100) ∧
    replies .rdInc = some ([0x12, 0x34, 0x56, 0x78], 0x102) ∧ replies .rdMode8Inc = some ([0x34, 0x78], 0x102) ∧
    replies .rdDevIdInc = some ([0x12, 0x05, 0x12, 0x05], 0x100) ∧ replies .rdMode8DevIdInc = some ([0x05, 0x05], 0x100) ∧
    replies .rdSingleInc = some ([0x12, 0x34], 0x100) ∧ replies .rdMode8SingleInc = some ([0x34], 0x100) ∧
    replies .rdDevIdSingleInc = some ([0x12, 0x05], 0x100) ∧ replies .rdMode8DevIdSingleInc = some ([0x05], 0x100) := by
  decide +kernel

/-- The machine with RAM banked in and the peer's cursor at the first word of RAM. -/
def inRam : State :=
  { md with cart := { testCart with ramMode := .banked, cells := [] }, peer := { testPeer with devAddr := 0x100000 } }

/-- What RAM holds and where the peer's cursor is after a frame. -/
def writes (i : Instr) : Option (Memory × WordAddr) := sees (exec i inRam) fun t => (t.cart.cells, t.peer.devAddr)

/-- Words written (R299, R300): RAM keeps the low bytes (R306). DEV_ID makes no difference (R301); MODE8 frames have one byte each. -/
theorem test_frame_wr :
    writes (.wr [1, 2, 3, 4]) = some ([(0x200001, 4)], 0x100000) ∧ writes (.wrMode8 [1, 2]) = some ([(0x200001, 2)], 0x100000) ∧
    writes (.wrDevId [1, 2, 3, 4]) = some ([(0x200001, 4)], 0x100000) ∧
    writes (.wrMode8DevId [1, 2]) = some ([(0x200001, 2)], 0x100000) ∧
    writes (.wrSingle [1, 2]) = some ([(0x200001, 2)], 0x100000) ∧ writes (.wrMode8Single [1]) = some ([(0x200001, 1)], 0x100000) ∧
    writes (.wrDevIdSingle [1, 2]) = some ([(0x200001, 2)], 0x100000) ∧
    writes (.wrMode8DevIdSingle [1]) = some ([(0x200001, 1)], 0x100000) ∧
    writes (.wrInc [1, 2, 3, 4]) = some ([(0x200001, 2), (0x200003, 4)], 0x100002) ∧
    writes (.wrMode8Inc [1, 2]) = some ([(0x200001, 1), (0x200003, 2)], 0x100002) ∧
    writes (.wrDevIdInc [1, 2, 3, 4]) = some ([(0x200001, 2), (0x200003, 4)], 0x100002) ∧
    writes (.wrMode8DevIdInc [1, 2]) = some ([(0x200001, 1), (0x200003, 2)], 0x100002) ∧
    writes (.wrSingleInc [1, 2]) = some ([(0x200001, 2)], 0x100000) ∧
    writes (.wrMode8SingleInc [1]) = some ([(0x200001, 1)], 0x100000) ∧
    writes (.wrDevIdSingleInc [1, 2]) = some ([(0x200001, 2)], 0x100000) ∧
    writes (.wrMode8DevIdSingleInc [1]) = some ([(0x200001, 1)], 0x100000) := by
  decide +kernel

/-- A reserved command byte: UNDEF, and what the cartridge holds is open (R305). -/
theorem test_frame_reserved :
    (∀ i ∈ [Instr.mdReservedOp67 0 0, Instr.mdReservedOp8F 0 0, Instr.mdReservedAddrWithFlags 1, Instr.mdReservedLenWithFlags 1,
      Instr.mdReservedRyWithFlags 1, Instr.mdReservedDelayWithFlags 1],
      sees (exec i md) (fun t => (t.peer.ps, t.cart.cells)) = some (DevPs.undef, [])) := by
  decide +kernel

/-! ### GB packets (tables 2.2 and 2.3) -/

theorem test_packet_control :
    sees (exec .gbAck gb) (fun t => (t.txLog, t.txlen)) = some ([0xAA], 1) ∧
    sees (exec .gbNak gb) (·.txLog) = some [0xF0] ∧ sees (exec .gbEnd gb) (·.txLog) = some [0x0F] := by
  decide +kernel

/-- The trailers of table 2.2; the trailer given is not the one sent (R153). -/
theorem test_packet_data :
    sees (exec (.gbDataConfigRrom 0 zeros 0) gb) (·.txLog.drop 70) = some [0x33, 0x84] ∧
    sees (exec (.gbDataConfigRram 1 zeros 0) gb) (·.txLog) = some (packet [0x55, 0x00, 0x01, 0, 0, 1] zeros [0x71, 0xC0]) ∧
    sees (exec (.gbDataConfigWrom 1 zeros 0) gb) (·.txLog.take 6) = some [0x55, 0x00, 0x02, 0, 0, 1] ∧
    sees (exec (.gbDataConfigWram 1 zeros 0x1234) gb) (·.txLog.drop 70) = some [0x04, 0x2E] ∧
    sees (exec (.gbDataNormalData 0 testFrame 0) gb) (·.txLog.drop 70) = some [0x78, 0x68] ∧
    sees (exec (.gbDataLastData 0x1F zeros 0) gb) (·.txLog.drop 70) = some [0x86, 0xA2] ∧
    sees (exec (.gbDataEraseEfla 0 zeros 0) gb) (·.txLog.drop 70) = some [0x93, 0xAF] ∧
    sees (exec (.gbDataEraseEram 0 zeros 0) gb) (·.txLog.drop 70) = some [0xA9, 0x58] ∧
    sees (exec (.gbDataStatusNreadId 0 zeros 0) gb) (·.txLog) = some v1 ∧
    sees (exec (.gbDataStatusReadId 0 testFrame 0) gb) (·.txLog.drop 70) = some [0xB2, 0xC3] := by
  decide +kernel

/-! ### Steps -/

/-- The requester writes REQ: MD_SEEK to byte address 0x200, then the peer takes the frames, one a step. -/
theorem test_step_request :
    sees (step { md with port := [.writeReq 0x00000000000000000000020000000030] }) (fun t => (t.peer.inbox.length, t.result)) =
      some (6, 0x100) ∧
    sees (step { md with peer := { testPeer with inbox := [0x00, 0x01, 0x00] } }) (fun t => (t.peer.devAddr, t.peer.inbox)) =
      some (0x345601, [0x00]) := by
  decide +kernel

/-- A reset during the transport call of a request (R361). -/
theorem test_step_reset_during_request :
    sees (exec (.mdSeek 0 0x200) { mdState [.accepted 3] [] with env := { answers [.accepted 3] [] with visits := [[.reset]] } })
      (fun t => (t.txLog, t.status, t.done)) = some ([0x00, 0x00, 0x00], 0x0000, false) := by
  decide +kernel

/-- A word of the opcode table runs first after reset. -/
theorem test_step_table_word :
    sees (step (State.reset.withFetchWord 16 0x01)) (fun t => (t.crc, t.done)) = some (0x0000, true) ∧
    sees (step (State.reset.withFetchWord 8 0x06)) (·.peer.ps) = some .undef := by
  decide +kernel


/-! ### Witnesses: states and operands that meet the hypotheses of the statements -/

/-- The transport takes as many writes as the hypothesis asks for. -/
theorem accepts_replicate {n m size k : Nat} (h : n ≤ m) (hk : size ≤ k) : Accepts n size (List.replicate m (.accepted k)) := by
  refine ⟨by simpa using h, fun d hd => ⟨k, ?_, hk⟩⟩
  exact List.eq_of_mem_replicate (List.mem_of_mem_take hd)

/-- Bytes listed from an offset on are read from it. -/
theorem getBytes_cells (a : Nat) (bytes : List Byte) : (Memory.cells a bytes).getBytes a bytes.length = some bytes := by
  rw [Memory.getBytes_eq_some _ _ _ _ ((Memory.wf_iff _).2 (Memory.pairwise_cells _ _))]
  refine ⟨rfl, fun i hi => ?_⟩
  rw [Memory.get_cells]
  simp [hi]

/-- No request runs and the requester stays away. -/
theorem mdState_calm (tx : List TxDraw) (rx : List RxDraw) : (mdState tx rx).Calm := ⟨rfl, rfl⟩

/-- No request runs and the requester stays away. -/
theorem gbState_calm (tx : List TxDraw) (rx : List RxDraw) : (gbState tx rx).Calm := ⟨rfl, rfl⟩

/-- The next state, or the state itself where there is none. -/
def after (o : Host.Outcome State Fault Refusal) (s : State) : State :=
  match o with
  | .next t => t
  | _ => s

/-- Where something is seen of a next state, that next state is `after`. -/
theorem next_after {o : Host.Outcome State Fault Refusal} (s : State) (h : sees o (fun _ => ()) = some ()) : o = .next (after o s) := by
  cases o with
  | next t => rfl
  | fault r => cases h
  | refused r => cases h

/-- The machine with some actions of the requester to come. -/
def acting (port : List PortAction) : State := { md with port := port }

theorem witness_blockResetStep : (acting [.reset, .readReg .status]).peerPending = false ∧ (acting [.reset, .readReg .status]).pktPort = [] ∧
    (acting [.reset, .readReg .status]).port = .reset :: [.readReg .status] := by
  decide +kernel

/-- A requester that reads STATUS, resets the block and reads again, all during one transport call. -/
def resetting : State :=
  { md with env := { answers [.accepted 3] [] with visits := [[.readReg .status, .reset, .readReg .curW]] } }

theorem witness_resetStopsSeek : resetting.busy = false ∧
    resetting.env.visits = ([.readReg .status] ++ .reset :: [.readReg .curW]) :: [] ∧
    PortAction.reset ∉ ([.readReg .status] : List PortAction) ∧
    (∀ r, PortAction.readReg r ∈ ([.readReg .status] : List PortAction) → readRegister r resetting ≠ none) ∧
    ∀ addr ∈ [(0 : Reg32), 0x1FFFFFF], addr.toNat < 2 ^ 25 := by
  refine ⟨rfl, rfl, by decide, fun r h => ?_, fun a h => by rcases List.mem_pair.1 h with rfl | rfl <;> decide⟩
  cases List.mem_singleton.1 h
  simp [readRegister]

/-- The machine while a request runs. -/
def busyState : State := { acting [.writeReq 0x01] with busy := true }

theorem witness_busyIgnoresRequests : busyState.busy = true ∧ isRequest .crcClear = true ∧ isRequest (.mdSeek 0 0) = true ∧
    busyState.peerPending = false ∧ busyState.pktPort = [] ∧ busyState.port = .writeReq 0x01 :: [] := by
  decide +kernel

/-- A requester that writes REQ and reads STATUS during the transport calls of a request. -/
def asking : State :=
  { md with env := { answers [.accepted 6] [] with visits := [[.writeReq 0x01, .readReg .status], [.writeReq 0x01]] } }

theorem witness_busyIgnoresRequests_running : (∀ actions ∈ asking.env.visits, PortAction.reset ∉ actions) ∧
    exec (.mdSeek 0 0) asking = .next (after (exec (.mdSeek 0 0) asking) asking) ∧
    exec (.mdSeek 0 0) asking.withoutReqWrites = .next (after (exec (.mdSeek 0 0) asking) asking).withoutReqWrites :=
  ⟨fun a h => by rcases List.mem_pair.1 h with rfl | rfl <;> decide, rfl, rfl⟩

theorem witness_stepRunsDecoded_request : (acting [.writeReq 0x11]).peerPending = false ∧ (acting [.writeReq 0x11]).pktPort = [] ∧
    (acting [.writeReq 0x11]).port = .writeReq 0x11 :: [] ∧ (acting [.writeReq 0x11]).busy = false ∧
    decodeRequest 0x11 = .ok .pktSend := by
  decide +kernel

theorem witness_stepRunsDecoded_packet : ({ gb with pktPort := [[0xAA]] } : State).peerPending = false ∧
    ({ gb with pktPort := [[0xAA]] } : State).pktPort = [0xAA] :: [] ∧ decodePacket [0xAA] = .ok .gbAck := by
  decide +kernel

/-- The machine with a write frame and the start of another waiting for the peer. -/
def waiting : State := { md with peer := { testPeer with inbox := [0x83, 1, 2, 3, 4, 0x00] } }

theorem witness_stepRunsDecoded_frame : waiting.adapter = .md ∧ waiting.peer.ps = .op ∧
    decodeFrame waiting.peer.devLen waiting.peer.inbox = .ok (.wrInc [1, 2, 3, 4], [0x00]) := by
  decide +kernel

theorem witness_fetchWordRunsFirst : decode md.peer.devLen (tableCode md.peer.devLen 16 0x11) = .ok .pktSend ∧
    decode md.peer.devLen (tableCode md.peer.devLen 8 0x83) = .ok (.wrInc [0, 0, 0, 0]) ∧
    decode md.peer.devLen (tableCode md.peer.devLen 8 0xAA) = .ok .gbAck ∧
    decode md.peer.devLen (tableCode md.peer.devLen 24 0x550100) = .ok (.gbDataNormalData 0 (List.replicate 64 0) 0) := by
  decide +kernel

theorem witness_decodeEncode : Instr.wellFormed (.wrInc [1, 2, 3, 4]) = true ∧
    ∀ n, Instr.bulkUnits (.wrInc [1, 2, 3, 4]) = some n → (2 : Word).toNat = n := by
  refine ⟨by decide, fun n h => ?_⟩
  cases h
  rfl

/-- The longest bulk WR frame. -/
theorem witness_decodeEncode_longest : Instr.wellFormed (.wrMode8 (List.replicate 65535 0)) = true ∧
    ∀ n, Instr.bulkUnits (.wrMode8 (List.replicate 65535 0)) = some n → (0xFFFF : Word).toNat = n := by
  refine ⟨by simp only [Instr.wellFormed, bulkBytes, List.length_replicate]; decide, fun n h => ?_⟩
  simp only [Instr.bulkUnits, List.length_replicate, Option.some.injEq] at h
  rw [← h]
  rfl

theorem witness_decodeIsInverse : decode 0 (.request 0x11) = .ok .pktSend ∧
    decodeFrame 1 [0x83, 1, 2, 0x04] = .ok (.wrInc [1, 2], [0x04]) ∧
    decodePacket (packet [0x55, 1, 0, 0, 0, 1] zeros [0, 1]) = .ok (.gbDataNormalData 1 zeros 1) := by
  decide +kernel

/-- The next codes beside those of R92, RSVD and WHENCE at their ends, and requests that pass. -/
theorem witness_requestWordChecks : ∀ w ∈ [(0x00 : BitVec 128), 0x04, 0x44, 0x0404, 0x0401, 0xFC01, 0x0131, 0x0331, 0x01, 0x0330, 0x43],
    (acting [.writeReq w]).peerPending = false ∧ (acting [.writeReq w]).pktPort = [] ∧
    (acting [.writeReq w]).port = .writeReq w :: [] ∧ (acting [.writeReq w]).busy = false := by
  simp only [List.mem_cons, List.not_mem_nil, or_false, forall_eq_or_imp, forall_eq]
  decide +kernel

theorem witness_crcLaws : v1.take 70 = (v1.set 71 0x00).take 70 ∧ [1, 2, (3 : Byte)].length = [4, 5, (6 : Byte)].length ∧
    v1.length = 72 ∧ v1.getD 2 0 = 0x00 ∧ (∀ i ∈ [0, 69], i < 70) ∧ (∀ b ∈ [0, 7], b < 8) ∧ packetTrailer v1 = packetCrc v1 := by
  simp only [List.mem_cons, List.not_mem_nil, or_false, forall_eq_or_imp, forall_eq]
  decide +kernel

theorem witness_crcRequestsComplete : (withDbuf 199998 [1, 2] md).busy = false ∧ (withDbuf 199998 [1, 2] md).env.visits = [] ∧
    (199998 : Reg32).toNat + (2 : Reg32).toNat ≤ (withDbuf 199998 [1, 2] md).cfg.dbufSize ∧
    (withDbuf 199998 [1, 2] md).dbuf.getBytes (199998 : Reg32).toNat (2 : Reg32).toNat = some [1, 2] ∧
    (withDbuf 199998 [1, 2] md).dbuf.getBytes (200000 : Reg32).toNat (0 : Reg32).toNat = some [] ∧
    (withDbuf 199998 [1, 2] md).cfg.dbufSize < (199999 : Reg32).toNat + (2 : Reg32).toNat ∧
    (withDbuf 199998 [1, 2] md).cfg.dbufSize < (0xFFFFFFFF : Reg32).toNat + (0 : Reg32).toNat := by
  decide +kernel

theorem witness_unwrittenSourceFaults : md.busy = false ∧ md.env.visits = [] ∧
    (∀ len ∈ [(1 : Reg32), 200000], (0 : Reg32).toNat + len.toNat ≤ md.cfg.dbufSize ∧
      md.dbuf.getBytes (0 : Reg32).toNat len.toNat = none) ∧
    validatePacket 0x55 0x04 0x01 = none ∧ (199936 : Reg32).toNat + 64 ≤ md.cfg.dbufSize ∧
    md.dbuf.getBytes (199936 : Reg32).toNat 64 = none ∧
    txPacket { md with txlen := 72 } = none ∧ txPacket { md with txlen := 1 } = none ∧ rxPacket { md with rxlen := 72 } = none := by
  simp only [List.mem_cons, List.not_mem_nil, or_false, forall_eq_or_imp, forall_eq]
  decide +kernel

/-- A session in which the first n bytes of DBUF are written, the transport answering as scripted. -/
def partly (n : Nat) (tx : List TxDraw) (rx : List RxDraw) : State := withDbuf 0 (List.replicate n 0) (gbState tx rx)

/-- Of more bytes than are written, one is not. -/
theorem partly_none (n m : Nat) (tx : List TxDraw) (rx : List RxDraw) (h : n < m) : (partly n tx rx).dbuf.getBytes 0 m = none := by
  cases hb : (partly n tx rx).dbuf.getBytes 0 m with
  | none => rfl
  | some bytes =>
    obtain ⟨hl, hg⟩ := (Memory.getBytes_eq_some _ _ _ _ ((Memory.wf_iff _).2 (Memory.pairwise_cells _ _))).1 hb
    have := hg n h
    rw [Memory.get_cells] at this
    simp [hl, h] at this

/-- The first n bytes are written. -/
theorem partly_some (n j : Nat) (tx : List TxDraw) (rx : List RxDraw) (h : j < n) : (partly n tx rx).dbuf.get (0 + j) ≠ none := by
  show (Memory.cells 0 (List.replicate n 0)).get (0 + j) ≠ none
  rw [Memory.get_cells]
  simp [h]

/-- What every such session meets. -/
theorem partly_meets (n : Nat) (tx : List TxDraw) (rx : List RxDraw) : (partly n tx rx).Calm ∧ (partly n tx rx).adapter = .gb ∧
    (partly n tx rx).dbuf.wf = true ∧ (partly n tx rx).cfg.dbufSize = 200000 ∧ (partly n tx rx).env.tx = tx ∧
    (partly n tx rx).env.rx = rx :=
  ⟨⟨rfl, rfl⟩, rfl, (Memory.wf_iff _).2 (Memory.pairwise_cells _ _), rfl, rfl, rfl⟩

/-- The stream of MD_WRITE is taken whole; or it ends at the unwritten byte, or before, in one chunk and in two. -/
theorem witness_unwrittenSourceFaults_mdWrite (k : Nat) : ∀ a ∈ [((4 : Reg32), 3), (65538, 65537), (65536, 65535)],
    (partly a.2 [.accepted k] []).Calm ∧ (partly a.2 [.accepted k] []).dbuf.wf = true ∧ a.1.toNat % 2 = 0 ∧
    (0 : Reg32).toNat + a.1.toNat ≤ 200000 ∧ (partly a.2 [.accepted k] []).cfg.dbufSize = 200000 ∧
    (partly a.2 [.accepted k] []).dbuf.getBytes (0 : Reg32).toNat a.1.toNat = none ∧
    (partly a.2 [.accepted k] []).env.tx = .accepted k :: [] ∧
    ∀ j < a.2, (partly a.2 [.accepted k] []).dbuf.get ((0 : Reg32).toNat + j) ≠ none := by
  intro a ha
  have h : a.1.toNat % 2 = 0 ∧ (0 : Reg32).toNat + a.1.toNat ≤ 200000 ∧ a.2 < a.1.toNat := by
    simp only [List.mem_cons, List.not_mem_nil, or_false] at ha
    rcases ha with rfl | rfl | rfl <;> decide
  obtain ⟨h1, -, h3, h4, h5, -⟩ := partly_meets a.2 [.accepted k] []
  exact ⟨h1, h3, h.1, h.2.1, h4, partly_none _ _ _ _ h.2.2, h5, fun j hj => partly_some _ _ _ _ hj⟩

/-- The bytes of those streams that lie before the unwritten one. -/
theorem witness_unwrittenSourceFaults_mdWrite_sent :
    (8 < 5 * ((4 + 65535) / 65536) + 4 ∧ ∀ j < 4, 5 * (j / 65536 + 1) + j < 8 → j < 3) ∧
    (65547 < 5 * ((65538 + 65535) / 65536) + 65538 ∧ ∀ j < 65538, 5 * (j / 65536 + 1) + j < 65547 → j < 65537) ∧
    (65540 < 5 * ((65536 + 65535) / 65536) + 65536 ∧ ∀ j < 65536, 5 * (j / 65536 + 1) + j < 65540 → j < 65535) := by
  refine ⟨⟨by decide, fun j _ _ => ?_⟩, ⟨by decide, fun j _ _ => ?_⟩, ⟨by decide, fun j _ _ => ?_⟩⟩ <;> omega

/-- MD_FLASH_WRITE of two words of which the last byte is unwritten: the second write ends before it, in both poll forms. -/
theorem witness_unwrittenSourceFaults_flash_short : (4 : Reg32).toNat % 2 = 0 ∧ (0 : Reg32).toNat + (4 : Reg32).toNat ≤ 200000 ∧
    1 < (4 : Reg32).toNat / 2 ∧ Accepts 1 12 (partly 3 [.accepted 12, .accepted 9] [.got [0, 0]]).env.tx ∧
    (partly 3 [.accepted 12, .accepted 9] [.got [0, 0]]).env.tx[1]? = some (.accepted 9) ∧ 9 < 12 ∧
    (partly 3 [.accepted 12, .accepted 9] [.got [0, 0]]).env.rx = [[(0 : Byte), 0]].map .got ++ [] ∧
    (∀ j < (4 : Reg32).toNat, 12 * (j / 2) + 8 + j % 2 < 12 * 1 + 9 →
      (partly 3 [.accepted 12, .accepted 9] [.got [0, 0]]).dbuf.get ((0 : Reg32).toNat + j) ≠ none) := by
  refine ⟨by decide, by decide, by decide, ⟨by decide, fun d hd => ⟨12, List.mem_singleton.1 hd, Nat.le_refl _⟩⟩, rfl, by decide, rfl,
    fun j _ hk => partly_some _ _ _ _ (by omega)⟩

theorem witness_unwrittenSourceFaults_flash_ryOnly (k : Nat) :
    let s : State := { partly 3 [.accepted k] [] with cfg := { testCfg with readyPoll := .ryOnly } }
    s.Calm ∧ s.cfg.readyPoll = .ryOnly ∧ s.dbuf.wf = true ∧ s.dbuf.getBytes (0 : Reg32).toNat (4 : Reg32).toNat = none ∧
    s.env.tx = .accepted k :: [] ∧ 11 * ((4 : Reg32).toNat / 2) ≤ 22 ∧ 20 < 11 * ((4 : Reg32).toNat / 2) ∧
    (∀ j < (4 : Reg32).toNat, 11 * (j / 2) + 8 + j % 2 < 20 → s.dbuf.get ((0 : Reg32).toNat + j) ≠ none) := by
  obtain ⟨h1, -, h3, -, h5, -⟩ := partly_meets 3 [.accepted k] []
  exact ⟨h1, rfl, h3, partly_none 3 4 [.accepted k] [] (by decide), h5, by decide, by decide,
    fun j _ hk => partly_some 3 j [.accepted k] [] (by omega)⟩

theorem witness_unwrittenSourceFaults_flash : (partly 3 [.accepted 12, .accepted 12] [.got [0, 0], .got [0, 0]]).Calm ∧
    (partly 3 [.accepted 12, .accepted 12] [.got [0, 0], .got [0, 0]]).adapter = .gb ∧
    (partly 3 [.accepted 12, .accepted 12] [.got [0, 0], .got [0, 0]]).cfg.readyPoll = .ryThenRdSingle ∧
    (partly 3 [.accepted 12, .accepted 12] [.got [0, 0], .got [0, 0]]).dbuf.wf = true ∧
    (partly 3 [.accepted 12, .accepted 12] [.got [0, 0], .got [0, 0]]).dbuf.getBytes (0 : Reg32).toNat (4 : Reg32).toNat = none ∧
    Accepts ((4 : Reg32).toNat / 2) 12 (partly 3 [.accepted 12, .accepted 12] [.got [0, 0], .got [0, 0]]).env.tx ∧
    [[(0 : Byte), 0], [0, 0]].length = (4 : Reg32).toNat / 2 ∧ (∀ r ∈ [[(0 : Byte), 0], [0, 0]], r.length = 2) ∧
    (partly 3 [.accepted 12, .accepted 12] [.got [0, 0], .got [0, 0]]).env.rx = [[(0 : Byte), 0], [0, 0]].map .got ++ [] :=
  ⟨⟨rfl, rfl⟩, rfl, rfl, by decide, by decide, accepts_replicate (n := 2) (m := 2) (Nat.le_refl _) (Nat.le_refl _), rfl, by decide, rfl⟩

/-- An adapter that would acknowledge a whole transfer, DBUF empty. -/
def ackingNothing : State := partly 0 (List.replicate 33 (.accepted 72)) (List.replicate 33 (.got [0xAA]))

theorem witness_unwrittenSourceFaults_gb : ackingNothing.Calm ∧ ackingNothing.adapter = .gb ∧ ackingNothing.dbuf.wf = true ∧
    transferLength (2048 : Reg32).toNat ∧ (0 : Reg32).toNat + (2048 : Reg32).toNat ≤ ackingNothing.cfg.dbufSize ∧
    ackingNothing.dbuf.getBytes (0 : Reg32).toNat (2048 : Reg32).toNat = none ∧
    Accepts ((2048 : Reg32).toNat / 64 + 1) 72 ackingNothing.env.tx ∧
    ackingNothing.env.rx = List.replicate ((2048 : Reg32).toNat / 64 + 1) (.got [0xAA]) ++ [] :=
  ⟨⟨rfl, rfl⟩, rfl, rfl, .inl rfl, by show 0 + 2048 ≤ 200000; decide, rfl, accepts_replicate (Nat.le_refl _) (Nat.le_refl _), rfl⟩

theorem witness_unwrittenSourceFaults_stop : exec (.crcBlock 0 1) md = .fault .unwrittenByte ∧
    exec .pktSend { md with txlen := 72 } = .fault .unwrittenByte ∧ exec .pktCheck { md with rxlen := 72 } = .fault .unwrittenByte :=
  ⟨rfl, rfl, rfl⟩

/-- A byte for each check of R152 at its boundary, the DBUF check, and operands that pass. -/
theorem witness_pktBuildMeaning : (withDbuf 199936 zeros gb).busy = false ∧ (withDbuf 199936 zeros gb).env.visits = [] ∧
    ((0x54 : Byte) ≠ 0xAA ∧ (0x54 : Byte) ≠ 0xF0 ∧ (0x54 : Byte) ≠ 0x0F ∧ (0x54 : Byte) ≠ 0x55) ∧ 4 < (5 : Byte).toNat ∧
    [4, 1, 1, 2, 2].getD (0 : Byte).toNat 0 ≤ (4 : Byte).toNat ∧ [4, 1, 1, 2, 2].getD (4 : Byte).toNat 0 ≤ (2 : Byte).toNat ∧
    ¬[4, 1, 1, 2, 2].getD (0 : Byte).toNat 0 ≤ (3 : Byte).toNat ∧
    (withDbuf 199936 zeros gb).cfg.dbufSize < (199937 : Reg32).toNat + 64 ∧
    (withDbuf 199936 zeros gb).dbuf.getBytes (199936 : Reg32).toNat 64 = some zeros := by
  decide +kernel

/-- A GB session with a DATA packet built, the transport answering as scripted. -/
def built (tx : List TxDraw) (rx : List RxDraw) : State :=
  { gbState tx rx with txpkt := Memory.cells 0 (v1.set 70 0), txlen := 72 }

theorem witness_pktSendMeaning : gb.busy = false ∧ gb.txlen = 0 ∧ (built [.accepted 72] []).Calm ∧ (built [.accepted 72] []).txlen = 72 ∧
    (built [.accepted 72] []).txpkt.getBytes 0 72 = some (v1.set 70 0) ∧ (built [.accepted 72] []).env.tx = .accepted 72 :: [] := by
  refine ⟨rfl, rfl, ⟨rfl, rfl⟩, rfl, ?_, rfl⟩
  decide +kernel

theorem witness_pktSendMeaning_control : ({ gbState [.accepted 1] [] with txpkt := [(0, 0xAA)], txlen := 1 } : State).Calm ∧
    ({ gbState [.accepted 1] [] with txpkt := [(0, 0xAA)], txlen := 1 } : State).txlen = 1 ∧
    ({ gbState [.accepted 1] [] with txpkt := [(0, 0xAA)], txlen := 1 } : State).txpkt.getBytes 0 1 = some [0xAA] ∧
    ({ gbState [.accepted 1] [] with txpkt := [(0, 0xAA)], txlen := 1 } : State).env.tx = .accepted 1 :: [] :=
  ⟨⟨rfl, rfl⟩, rfl, rfl, rfl⟩

theorem witness_framerTransportErrors_send (d : TxDraw) : (built [d] []).Calm ∧ (built [d] []).txlen = 72 ∧
    (built [d] []).txpkt.getBytes 0 72 = some (v1.set 70 0) ∧ (built [d] []).env.tx = d :: [] ∧ 0 < 72 ∧ 71 < 72 := by
  refine ⟨⟨rfl, rfl⟩, rfl, ?_, rfl, by omega, by omega⟩
  show (Memory.cells 0 (v1.set 70 0)).getBytes 0 72 = some (v1.set 70 0)
  decide +kernel

theorem witness_framerTransportErrors_control (d : TxDraw) :
    ({ gbState [d] [] with txpkt := [(0, 0xAA)], txlen := 1 } : State).Calm ∧
    ({ gbState [d] [] with txpkt := [(0, 0xAA)], txlen := 1 } : State).txlen = 1 ∧
    ({ gbState [d] [] with txpkt := [(0, 0xAA)], txlen := 1 } : State).txpkt.getBytes 0 1 = some [0xAA] ∧
    ({ gbState [d] [] with txpkt := [(0, 0xAA)], txlen := 1 } : State).env.tx = d :: [] ∧ 0 < 1 :=
  ⟨⟨rfl, rfl⟩, rfl, rfl, rfl, by decide⟩

theorem witness_framerTransportErrors_first (d : RxDraw) : (gbState [] [d]).Calm ∧ (gbState [] [d]).adapter = .gb ∧
    (gbState [] [d]).env.rx = d :: [] :=
  ⟨⟨rfl, rfl⟩, rfl, rfl⟩

theorem witness_framerTransportErrors_rest (d : RxDraw) : (gbState [] [.got [0x55], d]).Calm ∧ (gbState [] [.got [0x55], d]).adapter = .gb ∧
    (gbState [] [.got [0x55], d]).env.rx = .got (0x55 :: []) :: d :: [] ∧ ([] : List Byte).length < 71 ∧
    (List.replicate 70 (0 : Byte)).length < 71 :=
  ⟨⟨rfl, rfl⟩, rfl, rfl, by decide, by decide⟩

theorem witness_pktReceiveCompletes (c : Byte) : (gbState [] [.got [c]]).Calm ∧ (gbState [] [.got [c]]).adapter = .gb ∧
    (gbState [] [.got [c]]).env.rx = .got (c :: []) :: [] ∧ (∀ c ∈ [(0x00 : Byte), 0x54, 0x56, 0xFF], c ≠ 0x55) :=
  ⟨⟨rfl, rfl⟩, rfl, rfl, by decide⟩

theorem witness_pktReceiveCompletes_data : (gbState [] (inTwo v1)).Calm ∧ (gbState [] (inTwo v1)).adapter = .gb ∧
    (gbState [] (inTwo v1)).env.rx = .got (0x55 :: []) :: .got (v1.drop 1) :: [] ∧ (v1.drop 1).length = 71 :=
  ⟨⟨rfl, rfl⟩, rfl, rfl, rfl⟩

/-- A GB session with 72 received bytes. -/
def holding (p : List Byte) : State := { gb with rxpkt := Memory.cells 0 p, rxlen := 72 }

theorem witness_pktCheckVerdicts : gb.busy = false ∧ gb.rxlen ≠ 72 ∧ ∀ p ∈ [v1, v1.set 71 0xC0, v1.set 0 0xD5],
    (holding p).busy = false ∧ (holding p).rxlen = 72 ∧ (holding p).rxpkt.getBytes 0 72 = some p := by
  simp only [List.mem_cons, List.not_mem_nil, or_false, forall_eq_or_imp, forall_eq]
  decide +kernel

theorem witness_sendReceiveCheckRoundTrip : (built [.accepted 72] []).Calm ∧ (built [.accepted 72] []).adapter = .gb ∧
    (built [.accepted 72] []).txlen = 72 ∧ (built [.accepted 72] []).txpkt.getBytes 0 72 = some (v1.set 70 0) ∧
    (v1.set 70 0).getD 0 0 = 0x55 ∧ (built [.accepted 72] []).env.tx = .accepted 72 :: [] := by
  refine ⟨⟨rfl, rfl⟩, rfl, rfl, ?_, rfl, rfl⟩
  decide +kernel

/-- The first and the last bit of bytes 0 to 69. -/
theorem witness_singleBitCorruptionDetected : v1.length = 72 ∧ v1.getD 0 0 = 0x55 ∧ packetCrc v1 = packetTrailer v1 ∧
    ∀ ib ∈ [(0, 7), (1, 0), (69, 0), (69, 7)], ib.1 < 70 ∧ ib.2 < 8 ∧
      (holding (v1.set ib.1 (v1.getD ib.1 0 ^^^ ((1 : Byte) <<< ib.2)))).busy = false ∧
      (holding (v1.set ib.1 (v1.getD ib.1 0 ^^^ ((1 : Byte) <<< ib.2)))).rxlen = 72 ∧
      (holding (v1.set ib.1 (v1.getD ib.1 0 ^^^ ((1 : Byte) <<< ib.2)))).rxpkt.getBytes 0 72 =
        some (v1.set ib.1 (v1.getD ib.1 0 ^^^ ((1 : Byte) <<< ib.2))) := by
  simp only [List.mem_cons, List.not_mem_nil, or_false, forall_eq_or_imp, forall_eq]
  decide +kernel

/-- A machine with a packet built, another received and some bytes in DBUF. -/
def full : State := withDbuf 199936 testFrame { holding v1 with txpkt := Memory.cells 0 v1, txlen := 72 }

theorem witness_packetRequestsNeverFault : full.StoresOk ∧ full.TxOk ∧ full.RxOk ∧ full.ReadsWritten := by
  refine ⟨?_, .inr (.inr ⟨rfl, v1, ?_, rfl⟩), .inr (.inr ⟨rfl, v1, ?_, rfl⟩), fun a h => by cases h⟩
  · unfold State.StoresOk
    decide +kernel
  · decide +kernel
  · decide +kernel

theorem witness_gbTransferChecks : gb.busy = false ∧ gb.env.visits = [] ∧
    (∀ len ∈ [(0 : Reg32), 2047, 2049, 6144], ¬transferLength len.toNat) ∧
    (∀ len ∈ [(2048 : Reg32), 8192], transferLength len.toNat) ∧
    gb.cfg.dbufSize < (197953 : Reg32).toNat + (2048 : Reg32).toNat ∧
    ¬gb.cfg.dbufSize < (197952 : Reg32).toNat + (2048 : Reg32).toNat := by
  simp only [List.mem_cons, List.not_mem_nil, or_false, forall_eq_or_imp, forall_eq]
  decide +kernel

/-- A GB session in which DBUF holds zeros from an offset on. -/
def sending (off n : Nat) (tx : List TxDraw) (rx : List RxDraw) : State := withDbuf off (List.replicate n 0) (gbState tx rx)

theorem sending_data (off n : Nat) (tx : List TxDraw) (rx : List RxDraw) :
    (sending off n tx rx).dbuf.getBytes off n = some (List.replicate n 0) := by
  have h := getBytes_cells off (List.replicate n 0)
  rwa [List.length_replicate] at h

theorem witness_gbTransferChecks_write :
    (sending 0 2048 [] []).dbuf.getBytes (0 : Reg32).toNat (2048 : Reg32).toNat = some (List.replicate 2048 0) :=
  sending_data 0 2048 [] []

/-- An adapter that sends n packets of a paged read with frames of zeros, LAST_DATA as given, and then something more; the transport takes
`writes` packets. -/
def serving (last : Nat → Bool) (writes n : Nat) (more : List RxDraw) : State :=
  gbState (List.replicate writes (.accepted 72)) (packetReplies testCfg.indexLayout last n (List.replicate n zeros) ++ more)

/-- What every such session meets. -/
theorem serving_meets (last : Nat → Bool) (writes n m : Nat) (more : List RxDraw) (h : m ≤ writes) :
    (serving last writes n more).Calm ∧ (serving last writes n more).adapter = .gb ∧
    (serving last writes n more).cfg.dbufSize = 200000 ∧ (List.replicate n zeros).length = n ∧
    (∀ f ∈ List.replicate n zeros, f.length = 64) ∧ Accepts m 72 (serving last writes n more).env.tx ∧
    (serving last writes n more).env.rx =
      packetReplies (serving last writes n more).cfg.indexLayout last n (List.replicate n zeros) ++ more := by
  refine ⟨⟨rfl, rfl⟩, rfl, rfl, List.length_replicate, fun f hf => ?_, accepts_replicate h (Nat.le_refl _), rfl⟩
  rw [List.eq_of_mem_replicate hf]
  rfl

/-- The shortest and the next transfer, at the end of DBUF. -/
theorem transfer_lengths : ∀ a ∈ [((197952 : Reg32), (2048 : Reg32)), (191808, 8192)],
    transferLength a.2.toNat ∧ a.2.toNat ≤ 2 ^ 29 ∧ a.1.toNat + a.2.toNat ≤ 200000 := by
  intro a ha
  rcases List.mem_pair.1 ha with rfl | rfl <;> decide

/-- A read ended by LAST_DATA, the only one, or every packet being one. -/
theorem witness_gbReadRamCompletes (n : Nat) (rxs : List RxDraw) (h : 0 < n) :
    ∀ last ∈ [(fun k => decide (k + 1 = n) : Nat → Bool), fun _ => true], last (n - 1) = true ∧
    (serving last n n rxs).Calm ∧ (serving last n n rxs).adapter = .gb ∧
    (serving last n n rxs).cfg.dbufSize = 200000 ∧ (List.replicate n zeros).length = n ∧
    (∀ f ∈ List.replicate n zeros, f.length = 64) ∧ Accepts n 72 (serving last n n rxs).env.tx ∧
    (serving last n n rxs).env.rx = packetReplies (serving last n n rxs).cfg.indexLayout last n (List.replicate n zeros) ++ rxs := by
  intro last hl
  refine ⟨?_, serving_meets last n n n rxs (Nat.le_refl _)⟩
  rcases List.mem_pair.1 hl with rfl | rfl
  · simp only [decide_eq_true_eq]
    omega
  · rfl

/-- A read ended by END, every packet but the last being LAST_DATA. -/
theorem witness_gbReadRamCompletes_end (n : Nat) (h : 0 < n) :
    let last : Nat → Bool := fun k => decide (k + 1 ≠ n)
    last (n - 1) = false ∧ (serving last (n + 1) n [.got [0x0F]]).Calm ∧
    (serving last (n + 1) n [.got [0x0F]]).adapter = .gb ∧ (serving last (n + 1) n [.got [0x0F]]).cfg.dbufSize = 200000 ∧
    (List.replicate n zeros).length = n ∧ (∀ f ∈ List.replicate n zeros, f.length = 64) ∧
    Accepts (n + 1) 72 (serving last (n + 1) n [.got [0x0F]]).env.tx ∧ (serving last (n + 1) n [.got [0x0F]]).env.rx =
      packetReplies (serving last (n + 1) n [.got [0x0F]]).cfg.indexLayout last n (List.replicate n zeros) ++
        .got (0x0F :: []) :: [] := by
  refine ⟨?_, serving_meets _ (n + 1) n (n + 1) _ (Nat.le_refl _)⟩
  simp only [decide_eq_false_iff_not]
  omega

/-- An adapter that acknowledges n packets. -/
def acking (off n : Nat) : State :=
  sending off n (List.replicate (n / 64 + 1) (.accepted 72)) (List.replicate (n / 64 + 1) (.got [0xAA]))

theorem witness_gbWriteRamCompletes : ∀ a ∈ [((197952 : Reg32), (2048 : Reg32)), (191808, 8192)],
    (acking a.1.toNat a.2.toNat).Calm ∧ (acking a.1.toNat a.2.toNat).adapter = .gb ∧ transferLength a.2.toNat ∧
    a.1.toNat + a.2.toNat ≤ (acking a.1.toNat a.2.toNat).cfg.dbufSize ∧
    (acking a.1.toNat a.2.toNat).dbuf.getBytes a.1.toNat a.2.toNat = some (List.replicate a.2.toNat 0) ∧
    Accepts (a.2.toNat / 64 + 1) 72 (acking a.1.toNat a.2.toNat).env.tx ∧
    (acking a.1.toNat a.2.toNat).env.rx = List.replicate (a.2.toNat / 64 + 1) (.got [0xAA]) ++ [] ∧
    (0 : Reg32).toNat + a.2.toNat ≤ (acking a.1.toNat a.2.toNat).cfg.dbufSize ∧ a.2.toNat ≤ 2 ^ 29 ∧
    Accepts (a.2.toNat / 64) 72 (List.replicate (a.2.toNat / 64) (.accepted 72)) := by
  intro a ha
  obtain ⟨h1, h2, h3⟩ := transfer_lengths a ha
  refine ⟨⟨rfl, rfl⟩, rfl, h1, h3, sending_data _ _ _ _, accepts_replicate (Nat.le_refl _) (Nat.le_refl _), (List.append_nil _).symm,
    ?_, h2, accepts_replicate (Nat.le_refl _) (Nat.le_refl _)⟩
  show (0 : Reg32).toNat + a.2.toNat ≤ 200000
  have : (0 : Reg32).toNat = 0 := rfl
  omega

theorem witness_indexRoundTrip : 65535 < 65536 ∧ 127 < 128 ∧ 0 < 65536 ∧ 0 < 128 := by decide

/-- The adapter answers the header with something. -/
def answering (rx : List RxDraw) : State := sending 0 2048 [.accepted 72] rx

/-- A read of 2048 bytes of which m packets come before the reply that ends it, LAST_DATA where that does not fill the buffer. -/
theorem witness_gbReplyErrors_read (more : List RxDraw) : ∀ m ∈ [0, 5, 32],
    let last : Nat → Bool := fun k => decide (k + 1 ≠ 32)
    (∀ k, k + 1 = (2048 : Reg32).toNat / 64 → last k = false) ∧
    (serving last 33 m more).Calm ∧ (serving last 33 m more).adapter = .gb ∧
    transferLength (2048 : Reg32).toNat ∧ (2048 : Reg32).toNat ≤ 2 ^ 29 ∧
    (0 : Reg32).toNat + (2048 : Reg32).toNat ≤ (serving last 33 m more).cfg.dbufSize ∧ m ≤ (2048 : Reg32).toNat / 64 ∧
    (List.replicate m zeros).length = m ∧ (∀ f ∈ List.replicate m zeros, f.length = 64) ∧
    Accepts (m + 1) 72 (serving last 33 m more).env.tx ∧ (serving last 33 m more).env.rx =
      packetReplies (serving last 33 m more).cfg.indexLayout last m (List.replicate m zeros) ++ more := by
  intro m hm last
  have hm : m ≤ 32 := by
    simp only [List.mem_cons, List.not_mem_nil, or_false] at hm
    omega
  have hl : ∀ k, k + 1 = (2048 : Reg32).toNat / 64 → last k = false := by
    intro k hk
    have : (2048 : Reg32).toNat / 64 = 32 := rfl
    simp only [last, decide_eq_false_iff_not]
    omega
  obtain ⟨h1, h2, -, h4, h5, h6, h7⟩ := serving_meets last 33 m (m + 1) more (by omega)
  exact ⟨hl, h1, h2, .inl rfl, by decide, by show 0 + 2048 ≤ 200000; decide, hm, h4, h5, h6, h7⟩

/-- A write of 2048 bytes of which m packets, the header among them, are acknowledged before the reply that ends it. -/
theorem witness_gbReplyErrors_write (more : List RxDraw) (m : Nat) (h : m ≤ 32) :
    let s := sending 0 (64 * m) (List.replicate (m + 1) (.accepted 72)) (List.replicate m (.got [0xAA]) ++ more)
    s.Calm ∧ s.adapter = .gb ∧ transferLength (2048 : Reg32).toNat ∧ (0 : Reg32).toNat + (2048 : Reg32).toNat ≤ s.cfg.dbufSize ∧
    m ≤ (2048 : Reg32).toNat / 64 ∧ s.dbuf.getBytes (0 : Reg32).toNat (64 * m) = some (List.replicate (64 * m) 0) ∧
    Accepts (m + 1) 72 s.env.tx ∧ s.env.rx = List.replicate m (.got [0xAA]) ++ more :=
  ⟨⟨rfl, rfl⟩, rfl, .inl rfl, by show 0 + 2048 ≤ 200000; decide, h, sending_data 0 _ _ _, accepts_replicate (Nat.le_refl _) (Nat.le_refl _),
    rfl⟩

/-- The replies of the clauses: a control byte, a wrong CRC, a wrong command, a wrong index, and one packet too many. -/
theorem witness_gbReplyErrors_replies : (0xF0 : Byte) ≠ 0x55 ∧ (0xF0 : Byte) ≠ 0xAA ∧ (0x0F : Byte) ≠ 0x55 ∧
    ¬((0x0F : Byte) = 0x0F ∧ 64 * 5 = (2048 : Reg32).toNat) ∧ ¬((0xAA : Byte) = 0x0F ∧ 64 * 32 = (2048 : Reg32).toNat) ∧
    (∀ p ∈ [v1.set 71 0, packet [0x55, 0, 0, 0, 0, 0] zeros [0x33, 0x84], packet [0x55, 1, 0, 0, 0, 1] zeros [0x2B, 0x2E],
      transferPacket .page16Packet8 33 32 zeros], (p.drop 1).length = 71 ∧ p = 0x55 :: p.drop 1) ∧
    packetCrc (v1.set 71 0) ≠ packetTrailer (v1.set 71 0) ∧
    (∀ p ∈ [packet [0x55, 0, 0, 0, 0, 0] zeros [0x33, 0x84], packet [0x55, 1, 0, 0, 0, 1] zeros [0x2B, 0x2E],
      transferPacket .page16Packet8 33 32 zeros], packetCrc p = packetTrailer p) ∧
    packetIdx .page16Packet8 (packet [0x55, 1, 0, 0, 0, 1] zeros [0x2B, 0x2E]) ≠ 0 % 128 ∧
    ((transferPacket .page16Packet8 33 32 zeros).getD 1 0 = 0x02 ∧
      packetIdx .page16Packet8 (transferPacket .page16Packet8 33 32 zeros) = 32 % 128 ∧
      pageIdx .page16Packet8 (transferPacket .page16Packet8 33 32 zeros) = 32 / 128 ∧ 64 * 32 = (2048 : Reg32).toNat) := by
  simp only [List.mem_cons, List.not_mem_nil, or_false, forall_eq_or_imp, forall_eq]
  decide +kernel

theorem witness_statusQueries (rx : List RxDraw) : ((0 : Byte), Instr.gbReadDeviceStatus 199936) ∈
      [((0 : Byte), Instr.gbReadDeviceStatus 199936), ((1 : Byte), Instr.gbReadStatus 199936)] ∧
    ((1 : Byte), Instr.gbReadStatus 199936) ∈ [((0 : Byte), Instr.gbReadDeviceStatus 199936), ((1 : Byte), Instr.gbReadStatus 199936)] ∧
    (answering rx).Calm ∧ (answering rx).adapter = .gb ∧ (199936 : Reg32).toNat + 64 ≤ (answering rx).cfg.dbufSize ∧
    (answering rx).cfg.dbufSize < (199937 : Reg32).toNat + 64 ∧ (answering rx).env.tx = .accepted 72 :: [] ∧
    (answering rx).env.rx = rx ∧ (v1.drop 1).length = 71 ∧ (0xAA : Byte) ≠ 0x55 :=
  ⟨by decide, by decide, ⟨rfl, rfl⟩, rfl, by show 199936 + 64 ≤ 200000; decide, by show 200000 < 199937 + 64; decide, rfl, rfl, rfl, by decide⟩

theorem witness_mdSeekMeaning (d : TxDraw) : (mdState [d] []).busy = false ∧ (mdState [d] []).env.visits = [] ∧
    (mdState [d] []).env.tx = d :: [] ∧ ¬2 ^ 25 ≤ (0x1FFFFFF : Reg32).toNat ∧ 2 ^ 25 ≤ (0x2000000 : Reg32).toNat ∧
    (0 : BitVec 2) ≠ 3 ∧ (0 : BitVec 2) ≠ 1 ∧ (0 : BitVec 2) ≠ 2 ∧ 6 ≤ 6 ∧ ¬6 ≤ 5 :=
  ⟨rfl, rfl, rfl, by decide, by decide, by decide, by decide, by decide, by decide, by decide⟩

theorem witness_mdWordWrites : (mdState [.accepted 9] []).busy = false ∧ (mdState [.accepted 9] []).env.visits = [] ∧
    (mdState [.accepted 9] []).env.tx = .accepted 9 :: [] ∧ ¬2 ^ 25 ≤ (0x1FFFFFF : Reg32).toNat ∧ 2 ^ 25 ≤ (0x2000000 : Reg32).toNat :=
  ⟨rfl, rfl, rfl, by decide, by decide⟩

theorem witness_mdFixedSequences : (mdState [.accepted 11] []).Calm ∧ (mdState [.accepted 11] []).env.tx = .accepted 11 :: [] ∧
    (mdState [.accepted 27] []).Calm ∧ (mdState [.accepted 27] []).env.tx = .accepted 27 :: [] ∧
    9 * (([(0xAAA, 0x00AA), (0x554, 0x0055)] : List (Nat × Word)).length + 1) ≤ 27 ∧
    (mdState [.accepted 27] []).cfg.unlockBypassSeq = [(0xAAA, 0x00AA), (0x554, 0x0055)] ++ [(0xAAA, 0x0020)] ∧
    9 * (([(0x000, 0x0090)] : List (Nat × Word)).length + 1) ≤ 27 ∧
    (mdState [.accepted 27] []).cfg.resetBypassSeq = [(0x000, 0x0090)] ++ [(0x000, 0x0000)] :=
  ⟨⟨rfl, rfl⟩, rfl, ⟨rfl, rfl⟩, rfl, by decide, rfl, by decide, rfl⟩

theorem witness_mdWordReplies : (gbState [.accepted 7] [.got [0x12, 0x05]]).Calm ∧ (gbState [.accepted 7] [.got [0x12, 0x05]]).adapter = .gb ∧
    (gbState [.accepted 7] [.got [0x12, 0x05]]).env.tx = .accepted 7 :: [] ∧
    (gbState [.accepted 7] [.got [0x12, 0x05]]).env.rx = .got (0x12 :: 0x05 :: []) :: [] ∧
    2 ^ 25 ≤ (0x2000000 : Reg32).toNat ∧ (0x1FFFFFF : Reg32).toNat < 2 ^ 25 :=
  ⟨⟨rfl, rfl⟩, rfl, rfl, rfl, by decide, by decide⟩

/-- The MD adapter in step with the block, about to answer one read, its next identity reply as given. -/
def inStep (r : IdReply) : State :=
  { mdState [.accepted 7] [.got [0, 0, 0, 0]] with peer := { testPeer with devAddr := 0x100, idReply := r } }

theorem witness_peerReplies (r : IdReply) : (inStep r).Calm ∧ (inStep r).InStep ∧ (inStep r).env.tx = .accepted 7 :: [] ∧
    (inStep r).env.rx = .got [0, 0, 0, 0] :: [] ∧ 2 ≤ [(0 : Byte), 0, 0, 0].length ∧ (0x201 : Reg32).toNat < 2 ^ 25 ∧
    (inStep r).cart.known ((0x201 : Reg32).toNat / 2) = (some 0x12, some 0x34) ∧ (inStep r).peer.idReply = r :=
  ⟨⟨rfl, rfl⟩, ⟨rfl, rfl, rfl, rfl, rfl, rfl⟩, rfl, rfl, by decide, by decide, rfl, rfl⟩

/-- The words of P1 read into the end of DBUF. -/
theorem witness_peerReplies_read (r : IdReply) : (4 : Reg32).toNat % 2 = 0 ∧ 0 < (4 : Reg32).toNat ∧ (4 : Reg32).toNat ≤ 65536 ∧
    (4 : Reg32).toNat ≤ [(0 : Byte), 0, 0, 0].length ∧ (199996 : Reg32).toNat + (4 : Reg32).toNat ≤ (inStep r).cfg.dbufSize ∧
    (inStep r).cfg.readSideEffects = .none ∧
    ∀ i < (4 : Reg32).toNat / 2, (inStep r).cart.known ((inStep r).peer.devAddr + BitVec.ofNat 24 i).toNat =
      (some ([0x12, 0x56].getD i 0), some ([0x34, 0x78].getD i 0)) := by
  refine ⟨by decide, by decide, by decide, by decide, by show 199996 + 4 ≤ 200000; decide, rfl, fun i hi => ?_⟩
  have hi : i = 0 ∨ i = 1 := by
    have : (4 : Reg32).toNat / 2 = 2 := by decide
    omega
  rcases hi with rfl | rfl <;> rfl

/-- A session in which the id comes as given, once and again, and Reopen succeeds or not. -/
def idState (b0 b1 c0 c1 : Byte) (ok : Bool) : State :=
  { gbState [.accepted 1, .accepted 1, .accepted 2] [.got [b0, b1], .got [c0, c1]] with
    env := { answers [.accepted 1, .accepted 1, .accepted 2] [.got [b0, b1], .got [c0, c1]] with reopen := [ok] } }

theorem witness_mdHandshakePaths (b0 b1 c0 c1 : Byte) (ok : Bool) : (idState b0 b1 c0 c1 ok).Calm ∧
    (idState b0 b1 c0 c1 ok).adapter = .gb ∧
    (idState b0 b1 c0 c1 ok).env.tx = .accepted 1 :: .accepted 1 :: .accepted 2 :: [] ∧
    (idState b0 b1 c0 c1 ok).env.rx = .got (b0 :: b1 :: []) :: .got (c0 :: c1 :: []) :: [] ∧
    (idState b0 b1 c0 c1 ok).env.reopen = ok :: [] :=
  ⟨⟨rfl, rfl⟩, rfl, rfl, rfl, rfl⟩

/-- V10: an id that is an anomaly and two that are none. -/
theorem witness_mdHandshakePaths_ids :
    (((0x6262 : Word).extractLsb' 8 8 : Byte) = (0x6262 : Word).extractLsb' 0 8 ∧ (0x6262 : Word) ≠ 0x0000) ∧
    ¬(((0x0000 : Word).extractLsb' 8 8 : Byte) = (0x0000 : Word).extractLsb' 0 8 ∧ (0x0000 : Word) ≠ 0x0000) ∧
    ¬(((0x1205 : Word).extractLsb' 8 8 : Byte) = (0x1205 : Word).extractLsb' 0 8 ∧ (0x1205 : Word) ≠ 0x0000) := by
  decide

/-- The MD adapter in step, its next identity reply as given, Reopen succeeding or not. -/
def asked (r : IdReply) (ok : Bool) (v : Word) : State :=
  { mdState [] [] with
    peer := { testPeer with idReply := r }
    env := { answers [.accepted 1, .accepted 1, .accepted 2] [.got [0, 0], .got [0, 0]] with reopen := [ok], free := [0x9999, v] } }

/-- The identity value, an anomaly after an open and one after a Reopen; then an anomaly or the identity value. -/
theorem witness_mdHandshakePaths_peer (r : IdReply) (ok : Bool) (v : Word) : (asked r ok v).Calm ∧ (asked r ok v).InStep ∧
    (asked .settled ok v).FirstId 0x1205 [0x9999, v] ∧ (asked .afterOpen ok v).FirstId 0x9999 (v :: []) ∧
    (asked .afterReopen ok v).FirstId 0x9999 (v :: []) ∧
    (asked r ok v).env.tx = .accepted 1 :: .accepted 1 :: .accepted 2 :: [] ∧
    (asked r ok v).env.rx = .got [0, 0] :: .got [0, 0] :: [] ∧ (asked r ok v).env.reopen = ok :: [] ∧
    anomaly 0x1205 = false ∧ anomaly 0x9999 = true :=
  ⟨⟨rfl, rfl⟩, ⟨rfl, rfl, rfl, rfl, rfl, rfl⟩, ⟨rfl, rfl⟩, rfl, ⟨_, rfl, rfl⟩, rfl, rfl, rfl, rfl, rfl⟩

/-- An adapter that delivers some parts, one a read. -/
def delivering (parts : List (List Byte)) : State := gbState (List.replicate parts.length (.accepted 5)) (parts.map .got ++ [])

theorem witness_mdReadCompletes (parts : List (List Byte)) : (delivering parts).Calm ∧ (delivering parts).adapter = .gb ∧
    Accepts parts.length 5 (delivering parts).env.tx ∧ (delivering parts).env.rx = parts.map .got ++ [] ∧
    (delivering parts).cfg.dbufSize = 200000 :=
  ⟨⟨rfl, rfl⟩, rfl, accepts_replicate (Nat.le_refl _) (Nat.le_refl _), rfl, rfl⟩

/-- No bytes, one full chunk and a chunk of one word more, each at the end of DBUF. -/
theorem witness_mdReadCompletes_lengths :
    ((0 : Reg32).toNat % 2 = 0 ∧ (200000 : Reg32).toNat + (0 : Reg32).toNat ≤ 200000 ∧
      ([] : List (List Byte)).map List.length = chunks (0 : Reg32).toNat) ∧
    ((65536 : Reg32).toNat % 2 = 0 ∧ (134464 : Reg32).toNat + (65536 : Reg32).toNat ≤ 200000 ∧
      [List.replicate 65536 (0 : Byte)].map List.length = chunks (65536 : Reg32).toNat) ∧
    ((65538 : Reg32).toNat % 2 = 0 ∧ (134462 : Reg32).toNat + (65538 : Reg32).toNat ≤ 200000 ∧
      [List.replicate 65536 (0 : Byte), [1, 2]].map List.length = chunks (65538 : Reg32).toNat) := by
  simp only [List.map_cons, List.map_nil, List.length_replicate, List.length_cons, List.length_nil]
  decide +kernel

/-- An MD session in which DBUF holds n zeros and every write is taken. -/
def storing (off n : Nat) : State :=
  withDbuf off (List.replicate n 0) (mdState [.accepted 150015] [])

theorem storing_data (off n : Nat) : (storing off n).dbuf.getBytes off n = some (List.replicate n 0) := by
  have h := getBytes_cells off (List.replicate n 0)
  rwa [List.length_replicate] at h

theorem witness_mdWriteCompletes (off n : Nat) (stream : List Byte) (h : stream.length ≤ 150015) : (storing off n).Calm ∧
    (storing off n).cfg.dbufSize = 200000 ∧ (storing off n).dbuf.getBytes off n = some (List.replicate n 0) ∧
    Accepts 1 stream.length (storing off n).env.tx :=
  ⟨⟨rfl, rfl⟩, rfl, storing_data off n, accepts_replicate (m := 1) (Nat.le_refl _) h⟩

/-- No bytes, one full chunk, and three chunks at the end of DBUF: the streams are not longer than the transport takes. -/
theorem witness_mdWriteCompletes_lengths : ∀ a ∈ [((200000 : Reg32), (0 : Reg32)), (0, 65536), (50000, 150000)],
    a.2.toNat % 2 = 0 ∧ a.1.toNat + a.2.toNat ≤ 200000 ∧
    ((List.range ((a.2.toNat + 65535) / 65536)).flatMap fun j =>
      let part := ((List.replicate a.2.toNat (0 : Byte)).drop (65536 * j)).take 65536
      [0x01, BitVec.ofNat 8 (part.length / 512), 0x01, BitVec.ofNat 8 (part.length / 2), 0x83] ++ part).length ≤ 150015 := by
  simp [List.length_flatMap]
  decide

theorem witness_mdBulkChecks : md.busy = false ∧ Instr.mdRead 0 3 ∈ [Instr.mdRead 0 3, Instr.mdWrite 0 3, Instr.mdFlashWrite 0 3] ∧
    (3 : Reg32).toNat % 2 = 1 ∧ ¬(2 : Reg32).toNat % 2 = 1 ∧ md.cfg.dbufSize < (199999 : Reg32).toNat + (2 : Reg32).toNat ∧
    ¬md.cfg.dbufSize < (199998 : Reg32).toNat + (2 : Reg32).toNat ∧ ¬md.cfg.dbufSize < (200000 : Reg32).toNat + (0 : Reg32).toNat := by
  decide +kernel

theorem witness_chunkList : 0 % 2 = 0 ∧ 65536 % 2 = 0 ∧ 65538 % 2 = 0 ∧ 150000 % 2 = 0 := by decide

/-- A seek while the cursor copy is valid. -/
theorem witness_cursorMirrorsPeer : isMdRequest (.mdSeek 0 0x300) = true ∧ at100.Calm ∧ at100.Mirrors ∧
    exec (.mdSeek 0 0x300) at100 = .next (after (exec (.mdSeek 0 0x300) at100) at100) ∧
    (after (exec (.mdSeek 0 0x300) at100) at100).syncLost = false :=
  ⟨rfl, ⟨rfl, rfl⟩, ⟨rfl, rfl, fun _ => rfl⟩, rfl, rfl⟩

/-- The read pieces that fill four bytes, and those that do not. -/
theorem witness_partialReads : (gbState [.accepted 5] ([[1], [2, 3, 4]].map .got ++ [])).Calm ∧
    (gbState [.accepted 5] ([[1], [2, 3, 4]].map .got ++ [])).adapter = .gb ∧ (4 : Reg32).toNat % 2 = 0 ∧ 0 < (4 : Reg32).toNat ∧
    (65536 : Reg32).toNat ≤ 65536 ∧ (199996 : Reg32).toNat + (4 : Reg32).toNat ≤ 200000 ∧
    (gbState [.accepted 5] ([[1], [2, 3, 4]].map .got ++ [])).env.tx = .accepted 5 :: [] ∧
    (∀ p ∈ ([[1], [2, 3, 4]] : List (List Byte)), p ≠ []) ∧ ([[1], [2, 3, 4]] : List (List Byte)).flatten.length = (4 : Reg32).toNat ∧
    (gbState [.accepted 5] ([[1], [2, 3, 4]].map .got ++ [])).env.rx = [[1], [2, 3, 4]].map .got ++ [] :=
  ⟨⟨rfl, rfl⟩, rfl, by decide, by decide, by decide, by decide, rfl, by simp, rfl, rfl⟩

theorem witness_partialReads_failing (pieces : List (List Byte)) (d : RxDraw) :
    (gbState [.accepted 5] (pieces.map .got ++ d :: [])).Calm ∧ (gbState [.accepted 5] (pieces.map .got ++ d :: [])).adapter = .gb ∧
    (gbState [.accepted 5] (pieces.map .got ++ d :: [])).env.rx = pieces.map .got ++ d :: [] ∧
    ([] : List (List Byte)).flatten.length < (4 : Reg32).toNat ∧ ([[1, 2, 3]] : List (List Byte)).flatten.length < (4 : Reg32).toNat ∧
    (RxDraw.got [], (2 : Byte)) ∈ [(RxDraw.got [], (2 : Byte)), (RxDraw.timedOut [], 3), (RxDraw.failed [], 4)] :=
  ⟨⟨rfl, rfl⟩, rfl, rfl, by decide, by decide, by simp⟩

/-! ### Witnesses: the end of a request -/

/-- A session whose transport takes nothing. -/
def dead : State := mdState [.accepted 0] []

theorem witness_transportErrorEffects : isRequest (.mdSeek 0 0) = true ∧ isMdRequest (.mdSeek 0 0) = true ∧ dead.busy = false ∧
    exec (.mdSeek 0 0) dead = .next (after (exec (.mdSeek 0 0) dead) dead) ∧ (after (exec (.mdSeek 0 0) dead) dead).err = true ∧
    (after (exec (.mdSeek 0 0) dead) dead).errKind = 1 :=
  ⟨rfl, rfl, rfl, rfl, rfl, rfl⟩

/-- An MD session after a transport error, and one after a block reset that followed it. -/
def outOfStep (lost : Bool) : State :=
  { mdState [.accepted 1, .accepted 1, .accepted 2] [.got [0x33, 0x33], .got [0x12, 0x34]] with
    syncLost := lost
    peer := { testPeer with stale := true, rxLine := [7] } }

theorem witness_transportErrorEffects_free (lost : Bool) : (outOfStep lost).Calm ∧ (outOfStep lost).adapter = .md ∧
    ((outOfStep lost).syncLost = true ∨ (outOfStep lost).peer.stale = true) ∧ isRequest .mdGetId = true ∧
    exec .mdGetId (outOfStep lost) = .next (after (exec .mdGetId (outOfStep lost)) md) ∧ (outOfStep lost).peer.ps = .op ∧
    (outOfStep lost).peer.inbox = [] ∧ (outOfStep lost).peer.idReply = .settled ∧
    (outOfStep lost).env.tx = .accepted 1 :: .accepted 1 :: .accepted 2 :: [] ∧ (0x33 : Byte) ≠ 0x00 ∧
    (outOfStep lost).env.rx = .got (0x33 :: 0x33 :: []) :: .got (0x12 :: 0x34 :: []) :: [] ∧
    (outOfStep lost).env.reopen = true :: [] ∧ (outOfStep lost).env.free = 0x9999 :: [0x8888] := by
  cases lost <;> exact ⟨⟨rfl, rfl⟩, rfl, .inr rfl, rfl, rfl, rfl, rfl, rfl, rfl, by decide, rfl, rfl, rfl⟩

theorem witness_requestsEnd : isRequest (.mdSeek 0 0) = true ∧ md.busy = false ∧ md.ResetFree ∧ dead.ResetFree ∧
    exec (.mdSeek 0 0) md = .next (after (exec (.mdSeek 0 0) md) md) ∧
    exec (.mdSeek 0 0) dead = .next (after (exec (.mdSeek 0 0) dead) dead) :=
  ⟨rfl, rfl, ⟨by decide, by simp [md, mdState, answers, Env.start]⟩, ⟨by decide, by simp [dead, mdState, answers, Env.start]⟩, rfl, rfl⟩

theorem witness_checksChangeNothing : md.Ready ∧
    (isRequest (.mdRead 0 3) = true ∧ exec (.mdRead 0 3) md = .next (after (exec (.mdRead 0 3) md) md) ∧
      (after (exec (.mdRead 0 3) md) md).err = true ∧ (after (exec (.mdRead 0 3) md) md).errKind = 3) ∧
    (isRequest (.mdSeek 1 0) = true ∧ exec (.mdSeek 1 0) md = .next (after (exec (.mdSeek 1 0) md) md) ∧
      (after (exec (.mdSeek 1 0) md) md).err = true ∧ (after (exec (.mdSeek 1 0) md) md).errKind = 6) ∧
    (isRequest .pktSend = true ∧ exec .pktSend md = .next (after (exec .pktSend md) md) ∧
      (after (exec .pktSend md) md).err = true ∧ (after (exec .pktSend md) md).errKind = 7) ∧
    (isRequest (.pktBuild 0x12 4 0 0 0) = true ∧ exec (.pktBuild 0x12 4 0 0 0) md = .next (after (exec (.pktBuild 0x12 4 0 0 0) md) md) ∧
      (after (exec (.pktBuild 0x12 4 0 0 0) md) md).err = true ∧
      ∃ c m sub idx boff, Instr.pktBuild 0x12 4 0 0 0 = .pktBuild c m sub idx boff) :=
  ⟨⟨rfl, rfl, rfl, rfl⟩, ⟨rfl, rfl, rfl, rfl⟩, ⟨rfl, rfl, rfl, rfl⟩, ⟨rfl, rfl, rfl, rfl⟩, ⟨rfl, rfl, rfl, _, _, _, _, _, rfl⟩⟩

theorem witness_checksChangeNothing_word : (acting [.writeReq 0xFC01]).Ready ∧ (acting [.writeReq 0xFC01]).peerPending = false ∧
    (acting [.writeReq 0xFC01]).pktPort = [] ∧ (acting [.writeReq 0xFC01]).port = .writeReq 0xFC01 :: [] ∧
    decodeRequest 0xFC01 = .error (.rsvdBits 0x3F) ∧ decodeRequest 0x44 = .error (.badCode 0x44) :=
  ⟨⟨rfl, rfl, rfl, rfl⟩, rfl, rfl, rfl, by decide +kernel, by decide +kernel⟩

/-! ### Witnesses: flash -/

theorem witness_flashEraseRequest : (gbState [.accepted 119] [.got [0, 0]]).busy = false ∧ 2 ^ 25 ≤ (0x2000000 : Reg32).toNat ∧
    ¬2 ^ 25 ≤ (0x1FF0000 : Reg32).toNat ∧ ¬(0x1FF0000 : Reg32).toNat % 65536 ≠ 0 ∧ (0x1FF0001 : Reg32).toNat % 65536 ≠ 0 ∧
    (gbState [.accepted 119] [.got [0, 0]]).env.visits = [] ∧ (gbState [.accepted 119] [.got [0, 0]]).adapter = .gb ∧
    (gbState [.accepted 119] [.got [0, 0]]).cfg.readyPoll = .ryThenRdSingle ∧
    (gbState [.accepted 119] [.got [0, 0]]).env.tx = .accepted 119 :: [] ∧
    (gbState [.accepted 119] [.got [0, 0]]).env.rx = .got (0 :: 0 :: []) :: [] :=
  ⟨rfl, by decide, by decide, by decide, by decide, rfl, rfl, rfl, rfl, rfl⟩

/-- The MD adapter in step. -/
theorem witness_flashEraseRequest_peer : (mdState [.accepted 119] [.got [0, 0]]).Calm ∧ (mdState [.accepted 119] [.got [0, 0]]).InStep ∧
    (mdState [.accepted 119] [.got [0, 0]]).cfg.readyPoll = .ryThenRdSingle ∧
    (mdState [.accepted 119] [.got [0, 0]]).env.tx = .accepted 119 :: [] ∧
    (mdState [.accepted 119] [.got [0, 0]]).env.rx = .got [0, 0] :: [] ∧ 2 ≤ [(0 : Byte), 0].length :=
  ⟨⟨rfl, rfl⟩, ⟨rfl, rfl, rfl, rfl, rfl, rfl⟩, rfl, rfl, rfl, by decide⟩

/-- The same session with READY_POLL_FORM RY_ONLY. -/
def ryOnly (s : State) : State := { s with cfg := { s.cfg with readyPoll := .ryOnly } }

theorem witness_flashEraseRequest_ryOnly : (ryOnly (mdState [.accepted 118] [])).busy = false ∧
    (ryOnly (mdState [.accepted 118] [])).env.visits = [] ∧ (ryOnly (mdState [.accepted 118] [])).env.tx = .accepted 118 :: [] ∧
    (ryOnly (mdState [.accepted 118] [])).cfg.readyPoll = .ryOnly :=
  ⟨rfl, rfl, rfl, rfl⟩

/-- A session in which DBUF holds zeros and each of n polls is answered by two bytes. -/
def polling (off n : Nat) : State :=
  sending off (2 * n) (List.replicate n (.accepted 12)) ((List.replicate n [0, 0]).map .got ++ [])

theorem witness_flashWriteCompletes (off n : Nat) : (polling off n).Calm ∧ (polling off n).adapter = .gb ∧
    (polling off n).cfg.readyPoll = .ryThenRdSingle ∧ (polling off n).cfg.dbufSize = 200000 ∧
    (polling off n).dbuf.getBytes off (2 * n) = some (List.replicate (2 * n) 0) ∧ Accepts n 12 (polling off n).env.tx ∧
    (List.replicate n [(0 : Byte), 0]).length = n ∧ (∀ r ∈ List.replicate n [(0 : Byte), 0], r.length = 2) ∧
    (polling off n).env.rx = (List.replicate n [0, 0]).map .got ++ [] := by
  refine ⟨⟨rfl, rfl⟩, rfl, rfl, rfl, sending_data off (2 * n) _ _, accepts_replicate (Nat.le_refl _) (Nat.le_refl _),
    List.length_replicate, fun r hr => ?_, rfl⟩
  rw [List.eq_of_mem_replicate hr]
  rfl

/-- The MD adapter in step, for the same lengths. -/
theorem witness_flashWriteCompletes_peer (off n : Nat) : let s : State := { polling off n with adapter := .md }
    s.Calm ∧ s.InStep ∧ s.cfg.readyPoll = .ryThenRdSingle ∧ s.cfg.dbufSize = 200000 ∧
    s.dbuf.getBytes off (2 * n) = some (List.replicate (2 * n) 0) ∧ Accepts n 12 s.env.tx ∧
    (∀ r ∈ List.replicate n [(0 : Byte), 0], 2 ≤ r.length) ∧ s.env.rx = (List.replicate n [0, 0]).map .got ++ [] := by
  obtain ⟨h1, -, h3, h4, h5, h6, -, h8, h9⟩ := witness_flashWriteCompletes off n
  exact ⟨h1, ⟨rfl, rfl, rfl, rfl, rfl, rfl⟩, h3, h4, h5, h6, fun r hr => Nat.le_of_eq (h8 r hr).symm, h9⟩

theorem witness_flashWriteCompletes_lengths : ((0 : Reg32).toNat % 2 = 0 ∧ (200000 : Reg32).toNat + (0 : Reg32).toNat ≤ 200000 ∧
      (0 : Reg32).toNat / 2 = 0) ∧
    (4 : Reg32).toNat % 2 = 0 ∧ (199996 : Reg32).toNat + (4 : Reg32).toNat ≤ 200000 ∧ (4 : Reg32).toNat / 2 = 2 ∧ 2 * 2 = (4 : Reg32).toNat := by
  decide

/-- The lengths of the other witness, under RY_ONLY. -/
theorem witness_flashWriteCompletes_ryOnly (off n : Nat) : (ryOnly (sending off (2 * n) [.accepted (11 * n)] [])).Calm ∧
    (ryOnly (sending off (2 * n) [.accepted (11 * n)] [])).cfg.readyPoll = .ryOnly ∧
    (ryOnly (sending off (2 * n) [.accepted (11 * n)] [])).cfg.dbufSize = 200000 ∧
    (ryOnly (sending off (2 * n) [.accepted (11 * n)] [])).dbuf.getBytes off (2 * n) = some (List.replicate (2 * n) 0) ∧
    Accepts 1 (11 * n) (ryOnly (sending off (2 * n) [.accepted (11 * n)] [])).env.tx :=
  ⟨⟨rfl, rfl⟩, rfl, rfl, sending_data off (2 * n) [.accepted (11 * n)] [], accepts_replicate (m := 1) (Nat.le_refl _) (Nat.le_refl _)⟩

theorem test_regionAt (w : Nat) (h : w < 0x100000) : regionAt testCart.map w = some .flash := by
  simp [testCart, regionAt, h]

/-- The block at byte address 0x10000, the flash chip in read mode. -/
theorem witness_flashReadsBack_erase : md.peer.ps = .op ∧ md.cfg.readSideEffects = .none ∧ md.cfg.readyPoll = .ryThenRdSingle ∧
    md.cfg.eraseStep = 0x2000 ∧ md.cart.ramMode = .unbanked ∧ md.cart.flash = .read ∧ 0x10000 % 65536 = 0 ∧ 0x10000 < 2 ^ 25 ∧
    (∀ w, 0x10000 / 2 ≤ w → w < 0x10000 / 2 + 32768 → regionAt md.cart.map w = some .flash) ∧
    (∀ w ∈ [0x555, 0x2AA], regionAt md.cart.map w ≠ some .ram ∧ regionAt md.cart.map w ≠ some .rom) ∧
    0x10000 / 2 ≤ 0xFFFF ∧ 0xFFFF < 0x10000 / 2 + 32768 :=
  ⟨rfl, rfl, rfl, rfl, rfl, rfl, by decide, by decide, fun w _ h => test_regionAt w (by omega), by decide +kernel, by decide, by decide⟩

/-- The machine with erased flash at the peer's cursor, the chip in unlock bypass. -/
def erased : State :=
  { md with
    peer := { testPeer with devAddr := 0x8000 }
    cart := { testCart with flash := .bypass, cells := [(0x10000, 0xFF), (0x10001, 0xFF)] } }

theorem witness_flashReadsBack_program : erased.peer.ps = .op ∧ erased.cfg.readSideEffects = .none ∧
    erased.cfg.readyPoll = .ryThenRdSingle ∧ erased.cart.ramMode = .unbanked ∧ erased.cart.flash = .bypass ∧
    erased.peer.devAddr ≠ mapperWord ∧ regionAt erased.cart.map erased.peer.devAddr.toNat = some .flash ∧
    erased.cart.cells.get (2 * erased.peer.devAddr.toNat) = some 0xFF ∧
    erased.cart.cells.get (2 * erased.peer.devAddr.toNat + 1) = some 0xFF := by
  decide +kernel

/-- The peer's cursor at flash word 0x8000, the chip in read mode. -/
def reading : State := { md with peer := { testPeer with devAddr := 0x8000 } }

theorem witness_flashReadsBack_outside : reading.peer.ps = .op ∧ reading.cfg.readSideEffects = .none ∧
    reading.cfg.readyPoll = .ryThenRdSingle ∧ reading.cart.ramMode = .unbanked ∧ reading.cart.flash = .read ∧
    reading.cart.flashBusy = false ∧ reading.peer.devAddr ≠ mapperWord ∧
    regionAt reading.cart.map reading.peer.devAddr.toNat = some .flash := by
  decide +kernel

theorem witness_flashReadsBack_leave : erased.peer.ps = .op ∧ erased.cart.ramMode = .unbanked ∧ erased.cart.flash = .bypass ∧
    erased.cart.flashBusy = false ∧ regionAt erased.cart.map 0 = some .flash ∧ regionAt erased.cart.map 0xFFFFF = some .flash := by
  decide +kernel

theorem witness_failedFlashForgets : dead.busy = false ∧ dead.peer.inbox = [] ∧
    exec (.mdFlashErase 0x10000) dead = .next (after (exec (.mdFlashErase 0x10000) dead) dead) ∧
    (after (exec (.mdFlashErase 0x10000) dead) dead).err = true ∧ (after (exec (.mdFlashErase 0x10000) dead) dead).errKind = 1 :=
  ⟨rfl, rfl, next_after _ (by decide +kernel), by decide +kernel, by decide +kernel⟩

theorem witness_failedFlashForgets_write : (withDbuf 0 [1, 2] dead).busy = false ∧ (withDbuf 0 [1, 2] dead).peer.inbox = [] ∧
    exec (.mdFlashWrite 0 2) (withDbuf 0 [1, 2] dead) =
      .next (after (exec (.mdFlashWrite 0 2) (withDbuf 0 [1, 2] dead)) dead) ∧
    (after (exec (.mdFlashWrite 0 2) (withDbuf 0 [1, 2] dead)) dead).err = true ∧
    (after (exec (.mdFlashWrite 0 2) (withDbuf 0 [1, 2] dead)) dead).errKind = 1 :=
  ⟨rfl, rfl, by rfl, by decide +kernel, by decide +kernel⟩

theorem witness_failedFlashForgets_ram : dead.busy = false ∧
    exec .mdRamEnable dead = .next (after (exec .mdRamEnable dead) dead) ∧ (after (exec .mdRamEnable dead) dead).err = true ∧
    exec .mdRamDisable dead = .next (after (exec .mdRamDisable dead) dead) ∧ (after (exec .mdRamDisable dead) dead).err = true :=
  ⟨rfl, rfl, rfl, rfl, rfl⟩

/-! ### Witnesses: the peer, the framer, the whole machine -/

theorem witness_parameterFrames : md.peer.ps = .op := rfl

/-- The state of a read whose words are known: both bytes of each, with and without INC. -/
theorem witness_rdFrames : at100.peer.ps = .op ∧ at100.cfg.readSideEffects = .none ∧ at100.peer.idReply = .settled ∧
    (mdFlags 0).devId = false ∧ (mdFlags 8).devId = false ∧ (mdFlags 2).devId = true ∧
    at100.cart.known at100.peer.devAddr.toNat = (some 0x12, some 0x34) ∧
    at100.cart.known (at100.peer.devAddr + 1).toNat = (some 0x56, some 0x78) := by
  decide +kernel

theorem witness_wrFrames : inRam.peer.ps = .op ∧ inRam.peer.devLen.toNat = 2 ∧ (mdFlags 0xD).single = true ∧ (mdFlags 0xD).mode8 = true ∧
    [(1 : Byte)].length = 1 * 1 ∧ (mdFlags 8).single = false ∧ (mdFlags 8).mode8 = false ∧ [(1 : Byte), 2, 3, 4].length = 2 * 2 := by
  decide +kernel

theorem witness_reservedFrames : md.peer.ps = .op ∧ mdKind 0x06 = .reserved ∧ mdKind 0xFF = .reserved ∧ mdKind 0x10 = .reserved ∧
    ({ md with peer := { testPeer with ps := .undef } } : State).peer.ps = .undef ∧ frameBytes .rd ≠ [] ∧
    Instr.mdReservedOp67 0 0 ∈ [Instr.mdReservedOp67 0 0, Instr.mdReservedOp8F 0 0] := by
  decide +kernel

theorem witness_framesAreStreams : frameBytes (.wrInc [1, 2, 3, 4]) ≠ [] ∧ Instr.wellFormed (.wrInc [1, 2, 3, 4]) = true ∧
    (∀ n, Instr.bulkUnits (.wrInc [1, 2, 3, 4]) = some n → inRam.peer.devLen.toNat = n) ∧ inRam.peer.ps = .op := by
  refine ⟨by decide, by decide, fun n h => ?_, rfl⟩
  cases h
  rfl

/-- The MD adapter in step with the block, RAM banked in. -/
def ramState : State :=
  withDbuf 0 [1, 2, 3, 4] { mdState (List.replicate 4 (.accepted 9)) [.got [0, 0, 0, 0]] with
    cart := { testCart with ramMode := .banked } }

theorem witness_ramByteReadsBack : ramState.Calm ∧ ramState.InStep ∧ ramState.cfg.readSideEffects = .none ∧
    ramState.cart.ramMode = .banked ∧ (0x200001 : Reg32).toNat < 2 ^ 25 ∧ (0x200001 : Reg32).toNat / 2 ≠ 0x509800 ∧
    regionAt ramState.cart.map ((0x200001 : Reg32).toNat / 2) = some .ram ∧
    ramState.env.tx = .accepted 9 :: .accepted 9 :: [.accepted 9, .accepted 9] ∧ ramState.env.rx = .got [0, 0, 0, 0] :: [] ∧
    2 ≤ [(0 : Byte), 0, 0, 0].length :=
  ⟨⟨rfl, rfl⟩, ⟨rfl, rfl, rfl, rfl, rfl, rfl⟩, rfl, rfl, by decide, by decide, by decide +kernel, rfl, rfl, by decide⟩

theorem witness_ramByteReadsBack_out : md.cart.ramMode = .unbanked ∧ (0x100 : WordAddr) ≠ mapperWord ∧ md.cart.cells.wf = true ∧
    regionAt md.cart.map 0x100000 = some .ram := by
  decide +kernel

/-- Two words of RAM written from DBUF and read back to its end. -/
theorem witness_ramByteReadsBack_words : (4 : Reg32).toNat % 2 = 0 ∧ 0 < (4 : Reg32).toNat ∧ (4 : Reg32).toNat ≤ 65536 ∧
    (0 : Reg32).toNat + (4 : Reg32).toNat ≤ ramState.cfg.dbufSize ∧ (199996 : Reg32).toNat + (4 : Reg32).toNat ≤ ramState.cfg.dbufSize ∧
    ramState.dbuf.getBytes (0 : Reg32).toNat (4 : Reg32).toNat = some [1, 2, 3, 4] ∧
    (∀ i < (4 : Reg32).toNat / 2, (halved (0x200001 : Reg32).toNat + BitVec.ofNat 24 i).toNat ≠ 0x509800 ∧
      regionAt ramState.cart.map (halved (0x200001 : Reg32).toNat + BitVec.ofNat 24 i).toNat = some .ram) ∧
    Accepts 4 (5 + (4 : Reg32).toNat) ramState.env.tx ∧ (4 : Reg32).toNat ≤ [(0 : Byte), 0, 0, 0].length := by
  refine ⟨by decide, by decide, by decide, by show 0 + 4 ≤ 200000; decide, by show 199996 + 4 ≤ 200000; decide, rfl, fun i hi => ?_,
    accepts_replicate (Nat.le_refl _) (Nat.le_refl _), by decide⟩
  have hi : i = 0 ∨ i = 1 := by
    have : (4 : Reg32).toNat / 2 = 2 := by decide
    omega
  rcases hi with rfl | rfl <;> decide +kernel

theorem witness_gbPacketsSend : (gbState [.accepted 1] []).env.tx = .accepted 1 :: [] ∧
    (gbState [.accepted 72] []).env.tx = .accepted 72 :: [] ∧ zeros.length = 64 ∧
    (Instr.gbAck, (0xAA : Byte)) ∈ [(Instr.gbAck, (0xAA : Byte)), (Instr.gbNak, 0xF0), (Instr.gbEnd, 0x0F)] :=
  ⟨rfl, rfl, rfl, List.mem_cons_self⟩

theorem full_inv : full.Inv := by
  obtain ⟨h1, h2, h3, -⟩ := witness_packetRequestsNeverFault
  exact ⟨⟨rfl, rfl, rfl, rfl⟩, ⟨by decide, by decide, fun _ => ⟨rfl, rfl, rfl⟩⟩, h1, h2, h3, ⟨by decide, by decide⟩, .inl rfl, trivial⟩

/-- The machine of `full` with a request to come. -/
def fullActing : State := { full with port := [.writeReq 0x01] }

theorem witness_stepKeepsInv : fullActing.Inv ∧ step fullActing = .next (after (step fullActing) fullActing) := by
  exact ⟨full_inv, next_after _ (by decide +kernel)⟩

theorem witness_stepKeepsParameters : ({ fullActing with stickyErr := true, syncLost := true } : State).ResetFree ∧
    ({ fullActing with stickyErr := true, syncLost := true } : State).stickyErr = true ∧
    ({ fullActing with stickyErr := true, syncLost := true } : State).syncLost = true ∧
    step { fullActing with stickyErr := true, syncLost := true } =
      .next (after (step { fullActing with stickyErr := true, syncLost := true }) full) :=
  ⟨⟨by decide, fun a h => by cases h⟩, rfl, rfl, rfl⟩

theorem witness_requesterPort (a : PortAction) : (acting [a]).peerPending = false ∧ (acting [a]).pktPort = [] ∧
    (acting [a]).port = a :: [] ∧ (acting [a]).busy = false ∧ (acting [a]).env.free = 0x9999 :: [0x8888] :=
  ⟨rfl, rfl, rfl, rfl, rfl⟩

/-- An MD session in which the requester acts during the next transport calls. -/
def disturbed (visits : List (List PortAction)) (tx : List TxDraw) : State :=
  withDbuf 10 [1, 2, 3, 4] { mdState tx [] with env := { answers tx [] with visits := visits } }

theorem witness_requesterPort_seek : (disturbed [[.writeReq 0x01, .readReg .crc]] [.accepted 6]).busy = false ∧
    (disturbed [[.writeReq 0x01, .readReg .crc]] [.accepted 6]).env.visits = [.writeReq 0x01, .readReg .crc] :: [] ∧
    visitActions [.writeReq 0x01, .readReg .crc] { (disturbed [[.writeReq 0x01, .readReg .crc]] [.accepted 6]).accept with
      env := { (disturbed [[.writeReq 0x01, .readReg .crc]] [.accepted 6]).env with visits := [] } } =
      .ok none { (disturbed [] [.accepted 6]).accept with reads := [0] } ∧
    ({ (disturbed [] [.accepted 6]).accept with reads := [0] } : State).env.tx = .accepted 6 :: [] :=
  ⟨rfl, rfl, rfl, rfl⟩

/-- The first and the last byte of the region. -/
theorem witness_requesterPort_write : ∀ off ∈ [10, 13], (disturbed [[.writeDbuf off 7]] [.accepted 9]).busy = false ∧
    (disturbed [[.writeDbuf off 7]] [.accepted 9]).env.visits = [[.writeDbuf off 7]] ∧
    (disturbed [[.writeDbuf off 7]] [.accepted 9]).env.free = 0x9999 :: 0x8888 :: [] ∧ (4 : Reg32).toNat % 2 = 0 ∧
    (10 : Reg32).toNat + (4 : Reg32).toNat ≤ (disturbed [[.writeDbuf off 7]] [.accepted 9]).cfg.dbufSize ∧
    (disturbed [[.writeDbuf off 7]] [.accepted 9]).dbuf.getBytes (10 : Reg32).toNat (4 : Reg32).toNat = some [1, 2, 3, 4] ∧
    (10 : Reg32).toNat ≤ off ∧ off < (10 : Reg32).toNat + (4 : Reg32).toNat ∧
    (disturbed [[.writeDbuf off 7]] [.accepted 9]).env.tx = .accepted 9 :: [] ∧ 5 + (4 : Reg32).toNat ≤ 9 := by
  intro off h
  refine ⟨rfl, rfl, rfl, by decide, by show 10 + 4 ≤ 200000; decide, rfl, ?_, ?_, rfl, by decide⟩ <;>
    rcases List.mem_pair.1 h with rfl | rfl <;> decide

/-- A session whose DBUF ends with a frame, the requester acting once. -/
def meddled (off : Nat) : State :=
  withDbuf 199936 testFrame { md with env := { answers [] [] with visits := [[.writeDbuf off 7]] } }

/-- The first and the last byte of the frame. -/
theorem witness_requesterPort_build : ∀ off ∈ [199936, 199999], (meddled off).busy = false ∧ (meddled off).env.visits = [[.writeDbuf off 7]] ∧
    (meddled off).env.free = 0x9999 :: 0x8888 :: [] ∧ validatePacket 0x55 0x01 0x00 = none ∧
    (199936 : Reg32).toNat + 64 ≤ (meddled off).cfg.dbufSize ∧
    (meddled off).dbuf.getBytes (199936 : Reg32).toNat 64 = some testFrame ∧
    (199936 : Reg32).toNat ≤ off ∧ off < (199936 : Reg32).toNat + 64 := by
  intro off h
  refine ⟨rfl, rfl, rfl, rfl, by show 199936 + 64 ≤ 200000; decide, rfl, ?_, ?_⟩ <;>
    rcases List.mem_pair.1 h with rfl | rfl <;> decide

/-- What a request takes and what DBUF then holds are free bytes of their own (R371, I5). -/
theorem test_busy_write :
    sees (exec (.mdWrite 10 4) (disturbed [[.writeDbuf 12 7]] [.accepted 9])) (fun t => (t.txLog.drop 5, t.dbuf.get 12)) =
      some ([1, 2, 0x88, 4], some 0x99) ∧
    sees (exec (.crcBlock 10 4) (disturbed [[.writeDbuf 12 7]] [])) (fun t => (t.crc, t.dbuf.get 12)) =
      some (crc16 0 [1, 2, 0x88, 4], some 0x99) ∧
    sees (exec (.pktBuild 0x55 0x01 0x00 0 199936) (meddled 199936)) (fun t => (t.txpkt.getBytes 5 3, t.dbuf.get 199936)) =
      some (some [0x00, 0x88, 0x01], some 0x99) := by
  decide +kernel

/-- A write of 2048 bytes whose first packet is refused, the requester reading STATUS at every transport call. -/
def watched : State :=
  { sending 0 2048 [] [] with
    env := { answers [.accepted 72, .accepted 72] [.got [0xAA], .got [0xF0]] with visits := List.replicate 4 [.readReg .status] } }

theorem witness_requesterPort_transfer : watched.busy = false ∧ watched.adapter = .gb ∧ transferLength (2048 : Reg32).toNat ∧
    (0 : Reg32).toNat + (2048 : Reg32).toNat ≤ watched.cfg.dbufSize ∧
    watched.dbuf.getBytes (0 : Reg32).toNat 64 = some (List.replicate 64 0) ∧
    watched.env.visits = List.replicate 4 [.readReg .status] ∧ watched.env.tx = .accepted 72 :: .accepted 72 :: [] ∧
    watched.env.rx = .got [0xAA] :: .got (0xF0 :: []) :: [] ∧ (0xF0 : Byte) ≠ 0x55 ∧ (0xF0 : Byte) ≠ 0xAA :=
  ⟨rfl, rfl, .inl rfl, by show 0 + 2048 ≤ 200000; decide, rfl, rfl, rfl, rfl, by decide, by decide⟩

/-- A GB session in which the requester acts during the next transport calls. -/
def interrupted (visits : List (List PortAction)) : State :=
  { gbState [] [] with env := { answers [.accepted 72] [.got [0x62, 0x62]] with visits := visits } }

/-- A reset in the first transport call, and in the second. -/
theorem witness_resetStopsRequests : isRequest .pktReceive = true ∧ isRequest .mdGetId = true ∧
    (interrupted [[.readReg .crc, .reset, .readReg .crc]]).busy = false ∧
    (interrupted [[.readReg .crc, .reset, .readReg .crc]]).env.visits = [] ++ [[.readReg .crc] ++ .reset :: [.readReg .crc]] ∧
    (interrupted [[], [.readReg .crc, .reset]]).env.visits = [[]] ++ [[.readReg .crc] ++ .reset :: []] ∧
    (∀ actions ∈ ([[]] : List (List PortAction)), PortAction.reset ∉ actions) ∧
    PortAction.reset ∉ ([.readReg .crc] : List PortAction) ∧
    sees (exec .pktReceive (interrupted [[.readReg .crc, .reset, .readReg .crc]])) (·.env.visits) = some [] ∧
    sees (exec .mdGetId (interrupted [[], [.readReg .crc, .reset]])) (·.env.visits) = some [] :=
  ⟨rfl, rfl, rfl, rfl, rfl, by decide, by decide, rfl, rfl⟩

theorem witness_resetStopsRequests_calls : (interrupted [[.reset]]).busy = false ∧ (interrupted [[.reset]]).env.visits = (.reset :: []) :: [] ∧
    transferLength (2048 : Reg32).toNat ∧ (0 : Reg32).toNat + (2048 : Reg32).toNat ≤ (interrupted [[], [.reset]]).cfg.dbufSize ∧
    (interrupted [[], [.reset]]).env.visits = [] :: (.reset :: []) :: [] ∧
    (interrupted [[], [.reset]]).env.tx = .accepted 72 :: [] ∧ (interrupted [[], [], [.reset]]).adapter = .gb ∧
    (interrupted [[], [], [.reset]]).env.visits = [] :: [] :: (.reset :: []) :: [] ∧
    (interrupted [[], [], [.reset]]).env.rx = .got (0x62 :: 0x62 :: []) :: [] ∧ (0x62 : Byte) ≠ 0x00 :=
  ⟨rfl, rfl, .inl rfl, by show 0 + 2048 ≤ 200000; decide, rfl, rfl, rfl, rfl, rfl, by decide⟩

end Sys2Proof.Tests
end

section
/-! SUPPORT. What no step changes (R10, R23, R37, R80, R378): the relation between a state and one that a step may lead to, that every
shared operation keeps it, then every request, frame and packet, then the step itself. -/

namespace Sys2Proof.Machine

/-! ### The relation -/

/-- No block reset comes while the next requests run: the part of State.ResetFree that every request keeps. -/
def State.NoReset (s : State) : Prop := ∀ actions ∈ s.env.visits, PortAction.reset ∉ actions

/-- t comes after s in one session: what is fixed for the session is as it was, what was sent and read has only grown (R10, R80, R378),
and without a block reset the sticky flags stay set (R23, R37). -/
structure State.Continues (s t : State) : Prop where
  cfg : t.cfg = s.cfg
  adapter : t.adapter = s.adapter
  identity : t.peer.identity = s.peer.identity
  map : t.cart.map = s.cart.map
  txLog : s.txLog <+: t.txLog
  reads : s.reads <+: t.reads
  noReset : s.NoReset → t.NoReset
  stickyErr : s.NoReset → s.stickyErr = true → t.stickyErr = true
  syncLost : s.NoReset → s.syncLost = true → t.syncLost = true

theorem State.Continues.refl (s : State) : s.Continues s :=
  ⟨rfl, rfl, rfl, rfl, List.prefix_refl _, List.prefix_refl _, id, fun _ => id, fun _ => id⟩

theorem State.Continues.trans {s t u : State} (h : s.Continues t) (k : t.Continues u) : s.Continues u where
  cfg := k.cfg.trans h.cfg
  adapter := k.adapter.trans h.adapter
  identity := k.identity.trans h.identity
  map := k.map.trans h.map
  txLog := h.txLog.trans k.txLog
  reads := h.reads.trans k.reads
  noReset := k.noReset ∘ h.noReset
  stickyErr hn := k.stickyErr (h.noReset hn) ∘ h.stickyErr hn
  syncLost hn := k.syncLost (h.noReset hn) ∘ h.syncLost hn

/-- Everything that State.Continues looks at. -/
structure State.Session where
  cfg : Params
  adapter : AdapterKind
  identity : Word
  map : List Region
  txLog : List Byte
  reads : List Reg32
  visits : List (List PortAction)
  stickyErr : Bool
  syncLost : Bool

/-- What State.Continues sees of a state. -/
def State.session (s : State) : State.Session where
  cfg := s.cfg
  adapter := s.adapter
  identity := s.peer.identity
  map := s.cart.map
  txLog := s.txLog
  reads := s.reads
  visits := s.env.visits
  stickyErr := s.stickyErr
  syncLost := s.syncLost

/-- An update that touches none of it. -/
theorem State.Continues.of_session_eq {s t : State} (h : t.session = s.session) : s.Continues t := by
  simp only [State.session, State.Session.mk.injEq] at h
  obtain ⟨hcfg, hadapter, hidentity, hmap, htx, hreads, hvisits, hsticky, hsync⟩ := h
  exact ⟨hcfg, hadapter, hidentity, hmap, htx ▸ List.prefix_refl _, hreads ▸ List.prefix_refl _,
    fun hn => by rwa [State.NoReset, hvisits], fun _ hs => hsticky.trans hs, fun _ hs => hsync.trans hs⟩

/-- An error changes nothing but registers, and sets STICKY_ERR (R330). -/
theorem State.Continues.of_raise (e : Err) (info : Reg32) (s : State) : s.Continues (s.raise e info) :=
  { State.Continues.refl s with stickyErr := fun _ _ => rfl }

/-- A TransportError sets SYNC_LOST besides (R329). -/
theorem State.Continues.of_raiseTransport (fam : Family) (e : Err) (info : Nat) (s : State) :
    s.Continues (s.raiseTransport fam e info) := by
  have hlose : s.Continues (s.loseSync fam) := by
    cases fam <;> exact { State.Continues.refl s with syncLost := fun _ _ => rfl }
  exact hlose.trans (State.Continues.of_raise e _ _)

/-- What the requester has read grows by one value. -/
theorem State.Continues.of_noteRead (v : Reg32) (s : State) : s.Continues (s.noteRead v) :=
  { State.Continues.refl s with reads := List.prefix_append _ _ }

/-- What was sent grows by the accepted bytes (R80). -/
theorem State.Continues.of_transmit (bytes : List Byte) (s : State) : s.Continues (s.transmit bytes) := by
  unfold State.transmit
  split <;> exact { State.Continues.refl s with txLog := List.prefix_append _ _ }

/-- The requester's next visit taken. -/
theorem State.Continues.of_tail {s : State} {actions : List PortAction} {rest : List (List PortAction)}
    (h : s.env.visits = actions :: rest) : s.Continues { s with env := { s.env with visits := rest } } :=
  { State.Continues.refl s with
    noReset := fun hn a ha => hn a (h ▸ List.mem_cons_of_mem _ ha) }

/-- What continues a state without visits continues it with its visits put back. -/
theorem State.Continues.restore_visits {s t : State} (h : State.Continues { s with env := { s.env with visits := [] } } t) :
    s.Continues { t with env := { t.env with visits := s.env.visits } } := by
  have hnone : State.NoReset { s with env := { s.env with visits := [] } } := fun _ ha => by cases ha
  exact { h with
    noReset := id
    stickyErr := fun _ => h.stickyErr hnone
    syncLost := fun _ => h.syncLost hnone }

/-! ### The cartridge's layout -/

@[simp] theorem Cart.forgetWord_map (c : Cart) (w : Nat) : (c.forgetWord w).map = c.map := rfl
@[simp] theorem Cart.eraseSector_map (cfg : Params) (c : Cart) (w : Nat) : (c.eraseSector cfg w).map = c.map := rfl
@[simp] theorem Cart.strayProgram_map (c : Cart) (w : Nat) (next : FlashState) : (c.strayProgram w next).map = c.map := rfl

@[simp] theorem Cart.program_map (c : Cart) (w : Nat) (hi : Option Byte) (lo : Byte) : (c.program w hi lo).map = c.map := by
  unfold Cart.program
  dsimp only
  split <;> rfl

@[simp] theorem Cart.strayWrite_map (cfg : Params) (c : Cart) (w : Nat) (lo : Byte) : (c.strayWrite cfg w lo).map = c.map := by
  unfold Cart.strayWrite
  dsimp only
  split <;> rfl

@[simp] theorem Cart.flashWrite_map (cfg : Params) (c : Cart) (w : Nat) (hi : Option Byte) (lo : Byte) :
    (c.flashWrite cfg w hi lo).map = c.map := by
  unfold Cart.flashWrite
  repeat' split
  all_goals simp

@[simp] theorem Cart.doubtfulWrite_map (cfg : Params) (c : Cart) (w : Nat) (lo : Byte) :
    (c.doubtfulWrite cfg w lo).map = c.map := by
  unfold Cart.doubtfulWrite
  cases c.flash with
  | bypassProgram | readProgram | unknownProgram => rfl
  | _ => dsimp only; split <;> simp

/-- No word write changes what the cartridge's ranges are. -/
@[simp] theorem Cart.write_map (cfg : Params) (c : Cart) (w : Nat) (hi : Option Byte) (lo : Byte) :
    (c.write cfg w hi lo).map = c.map := by
  unfold Cart.write
  split
  · rfl
  · split <;> simp

@[simp] theorem Cart.ready_map (c : Cart) : c.ready.map = c.map := by
  unfold Cart.ready
  split <;> rfl

@[simp] theorem Cart.afterRead_map (cfg : Params) (c : Cart) : (c.afterRead cfg).map = c.map := by
  unfold Cart.afterRead
  split <;> rfl

/-! ### Draws and the peer -/

@[simp] theorem takeTx_session (s : State) : (takeTx s).2.session = s.session := by
  unfold takeTx
  split <;> rfl

@[simp] theorem takeRx_session (s : State) : (takeRx s).2.session = s.session := by
  unfold takeRx
  split <;> rfl

@[simp] theorem takeReopen_session (s : State) : (takeReopen s).2.session = s.session := by
  unfold takeReopen
  split <;> rfl

@[simp] theorem takeFree_session (s : State) : (takeFree s).2.session = s.session := by
  unfold takeFree
  split <;> rfl

@[simp] theorem takeFreeByte_session (s : State) : (takeFreeByte s).2.session = s.session := takeFree_session s

@[simp] theorem takeReplies_session (fam : Family) (n : Nat) (offered : List Byte) (s : State) :
    (takeReplies fam n offered s).2.session = s.session := by
  unfold takeReplies
  split <;> rfl

/-- A change of the cartridge that leaves its layout. -/
theorem State.session_withCart (s : State) {c : Cart} (h : c.map = s.cart.map) :
    State.session { s with cart := c } = s.session := by
  simp [State.session, h]

@[simp] theorem cartWrite_session (w : WordAddr) (hi : Option Byte) (lo : Byte) (s : State) :
    (cartWrite w hi lo s).session = s.session :=
  s.session_withCart (Cart.write_map ..)

@[simp] theorem cartRead_session (w : WordAddr) (s : State) : (cartRead w s).2.session = s.session := by
  have hafter (t : State) : State.session { t with cart := t.cart.afterRead t.cfg } = t.session :=
    t.session_withCart (Cart.afterRead_map ..)
  unfold cartRead
  dsimp only
  split <;> simp [hafter]

@[simp] theorem identityWord_session (f : MdFlags) (s : State) : (identityWord f s).2.session = s.session := by
  unfold identityWord
  dsimp only
  split
  · split
    · rfl
    · exact takeFree_session s
    · exact takeFree_session s
  · rfl

@[simp] theorem rdUnits_session (f : MdFlags) (n : Nat) (w : WordAddr) (s : State) :
    (rdUnits f n w s).2.session = s.session := by
  induction n generalizing w s with
  | zero => rfl
  | succ n ih =>
    have hunit : (if f.devId then identityWord f s else cartRead w s).2.session = s.session := by
      split <;> simp
    simp only [rdUnits]
    exact (ih _ _).trans hunit

@[simp] theorem wrWords_session (moves : Bool) (data : List Byte) (w : WordAddr) (s : State) :
    (wrWords moves data w s).session = s.session := by
  induction data using List.twoStepInduction generalizing w s with
  | nil => rfl
  | singleton x => rfl
  | cons_cons h l rest ih _ => exact (ih _ _).trans (cartWrite_session w (some h) l s)

@[simp] theorem wrLowBytes_session (moves : Bool) (data : List Byte) (w : WordAddr) (s : State) :
    (wrLowBytes moves data w s).session = s.session := by
  induction data generalizing w s with
  | nil => rfl
  | cons l rest ih => exact (ih _ _).trans (cartWrite_session w none l s)

@[simp] theorem peerRd_session (f : MdFlags) (s : State) : (peerRd f s).session = s.session :=
  rdUnits_session f (mdUnits f s.peer.devLen) s.peer.devAddr s

@[simp] theorem peerWr_session (f : MdFlags) (data : List Byte) (s : State) : (peerWr f data s).session = s.session := by
  unfold peerWr
  dsimp only
  split
  · exact wrLowBytes_session (wrMoves f) data s.peer.devAddr s
  · exact wrWords_session (wrMoves f) data s.peer.devAddr s

@[simp] theorem peerRy_session (s : State) : (peerRy s).session = s.session :=
  s.session_withCart s.cart.ready_map

@[simp] theorem peerCommand_session (b : Byte) (s : State) : (peerCommand b s).session = s.session := by
  unfold peerCommand
  dsimp only
  cases mdKind b with
  | ry => exact peerRy_session s
  | rd => exact peerRd_session _ s
  | wr =>
    dsimp only
    split
    · exact peerWr_session _ [] s
    · rfl
  | addr | len | delay | reserved => rfl

@[simp] theorem peerByte_session (b : Byte) (s : State) : (peerByte b s).session = s.session := by
  unfold peerByte
  cases s.peer.ps with
  | op => exact peerCommand_session b s
  | wrData n f taken =>
    dsimp only
    split
    · exact peerWr_session f _ s
    · rfl
  | addrB | lenB | delayB | undef => rfl

@[simp] theorem peerFeed_session (bytes : List Byte) (s : State) : (peerFeed bytes s).session = s.session := by
  induction bytes generalizing s with
  | nil => rfl
  | cons b rest ih => exact (ih _).trans (peerByte_session b s)

@[simp] theorem drain_session (s : State) : (drain s).session = s.session :=
  peerFeed_session s.peer.inbox { s with peer := { s.peer with inbox := [] } }

@[simp] theorem settlePeer_session (s : State) : (settlePeer s).session = s.session := by
  unfold settlePeer
  split
  · exact drain_session s
  · rfl

section Pieces

/-! ### The shared operations -/

variable {s₀ : State} {α β : Type}

/-- An update that touches nothing State.Continues looks at. -/
theorem continues_upd {f : State → State} (h : ∀ s, (f s).session = s.session) : Keeps s₀.Continues (upd f) :=
  keeps_upd fun s hs => hs.trans (State.Continues.of_session_eq (h s))

/-- A draw that touches nothing State.Continues looks at. -/
theorem continues_draw {take : State → α × State} (h : ∀ s, (take s).2.session = s.session) :
    Keeps s₀.Continues (draw take) :=
  keeps_draw fun s hs => hs.trans (State.Continues.of_session_eq (h s))

theorem continues_raise (e : Err) (info : Nat) : Keeps s₀.Continues (raise e info : Act α) :=
  keeps_raise fun s r hs => hs.trans (State.Continues.of_raise e r s)

theorem continues_check (ok : Bool) (e : Err) (info : Nat) : Keeps s₀.Continues (check ok e info) :=
  keeps_check fun s r hs => hs.trans (State.Continues.of_raise e r s)

theorem continues_raiseTransport (fam : Family) (e : Err) (info : Nat) :
    Keeps s₀.Continues (raiseTransport fam e info : Act α) :=
  fun s hs => hs.trans (State.Continues.of_raiseTransport fam e info s)

theorem continues_readPort (r : ReadableReg) : Keeps s₀.Continues (readPort r) :=
  keeps_bind (keeps_orStop _ _) fun v => keeps_upd fun s hs => hs.trans (State.Continues.of_noteRead v s)

/-- A DBUF read while BUSY = 1 takes a draw and is noted (R371). -/
theorem State.Continues.of_busyReadDbuf (s : State) : s.Continues (busyReadDbuf s) :=
  (State.Continues.of_session_eq (takeFreeByte_session s)).trans (State.Continues.of_noteRead _ _)

/-- A DBUF write while BUSY = 1 takes a draw (R371). -/
@[simp] theorem busyWriteDbuf_session (off : Nat) (s : State) : (busyWriteDbuf off s).session = s.session := by
  unfold busyWriteDbuf
  split
  · exact takeFreeByte_session s
  · rfl

theorem continues_visitAction (a : PortAction) : Keeps s₀.Continues (visitAction a) := by
  cases a with
  | writeReq w => exact keeps_pure _ ()
  | readReg r => exact continues_readPort r
  | readDbuf off => exact keeps_upd fun s hs => hs.trans (State.Continues.of_busyReadDbuf s)
  | writeDbuf off b => exact continues_upd (busyWriteDbuf_session off)
  | reset => exact keeps_pure _ ()

theorem continues_visitActions (actions : List PortAction) : Keeps s₀.Continues (visitActions actions) := by
  induction actions with
  | nil => exact keeps_pure _ none
  | cons a rest ih =>
    by_cases ha : a = .reset
    · subst ha; exact keeps_pure _ (some rest)
    · rw [visitActions_cons rest ha]
      exact keeps_bind (continues_visitAction a) fun _ => ih

/-- Actions without a reset end in none. -/
theorem visitActions_ok_none {actions : List PortAction} {s t : State} {r : Option (List PortAction)}
    (hn : PortAction.reset ∉ actions) (h : visitActions actions s = .ok r t) : r = none := by
  induction actions generalizing s with
  | nil => cases h; rfl
  | cons a rest ih =>
    rw [List.mem_cons, not_or] at hn
    rw [visitActions_cons rest (Ne.symm hn.1), act_bind] at h
    cases hm : visitAction a s with
    | ok x u => rw [hm] at h; exact ih hn.2 h
    | error e u => rw [hm] at h; cases h

/-- The requester's actions at one moment are taken. -/
theorem visit_cons {s : State} {actions : List PortAction} {rest : List (List PortAction)}
    (h : s.env.visits = actions :: rest) :
    visit s = visitActions actions { s with env := { s.env with visits := rest } } := by
  simp [visit, h]

/-- A visit of a requester that will not reset the block ends in none. -/
theorem visit_ok_none {s t : State} {r : Option (List PortAction)} (hn : s.NoReset) (h : visit s = .ok r t) : r = none := by
  cases hv : s.env.visits with
  | nil => rw [visit_none hv] at h; cases h; rfl
  | cons actions rest =>
    rw [visit_cons hv] at h
    exact visitActions_ok_none (hn actions (hv ▸ List.mem_cons_self)) h

theorem continues_visit : Keeps s₀.Continues visit := by
  intro s hs
  cases hv : s.env.visits with
  | nil => rw [visit_none hv]; exact hs
  | cons actions rest =>
    rw [visit_cons hv]
    exact continues_visitActions actions _ (hs.trans (State.Continues.of_tail hv))

/-- What comes after a visit may use that a reset was seen only where one was to come. -/
theorem continues_visit_bind {f : Option (List PortAction) → Act β}
    (hf : ∀ r, (s₀.NoReset → r = none) → Keeps s₀.Continues (f r)) : Keeps s₀.Continues (visit >>= f) := by
  intro s hs
  have hv := continues_visit (s₀ := s₀) s hs
  rw [act_bind]
  cases hr : visit s with
  | ok r t =>
    rw [hr] at hv
    exact hf r (fun hn => visit_ok_none (hs.noReset hn) hr) t hv
  | error e t =>
    rw [hr] at hv
    exact hv

/-- The end of a visit that has seen a reset only where one was to come (R361). -/
theorem continues_endVisit {r : Option (List PortAction)} (h : s₀.NoReset → r = none) :
    Keeps s₀.Continues (endVisit r) := by
  cases r with
  | none => exact keeps_pure _ ()
  | some rest =>
    have hreset : ¬s₀.NoReset := fun hn => by cases h hn
    exact fun s hs => { hs with
      stickyErr := fun hn => absurd hn hreset
      syncLost := fun hn => absurd hn hreset }

theorem continues_meet : Keeps s₀.Continues meet :=
  continues_visit_bind fun _ hr => continues_endVisit hr

/-! ### The transport -/

/-- A TxWrite whose bytes are taken by a piece that keeps the session. -/
theorem continues_txWriteOf (fam : Family) (n : Nat) {first : Nat → Act (List Byte)}
    (hf : ∀ k, Keeps s₀.Continues (first k)) : Keeps s₀.Continues (txWriteOf fam n first) := by
  unfold txWriteOf
  refine continues_visit_bind fun r hr => keeps_bind (continues_draw takeTx_session) fun d =>
    keeps_bind (hf _) fun bytes => keeps_bind (keeps_upd fun s hs => hs.trans (State.Continues.of_transmit bytes s)) fun _ =>
    keeps_bind (continues_endVisit hr) fun _ => ?_
  cases d with
  | accepted k =>
    dsimp only
    split
    · exact continues_raiseTransport fam _ _
    · exact keeps_pure _ ()
  | failed k => exact continues_raiseTransport fam _ _

theorem continues_txWrite (fam : Family) (bytes : List Byte) : Keeps s₀.Continues (txWrite fam bytes) :=
  continues_txWriteOf fam _ fun _ => keeps_pure _ _

theorem continues_rxRead (fam : Family) (n : Nat) : Keeps s₀.Continues (rxRead fam n) :=
  keeps_bind continues_meet fun _ => keeps_bind (continues_upd settlePeer_session) fun _ =>
    keeps_bind (continues_draw takeRx_session) fun _ =>
    keeps_bind (continues_draw (takeReplies_session fam n _)) fun _ => keeps_pure _ _

theorem continues_reopen (t : Nat) : Keeps s₀.Continues (reopen t) := by
  unfold reopen
  refine keeps_bind continues_meet fun _ => keeps_bind (continues_upd settlePeer_session) fun _ =>
    keeps_bind (continues_draw takeReopen_session) fun ok => keeps_bind (continues_upd fun _ => rfl) fun _ => ?_
  split
  · exact keeps_pure _ ()
  · exact continues_raiseTransport _ _ _

/-! ### DBUF -/

theorem continues_maskByte (off : Nat) (b : Byte) : Keeps s₀.Continues (maskByte off b) := by
  intro s hs
  by_cases h : off ∈ s.hazard
  · have hfree : maskByte off b s = .ok (takeFreeByte s).1 (takeFreeByte s).2 := by simp [maskByte, h]
    rw [hfree]
    exact hs.trans (State.Continues.of_session_eq (takeFreeByte_session s))
  · have hown : maskByte off b s = .ok b s := by simp [maskByte, h]
    rw [hown]
    exact hs

theorem continues_maskHazard (off : Nat) (bytes : List Byte) : Keeps s₀.Continues (maskHazard off bytes) := by
  induction bytes generalizing off with
  | nil => exact keeps_pure _ []
  | cons b rest ih =>
    exact keeps_bind (continues_maskByte off b) fun _ => keeps_bind (ih (off + 1)) fun _ => keeps_pure _ _

theorem continues_memRead (off n : Nat) : Keeps s₀.Continues (memRead off n) :=
  keeps_bind (keeps_orStop _ _) fun bytes => continues_maskHazard off bytes

theorem continues_txBytes (parts : List TxPart) (k : Nat) : Keeps s₀.Continues (txBytes parts k) := by
  induction parts generalizing k with
  | nil => exact keeps_pure _ []
  | cons part rest ih =>
    cases part with
    | bytes b => exact keeps_bind (ih _) fun _ => keeps_pure _ _
    | dbuf off n => exact keeps_bind (continues_memRead off _) fun _ => keeps_bind (ih _) fun _ => keeps_pure _ _

theorem continues_txWriteParts (fam : Family) (parts : List TxPart) : Keeps s₀.Continues (txWriteParts fam parts) := by
  unfold txWriteParts
  split
  · exact keeps_pure _ ()
  · exact continues_txWriteOf fam _ (continues_txBytes parts)

theorem continues_storeDbuf (off : Nat) (bytes : List Byte) : Keeps s₀.Continues (storeDbuf off bytes) :=
  keeps_bind (continues_maskHazard off bytes) fun _ => continues_upd fun _ => rfl

theorem continues_checkDbuf (boff : Reg32) (n : Nat) : Keeps s₀.Continues (checkDbuf boff n) :=
  keeps_bind (keeps_look _ _) fun _ => continues_check _ _ _

theorem continues_storeAt (d : Destination) (got : Nat) (bytes : List Byte) : Keeps s₀.Continues (storeAt d got bytes) := by
  cases d with
  | dbuf off => exact continues_storeDbuf _ bytes
  | latch => exact keeps_pure _ ()

theorem continues_rxFillLoop (d : Destination) (n fuel : Nat) (got : List Byte) :
    Keeps s₀.Continues (rxFillLoop d n fuel got) := by
  induction fuel generalizing got with
  | zero => exact keeps_pure _ got
  | succ fuel ih =>
    unfold rxFillLoop
    split
    · exact keeps_pure _ got
    · refine keeps_bind (continues_rxRead _ _) fun r => ?_
      cases r with
      | timedOut t => exact keeps_bind (continues_storeAt d _ t) fun _ => continues_raiseTransport _ _ _
      | failed t => exact keeps_bind (continues_storeAt d _ t) fun _ => continues_raiseTransport _ _ _
      | got t =>
        dsimp only
        split
        · exact continues_raiseTransport _ _ _
        · exact keeps_bind (continues_storeAt d _ t) fun _ => ih _

theorem continues_rxFill (d : Destination) (n : Nat) : Keeps s₀.Continues (rxFill d n) := continues_rxFillLoop d n n []

/-! ### The CRC requests -/

theorem continues_crcContinue (bytes : List Byte) : Keeps s₀.Continues (crcContinue bytes) :=
  keeps_bind (continues_upd fun _ => rfl) fun _ => keeps_look _ _

theorem continues_crcClearBody : Keeps s₀.Continues crcClearBody :=
  keeps_bind (continues_upd fun _ => rfl) fun _ => keeps_pure _ _

theorem continues_crcBlockBody (boff len : Reg32) : Keeps s₀.Continues (crcBlockBody boff len) :=
  keeps_bind (continues_checkDbuf boff _) fun _ => keeps_bind continues_meet fun _ =>
    keeps_bind (continues_memRead _ _) fun bytes => continues_crcContinue bytes

/-! ### The MD stream requests -/

@[simp] theorem setCursor_session (w : WordAddr) (s : State) : (setCursor w s).session = s.session := rfl

@[simp] theorem advanceCursor_session (words : Nat) (s : State) : (advanceCursor words s).session = s.session := by
  unfold advanceCursor
  split <;> rfl

theorem continues_wordAddress (addr : Reg32) : Keeps s₀.Continues (wordAddress addr) :=
  keeps_bind (continues_check _ _ _) fun _ => keeps_pure _ _

theorem continues_mdSeekBody (whence : BitVec 2) (addr : Reg32) : Keeps s₀.Continues (mdSeekBody whence addr) :=
  keeps_bind (continues_check _ _ _) fun _ => keeps_bind (continues_check _ _ _) fun _ =>
    keeps_bind (continues_check _ _ _) fun _ => keeps_bind (continues_wordAddress addr) fun w =>
    keeps_bind (continues_txWrite _ _) fun _ => keeps_bind (continues_upd (setCursor_session w)) fun _ => keeps_pure _ _

theorem continues_checkBulk (boff len : Reg32) : Keeps s₀.Continues (checkBulk boff len) :=
  keeps_bind (continues_check _ _ _) fun _ => continues_checkDbuf boff _

theorem continues_readChunks (sizes : List Nat) (off : Nat) : Keeps s₀.Continues (readChunks sizes off) := by
  induction sizes generalizing off with
  | nil => exact keeps_pure _ ()
  | cons c rest ih =>
    exact keeps_bind (continues_txWrite _ _) fun _ => keeps_bind (continues_rxFill _ _) fun _ =>
      keeps_bind (continues_upd (advanceCursor_session _)) fun _ => ih _

theorem continues_mdReadBody (boff len : Reg32) : Keeps s₀.Continues (mdReadBody boff len) :=
  keeps_bind (continues_checkBulk boff len) fun _ => keeps_bind (continues_readChunks _ _) fun _ => keeps_pure _ _

theorem continues_mdWriteBody (boff len : Reg32) : Keeps s₀.Continues (mdWriteBody boff len) :=
  keeps_bind (continues_checkBulk boff len) fun _ => keeps_bind (continues_txWriteParts _ _) fun _ =>
    keeps_bind (continues_upd (advanceCursor_session _)) fun _ => keeps_pure _ _

theorem continues_mdReadWordBody (addr : Reg32) : Keeps s₀.Continues (mdReadWordBody addr) :=
  keeps_bind (continues_wordAddress addr) fun w => keeps_bind (continues_txWrite _ _) fun _ =>
    keeps_bind (continues_upd (setCursor_session w)) fun _ => keeps_bind (continues_rxFill _ _) fun _ => keeps_pure _ _

theorem continues_wordWrite (addr : Reg32) (v : Word) : Keeps s₀.Continues (wordWrite addr v) :=
  keeps_bind (continues_wordAddress addr) fun w => keeps_bind (continues_txWrite _ _) fun _ =>
    keeps_bind (continues_upd (setCursor_session w)) fun _ => keeps_pure _ _

theorem continues_ramCtl (v : Word) (d : Byte) : Keeps s₀.Continues (ramCtl v d) :=
  keeps_bind (continues_txWrite _ _) fun _ => keeps_bind (continues_upd (setCursor_session _)) fun _ =>
    continues_upd fun _ => rfl

/-- An error's effect beside the error itself, where it touches nothing State.Continues looks at. -/
theorem continues_onRaise {f : State → State} {m : Act α} (hf : ∀ s, (f s).session = s.session)
    (hm : Keeps s₀.Continues m) : Keeps s₀.Continues (onRaise f m) :=
  keeps_onRaise (fun s hs => hs.trans (State.Continues.of_session_eq (hf s))) hm

@[simp] theorem loseRamMode_session (s : State) : (loseRamMode s).session = s.session := settlePeer_session s

theorem continues_mdRamEnableBody : Keeps s₀.Continues mdRamEnableBody :=
  keeps_bind (keeps_look _ _) fun _ => keeps_bind (continues_onRaise loseRamMode_session (continues_ramCtl _ _)) fun _ =>
    keeps_bind (continues_upd fun _ => rfl) fun _ => keeps_pure _ _

theorem continues_mdRamDisableBody : Keeps s₀.Continues mdRamDisableBody :=
  keeps_bind (keeps_look _ _) fun _ => keeps_bind (continues_onRaise loseRamMode_session (continues_ramCtl _ _)) fun _ =>
    keeps_bind (continues_upd fun _ => rfl) fun _ => keeps_pure _ _

theorem continues_getId : Keeps s₀.Continues getId :=
  keeps_bind (continues_txWrite _ _) fun _ => keeps_bind (continues_rxFill _ _) fun _ => keeps_pure _ _

theorem continues_mdGetIdBody : Keeps s₀.Continues mdGetIdBody :=
  keeps_bind continues_getId fun _ => keeps_pure _ _

theorem continues_setAttempt (n : BitVec 2) : Keeps s₀.Continues (setAttempt n) := continues_upd fun _ => rfl

theorem continues_mdHandshakeBody : Keeps s₀.Continues mdHandshakeBody := by
  unfold mdHandshakeBody
  refine keeps_bind (continues_setAttempt 0) fun _ => keeps_bind continues_getId fun id =>
    keeps_bind (continues_setAttempt 1) fun _ => ?_
  split
  · refine keeps_bind (keeps_look _ _) fun cfg => keeps_bind (continues_reopen _) fun _ =>
      keeps_bind continues_getId fun id => keeps_bind (continues_setAttempt 2) fun _ => ?_
    split
    · exact keeps_bind (continues_setAttempt 0) fun _ => continues_raise _ _
    · exact keeps_bind (continues_txWrite _ _) fun _ => keeps_bind (continues_upd fun _ => rfl) fun _ =>
        keeps_bind (continues_setAttempt 0) fun _ => keeps_pure _ _
  · exact keeps_bind (continues_setAttempt 0) fun _ => keeps_pure _ _

/-! ### The flash requests -/

@[simp] theorem loseFlash_session (a n : Nat) (s : State) : (loseFlash a n s).session = s.session := settlePeer_session s

theorem continues_checkErase (addr : Reg32) : Keeps s₀.Continues (checkErase addr) :=
  keeps_bind (continues_check _ _ _) fun _ => continues_check _ _ _

theorem continues_eraseIo (addr : Reg32) : Keeps s₀.Continues (eraseIo addr) :=
  keeps_bind (keeps_look _ _) fun _ => keeps_bind (continues_txWrite _ _) fun _ =>
    keeps_bind (continues_rxFill _ _) fun _ => continues_upd (setCursor_session _)

theorem continues_mdFlashEraseBody (addr : Reg32) : Keeps s₀.Continues (mdFlashEraseBody addr) :=
  keeps_bind (continues_checkErase addr) fun _ =>
    keeps_bind (continues_onRaise (loseFlash_session _ _) (continues_eraseIo addr)) fun _ => keeps_pure _ _

theorem continues_sendSequence (seq : List (Nat × Word)) : Keeps s₀.Continues (sendSequence seq) := by
  unfold sendSequence
  refine keeps_bind (continues_txWrite _ _) fun _ => ?_
  split
  · exact continues_upd (setCursor_session _)
  · exact keeps_pure _ ()

theorem continues_mdFlashUnlockBypassBody : Keeps s₀.Continues mdFlashUnlockBypassBody :=
  keeps_bind (keeps_look _ _) fun _ => keeps_bind (continues_sendSequence _) fun _ =>
    keeps_bind (continues_upd fun _ => rfl) fun _ => keeps_pure _ _

theorem continues_mdFlashResetBypassBody : Keeps s₀.Continues mdFlashResetBypassBody :=
  keeps_bind (keeps_look _ _) fun _ => keeps_bind (continues_sendSequence _) fun _ =>
    keeps_bind (continues_upd fun _ => rfl) fun _ => keeps_pure _ _

theorem continues_programWords (cfg : Params) (words off : Nat) : Keeps s₀.Continues (programWords cfg words off) := by
  induction words generalizing off with
  | zero => exact keeps_pure _ ()
  | succ words ih =>
    exact keeps_bind (continues_txWriteParts _ _) fun _ => keeps_bind (continues_rxFill _ _) fun _ =>
      keeps_bind (continues_upd (advanceCursor_session 1)) fun _ => ih _

theorem continues_programIo (words off : Nat) : Keeps s₀.Continues (programIo words off) := by
  unfold programIo
  refine keeps_bind (keeps_look _ _) fun cfg => ?_
  split
  · exact continues_programWords cfg words off
  · exact keeps_bind (continues_txWriteParts _ _) fun _ => continues_upd (advanceCursor_session words)

theorem continues_mdFlashWriteBody (boff len : Reg32) : Keeps s₀.Continues (mdFlashWriteBody boff len) :=
  keeps_bind (continues_checkBulk boff len) fun _ => keeps_bind (keeps_look _ _) fun _ =>
    keeps_bind (continues_onRaise (loseFlash_session _ _) (continues_programIo _ _)) fun _ => keeps_pure _ _

/-! ### The framer's requests -/

@[simp] theorem buildPacket_session (p : List Byte) (s : State) : (buildPacket p s).session = s.session := by
  unfold buildPacket
  split <;> rfl

theorem continues_sendPacket (p : List Byte) : Keeps s₀.Continues (sendPacket p) := by
  unfold sendPacket
  split
  · exact keeps_bind (continues_upd fun _ => rfl) fun _ => keeps_bind (continues_txWrite _ _) fun _ => keeps_pure _ _
  · exact keeps_bind (continues_txWrite _ _) fun _ => keeps_pure _ _

theorem continues_sendBuilt (p : List Byte) : Keeps s₀.Continues (sendBuilt p) :=
  keeps_bind (continues_upd (buildPacket_session p)) fun _ => continues_sendPacket p

theorem continues_storeRx (off : Nat) (bytes : List Byte) : Keeps s₀.Continues (upd (storeRx off bytes)) :=
  continues_upd fun _ => rfl

theorem continues_receivePacket : Keeps s₀.Continues receivePacket := by
  unfold receivePacket
  refine keeps_bind (continues_upd fun _ => rfl) fun _ => keeps_bind (continues_rxRead _ _) fun first => ?_
  split
  · exact keeps_bind (continues_storeRx _ _) fun _ => continues_raiseTransport _ _ _
  · exact keeps_bind (continues_storeRx _ _) fun _ => continues_raiseTransport _ _ _
  · exact continues_raiseTransport _ _ _
  · refine keeps_bind (continues_storeRx _ _) fun _ => ?_
    split
    · exact keeps_bind (continues_upd fun _ => rfl) fun _ => keeps_pure _ _
    · refine keeps_bind (continues_rxRead _ _) fun rest => ?_
      cases rest with
      | timedOut t => exact keeps_bind (continues_storeRx _ _) fun _ => continues_raiseTransport _ _ _
      | failed t => exact keeps_bind (continues_storeRx _ _) fun _ => continues_raiseTransport _ _ _
      | got t =>
        refine keeps_bind (continues_storeRx _ _) fun _ => ?_
        split
        · exact continues_raiseTransport _ _ _
        · exact keeps_bind (continues_upd fun _ => rfl) fun _ => keeps_pure _ _

theorem continues_checkPacket (p : List Byte) : Keeps s₀.Continues (checkPacket p) := by
  unfold checkPacket
  refine keeps_bind (keeps_look _ _) fun n => ?_
  split
  · exact continues_raise _ _
  · exact keeps_bind (continues_upd fun _ => rfl) fun _ => keeps_bind (continues_check _ _ _) fun _ => keeps_pure _ _

theorem continues_pktBuildBody (c m sub : Byte) (index : BitVec 24) (boff : Reg32) :
    Keeps s₀.Continues (pktBuildBody c m sub index boff) := by
  unfold pktBuildBody
  split
  · exact continues_raise _ _
  · split
    · exact keeps_bind (continues_upd (buildPacket_session _)) fun _ => keeps_pure _ _
    · exact keeps_bind (continues_checkDbuf boff 64) fun _ => keeps_bind continues_meet fun _ =>
        keeps_bind (continues_memRead _ _) fun _ => keeps_bind (continues_upd (buildPacket_session _)) fun _ =>
        keeps_pure _ _

theorem continues_pktSendBody : Keeps s₀.Continues pktSendBody :=
  keeps_bind (keeps_look _ _) fun _ => keeps_bind (continues_check _ _ _) fun _ => keeps_bind (keeps_orStop _ _) fun p =>
    keeps_bind (continues_sendPacket p) fun _ => keeps_pure _ _

theorem continues_pktReceiveBody : Keeps s₀.Continues pktReceiveBody :=
  keeps_bind continues_receivePacket fun _ => keeps_pure _ _

theorem continues_pktCheckBody : Keeps s₀.Continues pktCheckBody :=
  keeps_bind (keeps_orStop _ _) fun p => keeps_bind (continues_checkPacket p) fun _ => keeps_pure _ _

/-! ### The paged transfers -/

theorem continues_setXState (x : XState) : Keeps s₀.Continues (setXState x) := continues_upd fun _ => rfl

theorem continues_startTransfer (dir : BitVec 2) (n : Nat) (boff : Reg32) :
    Keeps s₀.Continues (startTransfer dir n boff) := continues_upd fun _ => rfl

theorem continues_countFrame : Keeps s₀.Continues countFrame := continues_upd fun _ => rfl

theorem continues_finishTransfer : Keeps s₀.Continues finishTransfer :=
  keeps_bind (continues_setXState .done) fun _ => keeps_look _ _

theorem continues_checkTransfer (boff len : Reg32) : Keeps s₀.Continues (checkTransfer boff len) :=
  keeps_bind (continues_check _ _ _) fun _ => continues_checkDbuf boff _

theorem continues_acceptData (p : List Byte) : Keeps s₀.Continues (acceptData p) :=
  keeps_bind (continues_checkPacket p) fun _ => keeps_bind (continues_check _ _ _) fun _ =>
    keeps_bind (keeps_look _ _) fun _ => keeps_bind (keeps_look _ _) fun _ => keeps_bind (keeps_look _ _) fun _ =>
    keeps_bind (continues_check _ _ _) fun _ => continues_check _ _ _

theorem continues_storeFrame (p : List Byte) : Keeps s₀.Continues (storeFrame p) :=
  keeps_bind (keeps_look _ _) fun _ => keeps_bind (keeps_look _ _) fun _ =>
    keeps_bind (continues_storeDbuf _ _) fun _ => continues_countFrame

theorem continues_readLoop (fuel : Nat) : Keeps s₀.Continues (readLoop fuel) := by
  induction fuel with
  | zero => exact keeps_look _ _
  | succ fuel ih =>
    unfold readLoop
    refine keeps_bind continues_receivePacket fun p => ?_
    split
    · refine keeps_bind (keeps_look _ _) fun _ => keeps_bind (keeps_look _ _) fun _ => ?_
      split
      · exact continues_finishTransfer
      · exact continues_raise _ _
    · refine keeps_bind (continues_acceptData p) fun _ => keeps_bind (continues_storeFrame p) fun _ =>
        keeps_bind (keeps_look _ _) fun _ => keeps_bind (keeps_look _ _) fun _ => ?_
      split
      · exact continues_finishTransfer
      · exact keeps_bind (continues_setXState .continuing) fun _ => keeps_bind (continues_sendBuilt _) fun _ =>
          keeps_bind (continues_setXState .awaitResponse) fun _ => ih

theorem continues_gbReadRamBody (boff len : Reg32) : Keeps s₀.Continues (gbReadRamBody boff len) :=
  keeps_bind (continues_checkTransfer boff len) fun _ => keeps_bind (continues_startTransfer _ _ _) fun _ =>
    keeps_bind (keeps_look _ _) fun _ => keeps_bind (continues_sendBuilt _) fun _ =>
    keeps_bind (continues_setXState _) fun _ => continues_readLoop _

theorem continues_expectAck : Keeps s₀.Continues expectAck :=
  keeps_bind continues_receivePacket fun _ => continues_check _ _ _

theorem continues_loadPacket (mk : List Byte → List Byte) (off : Nat) : Keeps s₀.Continues (loadPacket mk off) :=
  keeps_bind (continues_memRead off 64) fun _ => keeps_bind (continues_upd (buildPacket_session _)) fun _ =>
    keeps_bind (continues_upd fun _ => rfl) fun _ => keeps_pure _ _

theorem continues_wirePacket (off : Nat) (p : List Byte) : Keeps s₀.Continues (wirePacket off p) :=
  keeps_bind (continues_maskHazard off _) fun _ => keeps_pure _ _

theorem continues_sendLoaded (mk : List Byte → List Byte) (off : Nat) : Keeps s₀.Continues (sendLoaded mk off) :=
  keeps_bind (continues_loadPacket mk off) fun _ => continues_txWriteOf _ _ fun _ =>
    keeps_bind (continues_loadPacket mk off) fun p => keeps_bind (continues_wirePacket off p) fun _ => keeps_pure _ _

theorem continues_writeLoop (packets : Nat) : Keeps s₀.Continues (writeLoop packets) := by
  induction packets with
  | zero => exact keeps_pure _ ()
  | succ packets ih =>
    exact keeps_bind (continues_setXState .continuing) fun _ => keeps_bind (keeps_look _ _) fun _ =>
      keeps_bind (keeps_look _ _) fun _ => keeps_bind (keeps_look _ _) fun _ => keeps_bind (keeps_look _ _) fun _ =>
      keeps_bind (continues_sendLoaded _ _) fun _ => keeps_bind (continues_setXState .awaitResponse) fun _ =>
      keeps_bind continues_expectAck fun _ => keeps_bind continues_countFrame fun _ => ih

theorem continues_gbWriteRamBody (boff len : Reg32) : Keeps s₀.Continues (gbWriteRamBody boff len) :=
  keeps_bind (continues_checkTransfer boff len) fun _ => keeps_bind (continues_startTransfer _ _ _) fun _ =>
    keeps_bind (keeps_look _ _) fun _ => keeps_bind (continues_sendBuilt _) fun _ =>
    keeps_bind (continues_setXState _) fun _ => keeps_bind continues_expectAck fun _ =>
    keeps_bind (continues_writeLoop _) fun _ => continues_finishTransfer

theorem continues_statusQuery (sub : Byte) (boff : Reg32) : Keeps s₀.Continues (statusQuery sub boff) :=
  keeps_bind (continues_checkDbuf boff 64) fun _ => keeps_bind (continues_startTransfer _ _ _) fun _ =>
    keeps_bind (continues_sendBuilt _) fun _ => keeps_bind (continues_setXState _) fun _ =>
    keeps_bind continues_receivePacket fun p => keeps_bind (continues_checkPacket p) fun _ =>
    keeps_bind (continues_storeFrame p) fun _ => continues_finishTransfer

end Pieces

/-! ### Instructions -/

/-- A request continues the session that every piece of it continues (R320). -/
theorem State.Continues.of_request {m : Act Reg32} {s t : State} (hm : Keeps s.Continues m) (h : request m s = .next t) :
    s.Continues t := by
  cases hb : s.busy with
  | true =>
    rw [request_busy hb] at h
    cases h
    exact State.Continues.refl s
  | false =>
    rw [request_ready hb] at h
    exact keeps_runRequest (fun u hu => hu.trans (State.Continues.of_session_eq rfl))
      (fun u r hu => hu.trans (State.Continues.of_session_eq rfl)) hm (State.Continues.refl s) h

theorem State.Continues.of_mdFrame {i : Instr} {effect : State → State} {s t : State}
    (he : (effect s).session = s.session) (h : mdFrame i effect s = .next t) : s.Continues t := by
  unfold mdFrame at h
  cases h
  split
  · exact State.Continues.of_session_eq he
  · exact State.Continues.of_session_eq (peerFeed_session _ s)

theorem State.Continues.of_wrFrame {i : Instr} {f : MdFlags} {data : List Byte} {s t : State}
    (h : wrFrame i f data s = .next t) : s.Continues t := by
  unfold wrFrame at h
  cases h
  split
  · exact State.Continues.of_session_eq (peerWr_session f data s)
  · exact State.Continues.of_session_eq (peerFeed_session _ s)

/-- A packet sent alone meets no action of the requester. -/
theorem State.Continues.of_sendAlone {p : List Byte} {s t : State} (h : sendAlone p s = .next t) : s.Continues t := by
  have hk := continues_sendBuilt p { s with env := { s.env with visits := [] } } (State.Continues.refl _)
  unfold sendAlone at h
  dsimp only at h
  split at h <;> cases h
  all_goals
    next hr =>
    rw [hr] at hk
    exact hk.restore_visits

/-- Every instruction continues the session. -/
theorem State.Continues.of_exec {i : Instr} {s t : State} (h : exec i s = .next t) : s.Continues t := by
  cases i with
  | crcClear => exact State.Continues.of_request continues_crcClearBody h
  | crcByte b => exact State.Continues.of_request (continues_crcContinue [b]) h
  | crcBlock boff len => exact State.Continues.of_request (continues_crcBlockBody boff len) h
  | pktBuild c m sub index boff => exact State.Continues.of_request (continues_pktBuildBody c m sub index boff) h
  | pktSend => exact State.Continues.of_request continues_pktSendBody h
  | pktReceive => exact State.Continues.of_request continues_pktReceiveBody h
  | pktCheck => exact State.Continues.of_request continues_pktCheckBody h
  | gbReadRam boff len => exact State.Continues.of_request (continues_gbReadRamBody boff len) h
  | gbWriteRam boff len => exact State.Continues.of_request (continues_gbWriteRamBody boff len) h
  | gbReadDeviceStatus boff => exact State.Continues.of_request (continues_statusQuery subNreadId boff) h
  | gbReadStatus boff => exact State.Continues.of_request (continues_statusQuery subReadId boff) h
  | mdSeek whence addr => exact State.Continues.of_request (continues_mdSeekBody whence addr) h
  | mdRead boff len => exact State.Continues.of_request (continues_mdReadBody boff len) h
  | mdWrite boff len => exact State.Continues.of_request (continues_mdWriteBody boff len) h
  | mdReadWord addr => exact State.Continues.of_request (continues_mdReadWordBody addr) h
  | mdWriteWord addr v => exact State.Continues.of_request (continues_wordWrite addr v) h
  | mdWriteByte addr b => exact State.Continues.of_request (continues_wordWrite addr (word16 0x00 b)) h
  | mdRamEnable => exact State.Continues.of_request continues_mdRamEnableBody h
  | mdRamDisable => exact State.Continues.of_request continues_mdRamDisableBody h
  | mdGetId => exact State.Continues.of_request continues_mdGetIdBody h
  | mdHandshake => exact State.Continues.of_request continues_mdHandshakeBody h
  | mdFlashErase addr => exact State.Continues.of_request (continues_mdFlashEraseBody addr) h
  | mdFlashUnlockBypass => exact State.Continues.of_request continues_mdFlashUnlockBypassBody h
  | mdFlashResetBypass => exact State.Continues.of_request continues_mdFlashResetBypassBody h
  | mdFlashWrite boff len => exact State.Continues.of_request (continues_mdFlashWriteBody boff len) h
  | addr | len | delay => exact State.Continues.of_mdFrame rfl h
  | ry => exact State.Continues.of_mdFrame (peerRy_session s) h
  | rd | rdMode8 | rdDevId | rdMode8DevId | rdSingle | rdMode8Single | rdDevIdSingle | rdMode8DevIdSingle | rdInc | rdMode8Inc
  | rdDevIdInc | rdMode8DevIdInc | rdSingleInc | rdMode8SingleInc | rdDevIdSingleInc | rdMode8DevIdSingleInc =>
    exact State.Continues.of_mdFrame (peerRd_session _ s) h
  | wr | wrMode8 | wrDevId | wrMode8DevId | wrSingle | wrMode8Single | wrDevIdSingle | wrMode8DevIdSingle | wrInc | wrMode8Inc
  | wrDevIdInc | wrMode8DevIdInc | wrSingleInc | wrMode8SingleInc | wrDevIdSingleInc | wrMode8DevIdSingleInc =>
    exact State.Continues.of_wrFrame h
  | mdReservedOp67 | mdReservedOp8F | mdReservedAddrWithFlags | mdReservedLenWithFlags | mdReservedRyWithFlags
  | mdReservedDelayWithFlags => exact State.Continues.of_mdFrame rfl h
  | gbAck | gbNak | gbEnd | gbDataConfigRrom | gbDataConfigRram | gbDataConfigWrom | gbDataConfigWram | gbDataNormalData
  | gbDataLastData | gbDataEraseEfla | gbDataEraseEram | gbDataStatusNreadId | gbDataStatusReadId =>
    exact State.Continues.of_sendAlone h

/-! ### What a step finds -/

/-- What a step finds continues the session: an instruction in the state in which it runs, anything else where it leads to a next
state. -/
def Fetched.Continues (s : State) : Fetched → Prop
  | .instr _ u => s.Continues u
  | .outcome o => ∀ t, o = .next t → s.Continues t

/-- Something found that continues a later state of the session. -/
theorem Fetched.Continues.of_session_eq {s u : State} {f : Fetched} (hu : u.session = s.session) (h : f.Continues u) :
    f.Continues s := by
  have hsu : s.Continues u := State.Continues.of_session_eq hu
  cases f with
  | instr i v => exact hsu.trans h
  | outcome o => exact fun t ht => hsu.trans (h t ht)

/-- An outcome that is a given next state. -/
theorem Fetched.Continues.of_next {s u : State} (h : s.Continues u) : (Fetched.outcome (.next u)).Continues s := by
  intro t ht
  cases ht
  exact h

theorem State.Continues.of_rejectRequest {e : DecodeError} {s t : State} (h : rejectRequest e s = .next t) : s.Continues t := by
  unfold rejectRequest at h
  split at h <;> exact State.Continues.of_request (continues_raise _ _) h

theorem State.Continues.of_rejectPacket {e : DecodeError} {s t : State} (h : rejectPacket e s = .next t) : s.Continues t := by
  unfold rejectPacket at h
  split at h <;> cases h <;> exact State.Continues.of_raise _ _ s

theorem writeRequest_continues (w : BitVec 128) (s : State) : (writeRequest w s).Continues s := by
  unfold writeRequest
  split
  · exact Fetched.Continues.of_next (State.Continues.refl s)
  · refine Fetched.Continues.of_session_eq (u := { s with req := w }) rfl ?_
    dsimp only
    split
    · exact State.Continues.refl _
    · exact fun t => State.Continues.of_rejectRequest

theorem State.Continues.of_portOutcome {m : Act Unit} {s t : State} (hm : Keeps s.Continues m)
    (h : portOutcome m s = .next t) : s.Continues t := by
  have hk := hm s (State.Continues.refl s)
  unfold portOutcome at h
  split at h <;> cases h
  all_goals
    next hr =>
    rw [hr] at hk
    exact hk

theorem State.Continues.of_readDbuf {off : Nat} {s t : State} (h : readDbuf off s = .next t) : s.Continues t := by
  unfold readDbuf at h
  split at h
  · cases h; exact State.Continues.of_busyReadDbuf s
  · split at h
    · cases h
    · split at h <;> cases h
      exact State.Continues.of_noteRead _ s

theorem State.Continues.of_writeDbuf {off : Nat} {b : Byte} {s t : State} (h : writeDbuf off b s = .next t) :
    s.Continues t := by
  unfold writeDbuf at h
  split at h
  · cases h; exact State.Continues.of_session_eq (busyWriteDbuf_session off s)
  · split at h <;> cases h
    exact State.Continues.of_session_eq rfl

/-- The requester's actions but for a reset continue the session. -/
theorem portAction_continues {a : PortAction} (s : State) (ha : a ≠ .reset) : (portAction a s).Continues s := by
  cases a with
  | writeReq w => exact writeRequest_continues w s
  | readReg r => exact fun t => State.Continues.of_portOutcome (continues_readPort r)
  | readDbuf off => exact fun t => State.Continues.of_readDbuf
  | writeDbuf off b => exact fun t => State.Continues.of_writeDbuf
  | reset => exact absurd rfl ha

theorem peerFetch_continues (s : State) : (peerFetch s).Continues s := by
  unfold peerFetch
  split
  · split
    · exact State.Continues.of_session_eq rfl
    · exact Fetched.Continues.of_next (State.Continues.of_session_eq (drain_session s))
  · split
    · exact Fetched.Continues.of_next (State.Continues.refl s)
    · exact Fetched.Continues.of_next (State.Continues.of_session_eq (peerByte_session _ _))

/-- Everything a step can find: something that continues the session, or the requester's reset (R360). -/
theorem fetch_cases (s : State) : (fetch s).Continues s ∨
    ∃ rest, s.port = .reset :: rest ∧ fetch s = .outcome (.next ({ s with port := rest } : State).blockReset) := by
  unfold fetch
  split
  · exact .inl (peerFetch_continues s)
  · split
    · next p rest hp =>
      refine .inl (Fetched.Continues.of_session_eq (u := { s with pktPort := rest }) rfl ?_)
      dsimp only
      split
      · exact State.Continues.refl _
      · exact fun t => State.Continues.of_rejectPacket
    · split
      · exact .inl (Fetched.Continues.of_next (State.Continues.refl s))
      · next a rest hport =>
        by_cases ha : a = .reset
        · subst ha
          exact .inr ⟨rest, hport, rfl⟩
        · exact .inl (Fetched.Continues.of_session_eq (u := { s with port := rest }) rfl (portAction_continues _ ha))

/-! ### The step -/

/-- Everything a step can lead to: a state that continues the session, or the requester's reset of this one (R360). -/
theorem step_cases {s t : State} (h : step s = .next t) :
    s.Continues t ∨ ∃ rest, s.port = .reset :: rest ∧ t = ({ s with port := rest } : State).blockReset := by
  unfold step at h
  rcases fetch_cases s with hf | ⟨rest, hport, hf⟩
  · refine .inl ?_
    cases hg : fetch s with
    | instr i u =>
      rw [hg] at h hf
      exact hf.trans (State.Continues.of_exec h)
    | outcome o =>
      rw [hg] at h hf
      exact hf t h
  · rw [hf] at h
    cases h
    exact .inr ⟨rest, hport, rfl⟩

/-- Settles O58: every step continues the session, but for the requester's reset, which ResetFree excludes where the sticky flags are
concerned. -/
theorem stepKeepsParameters : Obligations.StepKeepsParameters := by
  intro s t h
  rcases step_cases h with hc | ⟨rest, hport, rfl⟩
  · exact ⟨hc.cfg, hc.adapter, hc.identity, hc.map, hc.txLog, hc.reads, fun hfree =>
      ⟨hc.stickyErr hfree.2, hc.syncLost hfree.2⟩⟩
  · have hnot : ¬s.ResetFree := fun hfree => hfree.1 (by rw [hport]; rfl)
    exact ⟨rfl, rfl, rfl, rfl, List.prefix_refl _, List.prefix_refl _, fun hfree => absurd hfree hnot⟩

end Sys2Proof.Machine
end

section
/-! SUPPORT. -/
namespace Sys2Proof.Machine

/-- Everything a byte of the TX stream can touch: the draws, the cartridge and the adapter (R290). -/
theorem peerByte_frame (b : Byte) (s : State) : ∃ env cart peer, peerByte b s = { s with env := env, cart := cart, peer := peer } := by
  have hrd (f : MdFlags) : ∃ env cart peer, peerRd f s = { s with env := env, cart := cart, peer := peer } := by
    obtain ⟨env, cart, idr, h⟩ := peerRd_frame f s
    exact ⟨env, cart, _, h⟩
  have hwr (f : MdFlags) (data : List Byte) : ∃ env cart peer, peerWr f data s = { s with env := env, cart := cart, peer := peer } := by
    obtain ⟨cart, h⟩ := peerWr_frame f data s
    exact ⟨s.env, cart, _, h⟩
  unfold peerByte
  cases s.peer.ps with
  | op =>
    dsimp only [peerCommand]
    cases mdKind b with
    | rd => exact hrd _
    | wr =>
      dsimp only
      split
      · exact hwr _ _
      · exact ⟨_, _, _, rfl⟩
    | ry | reserved => exact ⟨s.env, _, _, rfl⟩
    | addr | len | delay => exact ⟨s.env, s.cart, _, rfl⟩
  | wrData n f taken =>
    dsimp only
    split
    · exact hwr f _
    · exact ⟨s.env, s.cart, _, rfl⟩
  | undef => exact ⟨s.env, s.cart, s.peer, rfl⟩
  | addrB | lenB | delayB => exact ⟨s.env, s.cart, _, rfl⟩

theorem peerFeed_frame (bytes : List Byte) (s : State) :
    ∃ env cart peer, peerFeed bytes s = { s with env := env, cart := cart, peer := peer } := by
  induction bytes generalizing s with
  | nil => exact ⟨s.env, s.cart, s.peer, rfl⟩
  | cons b rest ih =>
    obtain ⟨e1, c1, p1, h1⟩ := peerByte_frame b s
    obtain ⟨e2, c2, p2, h2⟩ := ih (peerByte b s)
    exact ⟨e2, c2, p2, by rw [peerFeed_cons, h2, h1]⟩

theorem peerFeed_hazard (bytes : List Byte) (s : State) : (peerFeed bytes s).hazard = s.hazard := by
  obtain ⟨env, cart, peer, h⟩ := peerFeed_frame bytes s
  rw [h]

theorem peerRd_hazard (f : MdFlags) (s : State) : (peerRd f s).hazard = s.hazard := by
  obtain ⟨env, cart, idr, h⟩ := peerRd_frame f s
  rw [h]

theorem peerWr_hazard (f : MdFlags) (data : List Byte) (s : State) : (peerWr f data s).hazard = s.hazard := by
  obtain ⟨cart, h⟩ := peerWr_frame f data s
  rw [h]

/-- Everything the adapter can touch when it executes what has reached it. -/
theorem settlePeer_frame (s : State) :
    ∃ env cart peer, settlePeer s = { s with env := env, cart := cart, peer := peer } := by
  unfold settlePeer
  split
  · exact peerFeed_frame s.peer.inbox { s with peer := { s.peer with inbox := [] } }
  · exact ⟨s.env, s.cart, s.peer, rfl⟩

end Sys2Proof.Machine
end

section
/-! SUPPORT. Triples over the pieces of a request: from a state that meets a precondition, a piece that completes leaves its
postcondition, and one that ends the request leaves the ending condition. -/

namespace Sys2Proof.Machine

variable {α β : Type} {P P' R : State → Prop} {Q Q' : α → State → Prop} {E E' : Ended → State → Prop}

/-- From P, a piece that completes ends in Q, and one that ends the request in E. -/
def Triple (P : State → Prop) (m : Act α) (Q : α → State → Prop) (E : Ended → State → Prop) : Prop :=
  ∀ s, P s → match m s with
    | .ok a t => Q a t
    | .error e t => E e t

theorem Triple.ok {m : Act α} {s t : State} {a : α} (h : Triple P m Q E) (hs : P s) (hm : m s = .ok a t) : Q a t := by
  have hk := h s hs
  rwa [hm] at hk

theorem Triple.error {m : Act α} {s t : State} {e : Ended} (h : Triple P m Q E) (hs : P s) (hm : m s = .error e t) : E e t := by
  have hk := h s hs
  rwa [hm] at hk

theorem Triple.weaken {m : Act α} (h : Triple P m Q E) (hP : ∀ s, P' s → P s) (hQ : ∀ a s, Q a s → Q' a s)
    (hE : ∀ e s, E e s → E' e s) : Triple P' m Q' E' := by
  intro s hs
  have hk := h s (hP s hs)
  cases hm : m s with
  | ok a t => rw [hm] at hk; exact hQ a t hk
  | error e t => rw [hm] at hk; exact hE e t hk

theorem Triple.pre {m : Act α} (h : Triple P m Q E) (hP : ∀ s, P' s → P s) : Triple P' m Q E :=
  h.weaken hP (fun _ _ => id) (fun _ _ => id)

theorem Triple.post {m : Act α} (h : Triple P m Q E) (hQ : ∀ a s, Q a s → Q' a s) : Triple P m Q' E :=
  h.weaken (fun _ => id) hQ (fun _ _ => id)

theorem triple_pure {a : α} (h : ∀ s, P s → Q a s) : Triple P (pure a : Act α) Q E := h

theorem triple_bind {m : Act β} {f : β → Act α} {R : β → State → Prop} (hm : Triple P m R E)
    (hf : ∀ b, Triple (R b) (f b) Q E) : Triple P (m >>= f) Q E := by
  intro s hs
  have hk := hm s hs
  rw [act_bind]
  cases hr : m s with
  | ok b t => rw [hr] at hk; exact hf b t hk
  | error e t => rw [hr] at hk; exact hk

theorem triple_upd {f : State → State} {Q : Unit → State → Prop} (h : ∀ s, P s → Q () (f s)) : Triple P (upd f) Q E := h

theorem triple_look {f : State → α} (h : ∀ s, P s → Q (f s) s) : Triple P (look f) Q E := h

/-- A register read: what follows may use that it is the register's value. -/
theorem triple_look_bind {f : State → β} {g : β → Act α} (h : ∀ b, Triple (fun s => P s ∧ f s = b) (g b) Q E) :
    Triple P (look f >>= g) Q E :=
  triple_bind (R := fun b s => P s ∧ f s = b) (fun _ hs => ⟨hs, rfl⟩) h

/-- A register read whose value is known beforehand. -/
theorem triple_look_known {f : State → β} {g : β → Act α} {b : β} (hb : ∀ s, P s → f s = b) (h : Triple P (g b) Q E) :
    Triple P (look f >>= g) Q E :=
  triple_look_bind fun c s hs => by
    obtain ⟨hs, hc⟩ := hs
    rw [← hc, hb s hs]
    exact h s hs

theorem triple_upd_bind {f : State → State} {g : Unit → Act α} (hf : ∀ s, P s → R (f s)) (hg : Triple R (g ()) Q E) :
    Triple P (upd f >>= g) Q E :=
  triple_bind (triple_upd (Q := fun _ => R) hf) fun _ => hg

theorem triple_raise {e : Err} {info : Nat} (h : ∀ s r, P s → E .raised (s.raise e r)) : Triple P (raise e info : Act α) Q E :=
  fun s hs => h s _ hs

/-- A check: what follows it may use that it holds. -/
theorem triple_check {ok : Bool} {e : Err} {info : Nat} (h : ∀ s r, P s → E .raised (s.raise e r)) :
    Triple P (check ok e info) (fun _ s => P s ∧ ok = true) E := by
  cases ok with
  | true => exact triple_pure fun s hs => ⟨hs, rfl⟩
  | false => exact triple_raise h

/-- An optional read, with its value where there is one. -/
theorem triple_orStop {f : State → Option α} (h : ∀ s, P s → f s = none → E (.fault .unwrittenByte) s) :
    Triple P (orStop f) (fun a s => P s ∧ f s = some a) E := by
  intro s hs
  cases hf : f s with
  | none => rw [orStop_none hf]; exact h s hs hf
  | some a => rw [orStop_some hf]; exact ⟨hs, hf⟩

theorem triple_draw {take : State → α × State} (h : ∀ s, P s → Q (take s).1 (take s).2) : Triple P (draw take) Q E := h

/-- An error's effect beside the error itself. -/
theorem triple_onRaise {f : State → State} {m : Act α} (hf : ∀ s, E .raised s → E .raised (f s)) (hm : Triple P m Q E) :
    Triple P (onRaise f m) Q E := by
  intro s hs
  have hk := hm s hs
  unfold onRaise
  cases hr : m s with
  | ok a t => rw [hr] at hk; exact hk
  | error e t =>
    rw [hr] at hk
    cases e with
    | raised => exact hf t hk
    | reset => exact hk
    | fault g => exact hk

/-- A precondition with a part that does not depend on the state. -/
theorem triple_of {p : Prop} {m : Act α} (h : p → Triple P m Q E) : Triple (fun s => P s ∧ p) m Q E :=
  fun s hs => h hs.2 s hs.1

/-- What the next state of a request is, from what its body leaves. -/
theorem Triple.request_next {Q : Reg32 → State → Prop} {m : Act Reg32} {s t : State} (hm : Triple P m Q E) (hs : P s.accept)
    (hb : s.busy = false) (h : request m s = .next t) :
    (∃ r u, Q r u ∧ t = u.complete r) ∨ E .raised t ∨ E .reset t := by
  rw [request_ready hb] at h
  rcases runRequest_cases m s with ⟨r, u, hu, he⟩ | ⟨u, hu, he⟩ | ⟨u, hu, he⟩ | ⟨f, u, hu, he⟩ <;> rw [he] at h <;> cases h
  · exact .inl ⟨r, u, hm.ok hs hu, rfl⟩
  · exact .inr (.inl (hm.error hs hu))
  · exact .inr (.inr (hm.error hs hu))

/-! ### A TxWrite -/

/-- A TxWrite (R14): the requester's visit, the transport's answer, the bytes as they are then, sent; then success, or a TransportError
after the k bytes taken. -/
theorem triple_txWriteOf {V : Option (List PortAction) → Prop} {R : Nat → State → Prop} {fam : Family} {n : Nat}
    {first : Nat → Act (List Byte)} (hv : Triple P visit (fun v s => P s ∧ V v) E) (ht : ∀ s, P s → P (takeTx s).2)
    (hf : ∀ k, k ≤ n → Triple P (first k) (fun bytes s => R k (s.transmit bytes)) E)
    (he : ∀ v k, V v → Triple (R k) (endVisit v) (fun _ => R k) E)
    (hr : ∀ k e s, R k s → E .raised (s.raiseTransport fam e k)) : Triple P (txWriteOf fam n first) (fun _ => R n) E := by
  have hle (d : TxDraw) : acceptedOf d n ≤ n := by cases d <;> exact Nat.min_le_right _ _
  have hfail (k : Nat) (e : Err) : Triple (R k) (raiseTransport fam e k : Act Unit) (fun _ => R n) E :=
    fun s hs => hr k e s hs
  unfold txWriteOf
  refine triple_bind hv fun v => triple_of fun hV => triple_bind (R := fun _ => P) (triple_draw ht) fun d => ?_
  refine triple_bind (hf _ (hle d)) fun bytes => triple_bind (R := fun _ => R (acceptedOf d n)) (triple_upd fun _ => id)
    fun _ => triple_bind (he v _ hV) fun _ => ?_
  cases d with
  | accepted k =>
    dsimp only
    split
    · exact hfail _ _
    · next hk =>
      have hall : acceptedOf (.accepted k) n = n := by
        have := hle (.accepted k)
        omega
      rw [hall]
      exact triple_pure fun _ => id
  | failed k => exact hfail _ _

end Sys2Proof.Machine
end

section
/-! SUPPORT. The part of the invariant that also holds while a request runs, and that every shared operation keeps it. The registers that
only the request itself writes are kept as they are. -/

namespace Sys2Proof.Machine

/-! ### The part of the invariant that holds all the time -/

/-- A byte store in canonical form and inside its bounds. -/
def Memory.Fits (m : Memory) (bound : Nat) : Prop := m.wf = true ∧ m.below bound = true

theorem Memory.fits_nil (bound : Nat) : Memory.Fits [] bound := ⟨rfl, rfl⟩

theorem Memory.Fits.set {m : Memory} {bound : Nat} (h : m.Fits bound) {a : Nat} (b : Byte) (ha : a < bound) :
    (m.set a b).Fits bound :=
  ⟨Memory.wf_set _ _ _ h.1, Memory.below_set _ _ _ _ h.2 ha⟩

theorem Memory.Fits.setBytes {m : Memory} {bound : Nat} (h : m.Fits bound) {a : Nat} {bytes : List Byte}
    (ha : a + bytes.length ≤ bound) : (m.setBytes a bytes).Fits bound :=
  ⟨Memory.wf_setBytes _ _ _ h.1, Memory.below_setBytes _ _ _ _ h.2 ha⟩

/-- The invariant without State.Ready: it holds between requests and while one runs. -/
structure State.Sound (s : State) : Prop where
  flags : s.FlagsOk
  dbuf : s.dbuf.Fits s.cfg.dbufSize
  txpkt : s.txpkt.Fits 72
  rxpkt : s.rxpkt.Fits 72
  cells : s.cart.CellsOk
  tx : s.TxOk
  rx : s.RxOk
  transfer : s.TransferOk
  timeout : s.TimeoutOk
  peer : s.PeerOk

theorem State.inv_iff (s : State) : s.Inv ↔ s.Ready ∧ s.Sound := by
  constructor
  · rintro ⟨hready, hflags, ⟨hd, hd', ht, ht', hr, hr', hc, hc'⟩, htx, hrx, htransfer, htimeout, hpeer⟩
    exact ⟨hready, hflags, ⟨hd, hd'⟩, ⟨ht, ht'⟩, ⟨hr, hr'⟩, ⟨hc, hc'⟩, htx, hrx, htransfer, htimeout, hpeer⟩
  · rintro ⟨hready, hflags, ⟨hd, hd'⟩, ⟨ht, ht'⟩, ⟨hr, hr'⟩, ⟨hc, hc'⟩, htx, hrx, htransfer, htimeout, hpeer⟩
    exact ⟨hready, hflags, ⟨hd, hd', ht, ht', hr, hr', hc, hc'⟩, htx, hrx, htransfer, htimeout, hpeer⟩

/-- An error leaves the invariant: the flags agree, and the block is idle (R330, R333). -/
theorem State.Sound.raise {s : State} (h : s.Sound) (e : Err) (info : Reg32) : (s.raise e info).Inv :=
  (State.inv_iff _).2 ⟨⟨rfl, rfl, rfl, rfl⟩,
    { h with flags := ⟨by simp, fun _ => rfl, fun hs => by cases hs⟩ }⟩

/-- Losing synchronisation touches no part of it (R329). -/
theorem State.Sound.loseSync {s : State} (h : s.Sound) (fam : Family) : (s.loseSync fam).Sound := by
  cases fam <;> exact { h with }

theorem State.Sound.raiseTransport {s : State} (h : s.Sound) (fam : Family) (e : Err) (info : Nat) :
    (s.raiseTransport fam e info).Inv := (h.loseSync fam).raise e _

/-- A block reset leaves the invariant: the adapter and the cartridge are as they were, everything else is as after reset (R360). -/
theorem State.Sound.blockReset {s : State} (h : s.Sound) : s.blockReset.Inv :=
  (State.inv_iff _).2 ⟨⟨rfl, rfl, rfl, rfl⟩,
    { flags := ⟨by simp, by simp, fun _ => ⟨rfl, rfl, rfl⟩⟩
      dbuf := Memory.fits_nil _
      txpkt := Memory.fits_nil _
      rxpkt := Memory.fits_nil _
      cells := h.cells
      tx := .inl rfl
      rx := .inl rfl
      transfer := ⟨Nat.le_refl _, Nat.zero_le _⟩
      timeout := .inl rfl
      peer := h.peer }⟩

/-! ### The registers that only the request itself writes -/

/-- The state without what changes outside the request's own register writes: DBUF and its disturbed bytes, the adapter, the cartridge, the
draws, the requester's actions, and what was read and sent. -/
def State.regs (s : State) : State :=
  { s with
    dbuf := []
    hazard := []
    peer := Peer.start
    cart := Cart.start
    env := Env.start
    port := []
    reads := []
    txLog := [] }

/-- Sound with the registers of r. -/
def Steady (r s : State) : Prop := s.regs = r ∧ s.Sound

/-- A change that leaves the registers and what else there is of the invariant. -/
theorem Steady.change {r s t : State} (h : Steady r s) (hr : t.regs = s.regs) (hd : t.dbuf.Fits t.cfg.dbufSize)
    (hc : t.cart.CellsOk) (hp : t.PeerOk) : Steady r t := by
  obtain ⟨hs, hsound⟩ := h
  have of_regs {p : State → Prop} (hp : ∀ u : State, p u ↔ p u.regs) (h : p s) : p t := by
    rwa [hp t, hr, ← hp s]
  refine ⟨hr.trans hs, ?_, hd, ?_, ?_, hc, ?_, ?_, ?_, ?_, hp⟩
  · exact of_regs (p := State.FlagsOk) (fun _ => Iff.rfl) hsound.flags
  · exact of_regs (p := fun u => u.txpkt.Fits 72) (fun _ => Iff.rfl) hsound.txpkt
  · exact of_regs (p := fun u => u.rxpkt.Fits 72) (fun _ => Iff.rfl) hsound.rxpkt
  · exact of_regs (p := State.TxOk) (fun _ => Iff.rfl) hsound.tx
  · exact of_regs (p := State.RxOk) (fun _ => Iff.rfl) hsound.rx
  · exact of_regs (p := State.TransferOk) (fun _ => Iff.rfl) hsound.transfer
  · exact of_regs (p := State.TimeoutOk) (fun _ => Iff.rfl) hsound.timeout

theorem Steady.cfg {r s : State} (h : Steady r s) : s.cfg = r.cfg := by rw [← h.1]; rfl

/-- A change of the adapter that leaves its parse state and DEV_LEN, of the draws, or of what was read and sent. -/
theorem Steady.of_volatile {r s : State} (h : Steady r s) (hazard : List Nat) (peer : Peer) (env : Env) (reads : List Reg32)
    (txLog : List Byte) (hps : peer.ps = s.peer.ps) (hlen : peer.devLen = s.peer.devLen) :
    Steady r { s with hazard := hazard, peer := peer, env := env, reads := reads, txLog := txLog } := by
  refine h.change rfl h.2.dbuf h.2.cells ?_
  have hp := h.2.peer
  unfold State.PeerOk at hp ⊢
  dsimp only
  rwa [hps, hlen]

theorem Steady.of_env {r s : State} (h : Steady r s) (env : Env) : Steady r { s with env := env } :=
  h.of_volatile s.hazard s.peer env s.reads s.txLog rfl rfl

theorem Steady.of_cart {r s : State} (h : Steady r s) {cart : Cart} (hc : cart.CellsOk) : Steady r { s with cart := cart } :=
  h.change rfl h.2.dbuf hc h.2.peer

/-- The adapter in a new state that fits. -/
theorem Steady.of_peer {r s : State} (h : Steady r s) {peer : Peer} (hp : State.PeerOk { s with peer := peer }) :
    Steady r { s with peer := peer } :=
  h.change rfl h.2.dbuf h.2.cells hp

/-! ### Draws -/

theorem Steady.takeFree {r s : State} (h : Steady r s) : Steady r (takeFree s).2 := by
  rw [takeFree_frame]
  exact h.of_env _

theorem Steady.takeFreeByte {r s : State} (h : Steady r s) : Steady r (takeFreeByte s).2 := h.takeFree

theorem Steady.takeTx {r s : State} (h : Steady r s) : Steady r (takeTx s).2 := by
  unfold Machine.takeTx
  split <;> exact h.of_env _

theorem Steady.takeRx {r s : State} (h : Steady r s) : Steady r (takeRx s).2 := by
  unfold Machine.takeRx
  split <;> exact h.of_env _

theorem Steady.takeReopen {r s : State} (h : Steady r s) : Steady r (takeReopen s).2 := by
  unfold Machine.takeReopen
  split <;> exact h.of_env _

theorem Steady.takeReplies {r s : State} (h : Steady r s) (fam : Family) (n : Nat) (offered : List Byte) :
    Steady r (takeReplies fam n offered s).2 := by
  unfold Machine.takeReplies
  split
  · exact h.of_volatile s.hazard _ s.env s.reads s.txLog rfl rfl
  · exact h

/-! ### The cartridge and the peer -/

/-- A word address of the wire lies in the cartridge space (R62). -/
theorem WordAddr.byte_lt (w : WordAddr) : 2 * w.toNat + 1 < addressLimit := by
  have := w.isLt
  unfold addressLimit
  omega

theorem Steady.cartWrite {r s : State} (h : Steady r s) (w : WordAddr) (hi : Option Byte) (lo : Byte) :
    Steady r (cartWrite w hi lo s) :=
  h.of_cart (Cart.cellsOk_write s.cfg h.2.cells w.toNat hi lo (WordAddr.byte_lt w))

theorem Cart.cellsOk_afterRead {c : Cart} (cfg : Params) (h : c.CellsOk) : (c.afterRead cfg).CellsOk := by
  unfold Cart.afterRead
  split
  · exact h
  · exact ⟨rfl, rfl⟩

theorem Cart.cellsOk_ready {c : Cart} (h : c.CellsOk) : c.ready.CellsOk := by
  unfold Cart.ready
  split <;> exact h

theorem Steady.cartRead {r s : State} (h : Steady r s) (w : WordAddr) : Steady r (cartRead w s).2 := by
  have after {t : State} (ht : Steady r t) : Steady r { t with cart := t.cart.afterRead t.cfg } :=
    ht.of_cart (Cart.cellsOk_afterRead _ ht.2.cells)
  unfold Machine.cartRead
  dsimp only
  split
  · exact after h
  · exact after h.takeFree
  · exact after h.takeFree
  · exact after h.takeFree

theorem Steady.identityWord {r s : State} (h : Steady r s) (f : MdFlags) : Steady r (identityWord f s).2 := by
  have settle {t : State} (ht : Steady r t) : Steady r { t with peer := { t.peer with idReply := .settled } } :=
    ht.of_volatile t.hazard _ t.env t.reads t.txLog rfl rfl
  unfold Machine.identityWord
  dsimp only
  split
  · split
    · exact h
    · exact settle h.takeFree
    · exact settle h.takeFree
  · exact h

theorem Steady.rdUnits {r s : State} (h : Steady r s) (f : MdFlags) (n : Nat) (w : WordAddr) : Steady r (rdUnits f n w s).2 := by
  induction n generalizing w s with
  | zero => exact h
  | succ n ih =>
    simp only [Machine.rdUnits]
    refine ih ?_ _
    split
    · exact h.identityWord f
    · exact h.cartRead w

theorem Steady.wrWords {r s : State} (h : Steady r s) (moves : Bool) (data : List Byte) (w : WordAddr) :
    Steady r (wrWords moves data w s) := by
  induction data using List.twoStepInduction generalizing w s with
  | nil => exact h
  | singleton x => exact h
  | cons_cons hi lo rest ih _ => exact ih (h.cartWrite w (some hi) lo) _

theorem Steady.wrLowBytes {r s : State} (h : Steady r s) (moves : Bool) (data : List Byte) (w : WordAddr) :
    Steady r (wrLowBytes moves data w s) := by
  induction data generalizing w s with
  | nil => exact h
  | cons lo rest ih => exact ih (h.cartWrite w none lo) _

theorem Steady.peerRd {r s : State} (h : Steady r s) (f : MdFlags) : Steady r (peerRd f s) :=
  (h.rdUnits f (mdUnits f s.peer.devLen) s.peer.devAddr).of_peer trivial

theorem Steady.peerWr {r s : State} (h : Steady r s) (f : MdFlags) (data : List Byte) : Steady r (peerWr f data s) := by
  unfold Machine.peerWr
  dsimp only
  split
  · exact (h.wrLowBytes _ _ _).of_peer trivial
  · exact (h.wrWords _ _ _).of_peer trivial

theorem Steady.peerRy {r s : State} (h : Steady r s) : Steady r (peerRy s) :=
  (h.of_cart (Cart.cellsOk_ready h.2.cells)).of_peer trivial

theorem Steady.peerUndef {r s : State} (h : Steady r s) : Steady r (peerUndef s) :=
  (h.of_cart (cart := s.cart.forgetAll) ⟨rfl, rfl⟩).of_peer trivial

theorem Steady.peerAddr {r s : State} (h : Steady r s) (b : Byte) : Steady r (peerAddr b s) := h.of_peer trivial

theorem Steady.peerLen {r s : State} (h : Steady r s) (b : Byte) : Steady r (peerLen b s) := h.of_peer trivial

theorem Steady.peerDelay {r s : State} (h : Steady r s) (d : Byte) : Steady r (peerDelay d s) := h.of_peer trivial

/-- A command byte leaves the parser between frames, at an operand, or at the data bytes its frame asks for (R294). -/
theorem Steady.peerCommand {r s : State} (h : Steady r s) (b : Byte) : Steady r (peerCommand b s) := by
  unfold Machine.peerCommand
  dsimp only
  cases mdKind b with
  | addr => exact h.of_peer trivial
  | len => exact h.of_peer trivial
  | delay => exact h.of_peer trivial
  | ry => exact h.peerRy
  | rd => exact h.peerRd _
  | wr =>
    dsimp only
    split
    · exact h.peerWr _ _
    · exact h.of_peer ⟨by omega, rfl⟩
  | reserved => exact h.peerUndef

theorem Steady.peerByte {r s : State} (h : Steady r s) (b : Byte) : Steady r (peerByte b s) := by
  unfold Machine.peerByte
  cases hps : s.peer.ps with
  | op => exact h.peerCommand b
  | addrB => exact h.peerAddr b
  | lenB => exact h.peerLen b
  | delayB => exact h.peerDelay b
  | wrData n f taken =>
    dsimp only
    split
    · exact h.peerWr f _
    · have hp := h.2.peer
      rw [State.PeerOk, hps] at hp
      obtain ⟨-, hsum⟩ := hp
      refine h.of_peer ⟨by omega, ?_⟩
      rw [List.length_cons]
      show n - 1 + (taken.length + 1) = wrDataLength f s.peer.devLen
      omega
  | undef => exact h

theorem Steady.peerFeed {r s : State} (h : Steady r s) (bytes : List Byte) : Steady r (peerFeed bytes s) := by
  induction bytes generalizing s with
  | nil => exact h
  | cons b rest ih => exact ih (h.peerByte b)

theorem Steady.drain {r s : State} (h : Steady r s) : Steady r (drain s) :=
  (h.of_volatile s.hazard { s.peer with inbox := [] } s.env s.reads s.txLog rfl rfl).peerFeed _

theorem Steady.settlePeer {r s : State} (h : Steady r s) : Steady r (settlePeer s) := by
  unfold Machine.settlePeer
  split
  · exact h.drain
  · exact h

/-! ### How a request may end -/

/-- A request that ends otherwise than by completing leaves the invariant; where the model stops there is no next state. -/
def Ended.Safe : Ended → State → Prop
  | .fault _, _ => True
  | .raised, t => t.Inv
  | .reset, t => t.Inv

section Pieces

variable {α : Type} {r : State}

/-- A piece that keeps the registers and the invariant. -/
abbrev SteadyAct (r : State) (m : Act α) : Prop := Triple (Steady r) m (fun _ => Steady r) Ended.Safe

theorem steady_upd {f : State → State} (h : ∀ s, Steady r s → Steady r (f s)) : SteadyAct r (upd f) := h

theorem steady_draw {take : State → α × State} (h : ∀ s, Steady r s → Steady r (take s).2) : SteadyAct r (draw take) := h

theorem steady_raiseTransport (fam : Family) (e : Err) (info : Nat) : SteadyAct r (raiseTransport fam e info : Act α) :=
  fun _ hs => hs.2.raiseTransport fam e info

theorem steady_orStop (f : State → Option α) : SteadyAct r (orStop f) :=
  (triple_orStop fun _ _ _ => trivial).post fun _ _ h => h.1

/-! ### The requester during a transport call -/

theorem steady_readPort (reg : ReadableReg) : SteadyAct r (readPort reg) :=
  triple_bind (steady_orStop _) fun _ => steady_upd fun s hs => hs.of_volatile s.hazard s.peer s.env _ s.txLog rfl rfl

theorem Steady.busyReadDbuf {s : State} (h : Steady r s) : Steady r (busyReadDbuf s) :=
  h.takeFreeByte.of_volatile _ _ _ _ _ rfl rfl

theorem Steady.busyWriteDbuf {s : State} (h : Steady r s) (off : Nat) : Steady r (busyWriteDbuf off s) := by
  unfold Machine.busyWriteDbuf
  split
  · have hf := h.takeFreeByte
    have hoff : off < (Machine.takeFreeByte s).2.cfg.dbufSize := by rwa [hf.cfg, ← h.cfg]
    exact hf.change rfl (hf.2.dbuf.set _ hoff) hf.2.cells hf.2.peer
  · exact h

theorem steady_visitAction (a : PortAction) : SteadyAct r (visitAction a) := by
  cases a with
  | writeReq w => exact triple_pure fun _ => id
  | readReg reg => exact steady_readPort reg
  | readDbuf off => exact steady_upd fun _ hs => hs.busyReadDbuf
  | writeDbuf off b => exact steady_upd fun _ hs => hs.busyWriteDbuf off
  | reset => exact triple_pure fun _ => id

theorem steady_visitActions (actions : List PortAction) : SteadyAct r (visitActions actions) := by
  induction actions with
  | nil => exact triple_pure fun _ => id
  | cons a rest ih =>
    by_cases ha : a = .reset
    · subst ha; exact triple_pure (a := some rest) fun _ => id
    · rw [visitActions_cons rest ha]
      exact triple_bind (steady_visitAction a) fun _ => ih

theorem steady_visit : SteadyAct r visit := by
  intro s hs
  cases hv : s.env.visits with
  | nil => rw [visit_none hv]; exact hs
  | cons actions rest =>
    rw [visit_cons hv]
    exact steady_visitActions actions _ (hs.of_env _)

theorem steady_endVisit (v : Option (List PortAction)) : SteadyAct r (endVisit v) := by
  cases v with
  | none => exact triple_pure fun _ => id
  | some rest =>
    intro s hs
    have hinv := (State.inv_iff _).1 hs.2.blockReset
    exact (State.inv_iff _).2 ⟨hinv.1, { hinv.2 with }⟩

theorem steady_meet : SteadyAct r meet := triple_bind steady_visit steady_endVisit

/-! ### The transport -/

theorem Steady.transmit {s : State} (h : Steady r s) (bytes : List Byte) : Steady r (s.transmit bytes) := by
  unfold State.transmit
  split
  · exact h.of_volatile s.hazard _ s.env s.reads _ rfl rfl
  · exact h.of_volatile s.hazard s.peer s.env s.reads _ rfl rfl

theorem steady_txWriteOf (fam : Family) (n : Nat) {first : Nat → Act (List Byte)} (hf : ∀ k, SteadyAct r (first k)) :
    SteadyAct r (txWriteOf fam n first) :=
  triple_txWriteOf (V := fun _ => True) (R := fun _ => Steady r) (steady_visit.post fun _ _ h => ⟨h, trivial⟩)
    (fun _ hs => hs.takeTx) (fun k _ => (hf k).post fun bytes _ hs => hs.transmit bytes) (fun v _ _ => steady_endVisit v)
    fun k e _ hs => hs.2.raiseTransport fam e k

theorem steady_txWrite (fam : Family) (bytes : List Byte) : SteadyAct r (txWrite fam bytes) :=
  steady_txWriteOf fam _ fun _ => triple_pure fun _ => id

/-- A read brings at most as many bytes as were asked for (R14). -/
theorem steady_rxRead (fam : Family) (n : Nat) :
    Triple (Steady r) (rxRead fam n) (fun d s => Steady r s ∧ (rxBytes d).length ≤ n) Ended.Safe :=
  triple_bind steady_meet fun _ => triple_bind (steady_upd fun _ hs => hs.settlePeer) fun _ =>
    triple_bind (steady_draw fun _ hs => hs.takeRx) fun d =>
    triple_bind (R := fun b s => Steady r s ∧ b.length ≤ n)
      (triple_draw fun s hs => ⟨hs.takeReplies fam n _, takeReplies_length fam n _ s⟩) fun b =>
    triple_pure fun s hs => by cases d <;> exact hs

/-! ### DBUF -/

theorem steady_maskHazard (off : Nat) (bytes : List Byte) :
    Triple (Steady r) (maskHazard off bytes) (fun out s => Steady r s ∧ out.length = bytes.length) Ended.Safe := by
  intro s hs
  obtain ⟨out, t, ho, ht, hl, -⟩ := maskHazard_cases off bytes s
  rw [ho]
  exact ⟨ht ▸ hs.of_env _, hl⟩

/-- What a running request takes from DBUF is as long as it asks for. -/
theorem steady_memRead (off n : Nat) :
    Triple (Steady r) (memRead off n) (fun out s => Steady r s ∧ out.length = n) Ended.Safe :=
  triple_bind (R := fun bytes s => Steady r s ∧ bytes.length = n)
    ((triple_orStop fun _ _ _ => trivial).post fun _ _ hs => ⟨hs.1, Memory.run_length _ _ _ _ hs.2⟩)
    fun bytes => triple_of fun hl => (steady_maskHazard off bytes).post fun _ _ h => ⟨h.1, h.2.trans hl⟩

theorem steady_txBytes (parts : List TxPart) (k : Nat) : SteadyAct r (txBytes parts k) := by
  induction parts generalizing k with
  | nil => exact triple_pure fun _ => id
  | cons part rest ih =>
    cases part with
    | bytes b => exact triple_bind (ih _) fun _ => triple_pure fun _ => id
    | dbuf off n =>
      exact triple_bind ((steady_memRead off _).post fun _ _ h => h.1) fun _ => triple_bind (ih _) fun _ =>
        triple_pure fun _ => id

theorem steady_txWriteParts (fam : Family) (parts : List TxPart) : SteadyAct r (txWriteParts fam parts) := by
  unfold txWriteParts
  split
  · exact triple_pure fun _ => id
  · exact steady_txWriteOf fam _ (steady_txBytes parts)

/-- Bytes stored inside DBUF. -/
theorem steady_storeDbuf {off : Nat} {bytes : List Byte} (h : off + bytes.length ≤ r.cfg.dbufSize) :
    SteadyAct r (storeDbuf off bytes) :=
  triple_bind (steady_maskHazard off bytes) fun out => triple_upd fun s ⟨hs, hl⟩ =>
    hs.change rfl (hs.2.dbuf.setBytes (by rwa [hs.cfg, hl])) hs.2.cells hs.2.peer

/-- A destination with room for n bytes. -/
def Destination.Holds (d : Destination) (n : Nat) (s : State) : Prop :=
  match d with
  | .dbuf off => off + n ≤ s.cfg.dbufSize
  | .latch => True

theorem steady_storeAt {d : Destination} {n got : Nat} {bytes : List Byte} (h : d.Holds n r) (hn : got + bytes.length ≤ n) :
    SteadyAct r (storeAt d got bytes) := by
  cases d with
  | dbuf off =>
    have hroom : off + n ≤ r.cfg.dbufSize := h
    exact steady_storeDbuf (by omega)
  | latch => exact triple_pure fun _ => id

/-! ### RxFill -/

theorem steady_rxFillLoop {d : Destination} {n : Nat} (h : d.Holds n r) (fuel : Nat) (got : List Byte) :
    SteadyAct r (rxFillLoop d n fuel got) := by
  induction fuel generalizing got with
  | zero => exact triple_pure fun _ => id
  | succ fuel ih =>
    unfold rxFillLoop
    split
    · exact triple_pure fun _ => id
    · refine triple_bind (steady_rxRead _ _) fun answer => triple_of fun hl => ?_
      cases answer with
      | timedOut t =>
        have hl : t.length ≤ n - got.length := hl
        exact triple_bind (steady_storeAt h (by omega)) fun _ => steady_raiseTransport _ _ _
      | failed t =>
        have hl : t.length ≤ n - got.length := hl
        exact triple_bind (steady_storeAt h (by omega)) fun _ => steady_raiseTransport _ _ _
      | got t =>
        have hl : t.length ≤ n - got.length := hl
        dsimp only
        split
        · exact steady_raiseTransport _ _ _
        · exact triple_bind (steady_storeAt h (by omega)) fun _ => ih _

theorem steady_rxFill {d : Destination} {n : Nat} (h : d.Holds n r) : SteadyAct r (rxFill d n) := steady_rxFillLoop h n []

end Pieces

end Sys2Proof.Machine
end

section
/-! SUPPORT. Every request, frame and packet keeps the invariant, and so does every step (Safety.lean). -/

namespace Sys2Proof.Machine

/-! ### While a request runs -/

/-- What the invariant needs to know of the registers that a request writes on its way. -/
structure Kept where
  cfg : Params
  done : Bool
  err : Bool
  hsAttempt : BitVec 2
  xlen : Reg32
  xcount : Reg32
  xboff : Reg32

def State.kept (s : State) : Kept where
  cfg := s.cfg
  done := s.done
  err := s.err
  hsAttempt := s.hsAttempt
  xlen := s.xlen
  xcount := s.xcount
  xboff := s.xboff

/-- Sound, with known registers. -/
def Running (k : Kept) (s : State) : Prop := s.Sound ∧ s.kept = k

/-- What a request leaves when it is about to complete. -/
def State.Finishing (s : State) : Prop := s.Sound ∧ s.done = false ∧ s.err = false ∧ s.hsAttempt = 0

/-- The registers of a request that has been accepted between two requests. -/
def Kept.Fresh (k : Kept) : Prop := k.done = false ∧ k.err = false ∧ k.hsAttempt = 0

theorem Running.finishing {k : Kept} {s : State} (h : Running k s) (hk : k.Fresh) : s.Finishing := by
  obtain ⟨hs, rfl⟩ := h
  exact ⟨hs, hk⟩

section Pieces

variable {α : Type} {k : Kept}

/-- A piece that leaves the registers and the rest of the invariant leaves what is known of the registers. -/
theorem Triple.of_steady {m : Act α} {p : State → Prop} {q : α → Prop} (hp : ∀ s, p s = p s.regs)
    (h : ∀ r, p r → Triple (Steady r) m (fun a s => Steady r s ∧ q a) Ended.Safe) :
    Triple (fun s => s.Sound ∧ p s) m (fun a s => (s.Sound ∧ p s) ∧ q a) Ended.Safe := by
  rintro s ⟨hs, hps⟩
  have hk := h s.regs (hp s ▸ hps) s ⟨rfl, hs⟩
  cases hm : m s with
  | ok a t =>
    rw [hm] at hk
    obtain ⟨⟨hr, ht⟩, hq⟩ := hk
    exact ⟨⟨ht, by rwa [hp t, hr, ← hp s]⟩, hq⟩
  | error e t => rw [hm] at hk; exact hk

/-- A piece that keeps the invariant and the known registers. -/
abbrev RunningAct (k : Kept) (m : Act α) : Prop := Triple (Running k) m (fun _ => Running k) Ended.Safe

theorem running_of_steady {m : Act α} (h : ∀ r, r.kept = k → SteadyAct r m) : RunningAct k m :=
  (Triple.of_steady (p := (State.kept · = k)) (q := fun _ => True) (fun _ => rfl)
    fun r hr => (h r hr).post fun _ _ ht => ⟨ht, trivial⟩).post fun _ _ ht => ht.1

theorem running_raise (e : Err) (info : Nat) : RunningAct k (raise e info : Act α) := triple_raise fun _ _ hs => hs.1.raise e _

theorem running_check (ok : Bool) (e : Err) (info : Nat) :
    Triple (Running k) (check ok e info) (fun _ s => Running k s ∧ ok = true) Ended.Safe :=
  triple_check fun _ _ hs => hs.1.raise e _

theorem running_upd {f : State → State} (h : ∀ s, Running k s → Running k (f s)) : RunningAct k (upd f) := h

theorem running_pure (a : α) : RunningAct k (pure a) := triple_pure fun _ => id

theorem running_look (f : State → α) : RunningAct k (look f) := triple_look fun _ => id

/-- The parameters as a running request reads them. -/
theorem running_look_cfg {f : Params → Act α} {Q : α → State → Prop} (h : Triple (Running k) (f k.cfg) Q Ended.Safe) :
    Triple (Running k) (look (·.cfg) >>= f) Q Ended.Safe :=
  triple_look_known (fun _ hs => congrArg Kept.cfg hs.2) h

theorem running_raiseTransport (fam : Family) (e : Err) (info : Nat) : RunningAct k (raiseTransport fam e info : Act α) :=
  fun _ hs => hs.1.raiseTransport fam e info

theorem running_meet : RunningAct k meet := running_of_steady fun _ _ => steady_meet

theorem running_txWrite (fam : Family) (bytes : List Byte) : RunningAct k (txWrite fam bytes) :=
  running_of_steady fun _ _ => steady_txWrite fam bytes

theorem running_txWriteParts (fam : Family) (parts : List TxPart) : RunningAct k (txWriteParts fam parts) :=
  running_of_steady fun _ _ => steady_txWriteParts fam parts

theorem running_memRead (off n : Nat) :
    Triple (Running k) (memRead off n) (fun out s => Running k s ∧ out.length = n) Ended.Safe :=
  Triple.of_steady (fun _ => rfl) fun _ _ => steady_memRead off n

/-- The bounds check of a DBUF region (R60, R324). -/
theorem running_checkDbuf (boff : Reg32) (n : Nat) :
    Triple (Running k) (checkDbuf boff n) (fun _ s => Running k s ∧ boff.toNat + n ≤ k.cfg.dbufSize) Ended.Safe :=
  running_look_cfg ((running_check _ _ _).post fun _ _ hs => ⟨hs.1, by simpa [inDbuf] using hs.2⟩)

theorem running_rxFill_dbuf {off n : Nat} (h : off + n ≤ k.cfg.dbufSize) : RunningAct k (rxFill (.dbuf off) n) :=
  running_of_steady fun r hr => steady_rxFill (show off + n ≤ r.cfg.dbufSize by rwa [← congrArg Kept.cfg hr] at h)

theorem running_rxFill_latch (n : Nat) : RunningAct k (rxFill .latch n) := running_of_steady fun _ _ => steady_rxFill trivial

theorem running_storeDbuf {off : Nat} {bytes : List Byte} (h : off + bytes.length ≤ k.cfg.dbufSize) :
    RunningAct k (storeDbuf off bytes) :=
  running_of_steady fun r hr => steady_storeDbuf (show off + bytes.length ≤ r.cfg.dbufSize by rwa [← congrArg Kept.cfg hr] at h)

/-! ### The CRC requests -/

theorem running_crcContinue (bytes : List Byte) : RunningAct k (crcContinue bytes) :=
  triple_bind (running_upd fun _ hs => ⟨{ hs.1 with }, hs.2⟩) fun _ => running_look _

theorem running_crcClearBody : RunningAct k crcClearBody :=
  triple_bind (running_upd fun _ hs => ⟨{ hs.1 with }, hs.2⟩) fun _ => running_pure _

theorem running_crcBlockBody (boff len : Reg32) : RunningAct k (crcBlockBody boff len) :=
  triple_bind (running_checkDbuf boff _) fun _ => triple_of fun _ => triple_bind running_meet fun _ =>
    triple_bind (running_memRead _ _) fun bytes => triple_of fun _ => running_crcContinue bytes

/-! ### The MD stream requests -/

theorem Running.setCursor {s : State} (h : Running k s) (w : WordAddr) : Running k (setCursor w s) := ⟨{ h.1 with }, h.2⟩

theorem Running.setDelay {s : State} (h : Running k s) (d : Byte) : Running k (setDelay d s) := ⟨{ h.1 with }, h.2⟩

theorem Running.advanceCursor {s : State} (h : Running k s) (words : Nat) : Running k (advanceCursor words s) := by
  unfold Machine.advanceCursor
  split
  · exact ⟨{ h.1 with }, h.2⟩
  · exact h

theorem running_setCursor (w : WordAddr) : RunningAct k (upd (setCursor w)) := triple_upd fun _ hs => hs.setCursor w

theorem running_advanceCursor (words : Nat) : RunningAct k (upd (advanceCursor words)) :=
  triple_upd fun _ hs => hs.advanceCursor words

theorem running_wordAddress (addr : Reg32) : RunningAct k (wordAddress addr) :=
  triple_bind (running_check _ _ _) fun _ => triple_of fun _ => running_pure _

theorem running_mdSeekBody (whence : BitVec 2) (addr : Reg32) : RunningAct k (mdSeekBody whence addr) :=
  triple_bind (running_check _ _ _) fun _ => triple_of fun _ => triple_bind (running_check _ _ _) fun _ => triple_of fun _ =>
    triple_bind (running_check _ _ _) fun _ => triple_of fun _ => triple_bind (running_wordAddress addr) fun w =>
    triple_bind (running_txWrite _ _) fun _ => triple_bind (running_setCursor w) fun _ => running_pure _

theorem running_checkBulk (boff len : Reg32) :
    Triple (Running k) (checkBulk boff len) (fun _ s => Running k s ∧ boff.toNat + len.toNat ≤ k.cfg.dbufSize) Ended.Safe :=
  triple_bind (running_check _ _ _) fun _ => triple_of fun _ => running_checkDbuf boff _

/-- The chunks of a length are its bytes (R227). -/
theorem chunks_sum (n : Nat) : (chunks n).sum = n := by
  unfold chunks
  split <;> simp <;> omega

theorem running_readChunks (sizes : List Nat) (off : Nat) (h : off + sizes.sum ≤ k.cfg.dbufSize) :
    RunningAct k (readChunks sizes off) := by
  induction sizes generalizing off with
  | nil => exact running_pure ()
  | cons c rest ih =>
    rw [List.sum_cons] at h
    exact triple_bind (running_txWrite _ _) fun _ => triple_bind (running_rxFill_dbuf (by omega)) fun _ =>
      triple_bind (running_advanceCursor _) fun _ => ih _ (by omega)

theorem running_mdReadBody (boff len : Reg32) : RunningAct k (mdReadBody boff len) :=
  triple_bind (running_checkBulk boff len) fun _ => triple_of fun h =>
    triple_bind (running_readChunks _ _ (by rwa [chunks_sum])) fun _ => running_pure _

theorem running_mdWriteBody (boff len : Reg32) : RunningAct k (mdWriteBody boff len) :=
  triple_bind (running_checkBulk boff len) fun _ => triple_of fun _ => triple_bind (running_txWriteParts _ _) fun _ =>
    triple_bind (running_advanceCursor _) fun _ => running_pure _

theorem running_mdReadWordBody (addr : Reg32) : RunningAct k (mdReadWordBody addr) :=
  triple_bind (running_wordAddress addr) fun w => triple_bind (running_txWrite _ _) fun _ =>
    triple_bind (running_setCursor w) fun _ => triple_bind (running_rxFill_latch 2) fun _ => running_pure _

theorem running_wordWrite (addr : Reg32) (v : Word) : RunningAct k (wordWrite addr v) :=
  triple_bind (running_wordAddress addr) fun w => triple_bind (running_txWrite _ _) fun _ =>
    triple_bind (running_setCursor w) fun _ => running_pure _

theorem running_ramCtl (v : Word) (d : Byte) : RunningAct k (ramCtl v d) :=
  triple_bind (running_txWrite _ _) fun _ => triple_bind (running_setCursor _) fun _ =>
    triple_upd fun _ hs => hs.setDelay d

/-- What the peer does between requests keeps the invariant. -/
theorem State.Inv.of_steady {s t : State} (h : s.Inv) (ht : Steady s.regs t) (hhazard : t.hazard = s.hazard) : t.Inv := by
  obtain ⟨⟨hbusy, hxstate, hattempt, hclear⟩, -⟩ := (State.inv_iff s).1 h
  refine (State.inv_iff _).2 ⟨⟨?_, ?_, ?_, hhazard.trans hclear⟩, ht.2⟩
  · exact (congrArg State.busy ht.1).trans hbusy
  · exact (congrArg State.xstate ht.1).trans hxstate
  · exact (congrArg State.hsAttempt ht.1).trans hattempt

theorem State.Inv.steady {s : State} (h : s.Inv) : Steady s.regs s := ⟨rfl, ((State.inv_iff s).1 h).2⟩

/-- The cartridge in another state that fits, after the peer has taken what has reached it. -/
theorem State.Inv.settle_cart {s : State} (h : s.Inv) {cart : Cart} (hc : (settlePeer s).cart.CellsOk → cart.CellsOk) :
    State.Inv { settlePeer s with cart := cart } := by
  have hsettled : Steady s.regs (settlePeer s) := h.steady.settlePeer
  refine h.of_steady (hsettled.of_cart (hc hsettled.2.cells)) ?_
  obtain ⟨env, cart', peer, hframe⟩ := settlePeer_frame s
  rw [hframe]

theorem running_onRaise {f : State → State} {m : Act α} (hf : ∀ s : State, s.Inv → (f s).Inv) (hm : RunningAct k m) :
    RunningAct k (onRaise f m) := triple_onRaise hf hm

theorem State.Inv.loseRamMode {s : State} (h : s.Inv) : (loseRamMode s).Inv := h.settle_cart id

theorem running_mdRamEnableBody : RunningAct k mdRamEnableBody :=
  running_look_cfg (triple_bind (running_onRaise (fun _ h => h.loseRamMode) (running_ramCtl _ _)) fun _ =>
    triple_bind (running_upd fun _ hs => ⟨{ hs.1 with }, hs.2⟩) fun _ => running_pure _)

theorem running_mdRamDisableBody : RunningAct k mdRamDisableBody :=
  running_look_cfg (triple_bind (running_onRaise (fun _ h => h.loseRamMode) (running_ramCtl _ _)) fun _ =>
    triple_bind (running_upd fun _ hs => ⟨{ hs.1 with }, hs.2⟩) fun _ => running_pure _)

theorem running_getId : RunningAct k getId :=
  triple_bind (running_txWrite _ _) fun _ => triple_bind (running_rxFill_latch 2) fun _ => running_pure _

theorem running_mdGetIdBody : RunningAct k mdGetIdBody := triple_bind running_getId fun _ => running_pure _

/-- The registers with another HS_ATTEMPT (R36). -/
def Kept.attempt (k : Kept) (n : BitVec 2) : Kept := { k with hsAttempt := n }

theorem running_setAttempt (m n : BitVec 2) :
    Triple (Running (k.attempt m)) (setAttempt n) (fun _ => Running (k.attempt n)) Ended.Safe :=
  triple_upd fun _ ⟨hs, hk⟩ => ⟨{ hs with }, congrArg (Kept.attempt · n) hk⟩

/-- After a Reopen T_CUR is the timeout asked for (R38, R238). -/
theorem running_reopen {t : Nat} (ht : t = k.cfg.tReopen) : RunningAct k (reopen t) := by
  have hreopened (s : State) (hs : Running k s) : Running k (reopened t s) := by
    obtain ⟨hs, rfl⟩ := hs
    exact ⟨{ hs with timeout := .inr ht }, rfl⟩
  unfold reopen
  refine triple_bind running_meet fun _ => triple_bind (running_of_steady fun _ _ => steady_upd fun _ hs => hs.settlePeer)
    fun _ => triple_bind (running_of_steady fun _ _ => steady_draw fun _ hs => hs.takeReopen) fun ok =>
    triple_bind (running_upd hreopened) fun _ => ?_
  split
  · exact running_pure ()
  · exact running_raiseTransport _ _ _

/-- MD_HANDSHAKE leaves HS_ATTEMPT at 0 (R36). -/
theorem running_mdHandshakeBody : RunningAct (k.attempt 0) mdHandshakeBody := by
  unfold mdHandshakeBody
  refine triple_bind (running_setAttempt 0 0) fun _ => triple_bind running_getId fun id =>
    triple_bind (running_setAttempt 0 1) fun _ => ?_
  split
  · refine running_look_cfg (triple_bind (running_reopen rfl) fun _ => triple_bind running_getId fun id =>
      triple_bind (running_setAttempt 1 2) fun _ => ?_)
    split
    · exact triple_bind (running_setAttempt 2 0) fun _ => running_raise _ _
    · exact triple_bind (running_txWrite _ _) fun _ => triple_bind (running_upd fun _ hs => hs.setDelay 0x00) fun _ =>
        triple_bind (running_setAttempt 2 0) fun _ => running_pure _
  · exact triple_bind (running_setAttempt 1 0) fun _ => running_pure _

/-! ### The flash requests -/

theorem State.Inv.loseFlash {s : State} (h : s.Inv) (a n : Nat) : (loseFlash a n s).Inv :=
  h.settle_cart fun hc => Cart.cellsOk_forgetRange (Cart.cellsOk_forgetRange hc _ _) _ _

theorem running_mdFlashEraseBody (addr : Reg32) : RunningAct k (mdFlashEraseBody addr) := by
  have hio : RunningAct k (eraseIo addr) :=
    running_look_cfg (triple_bind (running_txWrite _ _) fun _ => triple_bind (running_rxFill_latch _) fun _ =>
      running_setCursor _)
  exact triple_bind (triple_bind (running_check _ _ _) fun _ => triple_of fun _ => (running_check _ _ _).post fun _ _ hs => hs.1)
    fun _ => triple_bind (running_onRaise (fun _ h => h.loseFlash _ _) hio) fun _ => running_pure _

theorem running_sendSequence (seq : List (Nat × Word)) : RunningAct k (sendSequence seq) := by
  unfold sendSequence
  refine triple_bind (running_txWrite _ _) fun _ => ?_
  split
  · exact running_setCursor _
  · exact running_pure ()

theorem running_mdFlashUnlockBypassBody : RunningAct k mdFlashUnlockBypassBody :=
  running_look_cfg (triple_bind (running_sendSequence _) fun _ =>
    triple_bind (running_upd fun _ hs => ⟨{ hs.1 with }, hs.2⟩) fun _ => running_pure _)

theorem running_mdFlashResetBypassBody : RunningAct k mdFlashResetBypassBody :=
  running_look_cfg (triple_bind (running_sendSequence _) fun _ =>
    triple_bind (running_upd fun _ hs => ⟨{ hs.1 with }, hs.2⟩) fun _ => running_pure _)

theorem running_programWords (cfg : Params) (words off : Nat) : RunningAct k (programWords cfg words off) := by
  induction words generalizing off with
  | zero => exact running_pure ()
  | succ words ih =>
    exact triple_bind (running_txWriteParts _ _) fun _ => triple_bind (running_rxFill_latch _) fun _ =>
      triple_bind (running_advanceCursor 1) fun _ => ih _

theorem running_programIo (words off : Nat) : RunningAct k (programIo words off) := by
  unfold programIo
  refine running_look_cfg ?_
  split
  · exact running_programWords _ words off
  · exact triple_bind (running_txWriteParts _ _) fun _ => running_advanceCursor words

theorem running_mdFlashWriteBody (boff len : Reg32) : RunningAct k (mdFlashWriteBody boff len) :=
  triple_bind (running_checkBulk boff len) fun _ => triple_of fun _ => triple_bind (running_look _) fun _ =>
    triple_bind (running_onRaise (fun _ h => h.loseFlash _ _) (running_programIo _ _)) fun _ => running_pure _

/-! ### The framer's requests -/

theorem dataPacket_length (m sub : Byte) (index : BitVec 24) (frame : List Byte) (trailer : Word) :
    (dataPacket m sub index frame trailer).length = frame.length + 8 := by
  simp [dataPacket, bytes24]

@[simp] theorem packetByte_dataPacket (m sub : Byte) (index : BitVec 24) (frame : List Byte) (trailer : Word) :
    packetByte (dataPacket m sub index frame trailer) 0 = ctlData := rfl

/-- A packet that the framer can hold: a DATA packet of 72 bytes, or a control byte (R27). -/
def IsPacket (p : List Byte) : Prop := if p.length = 72 then packetByte p 0 = ctlData else packetByte p 0 ≠ ctlData

theorem isPacket_dataPacket (m sub : Byte) (index : BitVec 24) {frame : List Byte} (trailer : Word) (h : frame.length = 64) :
    IsPacket (dataPacket m sub index frame trailer) := by
  simp [IsPacket, dataPacket_length, h]

theorem isPacket_control {c : Byte} (h : c ≠ ctlData) : IsPacket [c] := by
  simpa [IsPacket, packetByte] using h

/-- A store of canonical form into which bytes were written from 0 on gives them back. -/
theorem Memory.getBytes_setBytes_zero {m : Memory} (h : m.wf = true) (bytes : List Byte) :
    (m.setBytes 0 bytes).getBytes 0 bytes.length = some bytes := by
  rw [Memory.getBytes_eq_some _ _ _ _ (Memory.wf_setBytes _ _ _ h)]
  refine ⟨rfl, fun i hi => ?_⟩
  rw [Memory.get_setBytes, if_pos (by omega)]
  congr 1
  omega

/-- Building a packet (R27, R151). -/
theorem State.Sound.buildPacket {s : State} (h : s.Sound) {p : List Byte} (hp : IsPacket p) : (buildPacket p s).Sound := by
  unfold IsPacket at hp
  unfold Machine.buildPacket
  split
  · next hl =>
    rw [if_pos hl] at hp
    have hget := Memory.getBytes_setBytes_zero h.txpkt.1 p
    rw [hl] at hget
    exact { h with
      txpkt := h.txpkt.setBytes (by omega)
      tx := .inr (.inr ⟨rfl, p, hget, hp⟩) }
  · next hl =>
    rw [if_neg hl] at hp
    exact { h with
      txpkt := h.txpkt.set _ (by omega)
      tx := .inr (.inl ⟨rfl, packetByte p 0, by simp [Memory.get_set], hp⟩) }

/-- Writing the last bytes of a region leaves the others. -/
theorem Memory.getBytes_setBytes_tail {m : Memory} (h : m.wf = true) {n : Nat} {p tail : List Byte}
    (hp : m.getBytes 0 (n + tail.length) = some p) :
    (m.setBytes n tail).getBytes 0 (n + tail.length) = some (p.take n ++ tail) := by
  rw [Memory.getBytes_eq_some _ _ _ _ h] at hp
  obtain ⟨hlen, hget⟩ := hp
  rw [Memory.getBytes_eq_some _ _ _ _ (Memory.wf_setBytes _ _ _ h)]
  refine ⟨by simp [hlen], fun i hi => ?_⟩
  rw [Memory.get_setBytes]
  by_cases hi' : i < n
  · rw [if_neg (by omega), hget i hi, List.getElem?_append_left (by simp; omega), List.getElem?_take_of_lt hi']
  · rw [if_pos (by omega), List.getElem?_append_right (by simp; omega)]
    congr 1
    simp [hlen]

/-- Computing the trailer of the DATA packet in TXPKT (R153). -/
theorem State.Sound.sealPacket {s : State} (h : s.Sound) (p : List Byte) (hl : s.txlen = 72) : (sealPacket p s).Sound := by
  obtain ⟨q, hq, hq0⟩ : ∃ q, s.txpkt.getBytes 0 72 = some q ∧ packetByte q 0 = ctlData := by
    rcases h.tx with h0 | ⟨h1, -⟩ | ⟨-, hq⟩
    · rw [hl] at h0; cases h0
    · rw [hl] at h1; cases h1
    · exact hq
  have hsealed := Memory.getBytes_setBytes_tail h.txpkt.1 (n := 70) (tail := [hiByte (packetCrc p), loByte (packetCrc p)]) hq
  have hfirst : packetByte (q.take 70 ++ [hiByte (packetCrc p), loByte (packetCrc p)]) 0 = ctlData := by
    cases q with
    | nil => cases Memory.run_length _ _ _ _ hq
    | cons c rest => exact hq0
  exact { h with
    txpkt := h.txpkt.setBytes (a := 70) (bytes := [hiByte (packetCrc p), loByte (packetCrc p)]) (Nat.le_refl _)
    tx := .inr (.inr ⟨hl, _, hsealed, hfirst⟩) }

/-- Sending the packet in TXPKT (R153, R155). -/
theorem running_sendPacket (p : List Byte) :
    Triple (fun s => Running k s ∧ (p.length = 72 → s.txlen = 72)) (sendPacket p) (fun _ => Running k) Ended.Safe := by
  unfold sendPacket
  split
  · next hl =>
    exact triple_bind (R := fun _ => Running k) (triple_upd fun s hs => ⟨hs.1.1.sealPacket p (hs.2 hl), hs.1.2⟩)
      fun _ => triple_bind (running_txWrite _ _) fun _ => running_pure _
  · exact (triple_bind (running_txWrite _ _) fun _ => running_pure _).pre fun _ hs => hs.1

theorem State.kept_buildPacket (p : List Byte) (s : State) : (buildPacket p s).kept = s.kept := by
  unfold buildPacket
  split <;> rfl

theorem Running.buildPacket {s : State} (h : Running k s) {p : List Byte} (hp : IsPacket p) : Running k (buildPacket p s) :=
  ⟨h.1.buildPacket hp, (State.kept_buildPacket p s).trans h.2⟩

theorem running_sendBuilt {p : List Byte} (hp : IsPacket p) : RunningAct k (sendBuilt p) :=
  triple_upd_bind (fun _ hs => ⟨hs.buildPacket hp, fun hl => by simp [hl]⟩) (running_sendPacket p)

/-- While RXLEN = 0, bytes may be stored in RXPKT (R28, R157). -/
theorem State.Sound.storeRx {s : State} (h : s.Sound) (h0 : s.rxlen = 0) {off : Nat} {bytes : List Byte}
    (hl : off + bytes.length ≤ 72) : (storeRx off bytes s).Sound :=
  { h with
    rxpkt := h.rxpkt.setBytes hl
    rx := .inl h0 }

/-- While a packet is received: RXLEN = 0. -/
def Receiving (k : Kept) (s : State) : Prop := s.Sound ∧ s.kept = k ∧ s.rxlen = 0

theorem receiving_rxRead (n : Nat) :
    Triple (Receiving k) (rxRead .gb n) (fun d s => Receiving k s ∧ (rxBytes d).length ≤ n) Ended.Safe :=
  Triple.of_steady (p := fun s => s.kept = k ∧ s.rxlen = 0) (fun _ => rfl) fun _ _ => steady_rxRead .gb n

/-- Bytes that come with a timeout or a failure are stored, and the error is raised (R76, R329). -/
theorem receiving_lost {off : Nat} {bytes : List Byte} (hl : off + bytes.length ≤ 72) (e : Err) (info : Nat) :
    Triple (Receiving k) (upd (storeRx off bytes) >>= fun _ => (raiseTransport .gb e info : Act α)) (fun _ => Running k)
      Ended.Safe :=
  triple_upd_bind (R := State.Sound) (fun _ hs => hs.1.storeRx hs.2.2 hl) fun _ hs => hs.raiseTransport .gb e info

/-- RXLEN = 1 says that the control byte is in RXPKT (R28). -/
theorem State.Sound.receivedControl {s : State} (h : s.Sound) (h0 : s.rxlen = 0) {c : Byte} (hc : c ≠ ctlData) :
    State.Sound { Machine.storeRx 0 [c] s with rxlen := 1 } := by
  have hstored := h.storeRx h0 (off := 0) (bytes := [c]) (by simp)
  refine { hstored with rx := .inr (.inl ⟨rfl, c, ?_, hc⟩) }
  show (s.rxpkt.setBytes 0 [c]).get 0 = some c
  simp [Memory.get_setBytes]

/-- RXLEN = 72 says that the DATA packet is in RXPKT (R28). -/
theorem State.Sound.receivedData {s : State} (h : s.Sound) (h0 : s.rxlen = 0) (hc : s.rxpkt.get 0 = some ctlData) {body : List Byte}
    (hl : body.length = 71) : State.Sound { Machine.storeRx 1 body s with rxlen := 72 } := by
  have hstored := h.storeRx h0 (off := 1) (bytes := body) (by omega)
  refine { hstored with rx := .inr (.inr ⟨rfl, ctlData :: body, ?_, rfl⟩) }
  show (s.rxpkt.setBytes 1 body).getBytes 0 72 = some (ctlData :: body)
  rw [Memory.getBytes_eq_some _ _ _ _ (Memory.wf_setBytes _ _ _ h.rxpkt.1)]
  refine ⟨by simp [hl], fun i hi => ?_⟩
  cases i with
  | zero => rw [Memory.get_setBytes, if_neg (by omega)]; exact hc
  | succ i => rw [Memory.get_setBytes, if_pos (by omega)]; simp

/-- While the rest of a DATA packet is received: its control byte is in RXPKT. -/
def ReceivingData (k : Kept) (s : State) : Prop := s.Sound ∧ s.kept = k ∧ s.rxlen = 0 ∧ s.rxpkt.get 0 = some ctlData

theorem ReceivingData.receiving {s : State} (h : ReceivingData k s) : Receiving k s := ⟨h.1, h.2.1, h.2.2.1⟩

theorem receivingData_rxRead (n : Nat) :
    Triple (ReceivingData k) (rxRead .gb n) (fun d s => ReceivingData k s ∧ (rxBytes d).length ≤ n) Ended.Safe :=
  Triple.of_steady (p := fun s => s.kept = k ∧ s.rxlen = 0 ∧ s.rxpkt.get 0 = some ctlData) (fun _ => rfl)
    fun _ _ => steady_rxRead .gb n

/-- ReceivePacket (R157): RXLEN says what has come. -/
theorem running_receivePacket : RunningAct k receivePacket := by
  unfold receivePacket
  refine triple_upd_bind (R := Receiving k) (fun _ hs => ⟨{ hs.1 with rx := .inl rfl }, hs.2, rfl⟩)
    (triple_bind (receiving_rxRead 1) fun first => triple_of fun hl => ?_)
  split
  · next t => exact receiving_lost (show 0 + t.length ≤ 72 by simp only [rxBytes] at hl; omega) _ _
  · next t => exact receiving_lost (show 0 + t.length ≤ 72 by simp only [rxBytes] at hl; omega) _ _
  · exact fun _ hs => hs.1.raiseTransport .gb _ _
  · next c more =>
    split
    · next hc =>
      exact triple_upd_bind (R := fun s => ∃ u, Receiving k u ∧ s = storeRx 0 [c] u) (fun u hu => ⟨u, hu, rfl⟩)
        (triple_upd_bind (R := Running k) (fun s ⟨u, hu, hs⟩ => hs ▸ ⟨hu.1.receivedControl hu.2.2 hc, hu.2.1⟩) (running_pure _))
    · next hc =>
      have hc : c = ctlData := not_not.1 hc
      refine triple_upd_bind (R := ReceivingData k) (fun s hs => ⟨hs.1.storeRx hs.2.2 (by simp), hs.2.1, hs.2.2, ?_⟩)
        (triple_bind (receivingData_rxRead 71) fun rest => triple_of fun hl => ?_)
      · show (s.rxpkt.setBytes 0 [c]).get 0 = some ctlData
        simp [Memory.get_setBytes, hc]
      · have hlost (t : List Byte) (ht : t.length ≤ 71) (e : Err) :=
          (receiving_lost (α := List Byte) (k := k) (show 1 + t.length ≤ 72 by omega) e t.length).pre
            fun s (hs : ReceivingData k s) => hs.receiving
        cases rest with
        | timedOut t => exact hlost t hl _
        | failed t => exact hlost t hl _
        | got t =>
          dsimp only
          split
          · exact hlost t hl _
          · next h71 =>
            have hl : t.length ≤ 71 := hl
            exact triple_upd_bind (R := fun s => ∃ u, ReceivingData k u ∧ s = storeRx 1 t u) (fun u hu => ⟨u, hu, rfl⟩)
              (triple_upd_bind (R := Running k)
                (fun s ⟨u, hu, hs⟩ => hs ▸ ⟨hu.1.receivedData hu.2.2.1 hu.2.2.2 (by omega), hu.2.1⟩) (running_pure _))

/-- CheckPacket (R159). -/
theorem running_checkPacket (p : List Byte) : RunningAct k (checkPacket p) := by
  unfold checkPacket
  refine triple_bind (running_look _) fun n => ?_
  split
  · exact running_raise _ _
  · exact triple_bind (running_upd fun _ hs => ⟨{ hs.1 with }, hs.2⟩) fun _ =>
      triple_bind (running_check _ _ _) fun _ => triple_of fun _ => running_pure _

theorem running_orStop (f : State → Option α) :
    Triple (Running k) (orStop f) (fun a s => Running k s ∧ f s = some a) Ended.Safe := triple_orStop fun _ _ _ => trivial

theorem running_pktBuildBody (c m sub : Byte) (index : BitVec 24) (boff : Reg32) :
    RunningAct k (pktBuildBody c m sub index boff) := by
  unfold pktBuildBody
  split
  · exact running_raise _ _
  · split
    · next hc => exact triple_bind (running_upd fun _ hs => hs.buildPacket (isPacket_control hc)) fun _ => running_pure _
    · exact triple_bind (running_checkDbuf boff 64) fun _ => triple_of fun _ => triple_bind running_meet fun _ =>
        triple_bind (running_memRead _ _) fun frame => triple_of fun hl =>
        triple_bind (running_upd fun _ hs => hs.buildPacket (isPacket_dataPacket m sub index 0 hl)) fun _ => running_pure _

/-- What PKT_SEND finds in TXPKT is as long as TXLEN says. -/
theorem txPacket_length {s : State} {p : List Byte} (h : txPacket s = some p) (hl : p.length = 72) : s.txlen = 72 := by
  unfold txPacket at h
  split at h
  · cases h; cases hl
  · split at h
    · assumption
    · have := Memory.run_length _ _ _ _ h
      omega

theorem running_pktSendBody : RunningAct k pktSendBody :=
  triple_bind (running_look _) fun _ => triple_bind (running_check _ _ _) fun _ => triple_of fun _ =>
    triple_bind ((running_orStop txPacket).post fun _ _ hs => ⟨hs.1, fun hl => txPacket_length hs.2 hl⟩) fun p =>
    triple_bind (running_sendPacket p) fun _ => running_pure _

theorem running_pktReceiveBody : RunningAct k pktReceiveBody :=
  triple_bind running_receivePacket fun _ => running_pure _

theorem running_pktCheckBody : RunningAct k pktCheckBody :=
  triple_bind ((running_orStop rxPacket).post fun _ _ hs => hs.1) fun p => triple_bind (running_checkPacket p) fun _ =>
    running_pure _

/-! ### The paged transfers -/

theorem running_setXState (x : XState) : RunningAct k (setXState x) := running_upd fun _ hs => ⟨{ hs.1 with }, hs.2⟩

theorem running_finishTransfer : RunningAct k finishTransfer :=
  triple_bind (running_setXState .done) fun _ => running_look _

/-- The registers at the start of a transfer (R30). -/
def Kept.transfer (k : Kept) (n : Nat) (boff : Reg32) : Kept := { k with xlen := BitVec.ofNat 32 n, xcount := 0, xboff := boff }

theorem running_startTransfer {dir : BitVec 2} (hdir : dir.toNat ≤ 2) (n : Nat) (boff : Reg32) :
    Triple (Running k) (startTransfer dir n boff) (fun _ => Running (k.transfer n boff)) Ended.Safe :=
  triple_upd fun _ ⟨hs, hk⟩ =>
    ⟨{ hs with transfer := ⟨Nat.zero_le _, hdir⟩ }, congrArg (Kept.transfer · n boff) hk⟩

/-- The registers once 64 more bytes are counted (R30). -/
def Kept.counted (k : Kept) : Kept := { k with xcount := k.xcount + 64 }

/-- How many frames a transfer still has room for, inside XLEN and inside DBUF (R30, R60). -/
def Kept.Room (k : Kept) (frames : Nat) : Prop :=
  k.xcount.toNat + 64 * frames ≤ k.xlen.toNat ∧ k.xboff.toNat + k.xlen.toNat ≤ k.cfg.dbufSize

theorem Kept.counted_toNat {frames : Nat} (h : k.Room (frames + 1)) : k.counted.xcount.toNat = k.xcount.toNat + 64 := by
  have hlen := k.xlen.isLt
  have hroom := h.1
  show (k.xcount + 64).toNat = _
  rw [BitVec.toNat_add, Nat.mod_eq_of_lt (by simp; omega)]
  rfl

theorem Kept.Room.counted {frames : Nat} (h : k.Room (frames + 1)) : k.counted.Room frames := by
  refine ⟨?_, h.2⟩
  have hroom := h.1
  rw [Kept.counted_toNat h]
  show _ ≤ k.xlen.toNat
  omega

theorem running_countFrame {frames : Nat} (h : k.Room (frames + 1)) :
    Triple (Running k) countFrame (fun _ => Running k.counted) Ended.Safe :=
  triple_upd fun s ⟨hs, hk⟩ => by
    have hroom := h.counted.1
    subst hk
    exact ⟨{ hs with transfer := ⟨Nat.le_trans (Nat.le_add_right _ _) hroom, hs.transfer.2⟩ }, rfl⟩

/-- The frame of an accepted packet stored (R183, R188): it fits into DBUF. -/
theorem running_storeFrame (p : List Byte) {frames : Nat} (h : k.Room (frames + 1)) :
    Triple (Running k) (storeFrame p) (fun _ => Running k.counted) Ended.Safe := by
  have hframe : (packetFrame p).length ≤ 64 := by simp [packetFrame]
  obtain ⟨hroom, hdbuf⟩ := h
  exact triple_look_known (fun _ hs => congrArg (·.xboff.toNat) hs.2) <| triple_look_known (fun _ hs => congrArg (·.xcount.toNat) hs.2) <|
    triple_bind (running_storeDbuf (by omega)) fun _ => running_countFrame ⟨hroom, hdbuf⟩

/-- AcceptData (R184): a packet that is accepted has room. -/
theorem running_acceptData (p : List Byte) :
    Triple (Running k) (acceptData p) (fun _ s => Running k s ∧ k.xcount.toNat + 64 ≤ k.xlen.toNat) Ended.Safe :=
  triple_bind (running_checkPacket p) fun _ => triple_bind (running_check _ _ _) fun _ => triple_of fun _ =>
    triple_bind (running_look _) fun _ => triple_look_known (fun _ hs => congrArg (·.xcount.toNat) hs.2) <|
    triple_look_known (fun _ hs => congrArg (·.xlen.toNat) hs.2) <|
    triple_bind (running_check _ _ _) fun _ => triple_of fun _ =>
    (running_check _ _ _).post fun _ _ hs => ⟨hs.1, of_decide_eq_true hs.2⟩

theorem finishing_finishTransfer (hk : k.Fresh) : Triple (Running k) finishTransfer (fun _ => State.Finishing) Ended.Safe :=
  running_finishTransfer.post fun _ _ hs => hs.finishing hk

/-- The loop of a paged read (R183): each packet it stores has room. -/
theorem running_readLoop (fuel : Nat) (hk : k.Fresh) (hroom : k.xboff.toNat + k.xlen.toNat ≤ k.cfg.dbufSize) :
    Triple (Running k) (readLoop fuel) (fun _ => State.Finishing) Ended.Safe := by
  induction fuel generalizing k with
  | zero => exact (running_look _).post fun _ _ hs => hs.finishing hk
  | succ fuel ih =>
    unfold readLoop
    refine triple_bind running_receivePacket fun p => ?_
    split
    · refine triple_bind (running_look _) fun _ => triple_bind (running_look _) fun _ => ?_
      split
      · exact finishing_finishTransfer hk
      · exact triple_raise fun _ _ hs => hs.1.raise _ _
    · refine triple_bind (running_acceptData p) fun _ => triple_of fun hlen => ?_
      refine triple_bind (running_storeFrame p (frames := 0) ⟨by omega, hroom⟩) fun _ =>
        triple_bind (running_look _) fun _ => triple_bind (running_look _) fun _ => ?_
      split
      · exact finishing_finishTransfer hk
      · exact triple_bind (running_setXState .continuing) fun _ =>
          triple_bind (running_sendBuilt (isPacket_control (by decide))) fun _ =>
          triple_bind (running_setXState .awaitResponse) fun _ => ih hk hroom

/-- The argument checks of the paged transfers leave room for the whole transfer (R73, R324). -/
theorem running_checkTransfer (boff len : Reg32) :
    Triple (Running k) (checkTransfer boff len) (fun _ s => Running k s ∧ boff.toNat + len.toNat ≤ k.cfg.dbufSize) Ended.Safe :=
  triple_bind (running_check _ _ _) fun _ => triple_of fun _ => running_checkDbuf boff _

/-- A transfer that fits into DBUF has room for its frames when it starts. -/
theorem Kept.room_transfer {n frames : Nat} {boff : Reg32} (hn : n < 2 ^ 32) (hf : 64 * frames ≤ n)
    (h : boff.toNat + n ≤ k.cfg.dbufSize) : (k.transfer n boff).Room frames := by
  have hlen : (BitVec.ofNat 32 n).toNat = n := by rw [BitVec.toNat_ofNat, Nat.mod_eq_of_lt hn]
  refine ⟨?_, ?_⟩
  · show 0 + 64 * frames ≤ (BitVec.ofNat 32 n).toNat
    omega
  · show boff.toNat + (BitVec.ofNat 32 n).toNat ≤ k.cfg.dbufSize
    omega

theorem isPacket_configPacket (sub : Byte) (n : Nat) : IsPacket (configPacket sub n) := isPacket_dataPacket _ _ _ _ rfl

theorem running_gbReadRamBody (hk : k.Fresh) (boff len : Reg32) :
    Triple (Running k) (gbReadRamBody boff len) (fun _ => State.Finishing) Ended.Safe :=
  triple_bind (running_checkTransfer boff len) fun _ => triple_of fun h =>
    triple_bind (running_startTransfer (by decide) _ _) fun _ => running_look_cfg <|
    triple_bind (running_sendBuilt (isPacket_configPacket _ _)) fun _ => triple_bind (running_setXState _) fun _ =>
    running_readLoop _ hk (Kept.room_transfer (frames := 0) len.isLt (Nat.zero_le _) h).2

theorem running_expectAck : RunningAct k expectAck :=
  triple_bind running_receivePacket fun _ => (running_check _ _ _).post fun _ _ hs => hs.1

/-- What makes a packet of a frame from DBUF. -/
def MakesPacket (mk : List Byte → List Byte) : Prop := ∀ frame, frame.length = 64 → (mk frame).length = 72 ∧ IsPacket (mk frame)

theorem running_loadPacket {mk : List Byte → List Byte} (hmk : MakesPacket mk) (off : Nat) : RunningAct k (loadPacket mk off) :=
  triple_bind (running_memRead off 64) fun frame => triple_of fun hl =>
    triple_upd_bind (R := fun s => Running k s ∧ s.txlen = 72)
      (fun s hs => ⟨hs.buildPacket (hmk frame hl).2, by simp [(hmk frame hl).1]⟩)
      (triple_upd_bind (R := Running k) (fun s hs => ⟨hs.1.1.sealPacket _ hs.2, hs.1.2⟩) (running_pure _))

theorem running_wirePacket (off : Nat) (p : List Byte) : RunningAct k (wirePacket off p) :=
  triple_bind (running_of_steady fun _ _ => (steady_maskHazard off _).post fun _ _ hs => hs.1) fun _ => running_pure _

theorem running_txWriteOf (fam : Family) (n : Nat) {first : Nat → Act (List Byte)} (hf : ∀ j, RunningAct k (first j)) :
    RunningAct k (txWriteOf fam n first) := by
  have keep {f : State → State} (hf : ∀ r s, Steady r s → Steady r (f s)) (s : State) (hs : Running k s) : Running k (f s) :=
    running_of_steady (m := upd f) (fun r _ => steady_upd (hf r)) s hs
  exact triple_txWriteOf (V := fun _ => True) (R := fun _ => Running k)
    ((running_of_steady fun _ _ => steady_visit).post fun _ _ h => ⟨h, trivial⟩)
    (keep fun _ _ hs => hs.takeTx) (fun j _ => (hf j).post fun bytes => keep fun _ _ hs => hs.transmit bytes)
    (fun v _ _ => running_of_steady fun _ _ => steady_endVisit v) fun _ e _ hs => hs.1.raiseTransport fam e _

theorem running_sendLoaded {mk : List Byte → List Byte} (hmk : MakesPacket mk) (off : Nat) : RunningAct k (sendLoaded mk off) :=
  triple_bind (running_loadPacket hmk off) fun _ => running_txWriteOf _ _ fun _ =>
    triple_bind (running_loadPacket hmk off) fun p => triple_bind (running_wirePacket off p) fun _ => running_pure _

/-- The loop of a paged write (R189): XCOUNT counts what there is room for. -/
theorem running_writeLoop (packets : Nat) (hk : k.Fresh) (h : k.Room packets) :
    Triple (Running k) (writeLoop packets) (fun _ => State.Finishing) Ended.Safe := by
  induction packets generalizing k with
  | zero => exact triple_pure fun _ hs => hs.finishing hk
  | succ packets ih =>
    have hmk (command : Byte) (index : BitVec 24) : MakesPacket fun frame => dataPacket command 0 index frame 0 :=
      fun frame hl => ⟨by rw [dataPacket_length, hl], isPacket_dataPacket _ _ _ _ hl⟩
    exact triple_bind (running_setXState .continuing) fun _ => triple_bind (running_look _) fun _ =>
      triple_bind (running_look _) fun _ => triple_bind (running_look _) fun _ => triple_bind (running_look _) fun _ =>
      triple_bind (running_sendLoaded (hmk _ _) _) fun _ => triple_bind (running_setXState .awaitResponse) fun _ =>
      triple_bind running_expectAck fun _ => triple_bind (running_countFrame h) fun _ => ih hk h.counted

theorem running_gbWriteRamBody (hk : k.Fresh) (boff len : Reg32) :
    Triple (Running k) (gbWriteRamBody boff len) (fun _ => State.Finishing) Ended.Safe :=
  triple_bind (running_checkTransfer boff len) fun _ => triple_of fun h =>
    triple_bind (running_startTransfer (by decide) _ _) fun _ => running_look_cfg <|
    triple_bind (running_sendBuilt (isPacket_configPacket _ _)) fun _ => triple_bind (running_setXState _) fun _ =>
    triple_bind running_expectAck fun _ =>
    triple_bind (running_writeLoop _ hk (Kept.room_transfer len.isLt (Nat.mul_div_le _ _) h)) fun _ =>
    triple_bind (triple_upd fun _ hs => ⟨{ hs.1 with }, hs.2⟩) fun _ => triple_look fun _ => id

theorem running_statusQuery (hk : k.Fresh) (sub : Byte) (boff : Reg32) :
    Triple (Running k) (statusQuery sub boff) (fun _ => State.Finishing) Ended.Safe :=
  triple_bind (running_checkDbuf boff 64) fun _ => triple_of fun h => triple_bind (running_startTransfer (by decide) _ _)
    fun _ => triple_bind (running_sendBuilt (isPacket_dataPacket _ _ _ _ rfl)) fun _ =>
    triple_bind (running_setXState _) fun _ => triple_bind running_receivePacket fun p =>
    triple_bind (running_checkPacket p) fun _ =>
    triple_bind (running_storeFrame p (frames := 0) (Kept.room_transfer (by decide) (by decide) h)) fun _ =>
    finishing_finishTransfer hk

end Pieces

/-! ### Instructions -/

/-- A request that finishes soundly keeps the invariant (R320, R330, R361). -/
theorem State.Inv.of_request {m : Act Reg32} {s t : State}
    (hm : ∀ k : Kept, k.Fresh → Triple (Running k) m (fun _ => State.Finishing) Ended.Safe) (hs : s.Inv)
    (h : request m s = .next t) : t.Inv := by
  obtain ⟨⟨hbusy, -, hattempt, -⟩, hsound⟩ := (State.inv_iff s).1 hs
  have haccept : Running s.accept.kept s.accept :=
    ⟨{ hsound with flags := ⟨by simp, by simp, hsound.flags.2.2⟩ }, rfl⟩
  rcases (hm s.accept.kept ⟨rfl, rfl, hattempt⟩).request_next haccept hbusy h with ⟨r, u, ⟨hu, -, herr, hatt⟩, rfl⟩ | ht | ht
  · exact (State.inv_iff _).2 ⟨⟨rfl, rfl, hatt, rfl⟩, { hu with
      flags := ⟨by simp [herr], by simp [herr], hu.flags.2.2⟩ }⟩
  · exact ht
  · exact ht

/-- A request whose pieces keep the known registers. -/
theorem State.Inv.of_running {m : Act Reg32} {s t : State} (hm : ∀ k : Kept, k.hsAttempt = 0 → RunningAct k m) (hs : s.Inv)
    (h : request m s = .next t) : t.Inv :=
  hs.of_request (fun k hk => (hm k hk.2.2).post fun _ _ ht => ht.finishing hk) h


theorem State.Inv.of_mdFrame {i : Instr} {effect : State → State} {s t : State} (hs : s.Inv) (he : Steady s.regs (effect s))
    (hz : (effect s).hazard = s.hazard) (h : mdFrame i effect s = .next t) : t.Inv := by
  unfold mdFrame at h
  cases h
  split
  · exact hs.of_steady he hz
  · exact hs.of_steady (hs.steady.peerFeed _) (peerFeed_hazard _ s)

theorem State.Inv.of_wrFrame {i : Instr} {f : MdFlags} {data : List Byte} {s t : State} (hs : s.Inv)
    (h : wrFrame i f data s = .next t) : t.Inv := by
  unfold wrFrame at h
  cases h
  split
  · exact hs.of_steady (hs.steady.peerWr f data) (peerWr_hazard f data s)
  · exact hs.of_steady (hs.steady.peerFeed _) (peerFeed_hazard _ s)

/-- With no action of the requester to come, sending a packet leaves the block idle. -/
theorem ready_sendBuilt (p : List Byte) :
    Triple (fun s => s.env.visits = [] ∧ s.Ready) (sendBuilt p) (fun _ => State.Ready) (fun _ _ => True) := by
  have hwrite (bytes : List Byte) :
      Triple (fun s => s.env.visits = [] ∧ s.Ready) (txWrite .gb bytes) (fun _ => State.Ready) (fun _ _ => True) := by
    refine triple_txWriteOf (V := (· = none)) (R := fun _ => State.Ready) ?_ ?_ ?_ ?_ ?_
    · intro s hs
      rw [visit_none hs.1]
      exact ⟨hs, rfl⟩
    · intro s hs
      unfold takeTx
      split <;> exact hs
    · refine fun k _ => triple_pure fun s hs => ?_
      unfold State.transmit
      split <;> exact hs.2
    · rintro v k rfl
      exact triple_pure fun _ => id
    · exact fun _ _ _ _ => trivial
  have hsend : Triple (fun s => s.env.visits = [] ∧ s.Ready) (sendPacket p) (fun _ => State.Ready) (fun _ _ => True) := by
    unfold sendPacket
    split
    · exact triple_upd_bind (R := fun s => s.env.visits = [] ∧ s.Ready) (fun _ => id)
        (triple_bind (hwrite _) fun _ => triple_pure fun _ => id)
    · exact triple_bind (hwrite _) fun _ => triple_pure fun _ => id
  refine triple_upd_bind (fun s hs => ?_) hsend
  unfold buildPacket
  split <;> exact hs

theorem State.Inv.of_sendAlone {p : List Byte} {s t : State} (hp : IsPacket p) (hs : s.Inv) (h : sendAlone p s = .next t) :
    t.Inv := by
  obtain ⟨hready, hsound⟩ := (State.inv_iff s).1 hs
  have restore (u : State) (hu : u.Inv) : State.Inv { u with env := { u.env with visits := s.env.visits } } := by
    obtain ⟨hr, hk⟩ := (State.inv_iff u).1 hu
    exact (State.inv_iff _).2 ⟨hr, { hk with }⟩
  have hquiet : Running s.kept { s with env := { s.env with visits := [] } } := ⟨{ hsound with }, rfl⟩
  have hrun := running_sendBuilt hp _ hquiet
  have hidle := ready_sendBuilt p { s with env := { s.env with visits := [] } } ⟨rfl, hready⟩
  unfold sendAlone at h
  dsimp only at h
  split at h <;> cases h
  · next hr =>
    rw [hr] at hrun hidle
    exact restore _ ((State.inv_iff _).2 ⟨hidle, hrun.1⟩)
  · next hr =>
    rw [hr] at hrun
    exact restore _ hrun
  · next hr =>
    rw [hr] at hrun
    exact restore _ hrun

/-- The frame of an instruction that is a DATA packet; 64 bytes for every other one. -/
def dataFrame : Instr → List Byte
  | .gbDataConfigRrom _ frame _ | .gbDataConfigRram _ frame _ | .gbDataConfigWrom _ frame _ | .gbDataConfigWram _ frame _
  | .gbDataNormalData _ frame _ | .gbDataLastData _ frame _ | .gbDataEraseEfla _ frame _ | .gbDataEraseEram _ frame _
  | .gbDataStatusNreadId _ frame _ | .gbDataStatusReadId _ frame _ => frame
  | _ => zeroFrame

/-- Every instruction keeps the invariant. -/
theorem State.Inv.of_exec {i : Instr} {s t : State} (hf : (dataFrame i).length = 64) (hs : s.Inv) (h : exec i s = .next t) :
    t.Inv := by
  cases i with
  | crcClear => exact hs.of_running (fun _ _ => running_crcClearBody) h
  | crcByte b => exact hs.of_running (fun _ _ => running_crcContinue [b]) h
  | crcBlock boff len => exact hs.of_running (fun _ _ => running_crcBlockBody boff len) h
  | pktBuild c m sub index boff => exact hs.of_running (fun _ _ => running_pktBuildBody c m sub index boff) h
  | pktSend => exact hs.of_running (fun _ _ => running_pktSendBody) h
  | pktReceive => exact hs.of_running (fun _ _ => running_pktReceiveBody) h
  | pktCheck => exact hs.of_running (fun _ _ => running_pktCheckBody) h
  | gbReadRam boff len => exact hs.of_request (fun _ hk => running_gbReadRamBody hk boff len) h
  | gbWriteRam boff len => exact hs.of_request (fun _ hk => running_gbWriteRamBody hk boff len) h
  | gbReadDeviceStatus boff => exact hs.of_request (fun _ hk => running_statusQuery hk subNreadId boff) h
  | gbReadStatus boff => exact hs.of_request (fun _ hk => running_statusQuery hk subReadId boff) h
  | mdSeek whence addr => exact hs.of_running (fun _ _ => running_mdSeekBody whence addr) h
  | mdRead boff len => exact hs.of_running (fun _ _ => running_mdReadBody boff len) h
  | mdWrite boff len => exact hs.of_running (fun _ _ => running_mdWriteBody boff len) h
  | mdReadWord addr => exact hs.of_running (fun _ _ => running_mdReadWordBody addr) h
  | mdWriteWord addr v => exact hs.of_running (fun _ _ => running_wordWrite addr v) h
  | mdWriteByte addr b => exact hs.of_running (fun _ _ => running_wordWrite addr (word16 0x00 b)) h
  | mdRamEnable => exact hs.of_running (fun _ _ => running_mdRamEnableBody) h
  | mdRamDisable => exact hs.of_running (fun _ _ => running_mdRamDisableBody) h
  | mdGetId => exact hs.of_running (fun _ _ => running_mdGetIdBody) h
  | mdHandshake =>
    refine hs.of_running (fun k hk => ?_) h
    have hzero : k = k.attempt 0 := by rw [Kept.attempt, ← hk]
    rw [hzero]
    exact running_mdHandshakeBody
  | mdFlashErase addr => exact hs.of_running (fun _ _ => running_mdFlashEraseBody addr) h
  | mdFlashUnlockBypass => exact hs.of_running (fun _ _ => running_mdFlashUnlockBypassBody) h
  | mdFlashResetBypass => exact hs.of_running (fun _ _ => running_mdFlashResetBypassBody) h
  | mdFlashWrite boff len => exact hs.of_running (fun _ _ => running_mdFlashWriteBody boff len) h
  | addr b => exact hs.of_mdFrame (hs.steady.peerAddr b) rfl h
  | len b => exact hs.of_mdFrame (hs.steady.peerLen b) rfl h
  | delay d => exact hs.of_mdFrame (hs.steady.peerDelay d) rfl h
  | ry => exact hs.of_mdFrame hs.steady.peerRy rfl h
  | rd | rdMode8 | rdDevId | rdMode8DevId | rdSingle | rdMode8Single | rdDevIdSingle | rdMode8DevIdSingle | rdInc | rdMode8Inc
  | rdDevIdInc | rdMode8DevIdInc | rdSingleInc | rdMode8SingleInc | rdDevIdSingleInc | rdMode8DevIdSingleInc =>
    exact hs.of_mdFrame (hs.steady.peerRd _) (peerRd_hazard _ s) h
  | wr | wrMode8 | wrDevId | wrMode8DevId | wrSingle | wrMode8Single | wrDevIdSingle | wrMode8DevIdSingle | wrInc | wrMode8Inc
  | wrDevIdInc | wrMode8DevIdInc | wrSingleInc | wrMode8SingleInc | wrDevIdSingleInc | wrMode8DevIdSingleInc =>
    exact hs.of_wrFrame h
  | mdReservedOp67 | mdReservedOp8F | mdReservedAddrWithFlags | mdReservedLenWithFlags | mdReservedRyWithFlags
  | mdReservedDelayWithFlags => exact hs.of_mdFrame hs.steady.peerUndef rfl h
  | gbAck | gbNak | gbEnd => exact hs.of_sendAlone (isPacket_control (by decide)) h
  | gbDataConfigRrom | gbDataConfigRram | gbDataConfigWrom | gbDataConfigWram | gbDataNormalData | gbDataLastData
  | gbDataEraseEfla | gbDataEraseEram | gbDataStatusNreadId | gbDataStatusReadId =>
    exact hs.of_sendAlone (isPacket_dataPacket _ _ _ _ hf) h

/-! ### What a step finds -/

theorem dataFrame_requestInstr {f : RequestFields} {i : Instr} (h : requestInstr f = some i) : dataFrame i = zeroFrame := by
  unfold requestInstr at h
  split at h <;> cases h <;> rfl

theorem dataFrame_decodeRequest {w : BitVec 128} {i : Instr} (h : decodeRequest w = .ok i) : dataFrame i = zeroFrame := by
  unfold decodeRequest at h
  dsimp only at h
  split at h
  · cases h
  · next hi =>
    split at h
    · cases h
    · split at h <;> cases h
      exact dataFrame_requestInstr hi

theorem dataFrame_rdInstr (flags : BitVec 4) : dataFrame (rdInstr flags) = zeroFrame := by
  unfold rdInstr
  split <;> rfl

theorem dataFrame_wrInstr (flags : BitVec 4) (data : List Byte) : dataFrame (wrInstr flags data) = zeroFrame := by
  unfold wrInstr
  split <;> rfl

theorem dataFrame_reservedInstr (b : Byte) : dataFrame (reservedInstr b) = zeroFrame := by
  unfold reservedInstr
  dsimp only
  split <;> rfl

theorem dataFrame_decodeFrame {devLen : Word} {bytes rest : List Byte} {i : Instr}
    (h : decodeFrame devLen bytes = .ok (i, rest)) : dataFrame i = zeroFrame := by
  unfold decodeFrame at h
  split at h
  · cases h
  · next b more =>
    cases hk : mdKind b <;> simp only [hk] at h
    case addr | len | delay =>
      split at h <;> cases h
      rfl
    case ry => cases h; rfl
    case rd => cases h; exact dataFrame_rdInstr _
    case wr =>
      split at h <;> cases h
      exact dataFrame_wrInstr _ _
    case reserved => cases h; exact dataFrame_reservedInstr b

theorem dataFrame_dataInstr {m sub : Byte} {index : BitVec 24} {frame : List Byte} {trailer : Word} {i : Instr}
    (h : dataInstr m sub index frame trailer = some i) : dataFrame i = frame := by
  unfold dataInstr at h
  split at h <;> cases h <;> rfl

/-- A packet that is decoded has a frame of 64 bytes (R104). -/
theorem dataFrame_decodePacket {p : List Byte} {i : Instr} (h : decodePacket p = .ok i) : (dataFrame i).length = 64 := by
  unfold decodePacket at h
  split at h
  · cases h
  · split at h
    · cases h; rfl
    · split at h
      · cases h; rfl
      · split at h
        · cases h; rfl
        · split at h <;> cases h
  · split at h
    · cases h
    · split at h
      · cases h
      · split at h
        · cases h
        · split at h
          · cases h
          · split at h
            · split at h
              · next body _ _ hbody =>
                split at h
                · next hi =>
                  cases h
                  have hlen := congrArg List.length hbody
                  simp only [List.length_drop, List.length_cons, List.length_nil] at hlen
                  rw [dataFrame_dataInstr hi, List.length_take]
                  omega
                · cases h
              · cases h
            · cases h
  · cases h


theorem State.Inv.of_raise {s : State} (h : s.Inv) (e : Err) (info : Reg32) : (s.raise e info).Inv :=
  ((State.inv_iff s).1 h).2.raise e info

/-- A state of the invariant in which registers changed that the invariant does not speak of. -/
theorem State.Inv.of_sound {s t : State} (h : s.Inv) (hready : s.Ready → t.Ready) (hsound : s.Sound → t.Sound) : t.Inv :=
  (State.inv_iff t).2 (((State.inv_iff s).1 h).imp hready hsound)

/-- What a step finds in a state of the invariant: an instruction in such a state, or something that leads to such a state. -/
def Fetched.Safe : Fetched → Prop
  | .instr i u => (dataFrame i).length = 64 ∧ u.Inv
  | .outcome o => ∀ t, o = .next t → t.Inv

theorem Fetched.safe_next {t : State} (h : t.Inv) : (Fetched.outcome (.next t)).Safe := by
  intro u hu
  cases hu
  exact h

theorem State.Inv.of_rejectRequest {e : DecodeError} {s t : State} (hs : s.Inv) (h : rejectRequest e s = .next t) : t.Inv := by
  unfold rejectRequest at h
  split at h <;> exact hs.of_running (fun _ _ => running_raise _ _) h

theorem writeRequest_safe (w : BitVec 128) {s : State} (hs : s.Inv) : (writeRequest w s).Safe := by
  unfold writeRequest
  split
  · exact Fetched.safe_next hs
  · have hreq : State.Inv { s with req := w } := hs.of_sound id fun h => { h with }
    dsimp only
    split
    · next hi => exact ⟨by rw [dataFrame_decodeRequest hi]; rfl, hreq⟩
    · exact fun t => hreq.of_rejectRequest

theorem State.Inv.noteRead {s : State} (hs : s.Inv) (v : Reg32) : (s.noteRead v).Inv := hs.of_sound id fun h => { h with }

theorem readReg_safe (reg : ReadableReg) {s : State} (hs : s.Inv) : (Fetched.outcome (portOutcome (readPort reg) s)).Safe := by
  cases hr : readRegister reg s with
  | none =>
    have hstop : readPort reg s = .error (.fault .unwrittenByte) s := act_bind_error (orStop_none hr)
    intro t ht
    rw [portOutcome, hstop] at ht
    cases ht
  | some v =>
    have hread : readPort reg s = .ok () (s.noteRead v) := act_bind_ok (orStop_some hr)
    rw [portOutcome, hread]
    exact Fetched.safe_next (hs.noteRead v)

theorem readDbuf_safe (off : Nat) {s : State} (hs : s.Inv) : (Fetched.outcome (readDbuf off s)).Safe := by
  have hbusy : s.busy = false := ((State.inv_iff s).1 hs).1.1
  intro t ht
  rw [readDbuf, if_neg (by simp [hbusy])] at ht
  split at ht
  · cases ht
  · split at ht <;> cases ht
    exact hs.noteRead _

theorem writeDbuf_safe (off : Nat) (b : Byte) {s : State} (hs : s.Inv) : (Fetched.outcome (writeDbuf off b s)).Safe := by
  have hbusy : s.busy = false := ((State.inv_iff s).1 hs).1.1
  intro t ht
  rw [writeDbuf, if_neg (by simp [hbusy])] at ht
  split at ht <;> cases ht
  exact hs.of_sound id fun h => { h with dbuf := h.dbuf.set b (by omega) }

theorem portAction_safe (a : PortAction) {s : State} (hs : s.Inv) : (portAction a s).Safe := by
  cases a with
  | writeReq w => exact writeRequest_safe w hs
  | readReg reg => exact readReg_safe reg hs
  | readDbuf off => exact readDbuf_safe off hs
  | writeDbuf off b => exact writeDbuf_safe off b hs
  | reset => exact Fetched.safe_next ((State.inv_iff s).1 hs).2.blockReset

theorem peerFetch_safe {s : State} (hs : s.Inv) : (peerFetch s).Safe := by
  have hinbox (rest : List Byte) : Steady s.regs { s with peer := { s.peer with inbox := rest } } :=
    hs.steady.of_volatile s.hazard _ s.env s.reads s.txLog rfl rfl
  unfold peerFetch
  split
  · split
    · next hi => exact ⟨by rw [dataFrame_decodeFrame hi]; rfl, hs.of_steady (hinbox _) rfl⟩
    · exact Fetched.safe_next (hs.of_steady hs.steady.drain (peerFeed_hazard _ _))
  · split
    · exact Fetched.safe_next hs
    · next b rest _ =>
      exact Fetched.safe_next (hs.of_steady ((hinbox rest).peerByte b) (peerFeed_hazard [b] _))

/-- What a step finds in a state of the invariant. -/
theorem fetch_safe {s : State} (hs : s.Inv) : (fetch s).Safe := by
  unfold fetch
  split
  · exact peerFetch_safe hs
  · split
    · next p rest _ =>
      have hport : State.Inv { s with pktPort := rest } := hs.of_sound id fun h => { h with }
      dsimp only
      split
      · next hi => exact ⟨dataFrame_decodePacket hi, hport⟩
      · intro t ht
        unfold rejectPacket at ht
        split at ht <;> cases ht <;> exact hport.of_raise _ _
    · split
      · exact Fetched.safe_next hs
      · next a rest _ => exact portAction_safe a (s := { s with port := rest }) (hs.of_sound id fun h => { h with })

/-- Settles O56: what a step finds in a state of the invariant is sound, and every instruction keeps the invariant. -/
theorem stepKeepsInv : Obligations.StepKeepsInv := by
  intro s t hs h
  have hf := fetch_safe hs
  unfold step at h
  cases hg : fetch s with
  | instr i u =>
    rw [hg] at h hf
    exact hf.2.of_exec hf.1 h
  | outcome o =>
    rw [hg] at h hf
    exact hf t h

/-- Settles O57: the state after reset is idle, its stores are empty and its counts zero. -/
theorem resetInv : Obligations.ResetInv :=
  (State.inv_iff _).2 ⟨⟨rfl, rfl, rfl, rfl⟩,
    { flags := ⟨by decide, by decide, fun _ => ⟨rfl, rfl, rfl⟩⟩
      dbuf := Memory.fits_nil _
      txpkt := Memory.fits_nil _
      rxpkt := Memory.fits_nil _
      cells := Memory.fits_nil _
      tx := .inl rfl
      rx := .inl rfl
      transfer := ⟨Nat.le_refl _, Nat.zero_le _⟩
      timeout := .inl rfl
      peer := trivial }⟩

end Sys2Proof.Machine
end

section
/-! SUPPORT. The registers after reset, the layout of STATUS, and that a step runs what is decoded on its interface. -/

namespace Sys2Proof.Machine

/-- Settles O1: every field of the state after reset is what R41 says. -/
theorem resetValues : Obligations.ResetValues :=
  ⟨rfl, rfl, rfl, rfl, rfl, rfl, rfl, rfl, rfl, rfl, rfl, rfl, rfl, rfl, rfl, rfl, rfl, rfl, rfl, rfl, rfl, rfl, rfl, rfl, rfl, rfl,
    fun _ => rfl, fun _ => rfl, fun _ => rfl⟩

/-- A bit of STATUS: of the flags in bits 7..0, or of the code of XSTATE above them (R23). -/
theorem State.status_getLsbD (s : State) (i : Nat) : s.status.getLsbD i =
    if i < 8 then [s.busy, s.done, s.err, s.stickyErr, s.cursorValid, s.ramEn, s.bypass, s.syncLost].getD i false
    else s.xstate.code.getLsbD (i - 8) := by
  have happend : s.status.getLsbD i = BitVec.getLsbD (w := 5 + 3 + 1 + 1 + 1 + 1 + 1 + 1 + 1 + 1)
      ((0 : BitVec 5) ++ s.xstate.code ++ flagBit s.syncLost ++ flagBit s.bypass ++ flagBit s.ramEn ++ flagBit s.cursorValid
        ++ flagBit s.stickyErr ++ flagBit s.err ++ flagBit s.done ++ flagBit s.busy) i := rfl
  rw [happend]
  simp only [BitVec.getLsbD_append]
  by_cases hi : i < 8
  · rw [if_pos hi]
    interval_cases i <;> simp [flagBit]
  · obtain ⟨j, rfl⟩ : ∃ j, i = j + 8 := ⟨i - 8, by omega⟩
    simpa using BitVec.lt_of_getLsbD

/-- Settles O4: STATUS is its flags and XSTATE put together, bit by bit. -/
theorem statusLayout : Obligations.StatusLayout := by
  intro s
  have hxstate : s.status.extractLsb' 8 3 = s.xstate.code := by
    ext i hi
    simp [State.status_getLsbD, BitVec.getLsbD_eq_getElem hi]
  have hupper : s.status.extractLsb' 11 5 = 0 := by
    ext i hi
    simp [State.status_getLsbD, show ¬11 + i < 8 by omega, BitVec.getLsbD_of_ge _ (11 + i - 8) (show 3 ≤ 11 + i - 8 by omega)]
  refine ⟨?_, ?_, ?_, ?_, ?_, ?_, ?_, ?_, ?_, hupper⟩
  case refine_9 => rw [hxstate]; cases s.xstate <;> rfl
  all_goals exact s.status_getLsbD _

/-- Settles O6: each interface is the one served, and the instruction decoded there is executed. -/
theorem stepRunsDecoded : Obligations.StepRunsDecoded := by
  refine ⟨fun s w i rest hpeer hpkt hport hbusy hi => ?_, fun s p i rest hpeer hpkt hi => ?_,
    fun s i rest hadapter hps hi => ?_⟩
  · have hf : fetch s = writeRequest w { s with port := rest } := by simp [fetch, hpeer, hpkt, hport, portAction]
    simp [step, hf, writeRequest, hbusy, hi]
  · have hf : fetch s = .instr i { s with pktPort := rest } := by simp [fetch, hpeer, hpkt, hi]
    rw [step, hf]
  · have hwaiting : s.peer.inbox ≠ [] := by
      intro hnone
      rw [hnone] at hi
      cases hi
    have hf : fetch s = .instr i { s with peer := { s.peer with inbox := rest } } := by
      simp [fetch, peerFetch, State.peerPending, hadapter, hwaiting, hps, hi]
    rw [step, hf]

end Sys2Proof.Machine
end

section
/-! SUPPORT. What the frames the block emits do to the peer's cursor (R100, R290), whatever the cartridge and the draws are. -/

namespace Sys2Proof.Machine

/-! ### What decides the cursor -/

/-- The peer's cursor, its length register and its parse state: what the parser goes by (R294). -/
def Peer.parse (p : Peer) : WordAddr × Word × DevPs := (p.devAddr, p.devLen, p.ps)

/-- What RD does to the parser. -/
theorem peerRd_parse (f : MdFlags) (s : State) : (peerRd f s).peer.parse =
    (if rdMoves f then s.peer.devAddr + BitVec.ofNat 24 (mdUnits f s.peer.devLen) else s.peer.devAddr, s.peer.devLen, .op) := by
  obtain ⟨env, cart, idr, h⟩ := peerRd_frame f s
  rw [h]
  rfl

/-- What WR does to the parser. -/
theorem peerWr_parse (f : MdFlags) (data : List Byte) (s : State) : (peerWr f data s).peer.parse =
    (if wrMoves f then s.peer.devAddr + BitVec.ofNat 24 (mdUnits f s.peer.devLen) else s.peer.devAddr, s.peer.devLen, .op) := by
  obtain ⟨cart, h⟩ := peerWr_frame f data s
  rw [h]
  rfl

/-- The parser goes by nothing else. -/
theorem peerByte_parse_congr (b : Byte) {s t : State} (h : s.peer.parse = t.peer.parse) :
    (peerByte b s).peer.parse = (peerByte b t).peer.parse := by
  obtain ⟨haddr, hlen, hps⟩ : s.peer.devAddr = t.peer.devAddr ∧ s.peer.devLen = t.peer.devLen ∧ s.peer.ps = t.peer.ps := by
    simpa [Peer.parse] using h
  unfold peerByte
  rw [hps]
  cases t.peer.ps with
  | op =>
    dsimp only [peerCommand]
    cases mdKind b with
    | rd => simp only [peerRd_parse, haddr, hlen]
    | wr =>
      dsimp only
      rw [hlen]
      split
      · simp only [peerWr_parse, haddr, hlen]
      · simp [setPs, Peer.parse, haddr, hlen]
    | ry => simp [peerRy, Peer.parse, haddr, hlen]
    | reserved => simp [peerUndef, Peer.parse, haddr, hlen]
    | addr | len | delay => simp [setPs, Peer.parse, haddr, hlen]
  | addrB => simp [peerAddr, Peer.parse, haddr, hlen]
  | lenB => simp [peerLen, Peer.parse, haddr, hlen]
  | delayB => simp [peerDelay, Peer.parse, haddr, hlen]
  | wrData n f taken =>
    dsimp only
    split
    · simp only [peerWr_parse, haddr, hlen]
    · simp [setPs, Peer.parse, haddr, hlen]
  | undef => exact h

theorem peerFeed_parse_congr (bytes : List Byte) {s t : State} (h : s.peer.parse = t.peer.parse) :
    (peerFeed bytes s).peer.parse = (peerFeed bytes t).peer.parse := by
  induction bytes generalizing s t with
  | nil => exact h
  | cons b rest ih => exact ih (peerByte_parse_congr b h)

/-! ### Streams that start and end between two frames -/

/-- Between two frames, the bytes lead from cursor a and DEV_LEN l to cursor a' and DEV_LEN l', between two frames again. -/
def Takes (bytes : List Byte) (a : WordAddr) (l : Word) (a' : WordAddr) (l' : Word) : Prop :=
  ∀ s : State, s.peer.parse = (a, l, .op) → (peerFeed bytes s).peer.parse = (a', l', .op)

section Frames

variable {a a' b : WordAddr} {l l' m : Word}

theorem Takes.append {x y : List Byte} (hx : Takes x a l a' l') (hy : Takes y a' l' b m) : Takes (x ++ y) a l b m := by
  intro s hs
  rw [peerFeed_append]
  exact hy _ (hx s hs)

theorem takes_nil : Takes [] a l a l := fun _ hs => hs

/-- A state whose parser stands between two frames. -/
theorem parse_op {s : State} (h : s.peer.parse = (a, l, .op)) :
    s.peer.ps = .op ∧ s.peer.devAddr = a ∧ s.peer.devLen = l := by
  simp only [Peer.parse, Prod.mk.injEq] at h
  exact ⟨h.2.2, h.1, h.2.1⟩

/-- One ADDR pair shifts its byte into the cursor (R295). -/
theorem takes_addr (x : Byte) : Takes [0x00, x] a l ((a <<< 8) ||| x.setWidth 24) l := by
  intro s hs
  obtain ⟨hps, rfl, rfl⟩ := parse_op hs
  rw [peerFeed_addr x s hps]
  rfl

/-- One LEN pair shifts its byte into DEV_LEN (R296). -/
theorem takes_len (x : Byte) : Takes [0x01, x] a l a ((l <<< 8) ||| x.setWidth 16) := by
  intro s hs
  obtain ⟨hps, rfl, rfl⟩ := parse_op hs
  rw [peerFeed_len x s hps]
  rfl

/-- Three bytes shifted into a 24-bit register replace it. -/
theorem shift_bytes24 (a w : WordAddr) : (((a <<< 8 ||| (w.extractLsb' 16 8).setWidth 24) <<< 8 |||
    (w.extractLsb' 8 8).setWidth 24) <<< 8 ||| (w.extractLsb' 0 8).setWidth 24) = w := by
  ext i hi
  by_cases h1 : i < 8
  · simp [BitVec.getLsbD_eq_getElem, h1, hi]
  · by_cases h2 : i < 16
    · simp [BitVec.getLsbD_eq_getElem, h1, hi, show i - 8 < 8 by omega, show 8 + (i - 8) = i by omega]
    · simp [BitVec.getLsbD_eq_getElem, h1, hi, show ¬i - 8 < 8 by omega, show i - 8 - 8 < 8 by omega,
        show 16 + (i - 8 - 8) = i by omega]

/-- Two bytes shifted into a 16-bit register replace it. -/
theorem shift_bytes16 (l c : Word) : ((l <<< 8 ||| (hiByte c).setWidth 16) <<< 8 ||| (loByte c).setWidth 16) = c := by
  ext i hi
  by_cases h1 : i < 8
  · simp [hiByte, loByte, BitVec.getLsbD_eq_getElem, h1, hi]
  · simp [hiByte, loByte, BitVec.getLsbD_eq_getElem, h1, hi, show i - 8 < 8 by omega, show 8 + (i - 8) = i by omega]

/-- SeekFrame sets the cursor (R100). -/
theorem takes_seekFrame (w : WordAddr) : Takes (seekFrame w) a l w l := by
  have h := ((takes_addr (a := a) (l := l) (w.extractLsb' 16 8)).append (takes_addr (w.extractLsb' 8 8))).append
    (takes_addr (w.extractLsb' 0 8))
  rwa [shift_bytes24] at h

/-- LenFrame sets DEV_LEN (R100). -/
theorem takes_lenFrame (c : Word) : Takes (lenFrame c) a l a c := by
  have h := (takes_len (a := a) (l := l) (hiByte c)).append (takes_len (loByte c))
  rwa [shift_bytes16] at h

theorem takes_delayFrame (d : Byte) : Takes (delayFrame d) a l a l := by
  intro s hs
  obtain ⟨hps, rfl, rfl⟩ := parse_op hs
  rw [delayFrame, peerFeed_delay d s hps]
  rfl

theorem takes_ryFrame : Takes ryFrame a l a l := by
  intro s hs
  obtain ⟨hps, rfl, rfl⟩ := parse_op hs
  rw [ryFrame, peerFeed_ry s hps]
  rfl

/-- RD moves the cursor as its flags say (R297, R298, R301). -/
theorem takes_rd {x : Byte} (hx : mdKind x = .rd) : Takes [x] a l
    (if rdMoves (mdFlags (x.extractLsb' 4 4)) then a + BitVec.ofNat 24 (mdUnits (mdFlags (x.extractLsb' 4 4)) l) else a) l := by
  intro s hs
  obtain ⟨hps, rfl, rfl⟩ := parse_op hs
  simp only [peerFeed_cons, peerFeed_nil, peerByte, hps, peerCommand, hx, peerRd_parse]

theorem takes_wordRdFrame : Takes wordRdFrame a l a l := takes_rd rfl

theorem takes_idRdFrame : Takes idRdFrame a l a l := takes_rd rfl

theorem takes_bulkRdFrame : Takes bulkRdFrame a l (a + BitVec.ofNat 24 l.toNat) l := takes_rd rfl

/-- The data bytes of a WR frame: the last of them executes it (R290, R299, R300). -/
theorem peerFeed_data {f : MdFlags} {data taken : List Byte} {s : State} (hne : data ≠ [])
    (hps : s.peer.ps = .wrData data.length f taken) : (peerFeed data s).peer.parse =
      (if wrMoves f then s.peer.devAddr + BitVec.ofNat 24 (mdUnits f s.peer.devLen) else s.peer.devAddr, s.peer.devLen, .op) := by
  induction data generalizing taken s with
  | nil => exact absurd rfl hne
  | cons x rest ih =>
    rw [peerFeed_cons]
    cases rest with
    | nil =>
      rw [peerFeed_nil, peerByte, hps]
      exact peerWr_parse f _ s
    | cons y more =>
      have hbyte : peerByte x s = setPs (.wrData (y :: more).length f (x :: taken)) s := by
        rw [peerByte, hps]
        simp
      rw [hbyte, ih (by simp) rfl]
      rfl

/-- A WR frame with the data bytes it asks for (R98, R299, R300). -/
theorem takes_wr {x : Byte} {data : List Byte} (hx : mdKind x = .wr)
    (hl : data.length = wrDataLength (mdFlags (x.extractLsb' 4 4)) l) : Takes (x :: data) a l
    (if wrMoves (mdFlags (x.extractLsb' 4 4)) then a + BitVec.ofNat 24 (mdUnits (mdFlags (x.extractLsb' 4 4)) l) else a) l := by
  intro s hs
  obtain ⟨hps, rfl, rfl⟩ := parse_op hs
  rw [peerFeed_cons, peerByte, hps]
  simp only [peerCommand, hx]
  split
  · next h0 =>
    rw [List.eq_nil_of_length_eq_zero (hl.trans h0), peerFeed_nil, peerWr_parse]
  · next h0 =>
    rw [peerFeed_data (taken := []) (fun h => h0 (by rw [← hl, h]; rfl)) (by rw [← hl]; rfl)]
    rfl

theorem takes_wordWrFrame (v : Word) : Takes (wordWrFrame v) a l a l := takes_wr (data := [hiByte v, loByte v]) rfl rfl

/-- BulkWrFrame with DEV_LEN words of data (R100). -/
theorem takes_bulkWrFrame {data : List Byte} (hl : data.length = l.toNat * 2) :
    Takes (bulkWrFrame ++ data) a l (a + BitVec.ofNat 24 l.toNat) l := takes_wr (data := data) rfl hl

/-- One command write of the flash sequences (R270). -/
theorem takes_cmdWrite (x : Nat) (v : Word) : Takes (cmdWrite x v) a l (halved x) l :=
  (takes_seekFrame _).append (takes_wordWrFrame v)

/-- The cursor after a sequence of command writes: the last address (R275, R276). -/
def lastAddress (seq : List (Nat × Word)) (a : WordAddr) : WordAddr :=
  match seq.getLast? with
  | some (x, _) => halved x
  | none => a

theorem lastAddress_cons (x : Nat) (v : Word) (rest : List (Nat × Word)) (a : WordAddr) :
    lastAddress ((x, v) :: rest) a = lastAddress rest (halved x) := by
  cases rest <;> simp [lastAddress, List.getLast?_cons]

theorem takes_cmdWrites (seq : List (Nat × Word)) : Takes (cmdWrites seq) a l (lastAddress seq a) l := by
  induction seq generalizing a with
  | nil => exact takes_nil
  | cons c rest ih =>
    obtain ⟨x, v⟩ := c
    rw [lastAddress_cons]
    exact (takes_cmdWrite x v).append ih

theorem takes_readyPollTx (form : ReadyPollForm) : Takes (readyPollTx form) a l a l := by
  cases form with
  | ryThenRdSingle => exact takes_ryFrame.append takes_wordRdFrame
  | ryOnly => exact takes_ryFrame

end Frames

end Sys2Proof.Machine
end

section
/-! SUPPORT. CUR_W and the peer's cursor while an MD request runs (R32, R229, R374), the requester not acting meanwhile. -/

namespace Sys2Proof.Machine

/-! ### The cursor once the peer has taken everything -/

/-- What the peer has parsed once it has taken everything sent goes by what it has parsed so far and what waits for it. -/
theorem drain_parse_congr {s t : State} (hp : s.peer.parse = t.peer.parse) (hi : s.peer.inbox = t.peer.inbox) :
    (drain s).peer.parse = (drain t).peer.parse := by
  unfold drain
  rw [hi]
  exact peerFeed_parse_congr _ hp

/-- Bytes sent are taken after what waits already (R82, R290). -/
theorem drain_transmit_parse (bytes : List Byte) {s : State} (h : s.adapter = .md) :
    (drain (s.transmit bytes)).peer.parse = (peerFeed bytes (drain s)).peer.parse := by
  have hpeer := State.transmit_peer_md bytes s h
  unfold drain
  rw [hpeer]
  dsimp only
  rw [peerFeed_append]
  exact peerFeed_parse_congr _ (peerFeed_parse_congr _ rfl)

/-- No byte changes what waits. -/
theorem peerByte_inbox (b : Byte) (s : State) : (peerByte b s).peer.inbox = s.peer.inbox := by
  have hrd (f : MdFlags) : (peerRd f s).peer.inbox = s.peer.inbox := by
    obtain ⟨env, cart, idr, h⟩ := peerRd_frame f s
    rw [h]
  have hwr (f : MdFlags) (data : List Byte) : (peerWr f data s).peer.inbox = s.peer.inbox := by
    obtain ⟨cart, h⟩ := peerWr_frame f data s
    rw [h]
  unfold peerByte
  cases s.peer.ps with
  | op =>
    dsimp only [peerCommand]
    cases mdKind b with
    | rd => exact hrd _
    | wr =>
      dsimp only
      split
      · exact hwr _ _
      · rfl
    | addr | len | delay | ry | reserved => rfl
  | wrData n f taken =>
    dsimp only
    split
    · exact hwr f _
    · rfl
  | addrB | lenB | delayB | undef => rfl

theorem peerFeed_inbox (bytes : List Byte) (s : State) : (peerFeed bytes s).peer.inbox = s.peer.inbox := by
  induction bytes generalizing s with
  | nil => rfl
  | cons b rest ih => exact (ih _).trans (peerByte_inbox b s)

theorem drain_inbox (s : State) : (drain s).peer.inbox = [] := peerFeed_inbox _ _

theorem drain_parse_of_empty {s : State} (h : s.peer.inbox = []) : (drain s).peer.parse = s.peer.parse := by
  rw [drain, h]
  rfl

/-! ### What is known of the cursor while a request runs -/

/-- The MD peer follows, the requester does not act, and A holds of the peer's cursor, CURSOR_VALID and CUR_W. -/
structure Follows (A : WordAddr → Bool → WordAddr → Prop) (s : State) : Prop where
  visits : s.env.visits = []
  adapter : s.adapter = .md
  between : (drain s).peer.ps = .op
  cursor : A (drain s).peer.devAddr s.cursorValid s.curW

/-- CUR_W is the peer's cursor where it is valid (R32). -/
def Mirrored (a : WordAddr) (valid : Bool) (w : WordAddr) : Prop := valid = true → a = w

/-- The peer's cursor is `words` words ahead of CUR_W (R229). -/
def Ahead (words : Nat) (a : WordAddr) (valid : Bool) (w : WordAddr) : Prop := valid = true → a = w + BitVec.ofNat 24 words

/-- The peer's cursor has been set. -/
def StandsAt (x a : WordAddr) (_ : Bool) (_ : WordAddr) : Prop := a = x

/-- A TransportError sets SYNC_LOST (R329). -/
def Ended.Lost : Ended → State → Prop
  | .fault _, _ => True
  | .raised, t => t.syncLost = true
  | .reset, _ => False

/-- A request that raises has lost the transport, or left CUR_W the peer's cursor. -/
def Ended.Follows : Ended → State → Prop
  | .fault _, _ => True
  | .raised, t => t.syncLost = true ∨ Machine.Follows Mirrored t
  | .reset, _ => False

theorem Ended.Lost.follows {e : Ended} {t : State} (h : e.Lost t) : e.Follows t := by
  cases e with
  | raised => exact .inl h
  | reset => exact h
  | fault f => trivial

section Pieces

variable {α : Type} {A B : WordAddr → Bool → WordAddr → Prop}

/-- A change that leaves the requester, the adapter's parser and what waits for it. -/
theorem Follows.change {s t : State} (h : Follows A s) (hv : t.env.visits = s.env.visits) (ha : t.adapter = s.adapter)
    (hp : t.peer.parse = s.peer.parse) (hi : t.peer.inbox = s.peer.inbox)
    (hc : ∀ a, A a s.cursorValid s.curW → B a t.cursorValid t.curW) : Follows B t := by
  have hdrain := drain_parse_congr hp hi
  simp only [Peer.parse, Prod.mk.injEq] at hdrain
  obtain ⟨haddr, -, hps⟩ := hdrain
  exact ⟨hv.trans h.visits, ha.trans h.adapter, hps.trans h.between, haddr ▸ hc _ h.cursor⟩

/-- A change that CUR_W and the peer's cursor have no part in. -/
theorem Follows.same {s t : State} (h : Follows A s) (hv : t.env.visits = s.env.visits) (ha : t.adapter = s.adapter)
    (hp : t.peer = s.peer) (hvalid : t.cursorValid = s.cursorValid) (hcur : t.curW = s.curW) : Follows A t :=
  h.change hv ha (by rw [hp]) (by rw [hp]) fun a => by rw [hvalid, hcur]; exact id

theorem Follows.takeTx {s : State} (h : Follows A s) : Follows A (takeTx s).2 := by
  unfold Machine.takeTx
  split <;> exact h.same rfl rfl rfl rfl rfl

theorem Follows.takeRx {s : State} (h : Follows A s) : Follows A (takeRx s).2 := by
  unfold Machine.takeRx
  split <;> exact h.same rfl rfl rfl rfl rfl

theorem Follows.takeReopen {s : State} (h : Follows A s) : Follows A (takeReopen s).2 := by
  unfold Machine.takeReopen
  split <;> exact h.same rfl rfl rfl rfl rfl

theorem Follows.takeReplies {s : State} (h : Follows A s) (fam : Family) (n : Nat) (offered : List Byte) :
    Follows A (takeReplies fam n offered s).2 := by
  unfold Machine.takeReplies
  split
  · exact h.change rfl rfl rfl rfl fun _ => id
  · exact h

/-- The peer has taken everything: its cursor is where it was going to be. -/
theorem Follows.settlePeer {s : State} (h : Follows A s) : Follows A (settlePeer s) := by
  have hsettle : Machine.settlePeer s = drain s := by rw [Machine.settlePeer, h.adapter]
  have hsession := drain_session s
  simp only [State.session, State.Session.mk.injEq] at hsession
  obtain ⟨-, hadapter, -, -, -, -, hvisits, -, -⟩ := hsession
  have hdrain := drain_parse_of_empty (drain_inbox s)
  simp only [Peer.parse, Prod.mk.injEq] at hdrain
  obtain ⟨haddr, -, hps⟩ := hdrain
  have hregs : (drain s).cursorValid = s.cursorValid ∧ (drain s).curW = s.curW := by
    obtain ⟨env, cart, peer, hf⟩ := peerFeed_frame s.peer.inbox { s with peer := { s.peer with inbox := [] } }
    rw [drain, hf]
    exact ⟨rfl, rfl⟩
  rw [hsettle]
  refine ⟨hvisits.trans h.visits, hadapter.trans h.adapter, hps.trans h.between, ?_⟩
  rw [haddr, hregs.1, hregs.2]
  exact h.cursor

/-- A piece that keeps what is known of the cursor; where it raises, the transport is lost. -/
abbrev FollowsAct (A : WordAddr → Bool → WordAddr → Prop) (m : Act α) : Prop :=
  Triple (Follows A) m (fun _ => Follows A) Ended.Lost

theorem follows_pure (a : α) : FollowsAct A (pure a) := triple_pure fun _ => id

theorem follows_look (f : State → α) : FollowsAct A (look f) := triple_look fun _ => id

/-- A register write that CUR_W and the peer's cursor have no part in. -/
theorem follows_upd {f : State → State} (h : ∀ s, Follows A s → Follows A (f s)) : FollowsAct A (upd f) := h

theorem follows_draw {f : State → α × State} (h : ∀ s, Follows A s → Follows A (f s).2) : FollowsAct A (draw f) :=
  triple_draw h

theorem follows_raiseTransport (fam : Family) (e : Err) (info : Nat) : FollowsAct A (raiseTransport fam e info : Act α) :=
  fun s _ => State.loseSync_syncLost fam s

theorem follows_visit : Triple (Follows A) visit (fun v s => Follows A s ∧ v = none) Ended.Lost := by
  intro s hs
  rw [visit_none hs.visits]
  exact ⟨hs, rfl⟩

theorem follows_meet : FollowsAct A meet :=
  triple_bind follows_visit fun v => triple_of fun hv => by subst hv; exact follows_pure ()

/-- What bytes do to what is known of the cursor. -/
def Leads (bytes : List Byte) (A B : WordAddr → Bool → WordAddr → Prop) : Prop :=
  ∀ a l, ∃ a' l', Takes bytes a l a' l' ∧ ∀ v w, A a v w → B a' v w

/-- Bytes sent whole leave the peer's cursor where they lead it. -/
theorem Follows.transmit {s : State} (h : Follows A s) {bytes : List Byte}
    (hb : Leads bytes A B) : Follows B (s.transmit bytes) := by
  obtain ⟨a', l', htakes, hcursor⟩ := hb (drain s).peer.devAddr (drain s).peer.devLen
  have hparse := (drain_transmit_parse bytes h.adapter).trans (htakes (drain s) (by simp [Peer.parse, h.between]))
  obtain ⟨hps, haddr, -⟩ := parse_op hparse
  refine ⟨by simpa using h.visits, by simpa using h.adapter, hps, ?_⟩
  rw [haddr]
  simpa using hcursor _ _ h.cursor

/-- A TxWrite of bytes that lead the peer's cursor somewhere, the transport taking all of them or failing (R221, R229). -/
theorem follows_txWriteOf {n : Nat} {first : Nat → Act (List Byte)}
    (hf : ∀ k, k ≤ n → Triple (Follows A) (first k) (fun bytes s => Follows A s ∧ (k = n → Leads bytes A B)) Ended.Lost) :
    Triple (Follows A) (txWriteOf .md n first) (fun _ => Follows B) Ended.Lost :=
  (triple_txWriteOf (fam := .md) (R := fun k s => k = n → Follows B s) follows_visit (fun _ hs => hs.takeTx)
    (fun k hk => (hf k hk).post fun _ _ hs hkn => hs.1.transmit (hs.2 hkn))
    (fun v _ hv => by subst hv; exact triple_pure fun _ => id)
    fun _ e s _ => State.loseSync_syncLost .md s).post fun _ _ hs => hs rfl

theorem follows_txWrite {bytes : List Byte} (h : Leads bytes A B) :
    Triple (Follows A) (txWrite .md bytes) (fun _ => Follows B) Ended.Lost :=
  follows_txWriteOf fun k _ => triple_pure fun s hs => ⟨hs, fun hk => by rwa [hk, List.take_length]⟩

theorem follows_rxRead (n : Nat) : FollowsAct A (rxRead .md n) :=
  triple_bind follows_meet fun _ => triple_bind (follows_upd fun _ hs => hs.settlePeer) fun _ =>
    triple_bind (follows_draw fun _ hs => hs.takeRx) fun _ =>
    triple_bind (follows_draw fun _ hs => hs.takeReplies .md n _) fun _ => follows_pure _

/-! ### DBUF -/

theorem Follows.takeFree {s : State} (h : Follows A s) : Follows A (takeFree s).2 := by
  unfold Machine.takeFree
  split <;> exact h.same rfl rfl rfl rfl rfl

theorem Follows.takeFreeByte {s : State} (h : Follows A s) : Follows A (takeFreeByte s).2 := h.takeFree

theorem follows_maskByte (off : Nat) (b : Byte) : FollowsAct A (maskByte off b) := by
  intro s hs
  by_cases hm : off ∈ s.hazard
  · have hfree : maskByte off b s = .ok (takeFreeByte s).1 (takeFreeByte s).2 := by simp [maskByte, hm]
    rw [hfree]
    exact hs.takeFreeByte
  · have hown : maskByte off b s = .ok b s := by simp [maskByte, hm]
    rw [hown]
    exact hs

theorem follows_maskHazard (off : Nat) (bytes : List Byte) :
    Triple (Follows A) (maskHazard off bytes) (fun out s => Follows A s ∧ out.length = bytes.length) Ended.Lost := by
  induction bytes generalizing off with
  | nil => exact triple_pure fun _ hs => ⟨hs, rfl⟩
  | cons b rest ih =>
    exact triple_bind (follows_maskByte off b) fun v => triple_bind (ih (off + 1)) fun r =>
      triple_of fun hl => triple_pure fun _ hs => ⟨hs, by simp [hl]⟩

theorem follows_memRead (off n : Nat) :
    Triple (Follows A) (memRead off n) (fun out s => Follows A s ∧ out.length = n) Ended.Lost :=
  triple_bind (R := fun bytes s => Follows A s ∧ bytes.length = n)
    ((triple_orStop fun _ _ _ => trivial).post fun _ _ hs => ⟨hs.1, Memory.run_length _ _ _ _ hs.2⟩)
    fun bytes => triple_of fun hl => (follows_maskHazard off bytes).post fun _ _ h => ⟨h.1, h.2.trans hl⟩

/-- The bytes that a stream may be, whatever its regions of DBUF hold. -/
def Renders : List TxPart → List Byte → Prop
  | [], out => out = []
  | .bytes b :: rest, out => ∃ more, out = b ++ more ∧ Renders rest more
  | .dbuf _ n :: rest, out => ∃ data more, out = data ++ more ∧ data.length = n ∧ Renders rest more

theorem follows_txBytes (parts : List TxPart) (k : Nat) :
    Triple (Follows A) (txBytes parts k) (fun out s => Follows A s ∧ (k = txLength parts → Renders parts out)) Ended.Lost := by
  induction parts generalizing k with
  | nil => exact triple_pure fun _ hs => ⟨hs, fun _ => rfl⟩
  | cons part rest ih =>
    cases part with
    | bytes b =>
      refine triple_bind (ih (k - b.length)) fun more => triple_of fun hmore => triple_pure fun _ hs => ⟨hs, fun hk => ?_⟩
      have hk : k = b.length + txLength rest := hk
      exact ⟨more, by rw [List.take_of_length_le (by omega)], hmore (by omega)⟩
    | dbuf off n =>
      refine triple_bind (follows_memRead off (min n k)) fun data => triple_of fun hdata =>
        triple_bind (ih (k - n)) fun more => triple_of fun hmore => triple_pure fun _ hs => ⟨hs, fun hk => ?_⟩
      have hk : k = n + txLength rest := hk
      exact ⟨data, more, rfl, by omega, hmore (by omega)⟩

/-- No bytes sent change nothing. -/
theorem transmit_nothing (s : State) : State.transmit [] s = s := by
  simp only [State.transmit, List.append_nil]
  split <;> rfl

/-- One TxWrite of a stream whose bytes, whatever they are, lead the peer's cursor somewhere. -/
theorem follows_txWriteParts {parts : List TxPart} (h : ∀ out, Renders parts out → Leads out A B) :
    Triple (Follows A) (txWriteParts .md parts) (fun _ => Follows B) Ended.Lost := by
  unfold txWriteParts
  split
  · next hnone =>
    have hleads := h [] (by rw [hnone]; rfl)
    exact triple_pure fun s hs => by simpa [transmit_nothing] using hs.transmit hleads
  · exact follows_txWriteOf fun k _ => (follows_txBytes parts k).post fun out _ hs => ⟨hs.1, fun hk => h out (hs.2 hk)⟩

theorem follows_storeDbuf (off : Nat) (bytes : List Byte) : FollowsAct A (storeDbuf off bytes) :=
  triple_bind ((follows_maskHazard off bytes).post fun _ _ hs => hs.1) fun _ =>
    follows_upd fun _ hs => hs.same rfl rfl rfl rfl rfl

theorem follows_storeAt (d : Destination) (got : Nat) (bytes : List Byte) : FollowsAct A (storeAt d got bytes) := by
  cases d with
  | dbuf off => exact follows_storeDbuf _ bytes
  | latch => exact follows_pure ()

theorem follows_rxFillLoop (d : Destination) (n fuel : Nat) (got : List Byte) : FollowsAct A (rxFillLoop d n fuel got) := by
  induction fuel generalizing got with
  | zero => exact follows_pure got
  | succ fuel ih =>
    unfold rxFillLoop
    split
    · exact follows_pure got
    · refine triple_bind (follows_rxRead _) fun answer => ?_
      cases answer with
      | timedOut t => exact triple_bind (follows_storeAt d _ t) fun _ => follows_raiseTransport _ _ _
      | failed t => exact triple_bind (follows_storeAt d _ t) fun _ => follows_raiseTransport _ _ _
      | got t =>
        dsimp only
        split
        · exact follows_raiseTransport _ _ _
        · exact triple_bind (follows_storeAt d _ t) fun _ => ih _

theorem follows_rxFill (d : Destination) (n : Nat) : FollowsAct A (rxFill d n) := follows_rxFillLoop d n n []

theorem follows_reopen (t : Nat) : FollowsAct A (reopen t) := by
  unfold reopen
  refine triple_bind follows_meet fun _ => triple_bind (follows_upd fun _ hs => hs.settlePeer) fun _ =>
    triple_bind (follows_draw fun _ hs => hs.takeReopen) fun ok =>
    triple_bind (follows_upd fun _ hs => hs.change rfl rfl rfl rfl fun _ => id) fun _ => ?_
  split
  · exact follows_pure ()
  · exact follows_raiseTransport _ _ _

/-! ### CUR_W catching up -/

theorem follows_setCursor (w : WordAddr) :
    Triple (Follows (StandsAt w)) (upd (setCursor w)) (fun _ => Follows Mirrored) Ended.Lost :=
  triple_upd fun _ hs => hs.change rfl rfl rfl rfl fun _ ha _ => ha

theorem follows_advanceCursor (words : Nat) :
    Triple (Follows (Ahead words)) (upd (advanceCursor words)) (fun _ => Follows Mirrored) Ended.Lost :=
  triple_upd fun s hs => hs.change (by simp) (by simp) (by simp) (by simp) fun a ha hv => by
    have hvalid : s.cursorValid = true := by simpa using hv
    rw [advanceCursor_curW, if_pos hvalid]
    exact ha hvalid

/-- Bytes that leave the peer's cursor where it is. -/
theorem leads_same {bytes : List Byte} (h : ∀ a l, ∃ l', Takes bytes a l a l') : Leads bytes A A := fun a l =>
  let ⟨l', ht⟩ := h a l
  ⟨a, l', ht, fun _ _ => id⟩

/-- Bytes that set the peer's cursor. -/
theorem leads_to {bytes : List Byte} {x : WordAddr} (h : ∀ a l, Takes bytes a l x l) : Leads bytes A (StandsAt x) :=
  fun a l => ⟨x, l, h a l, fun _ _ _ => rfl⟩

/-- Bytes that move the peer's cursor by some words. -/
theorem leads_ahead {bytes : List Byte} {words : Nat} (h : ∀ a l, ∃ l', Takes bytes a l (a + BitVec.ofNat 24 words) l') :
    Leads bytes Mirrored (Ahead words) := fun a l =>
  let ⟨l', ht⟩ := h a l
  ⟨_, l', ht, fun _ _ ha hv => by rw [ha hv]⟩

end Pieces
end Sys2Proof.Machine
end

section
/-! SUPPORT. Every MD request keeps CUR_W the peer's cursor (R32, R229, R374). -/

namespace Sys2Proof.Machine

/-! ### Streams with data from DBUF -/

/-- Whatever its regions of DBUF hold, the stream moves the peer's cursor by some words. -/
def Advances (parts : List TxPart) (words : Nat) : Prop :=
  ∀ out, Renders parts out → ∀ a l, ∃ l', Takes out a l (a + BitVec.ofNat 24 words) l'

theorem Advances.leads {parts : List TxPart} {words : Nat} (h : Advances parts words) (out : List Byte) (hout : Renders parts out) :
    Leads out Mirrored (Ahead words) := leads_ahead (h out hout)

theorem advances_nil : Advances [] 0 := by
  intro out hout a l
  have hnil : out = [] := hout
  subst hnil
  exact ⟨l, by simpa using takes_nil⟩

theorem renders_append {p q : List TxPart} {out : List Byte} (h : Renders (p ++ q) out) :
    ∃ x y, out = x ++ y ∧ Renders p x ∧ Renders q y := by
  induction p generalizing out with
  | nil => exact ⟨[], out, rfl, rfl, h⟩
  | cons part rest ih =>
    cases part with
    | bytes b =>
      obtain ⟨more, rfl, hmore⟩ := h
      obtain ⟨x, y, rfl, hx, hy⟩ := ih hmore
      exact ⟨b ++ x, y, by simp, ⟨x, rfl, hx⟩, hy⟩
    | dbuf off n =>
      obtain ⟨data, more, rfl, hdata, hmore⟩ := h
      obtain ⟨x, y, rfl, hx, hy⟩ := ih hmore
      exact ⟨data ++ x, y, by simp, ⟨data, x, rfl, hdata, hx⟩, hy⟩

theorem Advances.append {p q : List TxPart} {m n : Nat} (hp : Advances p m) (hq : Advances q n) : Advances (p ++ q) (m + n) := by
  intro out hout a l
  obtain ⟨x, y, rfl, hx, hy⟩ := renders_append hout
  obtain ⟨l', hx⟩ := hp x hx a l
  obtain ⟨m', hy⟩ := hq y hy _ l'
  exact ⟨m', by rw [BitVec.ofNat_add, ← BitVec.add_assoc]; exact hx.append hy⟩

/-- The size of a chunk in bytes (R227): whole words, no more than DEV_LEN can say. -/
def ChunkSize (c : Nat) : Prop := c % 2 = 0 ∧ c ≤ 65536

theorem chunkSize_of_mem {n c : Nat} (hn : n % 2 = 0) (h : c ∈ chunks n) : ChunkSize c := by
  rw [chunks, List.mem_append, List.mem_replicate] at h
  rcases h with ⟨-, rfl⟩ | h
  · exact ⟨rfl, le_refl _⟩
  · split at h
    · exact absurd h List.not_mem_nil
    · rw [List.mem_singleton] at h
      unfold ChunkSize
      omega

theorem ChunkSize.words {c : Nat} (h : ChunkSize c) : (BitVec.ofNat 16 (c / 2)).toNat = c / 2 := by
  obtain ⟨-, hle⟩ := h
  rw [BitVec.toNat_ofNat, Nat.mod_eq_of_lt (by omega)]

/-- One chunk of MD_WRITE (R228). -/
theorem advances_writeChunk {c : Nat} (h : ChunkSize c) (off : Nat) :
    Advances [.bytes (lenFrame (BitVec.ofNat 16 (c / 2)) ++ bulkWrFrame), .dbuf off c] (c / 2) := by
  intro out hout a l
  obtain ⟨-, rfl, data, -, rfl, hdata, rfl⟩ := hout
  have hlen : data.length = (BitVec.ofNat 16 (c / 2)).toNat * 2 := by
    have ⟨heven, _⟩ := h
    rw [h.words, hdata]
    omega
  have htakes := (takes_lenFrame (a := a) (l := l) (BitVec.ofNat 16 (c / 2))).append (takes_bulkWrFrame hlen)
  rw [h.words] at htakes
  exact ⟨_, by simpa using htakes⟩

/-- The TX stream of MD_WRITE (R228). -/
theorem advances_writeStream {sizes : List Nat} (h : ∀ c ∈ sizes, ChunkSize c) (off : Nat) :
    Advances (writeStream sizes off) (sizes.sum / 2) := by
  induction sizes generalizing off with
  | nil => exact advances_nil
  | cons c rest ih =>
    obtain ⟨heven, -⟩ := h c (by simp)
    have hsum : (c :: rest).sum / 2 = c / 2 + rest.sum / 2 := by
      rw [List.sum_cons]
      omega
    rw [hsum]
    exact (advances_writeChunk (h c (by simp)) off).append (ih (fun d hd => h d (by simp [hd])) (off + c))

/-- One programmed word of MD_FLASH_WRITE (R277). -/
theorem advances_programStream (cfg : Params) (off : Nat) : Advances (programStream cfg off) 1 := by
  intro out hout a l
  unfold programStream at hout
  obtain ⟨-, rfl, data, -, rfl, hdata, -, rfl, rfl⟩ := hout
  have hprogram := ((takes_lenFrame (a := a) (l := l) 1).append (takes_wordWrFrame 0x00A0)).append
    ((takes_bulkWrFrame (l := 1) hdata).append (takes_readyPollTx cfg.readyPoll))
  exact ⟨1, by simpa using hprogram⟩

/-- The words of MD_FLASH_WRITE in one run. -/
theorem advances_programRun (cfg : Params) (words off : Nat) :
    Advances ((List.range words).flatMap fun i => programStream cfg (off + 2 * i)) words := by
  induction words with
  | zero => exact advances_nil
  | succ words ih =>
    rw [List.range_succ, List.flatMap_append, List.flatMap_singleton]
    exact ih.append (advances_programStream cfg _)

/-! ### The requests -/

/-- A request's body that keeps CUR_W the peer's cursor, unless a TransportError ends it. -/
abbrev FollowsBody {α : Type} (m : Act α) : Prop := Triple (Follows Mirrored) m (fun _ => Follows Mirrored) Ended.Follows

section Bodies

variable {α β : Type} {A B : WordAddr → Bool → WordAddr → Prop}

/-- I/O of a request, its errors being transport errors. -/
theorem follows_io {P : State → Prop} {Q : α → State → Prop} {m : Act α} (h : Triple P m Q Ended.Lost) : Triple P m Q Ended.Follows :=
  h.weaken (fun _ => id) (fun _ _ => id) fun _ _ he => he.follows

theorem follows_raise (e : Err) (info : Nat) : FollowsBody (raise e info : Act α) :=
  triple_raise fun _ _ hs => .inr (hs.same rfl rfl rfl rfl rfl)

theorem follows_check (ok : Bool) (e : Err) (info : Nat) :
    Triple (Follows Mirrored) (check ok e info) (fun _ s => Follows Mirrored s ∧ ok = true) Ended.Follows :=
  triple_check fun _ _ hs => .inr (hs.same rfl rfl rfl rfl rfl)

theorem follows_wordAddress (addr : Reg32) : FollowsBody (wordAddress addr) :=
  triple_bind (follows_check _ _ _) fun _ => triple_of fun _ => triple_pure fun _ => id

/-- What a failed request leaves of the cartridge is not what says that the transport is lost (R281, R373). -/
theorem follows_onRaise {P : State → Prop} {Q : α → State → Prop} {f : State → State} {m : Act α}
    (hf : ∀ s, (f s).syncLost = s.syncLost) (h : Triple P m Q Ended.Lost) : Triple P (onRaise f m) Q Ended.Lost :=
  triple_onRaise (fun s hs => (hf s).trans hs) h

theorem settlePeer_syncLost (s : State) : (settlePeer s).syncLost = s.syncLost := by
  obtain ⟨env, cart, peer, h⟩ := settlePeer_frame s
  rw [h]

/-- Bytes that set the peer's cursor, and CUR_W set to the same. -/
theorem follows_seekTo {bytes : List Byte} {w : WordAddr} (h : ∀ a l, Takes bytes a l w l) {g : Unit → Act α}
    (hg : FollowsAct Mirrored (g ())) :
    Triple (Follows Mirrored) (txWrite .md bytes >>= fun _ => upd (setCursor w) >>= g) (fun _ => Follows Mirrored) Ended.Lost :=
  triple_bind (follows_txWrite (leads_to h)) fun _ => triple_bind (follows_setCursor w) fun _ => hg

theorem follows_mdSeekBody (whence : BitVec 2) (addr : Reg32) : FollowsBody (mdSeekBody whence addr) :=
  triple_bind (follows_check _ _ _) fun _ => triple_of fun _ => triple_bind (follows_check _ _ _) fun _ => triple_of fun _ =>
    triple_bind (follows_check _ _ _) fun _ => triple_of fun _ => triple_bind (follows_wordAddress addr) fun w =>
    follows_io (follows_seekTo (fun _ _ => takes_seekFrame w) (follows_pure _))

theorem follows_checkDbuf (boff : Reg32) (n : Nat) : FollowsBody (checkDbuf boff n) :=
  triple_bind (follows_io (follows_look _)) fun _ => (follows_check _ _ _).post fun _ _ hs => hs.1

theorem follows_checkBulk (boff len : Reg32) :
    Triple (Follows Mirrored) (checkBulk boff len) (fun _ s => Follows Mirrored s ∧ len.toNat % 2 = 0) Ended.Follows :=
  triple_bind (follows_check _ _ _) fun _ => triple_of fun heven =>
    (follows_checkDbuf boff _).post fun _ _ hs => ⟨hs, by simpa using heven⟩

theorem follows_readChunks {sizes : List Nat} (h : ∀ c ∈ sizes, ChunkSize c) (off : Nat) :
    FollowsAct Mirrored (readChunks sizes off) := by
  induction sizes generalizing off with
  | nil => exact follows_pure ()
  | cons c rest ih =>
    have hahead (a : WordAddr) (l : Word) : ∃ l', Takes (lenFrame (BitVec.ofNat 16 (c / 2)) ++ bulkRdFrame) a l
        (a + BitVec.ofNat 24 (c / 2)) l' := by
      have htakes := (takes_lenFrame (a := a) (l := l) (BitVec.ofNat 16 (c / 2))).append takes_bulkRdFrame
      rw [(h c (by simp)).words] at htakes
      exact ⟨_, htakes⟩
    exact triple_bind (follows_txWrite (leads_ahead hahead)) fun _ => triple_bind (follows_rxFill _ _) fun _ =>
      triple_bind (follows_advanceCursor _) fun _ => ih (fun d hd => h d (by simp [hd])) _

theorem follows_mdReadBody (boff len : Reg32) : FollowsBody (mdReadBody boff len) :=
  triple_bind (follows_checkBulk boff len) fun _ => triple_of fun heven =>
    follows_io (triple_bind (follows_readChunks (fun _ => chunkSize_of_mem heven) _) fun _ => follows_pure _)

theorem follows_mdWriteBody (boff len : Reg32) : FollowsBody (mdWriteBody boff len) :=
  triple_bind (follows_checkBulk boff len) fun _ => triple_of fun heven => by
    have hstream := advances_writeStream (fun _ => chunkSize_of_mem heven) boff.toNat
    rw [chunks_sum] at hstream
    exact follows_io (triple_bind (follows_txWriteParts hstream.leads) fun _ =>
      triple_bind (follows_advanceCursor _) fun _ => follows_pure _)

theorem follows_mdReadWordBody (addr : Reg32) : FollowsBody (mdReadWordBody addr) :=
  triple_bind (follows_wordAddress addr) fun w =>
    follows_io (follows_seekTo (fun _ _ => (takes_seekFrame w).append takes_wordRdFrame)
      (triple_bind (follows_rxFill _ _) fun _ => follows_pure _))

theorem follows_wordWrite (addr : Reg32) (v : Word) : FollowsBody (wordWrite addr v) :=
  triple_bind (follows_wordAddress addr) fun w =>
    follows_io (follows_seekTo (fun _ _ => (takes_seekFrame w).append (takes_wordWrFrame v)) (follows_pure _))

theorem follows_setDelay (d : Byte) : FollowsAct A (upd (setDelay d)) := follows_upd fun _ hs => hs.same rfl rfl rfl rfl rfl

theorem follows_ramCtl (v : Word) (d : Byte) : FollowsAct Mirrored (ramCtl v d) :=
  follows_seekTo (fun _ _ => ((takes_seekFrame mapperWord).append (takes_wordWrFrame v)).append (takes_delayFrame d))
    (follows_setDelay d)

theorem follows_mdRamEnableBody : FollowsBody mdRamEnableBody :=
  follows_io (triple_bind (follows_look _) fun _ =>
    triple_bind (follows_onRaise settlePeer_syncLost (follows_ramCtl _ _)) fun _ =>
    triple_bind (follows_upd fun _ hs => hs.same rfl rfl rfl rfl rfl) fun _ => follows_pure _)

theorem follows_mdRamDisableBody : FollowsBody mdRamDisableBody :=
  follows_io (triple_bind (follows_look _) fun _ =>
    triple_bind (follows_onRaise settlePeer_syncLost (follows_ramCtl _ _)) fun _ =>
    triple_bind (follows_upd fun _ hs => hs.same rfl rfl rfl rfl rfl) fun _ => follows_pure _)

theorem follows_getId : FollowsAct A getId :=
  triple_bind (follows_txWrite (leads_same fun _ l => ⟨l, takes_idRdFrame⟩)) fun _ =>
    triple_bind (follows_rxFill _ _) fun _ => follows_pure _

theorem follows_mdGetIdBody : FollowsBody mdGetIdBody := follows_io (triple_bind follows_getId fun _ => follows_pure _)

theorem follows_setAttempt (n : BitVec 2) : FollowsAct A (setAttempt n) := follows_upd fun _ hs => hs.same rfl rfl rfl rfl rfl

theorem follows_mdHandshakeBody : FollowsBody mdHandshakeBody := by
  unfold mdHandshakeBody
  refine triple_bind (follows_io (follows_setAttempt 0)) fun _ => triple_bind (follows_io follows_getId) fun id =>
    triple_bind (follows_io (follows_setAttempt 1)) fun _ => ?_
  split
  · refine triple_bind (follows_io (follows_look _)) fun cfg => triple_bind (follows_io (follows_reopen _)) fun _ =>
      triple_bind (follows_io follows_getId) fun id => triple_bind (follows_io (follows_setAttempt 2)) fun _ => ?_
    split
    · exact triple_bind (follows_io (follows_setAttempt 0)) fun _ => follows_raise _ _
    · exact follows_io (triple_bind (follows_txWrite (leads_same fun _ l => ⟨l, takes_delayFrame _⟩)) fun _ =>
        triple_bind (follows_setDelay _) fun _ => triple_bind (follows_setAttempt 0) fun _ => follows_pure _)
  · exact follows_io (triple_bind (follows_setAttempt 0) fun _ => follows_pure _)

/-- The last write of an erase is the one of the eighth sector step (R273). -/
theorem takes_eraseStream (cfg : Params) (x : Nat) (a : WordAddr) (l : Word) :
    Takes (eraseStream cfg x) a l (halved (x + 7 * cfg.eraseStep)) l :=
  ((takes_cmdWrites unlock5).append (takes_cmdWrites (sectorErases x cfg.eraseStep))).append (takes_readyPollTx _)

theorem follows_eraseIo (addr : Reg32) : FollowsAct Mirrored (eraseIo addr) :=
  triple_bind (follows_look _) fun cfg => triple_bind (follows_txWrite (leads_to fun a l => takes_eraseStream cfg _ a l)) fun _ =>
    triple_bind (follows_rxFill _ _) fun _ => follows_setCursor _

theorem follows_mdFlashEraseBody (addr : Reg32) : FollowsBody (mdFlashEraseBody addr) :=
  triple_bind (triple_bind (follows_check _ _ _) fun _ => triple_of fun _ => (follows_check _ _ _).post fun _ _ hs => hs.1) fun _ =>
    follows_io (triple_bind (follows_onRaise settlePeer_syncLost (follows_eraseIo addr)) fun _ => follows_pure _)

/-- A sequence without a write moves neither cursor. -/
theorem follows_sendSequence (seq : List (Nat × Word)) : FollowsAct Mirrored (sendSequence seq) := by
  unfold sendSequence
  cases hlast : seq.getLast? with
  | some last =>
    obtain ⟨x, v⟩ := last
    refine triple_bind (follows_txWrite (leads_to fun a l => ?_)) fun _ => follows_setCursor (halved x)
    have htakes := takes_cmdWrites (a := a) (l := l) seq
    rwa [lastAddress, hlast] at htakes
  | none =>
    refine triple_bind (follows_txWrite (leads_same fun a l => ⟨l, ?_⟩)) fun _ => follows_pure ()
    have htakes := takes_cmdWrites (a := a) (l := l) seq
    rwa [lastAddress, hlast] at htakes

theorem follows_mdFlashUnlockBypassBody : FollowsBody mdFlashUnlockBypassBody :=
  follows_io (triple_bind (follows_look _) fun _ => triple_bind (follows_sendSequence _) fun _ =>
    triple_bind (follows_upd fun _ hs => hs.same rfl rfl rfl rfl rfl) fun _ => follows_pure _)

theorem follows_mdFlashResetBypassBody : FollowsBody mdFlashResetBypassBody :=
  follows_io (triple_bind (follows_look _) fun _ => triple_bind (follows_sendSequence _) fun _ =>
    triple_bind (follows_upd fun _ hs => hs.same rfl rfl rfl rfl rfl) fun _ => follows_pure _)

theorem follows_programWords (cfg : Params) (words off : Nat) : FollowsAct Mirrored (programWords cfg words off) := by
  induction words generalizing off with
  | zero => exact follows_pure ()
  | succ words ih =>
    exact triple_bind (follows_txWriteParts (advances_programStream cfg off).leads) fun _ =>
      triple_bind (follows_rxFill _ _) fun _ => triple_bind (follows_advanceCursor 1) fun _ => ih _

theorem follows_programIo (words off : Nat) : FollowsAct Mirrored (programIo words off) := by
  unfold programIo
  refine triple_bind (follows_look _) fun cfg => ?_
  split
  · exact follows_programWords cfg words off
  · exact triple_bind (follows_txWriteParts (advances_programRun cfg words off).leads) fun _ => follows_advanceCursor words

theorem follows_mdFlashWriteBody (boff len : Reg32) : FollowsBody (mdFlashWriteBody boff len) :=
  triple_bind (follows_checkBulk boff len) fun _ => triple_of fun _ =>
    follows_io (triple_bind (follows_look _) fun _ =>
      triple_bind (follows_onRaise settlePeer_syncLost (follows_programIo _ _)) fun _ => follows_pure _)

end Bodies

/-! ### From the body to the request -/

theorem State.Mirrors.follows {s : State} (h : s.Mirrors) (hv : s.env.visits = []) : Follows Mirrored s := by
  obtain ⟨ha, hps, hcur⟩ := h
  exact ⟨hv, ha, hps, hcur⟩

theorem Follows.mirrors {s : State} (h : Follows Mirrored s) : s.Mirrors := ⟨h.adapter, h.between, h.cursor⟩

theorem State.Mirrors.of_request {m : Act Reg32} (hm : FollowsBody m) {s t : State} (hcalm : s.Calm) (hs : s.Mirrors)
    (h : request m s = .next t) (hsync : t.syncLost = false) : t.Mirrors := by
  obtain ⟨hbusy, hvisits⟩ := hcalm
  rcases hm.request_next ((hs.follows hvisits).same rfl rfl rfl rfl rfl) hbusy h with ⟨r, u, hu, rfl⟩ | hraised | hreset
  · exact (hu.same (t := u.complete r) rfl rfl rfl rfl rfl).mirrors
  · rcases hraised with hlost | hfollows
    · rw [hsync] at hlost
      exact absurd hlost (by simp)
    · exact hfollows.mirrors
  · exact hreset.elim

/-- The requests of the MD unit, by their bodies. -/
theorem followsBody_of_isMdRequest {i : Instr} (h : isMdRequest i = true) : ∃ m, FollowsBody m ∧ exec i = request m := by
  cases i with
  | mdSeek whence addr => exact ⟨_, follows_mdSeekBody whence addr, rfl⟩
  | mdRead boff len => exact ⟨_, follows_mdReadBody boff len, rfl⟩
  | mdWrite boff len => exact ⟨_, follows_mdWriteBody boff len, rfl⟩
  | mdReadWord addr => exact ⟨_, follows_mdReadWordBody addr, rfl⟩
  | mdWriteWord addr v => exact ⟨_, follows_wordWrite addr v, rfl⟩
  | mdWriteByte addr b => exact ⟨_, follows_wordWrite addr (word16 0x00 b), rfl⟩
  | mdRamEnable => exact ⟨_, follows_mdRamEnableBody, rfl⟩
  | mdRamDisable => exact ⟨_, follows_mdRamDisableBody, rfl⟩
  | mdGetId => exact ⟨_, follows_mdGetIdBody, rfl⟩
  | mdHandshake => exact ⟨_, follows_mdHandshakeBody, rfl⟩
  | mdFlashErase addr => exact ⟨_, follows_mdFlashEraseBody addr, rfl⟩
  | mdFlashUnlockBypass => exact ⟨_, follows_mdFlashUnlockBypassBody, rfl⟩
  | mdFlashResetBypass => exact ⟨_, follows_mdFlashResetBypassBody, rfl⟩
  | mdFlashWrite boff len => exact ⟨_, follows_mdFlashWriteBody boff len, rfl⟩
  | _ => exact absurd h Bool.false_ne_true

/-- Settles O40, by what every frame does to the peer's cursor and what every piece of a request keeps of it. -/
theorem cursorMirrorsPeer : Obligations.CursorMirrorsPeer := by
  intro i s t hi hcalm hs h hsync
  obtain ⟨m, hm, hexec⟩ := followsBody_of_isMdRequest hi
  rw [hexec] at h
  exact hs.of_request hm hcalm h hsync

end Sys2Proof.Machine
end

section
/-! SUPPORT. Which regions of a byte store can be read (R61, I4), whatever order its entries stand in. -/

namespace Sys2Proof.Machine

/-- A write below a region's start touches nothing from there on. -/
theorem Memory.dropWhile_set_below (m : Memory) {a x : Nat} (b : Byte) (h : x < a) :
    (m.set x b).dropWhile (fun c => c.1 < a) = m.dropWhile fun c => c.1 < a := by
  induction m with
  | nil => simp [Memory.set, h]
  | cons c rest ih =>
    obtain ⟨k, v⟩ := c
    by_cases h1 : x < k
    · simp [Memory.set, h1, h]
    · by_cases h2 : x = k
      · subst h2
        simp [Memory.set, h]
      · have hk : k < a := by omega
        simp [Memory.set, h1, h2, hk, ih]

/-- A write from a region's start on is made to the entries from there on. -/
theorem Memory.dropWhile_set_above (m : Memory) {a x : Nat} (b : Byte) (h : a ≤ x) :
    (m.set x b).dropWhile (fun c => c.1 < a) = Memory.set (m.dropWhile fun c => c.1 < a) x b := by
  induction m with
  | nil => simp [Memory.set, Nat.not_lt.2 h]
  | cons c rest ih =>
    obtain ⟨k, v⟩ := c
    by_cases h1 : x < k
    · have hk : ¬k < a := by omega
      simp [Memory.set, h1, Nat.not_lt.2 h, hk]
    · by_cases h2 : x = k
      · subst h2
        simp [Memory.set, Nat.not_lt.2 h]
      · by_cases hk : k < a
        · simp [Memory.set, h1, h2, hk, ih]
        · simp [Memory.set, h1, h2, hk]

theorem Memory.run_set {m : Memory} {a n : Nat} {bytes : List Byte} {x : Nat} (b : Byte) (h : Memory.run m a n = some bytes)
    (hx : a ≤ x) : Memory.run (m.set x b) a n = some (bytes.set (x - a) b) := by
  induction n generalizing m a bytes with
  | zero =>
    rw [Memory.run] at h
    cases h
    rw [Memory.run]
    rfl
  | succ n ih =>
    cases m with
    | nil => cases h
    | cons c rest =>
      obtain ⟨k, v⟩ := c
      simp only [Memory.run] at h
      split at h
      · next hk =>
        subst hk
        cases hr : Memory.run rest (k + 1) n with
        | none => simp [hr] at h
        | some tail =>
          simp only [hr, Option.some.injEq] at h
          subst h
          by_cases h2 : x = k
          · subst h2
            simp [Memory.set, Memory.run, hr]
          · have htail := ih hr (show k + 1 ≤ x by omega)
            have hpos : x - k = (x - (k + 1)) + 1 := by omega
            simp [Memory.set, Memory.run, h2, htail, show ¬x < k by omega, hpos]
      · cases h

/-- A region that can be read can be read after a write; a write from its start on is in what is read. -/
theorem Memory.getBytes_set {m : Memory} {a n : Nat} {bytes : List Byte} (x : Nat) (b : Byte) (h : m.getBytes a n = some bytes) :
    (m.set x b).getBytes a n = some (if a ≤ x then bytes.set (x - a) b else bytes) := by
  unfold Memory.getBytes
  split
  · next hx =>
    rw [Memory.dropWhile_set_above m b hx]
    exact Memory.run_set b h hx
  · next hx =>
    rw [Memory.dropWhile_set_below m b (Nat.lt_of_not_le hx)]
    exact h

/-- The entries from a later offset on are among those from an earlier one on. -/
theorem Memory.dropWhile_dropWhile (m : Memory) {a b : Nat} (h : a ≤ b) :
    (m.dropWhile fun c => c.1 < a).dropWhile (fun c => c.1 < b) = m.dropWhile fun c => c.1 < b := by
  induction m with
  | nil => rfl
  | cons c rest ih =>
    by_cases hc : c.1 < a
    · have hb : c.1 < b := by omega
      simp [hc, hb, ih]
    · simp [hc]

theorem Memory.run_tail {m : Memory} {a n i : Nat} {bytes : List Byte} (h : Memory.run m a (i + n) = some bytes) :
    Memory.run (m.dropWhile fun c => c.1 < a + i) (a + i) n = some (bytes.drop i) := by
  induction i generalizing m a bytes with
  | zero =>
    rw [Nat.zero_add] at h
    cases n with
    | zero =>
      rw [Memory.run] at h ⊢
      cases h
      rfl
    | succ n =>
      cases m with
      | nil => cases h
      | cons c rest =>
        obtain ⟨k, v⟩ := c
        have hk : k = a := by
          simp only [Memory.run] at h
          split at h
          · assumption
          · cases h
        subst hk
        simpa using h
  | succ i ih =>
    cases m with
    | nil =>
      rw [Nat.add_right_comm] at h
      cases h
    | cons c rest =>
      obtain ⟨k, v⟩ := c
      rw [Nat.add_right_comm] at h
      simp only [Memory.run] at h
      split at h
      · next hk =>
        subst hk
        cases hr : Memory.run rest (k + 1) (i + n) with
        | none => simp [hr] at h
        | some tail =>
          simp only [hr, Option.some.injEq] at h
          subst h
          have htail := ih hr
          rw [Nat.add_right_comm] at htail
          simpa [show k < k + (i + 1) by omega, ← Nat.add_assoc] using htail
      · cases h

/-- Part of a region, where the region can be read. -/
theorem Memory.getBytes_drop_take {m : Memory} {a i len n : Nat} {bytes : List Byte} (hin : i + len ≤ n)
    (h : m.getBytes a n = some bytes) : m.getBytes (a + i) len = some ((bytes.drop i).take len) := by
  obtain ⟨k, rfl⟩ := Nat.exists_eq_add_of_le hin
  rw [Nat.add_assoc] at h
  have htail : m.getBytes (a + i) (len + k) = some (bytes.drop i) := by
    have hrun := Memory.run_tail h
    rwa [Memory.dropWhile_dropWhile _ (Nat.le_add_right _ _)] at hrun
  have hpart := Memory.getBytes_take m (a + i) (len + k) len _ htail
  rwa [Nat.min_eq_right (Nat.le_add_right _ _)] at hpart

/-- Part of a region that can be read can be read. -/
theorem Memory.getBytes_part {m : Memory} {a n off len : Nat} (h : m.getBytes a n ≠ none) (ho : a ≤ off) (hl : off + len ≤ a + n) :
    m.getBytes off len ≠ none := by
  obtain ⟨bytes, hbytes⟩ := Option.ne_none_iff_exists'.1 h
  obtain ⟨i, rfl⟩ := Nat.exists_eq_add_of_le ho
  simp [Memory.getBytes_drop_take (show i + len ≤ n by omega) hbytes]

theorem Memory.getBytes_zero (m : Memory) (a : Nat) : m.getBytes a 0 = some [] := by
  rw [Memory.getBytes, Memory.run]

end Sys2Proof.Machine
end

section
/-! SUPPORT. What a request reads of DBUF and of the packet buffers is there all the time, so that it is never stopped (R27, R28, R61, I4). -/

namespace Sys2Proof.Machine

/-! ### What has to be there -/

/-- What a request reads: where `wanted` holds, the packet bytes the requester will read and, where the request comes to it (`reads`), a
region of DBUF are there. -/
structure Source where
  wanted : Prop
  reads : Prop
  off : Nat
  len : Nat

/-- What the request reads is there. -/
def Sourced (src : Source) (k : Kept) (s : State) : Prop :=
  s.kept = k ∧ (src.wanted → s.ReadsWritten ∧ (src.reads → s.dbuf.getBytes src.off src.len ≠ none))

/-- The model stops at an unwritten byte, and not where everything wanted is there. -/
def Ended.Stops (src : Source) : Ended → State → Prop
  | .fault f, _ => f = .unwrittenByte ∧ ¬src.wanted
  | .raised, _ => True
  | .reset, _ => True

/-- Whether a register can be read goes by the packet buffers. -/
theorem readRegister_ne_none {s t : State} (htx : ∀ i, s.txpkt.get i ≠ none → t.txpkt.get i ≠ none)
    (hrx : ∀ i, s.rxpkt.get i ≠ none → t.rxpkt.get i ≠ none) {r : ReadableReg} (h : readRegister r s ≠ none) :
    readRegister r t ≠ none := by
  cases r with
  | txpkt i => simpa [readRegister] using htx i (by simpa [readRegister] using h)
  | rxpkt i => simpa [readRegister] using hrx i (by simpa [readRegister] using h)
  | status | errKind | errSub | errInfo | result | crc | txlen | rxlen | xcount | curW | delaySh => exact Option.some_ne_none _

theorem Memory.get_setBytes_ne_none {m : Memory} {x : Nat} (a : Nat) (bytes : List Byte) (h : m.get x ≠ none) :
    (m.setBytes a bytes).get x ≠ none := by
  rw [Memory.get_setBytes]
  split
  · next hx =>
    rw [List.getElem?_eq_getElem (by omega)]
    exact Option.some_ne_none _
  · exact h

theorem Memory.get_set_ne_none {m : Memory} {x : Nat} (a : Nat) (b : Byte) (h : m.get x ≠ none) : (m.set a b).get x ≠ none := by
  rw [Memory.get_set]
  split
  · exact Option.some_ne_none _
  · exact h

section Pieces

variable {α : Type} {src : Source} {k k' : Kept}

/-- A change after which everything is there that was there. -/
theorem Sourced.change {s t : State} (h : Sourced src k s) (hk : t.kept = k') (hv : t.env.visits ⊆ s.env.visits)
    (htx : ∀ i, s.txpkt.get i ≠ none → t.txpkt.get i ≠ none) (hrx : ∀ i, s.rxpkt.get i ≠ none → t.rxpkt.get i ≠ none)
    (hd : src.reads → s.dbuf.getBytes src.off src.len ≠ none → t.dbuf.getBytes src.off src.len ≠ none) : Sourced src k' t := by
  refine ⟨hk, fun hw => ?_⟩
  obtain ⟨hreads, hregion⟩ := h.2 hw
  exact ⟨fun actions ha r hr => readRegister_ne_none htx hrx (hreads actions (hv ha) r hr), fun hs => hd hs (hregion hs)⟩

/-- A change of the registers. -/
theorem Sourced.regs {s t : State} (h : Sourced src k s) (hk : t.kept = k') (hv : t.env.visits = s.env.visits)
    (htx : t.txpkt = s.txpkt) (hrx : t.rxpkt = s.rxpkt) (hd : t.dbuf = s.dbuf) : Sourced src k' t :=
  h.change hk (by rw [hv]; exact List.Subset.refl _) (by rw [htx]; exact fun _ => id) (by rw [hrx]; exact fun _ => id)
    (by rw [hd]; exact fun _ => id)

/-- A change that the request's sources have no part in. -/
theorem Sourced.same {s t : State} (h : Sourced src k s) (hk : t.kept = s.kept) (hv : t.env.visits = s.env.visits)
    (htx : t.txpkt = s.txpkt) (hrx : t.rxpkt = s.rxpkt) (hd : t.dbuf = s.dbuf) : Sourced src k t :=
  h.regs (hk.trans h.1) hv htx hrx hd

theorem Sourced.takeTx {s : State} (h : Sourced src k s) : Sourced src k (takeTx s).2 := by
  unfold Machine.takeTx
  split <;> exact h.same rfl rfl rfl rfl rfl

theorem Sourced.takeRx {s : State} (h : Sourced src k s) : Sourced src k (takeRx s).2 := by
  unfold Machine.takeRx
  split <;> exact h.same rfl rfl rfl rfl rfl

theorem Sourced.takeReopen {s : State} (h : Sourced src k s) : Sourced src k (takeReopen s).2 := by
  unfold Machine.takeReopen
  split <;> exact h.same rfl rfl rfl rfl rfl

theorem Sourced.takeFree {s : State} (h : Sourced src k s) : Sourced src k (takeFree s).2 := by
  unfold Machine.takeFree
  split <;> exact h.same rfl rfl rfl rfl rfl

theorem Sourced.takeFreeByte {s : State} (h : Sourced src k s) : Sourced src k (takeFreeByte s).2 := h.takeFree

theorem Sourced.takeReplies {s : State} (h : Sourced src k s) (fam : Family) (n : Nat) (offered : List Byte) :
    Sourced src k (takeReplies fam n offered s).2 := by
  unfold Machine.takeReplies
  split
  · exact h.same rfl rfl rfl rfl rfl
  · exact h

theorem Sourced.settlePeer {s : State} (h : Sourced src k s) : Sourced src k (settlePeer s) := by
  have hvisits : (Machine.settlePeer s).env.visits = s.env.visits := congrArg State.Session.visits (settlePeer_session s)
  obtain ⟨env, cart, peer, hframe⟩ := settlePeer_frame s
  rw [hframe] at hvisits ⊢
  exact h.same rfl hvisits rfl rfl rfl

theorem Sourced.transmit {s : State} (h : Sourced src k s) (bytes : List Byte) : Sourced src k (s.transmit bytes) := by
  unfold State.transmit
  split <;> exact h.same rfl rfl rfl rfl rfl

/-! ### The pieces of a request -/

/-- A piece that leaves everything there, and is not stopped where everything wanted is there. -/
abbrev SourcedAct (src : Source) (k : Kept) (m : Act α) : Prop := Triple (Sourced src k) m (fun _ => Sourced src k) (Ended.Stops src)

theorem sourced_pure (a : α) : SourcedAct src k (pure a) := triple_pure fun _ => id

theorem sourced_look (f : State → α) : SourcedAct src k (look f) := triple_look fun _ => id

theorem sourced_upd {f : State → State} (h : ∀ s, Sourced src k s → Sourced src k (f s)) : SourcedAct src k (upd f) := h

theorem sourced_draw {take : State → α × State} (h : ∀ s, Sourced src k s → Sourced src k (take s).2) :
    SourcedAct src k (draw take) := h

theorem sourced_raise (e : Err) (info : Nat) : SourcedAct src k (raise e info : Act α) := triple_raise fun _ _ _ => trivial

theorem sourced_raiseTransport (fam : Family) (e : Err) (info : Nat) : SourcedAct src k (raiseTransport fam e info : Act α) :=
  fun _ _ => trivial

theorem sourced_check (ok : Bool) (e : Err) (info : Nat) :
    Triple (Sourced src k) (check ok e info) (fun _ s => Sourced src k s ∧ ok = true) (Ended.Stops src) :=
  triple_check fun _ _ _ => trivial

/-- An optional read of what is there. -/
theorem sourced_orStop {f : State → Option α} (h : ∀ s, Sourced src k s → src.wanted → f s ≠ none) :
    SourcedAct src k (orStop f) :=
  (triple_orStop fun s hs hnone => show Fault.unwrittenByte = _ ∧ ¬src.wanted from ⟨rfl, fun hw => h s hs hw hnone⟩).post fun _ _ hs => hs.1

/-- The parameters as a running request reads them. -/
theorem sourced_look_cfg {f : Params → Act α} {Q : α → State → Prop} (h : Triple (Sourced src k) (f k.cfg) Q (Ended.Stops src)) :
    Triple (Sourced src k) (look (·.cfg) >>= f) Q (Ended.Stops src) :=
  triple_look_known (fun _ hs => congrArg Kept.cfg hs.1) h

/-! ### The requester meanwhile -/

/-- Everything wanted is there, and also what these actions of the requester read. -/
def SourcedFor (src : Source) (k : Kept) (actions : List PortAction) (s : State) : Prop :=
  Sourced src k s ∧ (src.wanted → ∀ r, PortAction.readReg r ∈ actions → readRegister r s ≠ none)

theorem SourcedFor.change {actions : List PortAction} {s t : State} (h : SourcedFor src k actions s) (ht : Sourced src k t)
    (htx : t.txpkt = s.txpkt) (hrx : t.rxpkt = s.rxpkt) : SourcedFor src k actions t :=
  ⟨ht, fun hw r hr => readRegister_ne_none (by rw [htx]; exact fun _ => id) (by rw [hrx]; exact fun _ => id) (h.2 hw r hr)⟩

theorem takeFree_packets (s : State) : (takeFree s).2.txpkt = s.txpkt ∧ (takeFree s).2.rxpkt = s.rxpkt := by
  rw [takeFree_frame]
  exact ⟨rfl, rfl⟩

theorem SourcedFor.busyReadDbuf {actions : List PortAction} {s : State} (h : SourcedFor src k actions s) :
    SourcedFor src k actions (busyReadDbuf s) := by
  obtain ⟨htx, hrx⟩ := takeFree_packets s
  exact h.change (h.1.takeFreeByte.same rfl rfl rfl rfl rfl) htx hrx

/-- A byte of DBUF that the requester writes: a region that could be read still can. -/
theorem SourcedFor.busyWriteDbuf {actions : List PortAction} {s : State} (h : SourcedFor src k actions s) (off : Nat) :
    SourcedFor src k actions (busyWriteDbuf off s) := by
  unfold Machine.busyWriteDbuf
  split
  · obtain ⟨htx, hrx⟩ := takeFree_packets s
    have hfree : Sourced src k (takeFreeByte s).2 := h.1.takeFreeByte
    refine h.change (hfree.change hfree.1 (List.Subset.refl _) (fun _ => id) (fun _ => id) fun _ hregion => ?_) htx hrx
    obtain ⟨bytes, hbytes⟩ := Option.ne_none_iff_exists'.1 hregion
    exact Option.ne_none_iff_exists'.2 ⟨_, Memory.getBytes_set off _ hbytes⟩
  · exact h

theorem sourced_visitAction {actions : List PortAction} {a : PortAction} (ha : a ∈ actions) :
    Triple (SourcedFor src k actions) (visitAction a) (fun _ => SourcedFor src k actions) (Ended.Stops src) := by
  cases a with
  | writeReq w => exact triple_pure fun _ => id
  | readReg reg =>
    refine triple_bind (R := fun _ => SourcedFor src k actions) ((triple_orStop fun s hs hnone => ?_).post fun _ _ hs => hs.1) fun _ =>
      triple_upd fun s hs => hs.change (hs.1.same rfl rfl rfl rfl rfl) rfl rfl
    exact ⟨rfl, fun hw => hs.2 hw reg ha hnone⟩
  | readDbuf off => exact triple_upd fun _ hs => hs.busyReadDbuf
  | writeDbuf off b => exact triple_upd fun _ hs => hs.busyWriteDbuf off
  | reset => exact triple_pure fun _ => id

theorem sourced_visitActions {actions : List PortAction} {rest : List PortAction} (hrest : rest ⊆ actions) :
    Triple (SourcedFor src k actions) (visitActions rest) (fun _ => SourcedFor src k actions) (Ended.Stops src) := by
  induction rest with
  | nil => exact triple_pure fun _ => id
  | cons a more ih =>
    by_cases ha : a = .reset
    · subst ha
      exact triple_pure (a := some more) fun _ => id
    · rw [visitActions_cons more ha]
      exact triple_bind (sourced_visitAction (hrest List.mem_cons_self)) fun _ =>
        ih fun b hb => hrest (List.mem_cons_of_mem _ hb)

theorem sourced_visit : SourcedAct src k visit := by
  intro s hs
  cases hv : s.env.visits with
  | nil =>
    rw [visit_none hv]
    exact hs
  | cons actions rest =>
    rw [visit_cons hv]
    have hpopped : SourcedFor src k actions { s with env := { s.env with visits := rest } } := by
      refine ⟨hs.change hs.1 ?_ (fun _ => id) (fun _ => id) fun _ => id, fun hw r hr => ?_⟩
      · rw [hv]
        exact List.subset_cons_self _ _
      · exact readRegister_ne_none (fun _ => id) (fun _ => id) ((hs.2 hw).1 actions (by simp [hv]) r hr)
    exact (sourced_visitActions (List.Subset.refl _)).post (fun _ _ ht => ht.1) _ hpopped

theorem sourced_endVisit (v : Option (List PortAction)) : SourcedAct src k (endVisit v) := by
  cases v with
  | none => exact sourced_pure ()
  | some rest => exact fun _ _ => trivial

theorem sourced_meet : SourcedAct src k meet := triple_bind sourced_visit sourced_endVisit

/-! ### The transport -/

theorem sourced_txWriteOf (fam : Family) (n : Nat) {first : Nat → Act (List Byte)} (hf : ∀ j, SourcedAct src k (first j)) :
    SourcedAct src k (txWriteOf fam n first) :=
  triple_txWriteOf (V := fun _ => True) (R := fun _ => Sourced src k) (sourced_visit.post fun _ _ h => ⟨h, trivial⟩)
    (fun _ hs => hs.takeTx) (fun j _ => (hf j).post fun bytes _ hs => hs.transmit bytes) (fun v _ _ => sourced_endVisit v)
    fun _ _ _ _ => trivial

theorem sourced_txWrite (fam : Family) (bytes : List Byte) : SourcedAct src k (txWrite fam bytes) :=
  sourced_txWriteOf fam _ fun _ => sourced_pure _

theorem sourced_rxRead (fam : Family) (n : Nat) : SourcedAct src k (rxRead fam n) :=
  triple_bind sourced_meet fun _ => triple_bind (sourced_upd fun _ hs => hs.settlePeer) fun _ =>
    triple_bind (sourced_draw fun _ hs => hs.takeRx) fun _ =>
    triple_bind (sourced_draw fun _ hs => hs.takeReplies fam n _) fun _ => sourced_pure _

theorem sourced_reopen (t : Nat) : SourcedAct src k (reopen t) := by
  unfold reopen
  refine triple_bind sourced_meet fun _ => triple_bind (sourced_upd fun _ hs => hs.settlePeer) fun _ =>
    triple_bind (sourced_draw fun _ hs => hs.takeReopen) fun ok =>
    triple_bind (sourced_upd fun _ hs => hs.same rfl rfl rfl rfl rfl) fun _ => ?_
  split
  · exact sourced_pure ()
  · exact sourced_raiseTransport _ _ _

/-! ### DBUF -/

theorem sourced_maskHazard (off : Nat) (bytes : List Byte) : SourcedAct src k (maskHazard off bytes) := by
  induction bytes generalizing off with
  | nil => exact sourced_pure []
  | cons b rest ih =>
    have hbyte : SourcedAct src k (maskByte off b) := by
      intro s hs
      by_cases hm : off ∈ s.hazard
      · have hfree : maskByte off b s = .ok (takeFreeByte s).1 (takeFreeByte s).2 := by simp [maskByte, hm]
        rw [hfree]
        exact hs.takeFreeByte
      · have hown : maskByte off b s = .ok b s := by simp [maskByte, hm]
        rw [hown]
        exact hs
    exact triple_bind hbyte fun _ => triple_bind (ih _) fun _ => sourced_pure _

/-- A region of DBUF inside the request's source. -/
def Source.Covers (src : Source) (off n : Nat) : Prop := src.reads ∧ src.off ≤ off ∧ off + n ≤ src.off + src.len

theorem sourced_memRead {off n : Nat} (h : src.Covers off n) : SourcedAct src k (memRead off n) := by
  obtain ⟨hreads, hfrom, hto⟩ := h
  exact triple_bind (sourced_orStop fun s hs hw => Memory.getBytes_part ((hs.2 hw).2 hreads) hfrom hto) fun _ =>
    sourced_maskHazard _ _

/-- A stream that takes its bytes of DBUF from inside the request's source. -/
def Source.CoversParts (src : Source) (parts : List TxPart) : Prop := ∀ off n, TxPart.dbuf off n ∈ parts → src.Covers off n

theorem sourced_txBytes {parts : List TxPart} (h : src.CoversParts parts) (j : Nat) : SourcedAct src k (txBytes parts j) := by
  induction parts generalizing j with
  | nil => exact sourced_pure []
  | cons part rest ih =>
    have hrest : src.CoversParts rest := fun off n hmem => h off n (List.mem_cons_of_mem _ hmem)
    cases part with
    | bytes b => exact triple_bind (ih hrest _) fun _ => sourced_pure _
    | dbuf off n =>
      obtain ⟨hreads, hfrom, hto⟩ := h off n List.mem_cons_self
      exact triple_bind (sourced_memRead ⟨hreads, hfrom, by omega⟩) fun _ => triple_bind (ih hrest _) fun _ => sourced_pure _

theorem sourced_txWriteParts (fam : Family) {parts : List TxPart} (h : src.CoversParts parts) :
    SourcedAct src k (txWriteParts fam parts) := by
  unfold txWriteParts
  split
  · exact sourced_pure ()
  · exact sourced_txWriteOf fam _ (sourced_txBytes h)

/-- Bytes stored in DBUF by a request that takes none from it. -/
theorem sourced_storeDbuf (h : ¬src.reads) (off : Nat) (bytes : List Byte) : SourcedAct src k (storeDbuf off bytes) :=
  triple_bind (sourced_maskHazard off bytes) fun _ =>
    sourced_upd fun _ hs => hs.change hs.1 (List.Subset.refl _) (fun _ => id) (fun _ => id) fun hr => absurd hr h

/-- A destination that is not DBUF, unless the request takes nothing from it. -/
def Destination.Apart (d : Destination) (src : Source) : Prop := d = .latch ∨ ¬src.reads

theorem sourced_storeAt {d : Destination} (h : d.Apart src) (got : Nat) (bytes : List Byte) :
    SourcedAct src k (storeAt d got bytes) := by
  cases d with
  | dbuf off => exact sourced_storeDbuf (h.resolve_left nofun) _ bytes
  | latch => exact sourced_pure ()

theorem sourced_rxFillLoop {d : Destination} (h : d.Apart src) (n fuel : Nat) (got : List Byte) :
    SourcedAct src k (rxFillLoop d n fuel got) := by
  induction fuel generalizing got with
  | zero => exact sourced_pure got
  | succ fuel ih =>
    unfold rxFillLoop
    split
    · exact sourced_pure got
    · refine triple_bind (sourced_rxRead _ _) fun answer => ?_
      cases answer with
      | timedOut t => exact triple_bind (sourced_storeAt h _ t) fun _ => sourced_raiseTransport _ _ _
      | failed t => exact triple_bind (sourced_storeAt h _ t) fun _ => sourced_raiseTransport _ _ _
      | got t =>
        dsimp only
        split
        · exact sourced_raiseTransport _ _ _
        · exact triple_bind (sourced_storeAt h _ t) fun _ => ih _

theorem sourced_rxFill {d : Destination} (h : d.Apart src) (n : Nat) : SourcedAct src k (rxFill d n) := sourced_rxFillLoop h n n []

end Pieces
end Sys2Proof.Machine
end

section
/-! SUPPORT. Where a request stops, and that nothing else does (R27, R28, R61, I4). -/

namespace Sys2Proof.Machine

section Bodies

variable {α : Type} {src : Source} {k : Kept}

/-! ### The CRC requests -/

theorem sourced_crcContinue (bytes : List Byte) : SourcedAct src k (crcContinue bytes) :=
  triple_bind (sourced_upd fun _ hs => hs.same rfl rfl rfl rfl rfl) fun _ => sourced_look _

theorem sourced_crcClearBody : SourcedAct src k crcClearBody :=
  triple_bind (sourced_upd fun _ hs => hs.same rfl rfl rfl rfl rfl) fun _ => sourced_pure _

theorem sourced_checkDbuf (boff : Reg32) (n : Nat) :
    Triple (Sourced src k) (checkDbuf boff n) (fun _ s => Sourced src k s ∧ boff.toNat + n ≤ k.cfg.dbufSize) (Ended.Stops src) :=
  sourced_look_cfg ((sourced_check _ _ _).post fun _ _ hs => ⟨hs.1, by simpa [inDbuf] using hs.2⟩)

theorem sourced_crcBlockBody {boff len : Reg32}
    (h : boff.toNat + len.toNat ≤ k.cfg.dbufSize → src.Covers boff.toNat len.toNat) : SourcedAct src k (crcBlockBody boff len) :=
  triple_bind (sourced_checkDbuf boff len.toNat) fun _ => triple_of fun hin => triple_bind sourced_meet fun _ =>
    triple_bind (sourced_memRead (h hin)) fun _ => sourced_crcContinue _

/-! ### The MD requests -/

theorem sourced_setCursor (w : WordAddr) : SourcedAct src k (upd (setCursor w)) :=
  sourced_upd fun _ hs => hs.same rfl rfl rfl rfl rfl

theorem sourced_setDelay (d : Byte) : SourcedAct src k (upd (setDelay d)) := sourced_upd fun _ hs => hs.same rfl rfl rfl rfl rfl

theorem sourced_advanceCursor (words : Nat) : SourcedAct src k (upd (advanceCursor words)) :=
  sourced_upd fun _ hs => by
    unfold advanceCursor
    split
    · exact hs.same rfl rfl rfl rfl rfl
    · exact hs

theorem sourced_wordAddress (addr : Reg32) : SourcedAct src k (wordAddress addr) :=
  triple_bind (sourced_check _ _ _) fun _ => triple_of fun _ => sourced_pure _

theorem sourced_mdSeekBody (whence : BitVec 2) (addr : Reg32) : SourcedAct src k (mdSeekBody whence addr) :=
  triple_bind (sourced_check _ _ _) fun _ => triple_of fun _ => triple_bind (sourced_check _ _ _) fun _ => triple_of fun _ =>
    triple_bind (sourced_check _ _ _) fun _ => triple_of fun _ => triple_bind (sourced_wordAddress addr) fun w =>
    triple_bind (sourced_txWrite _ _) fun _ => triple_bind (sourced_setCursor w) fun _ => sourced_pure _

theorem sourced_checkBulk (boff len : Reg32) :
    Triple (Sourced src k) (checkBulk boff len)
      (fun _ s => Sourced src k s ∧ len.toNat % 2 = 0 ∧ boff.toNat + len.toNat ≤ k.cfg.dbufSize) (Ended.Stops src) :=
  triple_bind (sourced_check _ _ _) fun _ => triple_of fun heven =>
    (sourced_checkDbuf boff _).post fun _ _ hs => ⟨hs.1, by simpa using heven, hs.2⟩

theorem sourced_readChunks (h : ¬src.reads) (sizes : List Nat) (off : Nat) : SourcedAct src k (readChunks sizes off) := by
  induction sizes generalizing off with
  | nil => exact sourced_pure ()
  | cons c rest ih =>
    exact triple_bind (sourced_txWrite _ _) fun _ => triple_bind (sourced_rxFill (.inr h) _) fun _ =>
      triple_bind (sourced_advanceCursor _) fun _ => ih _

theorem sourced_mdReadBody (h : ¬src.reads) (boff len : Reg32) : SourcedAct src k (mdReadBody boff len) :=
  triple_bind (sourced_checkBulk boff len) fun _ => triple_of fun _ => triple_bind (sourced_readChunks h _ _) fun _ => sourced_pure _

/-- The stream of MD_WRITE takes its bytes from its region (R228). -/
theorem coversParts_writeStream {sizes : List Nat} {off : Nat} (h : src.Covers off sizes.sum) :
    src.CoversParts (writeStream sizes off) := by
  induction sizes generalizing off with
  | nil => exact fun _ _ hmem => absurd hmem List.not_mem_nil
  | cons c rest ih =>
    obtain ⟨hreads, hfrom, hto⟩ := h
    rw [List.sum_cons] at hto
    intro o n hmem
    simp only [writeStream, List.mem_cons, TxPart.dbuf.injEq, reduceCtorEq, false_or] at hmem
    rcases hmem with ⟨rfl, rfl⟩ | hmem
    · exact ⟨hreads, hfrom, by omega⟩
    · exact ih ⟨hreads, by omega, by omega⟩ o n hmem

theorem sourced_mdWriteBody {boff len : Reg32}
    (h : len.toNat % 2 = 0 ∧ boff.toNat + len.toNat ≤ k.cfg.dbufSize → src.Covers boff.toNat len.toNat) :
    SourcedAct src k (mdWriteBody boff len) :=
  triple_bind (sourced_checkBulk boff len) fun _ => triple_of fun hin =>
    triple_bind (sourced_txWriteParts _ (coversParts_writeStream (by rw [chunks_sum]; exact h hin))) fun _ =>
    triple_bind (sourced_advanceCursor _) fun _ => sourced_pure _

theorem sourced_rxFill_latch (n : Nat) : SourcedAct src k (rxFill .latch n) := sourced_rxFill (.inl rfl) n

theorem sourced_mdReadWordBody (addr : Reg32) : SourcedAct src k (mdReadWordBody addr) :=
  triple_bind (sourced_wordAddress addr) fun w => triple_bind (sourced_txWrite _ _) fun _ =>
    triple_bind (sourced_setCursor w) fun _ => triple_bind (sourced_rxFill_latch 2) fun _ => sourced_pure _

theorem sourced_wordWrite (addr : Reg32) (v : Word) : SourcedAct src k (wordWrite addr v) :=
  triple_bind (sourced_wordAddress addr) fun w => triple_bind (sourced_txWrite _ _) fun _ =>
    triple_bind (sourced_setCursor w) fun _ => sourced_pure _

theorem sourced_ramCtl (v : Word) (d : Byte) : SourcedAct src k (ramCtl v d) :=
  triple_bind (sourced_txWrite _ _) fun _ => triple_bind (sourced_setCursor _) fun _ => sourced_setDelay d

theorem sourced_onRaise {f : State → State} {m : Act α} (hm : SourcedAct src k m) : SourcedAct src k (onRaise f m) :=
  triple_onRaise (fun _ _ => trivial) hm

theorem sourced_mdRamEnableBody : SourcedAct src k mdRamEnableBody :=
  triple_bind (sourced_look _) fun _ => triple_bind (sourced_onRaise (sourced_ramCtl _ _)) fun _ =>
    triple_bind (sourced_upd fun _ hs => hs.same rfl rfl rfl rfl rfl) fun _ => sourced_pure _

theorem sourced_mdRamDisableBody : SourcedAct src k mdRamDisableBody :=
  triple_bind (sourced_look _) fun _ => triple_bind (sourced_onRaise (sourced_ramCtl _ _)) fun _ =>
    triple_bind (sourced_upd fun _ hs => hs.same rfl rfl rfl rfl rfl) fun _ => sourced_pure _

theorem sourced_getId : SourcedAct src k getId :=
  triple_bind (sourced_txWrite _ _) fun _ => triple_bind (sourced_rxFill_latch 2) fun _ => sourced_pure _

theorem sourced_mdGetIdBody : SourcedAct src k mdGetIdBody := triple_bind sourced_getId fun _ => sourced_pure _

theorem sourced_setAttempt (m n : BitVec 2) :
    Triple (Sourced src (k.attempt m)) (setAttempt n) (fun _ => Sourced src (k.attempt n)) (Ended.Stops src) :=
  triple_upd fun _ hs => hs.regs (congrArg (Kept.attempt · n) hs.1) rfl rfl rfl rfl

theorem sourced_mdHandshakeBody :
    Triple (Sourced src k) mdHandshakeBody (fun _ => Sourced src (k.attempt 0)) (Ended.Stops src) := by
  unfold mdHandshakeBody
  refine triple_bind (sourced_setAttempt k.hsAttempt 0) fun _ => triple_bind sourced_getId fun id =>
    triple_bind (sourced_setAttempt 0 1) fun _ => ?_
  split
  · refine triple_bind (sourced_look _) fun cfg => triple_bind (sourced_reopen _) fun _ => triple_bind sourced_getId fun id =>
      triple_bind (sourced_setAttempt 1 2) fun _ => ?_
    split
    · exact triple_bind (sourced_setAttempt 2 0) fun _ => sourced_raise _ _
    · exact triple_bind (sourced_txWrite _ _) fun _ => triple_bind (sourced_setDelay _) fun _ =>
        triple_bind (sourced_setAttempt 2 0) fun _ => sourced_pure _
  · exact triple_bind (sourced_setAttempt 1 0) fun _ => sourced_pure _

theorem sourced_mdFlashEraseBody (addr : Reg32) : SourcedAct src k (mdFlashEraseBody addr) := by
  have hio : SourcedAct src k (eraseIo addr) :=
    triple_bind (sourced_look _) fun _ => triple_bind (sourced_txWrite _ _) fun _ => triple_bind (sourced_rxFill_latch _) fun _ =>
      sourced_setCursor _
  exact triple_bind (triple_bind (sourced_check _ _ _) fun _ => triple_of fun _ => (sourced_check _ _ _).post fun _ _ hs => hs.1)
    fun _ => triple_bind (sourced_onRaise hio) fun _ => sourced_pure _

theorem sourced_sendSequence (seq : List (Nat × Word)) : SourcedAct src k (sendSequence seq) := by
  unfold sendSequence
  refine triple_bind (sourced_txWrite _ _) fun _ => ?_
  split
  · exact sourced_setCursor _
  · exact sourced_pure ()

theorem sourced_mdFlashUnlockBypassBody : SourcedAct src k mdFlashUnlockBypassBody :=
  triple_bind (sourced_look _) fun _ => triple_bind (sourced_sendSequence _) fun _ =>
    triple_bind (sourced_upd fun _ hs => hs.same rfl rfl rfl rfl rfl) fun _ => sourced_pure _

theorem sourced_mdFlashResetBypassBody : SourcedAct src k mdFlashResetBypassBody :=
  triple_bind (sourced_look _) fun _ => triple_bind (sourced_sendSequence _) fun _ =>
    triple_bind (sourced_upd fun _ hs => hs.same rfl rfl rfl rfl rfl) fun _ => sourced_pure _

/-- One programmed word is taken from its two bytes (R277). -/
theorem coversParts_programStream (cfg : Params) {off : Nat} (h : src.Covers off 2) : src.CoversParts (programStream cfg off) := by
  intro o n hmem
  simp only [programStream, List.mem_cons, TxPart.dbuf.injEq, reduceCtorEq, false_or, List.not_mem_nil, or_false] at hmem
  obtain ⟨rfl, rfl⟩ := hmem
  exact h

theorem sourced_programWords (cfg : Params) {words off : Nat} (h : src.Covers off (2 * words)) :
    SourcedAct src k (programWords cfg words off) := by
  induction words generalizing off with
  | zero => exact sourced_pure ()
  | succ words ih =>
    obtain ⟨hreads, hfrom, hto⟩ := h
    exact triple_bind (sourced_txWriteParts _ (coversParts_programStream cfg ⟨hreads, hfrom, by omega⟩)) fun _ =>
      triple_bind (sourced_rxFill_latch _) fun _ => triple_bind (sourced_advanceCursor 1) fun _ =>
      ih ⟨hreads, by omega, by omega⟩

theorem coversParts_programRun (cfg : Params) {words off : Nat} (h : src.Covers off (2 * words)) :
    src.CoversParts ((List.range words).flatMap fun i => programStream cfg (off + 2 * i)) := by
  obtain ⟨hreads, hfrom, hto⟩ := h
  intro o n hmem
  obtain ⟨i, hi, hpart⟩ := List.mem_flatMap.1 hmem
  have hi := List.mem_range.1 hi
  exact coversParts_programStream cfg ⟨hreads, by omega, by omega⟩ o n hpart

theorem sourced_programIo {words off : Nat} (h : src.Covers off (2 * words)) : SourcedAct src k (programIo words off) := by
  unfold programIo
  refine triple_bind (sourced_look _) fun cfg => ?_
  split
  · exact sourced_programWords cfg h
  · exact triple_bind (sourced_txWriteParts _ (coversParts_programRun cfg h)) fun _ => sourced_advanceCursor words

theorem sourced_mdFlashWriteBody {boff len : Reg32}
    (h : len.toNat % 2 = 0 ∧ boff.toNat + len.toNat ≤ k.cfg.dbufSize → src.Covers boff.toNat len.toNat) :
    SourcedAct src k (mdFlashWriteBody boff len) :=
  triple_bind (sourced_checkBulk boff len) fun _ => triple_of fun hin => triple_bind (sourced_look _) fun _ =>
    triple_bind (sourced_onRaise (sourced_programIo (by rw [Nat.mul_div_cancel' (Nat.dvd_of_mod_eq_zero hin.1)]; exact h hin)))
      fun _ => sourced_pure _

/-! ### The packet framer -/

theorem Sourced.storeTx {s t : State} (h : Sourced src k s) (hk : t.kept = s.kept) (hv : t.env.visits = s.env.visits)
    (htx : ∀ i, s.txpkt.get i ≠ none → t.txpkt.get i ≠ none) (hrx : t.rxpkt = s.rxpkt) (hd : t.dbuf = s.dbuf) : Sourced src k t :=
  h.change (hk.trans h.1) (by rw [hv]; exact List.Subset.refl _) htx (by rw [hrx]; exact fun _ => id) (by rw [hd]; exact fun _ => id)

theorem Sourced.buildPacket {s : State} (h : Sourced src k s) (p : List Byte) : Sourced src k (buildPacket p s) := by
  unfold Machine.buildPacket
  split
  · exact h.storeTx rfl rfl (fun _ => Memory.get_setBytes_ne_none _ _) rfl rfl
  · exact h.storeTx rfl rfl (fun _ => Memory.get_set_ne_none _ _) rfl rfl

theorem Sourced.sealPacket {s : State} (h : Sourced src k s) (p : List Byte) : Sourced src k (sealPacket p s) :=
  h.storeTx rfl rfl (fun _ => Memory.get_setBytes_ne_none 70 [hiByte (packetCrc p), loByte (packetCrc p)]) rfl rfl

theorem sourced_sendPacket (p : List Byte) : SourcedAct src k (sendPacket p) := by
  unfold sendPacket
  split
  · exact triple_bind (sourced_upd fun _ hs => hs.sealPacket p) fun _ => triple_bind (sourced_txWrite _ _) fun _ => sourced_pure _
  · exact triple_bind (sourced_txWrite _ _) fun _ => sourced_pure _

theorem sourced_sendBuilt (p : List Byte) : SourcedAct src k (sendBuilt p) :=
  triple_bind (sourced_upd fun _ hs => hs.buildPacket p) fun _ => sourced_sendPacket p

theorem Sourced.storeRx {s : State} (h : Sourced src k s) (off : Nat) (bytes : List Byte) : Sourced src k (storeRx off bytes s) :=
  h.change h.1 (List.Subset.refl _) (fun _ => id) (fun _ => Memory.get_setBytes_ne_none _ _) fun _ => id

theorem sourced_storeRx (off : Nat) (bytes : List Byte) : SourcedAct src k (upd (storeRx off bytes)) :=
  sourced_upd fun _ hs => hs.storeRx off bytes

theorem sourced_setRxlen (n : BitVec 7) : SourcedAct src k (upd fun s => { s with rxlen := n }) :=
  sourced_upd fun _ hs => hs.same rfl rfl rfl rfl rfl

theorem sourced_receivePacket : SourcedAct src k receivePacket := by
  have hlost (off : Nat) (t : List Byte) (e : Err) :
      SourcedAct src k (upd (storeRx off t) >>= fun _ => (raiseTransport .gb e t.length : Act (List Byte))) :=
    triple_bind (sourced_storeRx off t) fun _ => sourced_raiseTransport _ _ _
  unfold receivePacket
  refine triple_bind (sourced_setRxlen 0) fun _ => triple_bind (sourced_rxRead _ _) fun first => ?_
  split
  · exact hlost 0 _ _
  · exact hlost 0 _ _
  · exact sourced_raiseTransport _ _ _
  · refine triple_bind (sourced_storeRx 0 _) fun _ => ?_
    split
    · exact triple_bind (sourced_setRxlen 1) fun _ => sourced_pure _
    · refine triple_bind (sourced_rxRead _ _) fun rest => ?_
      cases rest with
      | timedOut t => exact hlost 1 t _
      | failed t => exact hlost 1 t _
      | got t =>
        refine triple_bind (sourced_storeRx 1 t) fun _ => ?_
        split
        · exact sourced_raiseTransport _ _ _
        · exact triple_bind (sourced_setRxlen 72) fun _ => sourced_pure _

theorem sourced_checkPacket (p : List Byte) : SourcedAct src k (checkPacket p) := by
  unfold checkPacket
  refine triple_bind (sourced_look _) fun n => ?_
  split
  · exact sourced_raise _ _
  · exact triple_bind (sourced_upd fun _ hs => hs.same rfl rfl rfl rfl rfl) fun _ =>
      triple_bind (sourced_check _ _ _) fun _ => triple_of fun _ => sourced_pure _

theorem sourced_pktBuildBody {c m sub : Byte} {index : BitVec 24} {boff : Reg32}
    (h : c = ctlData → validatePacket c m sub = none → boff.toNat + 64 ≤ k.cfg.dbufSize → src.Covers boff.toNat 64) :
    SourcedAct src k (pktBuildBody c m sub index boff) := by
  unfold pktBuildBody
  split
  · exact sourced_raise _ _
  · next hvalid =>
    split
    · exact triple_bind (sourced_upd fun _ hs => hs.buildPacket _) fun _ => sourced_pure _
    · next hc =>
      exact triple_bind (sourced_checkDbuf boff 64) fun _ => triple_of fun hin => triple_bind sourced_meet fun _ =>
        triple_bind (sourced_memRead (h (not_not.1 hc) hvalid hin)) fun frame =>
        triple_bind (sourced_upd fun _ hs => hs.buildPacket _) fun _ => sourced_pure _

/-- PKT_SEND reads the packet in TXPKT before anything else (R154). -/
theorem sourced_pktSendBody {o : Option (List Byte)} (h : src.wanted → o ≠ none) :
    Triple (fun s => Sourced src k s ∧ txPacket s = o) pktSendBody (fun _ => Sourced src k) (Ended.Stops src) :=
  triple_bind (triple_look (Q := fun _ s => Sourced src k s ∧ txPacket s = o) fun _ => id) fun _ =>
    triple_bind (triple_check fun _ _ _ => trivial) fun _ => triple_of fun _ =>
    triple_bind ((triple_orStop fun _ hs hnone => ⟨rfl, fun hw => h hw (hs.2.symm.trans hnone)⟩).post fun _ _ hs => hs.1.1) fun p =>
    triple_bind (sourced_sendPacket p) fun _ => sourced_pure _

theorem sourced_pktReceiveBody : SourcedAct src k pktReceiveBody := triple_bind sourced_receivePacket fun _ => sourced_pure _

/-- PKT_CHECK reads the packet in RXPKT before anything else (R158). -/
theorem sourced_pktCheckBody {o : Option (List Byte)} (h : src.wanted → o ≠ none) :
    Triple (fun s => Sourced src k s ∧ rxPacket s = o) pktCheckBody (fun _ => Sourced src k) (Ended.Stops src) :=
  triple_bind ((triple_orStop fun _ hs hnone => ⟨rfl, fun hw => h hw (hs.2.symm.trans hnone)⟩).post fun _ _ hs => hs.1.1) fun p =>
    triple_bind (sourced_checkPacket p) fun _ => sourced_pure _

/-! ### The paged transfers -/

theorem sourced_setXState (x : XState) : SourcedAct src k (setXState x) := sourced_upd fun _ hs => hs.same rfl rfl rfl rfl rfl

theorem sourced_finishTransfer : SourcedAct src k finishTransfer :=
  triple_bind (sourced_setXState .done) fun _ => sourced_look _

theorem sourced_startTransfer (dir : BitVec 2) (n : Nat) (boff : Reg32) :
    Triple (Sourced src k) (startTransfer dir n boff) (fun _ => Sourced src (k.transfer n boff)) (Ended.Stops src) :=
  triple_upd fun _ hs => hs.regs (congrArg (Kept.transfer · n boff) hs.1) rfl rfl rfl rfl

theorem sourced_countFrame : Triple (Sourced src k) countFrame (fun _ => Sourced src k.counted) (Ended.Stops src) :=
  triple_upd fun _ hs => hs.regs (congrArg Kept.counted hs.1) rfl rfl rfl rfl

theorem sourced_storeFrame (h : ¬src.reads) (p : List Byte) :
    Triple (Sourced src k) (storeFrame p) (fun _ => Sourced src k.counted) (Ended.Stops src) :=
  triple_bind (sourced_look _) fun _ => triple_bind (sourced_look _) fun _ =>
    triple_bind (sourced_storeDbuf h _ _) fun _ => sourced_countFrame

theorem sourced_acceptData (p : List Byte) : SourcedAct src k (acceptData p) :=
  triple_bind (sourced_checkPacket p) fun _ => triple_bind (sourced_check _ _ _) fun _ => triple_of fun _ =>
    triple_bind (sourced_look _) fun _ => triple_bind (sourced_look _) fun _ => triple_bind (sourced_look _) fun _ =>
    triple_bind (sourced_check _ _ _) fun _ => triple_of fun _ => (sourced_check _ _ _).post fun _ _ hs => hs.1

theorem sourced_readLoop (h : ¬src.reads) (fuel : Nat) :
    Triple (Sourced src k) (readLoop fuel) (fun _ _ => True) (Ended.Stops src) := by
  induction fuel generalizing k with
  | zero => exact triple_look fun _ _ => trivial
  | succ fuel ih =>
    unfold readLoop
    refine triple_bind sourced_receivePacket fun p => ?_
    split
    · refine triple_bind (sourced_look _) fun _ => triple_bind (sourced_look _) fun _ => ?_
      split
      · exact sourced_finishTransfer.post fun _ _ _ => trivial
      · exact triple_raise fun _ _ _ => trivial
    · refine triple_bind (sourced_acceptData p) fun _ => triple_bind (sourced_storeFrame h p) fun _ =>
        triple_bind (sourced_look _) fun _ => triple_bind (sourced_look _) fun _ => ?_
      split
      · exact sourced_finishTransfer.post fun _ _ _ => trivial
      · exact triple_bind (sourced_setXState .continuing) fun _ => triple_bind (sourced_sendBuilt _) fun _ =>
          triple_bind (sourced_setXState .awaitResponse) fun _ => ih

theorem sourced_checkTransfer (boff len : Reg32) :
    Triple (Sourced src k) (checkTransfer boff len)
      (fun _ s => Sourced src k s ∧ transferLength len.toNat ∧ boff.toNat + len.toNat ≤ k.cfg.dbufSize) (Ended.Stops src) :=
  triple_bind (sourced_check _ _ _) fun _ => triple_of fun hsize =>
    (sourced_checkDbuf boff _).post fun _ _ hs => ⟨hs.1, by simpa [sizeOk, transferLength] using hsize, hs.2⟩

theorem sourced_gbReadRamBody (h : ¬src.reads) (boff len : Reg32) :
    Triple (Sourced src k) (gbReadRamBody boff len) (fun _ _ => True) (Ended.Stops src) :=
  triple_bind (sourced_checkTransfer boff len) fun _ => triple_of fun _ => triple_bind (sourced_startTransfer _ _ _) fun _ =>
    triple_bind (sourced_look _) fun _ => triple_bind (sourced_sendBuilt _) fun _ => triple_bind (sourced_setXState _) fun _ =>
    sourced_readLoop h _

theorem sourced_expectAck : SourcedAct src k expectAck :=
  triple_bind sourced_receivePacket fun _ => (sourced_check _ _ _).post fun _ _ hs => hs.1

theorem sourced_loadPacket (mk : List Byte → List Byte) {off : Nat} (h : src.Covers off 64) : SourcedAct src k (loadPacket mk off) :=
  triple_bind (sourced_memRead h) fun _ => triple_bind (sourced_upd fun _ hs => hs.buildPacket _) fun _ =>
    triple_bind (sourced_upd fun _ hs => hs.sealPacket _) fun _ => sourced_pure _

theorem sourced_sendLoaded (mk : List Byte → List Byte) {off : Nat} (h : src.Covers off 64) : SourcedAct src k (sendLoaded mk off) :=
  triple_bind (sourced_loadPacket mk h) fun _ => sourced_txWriteOf _ _ fun _ => triple_bind (sourced_loadPacket mk h) fun _ =>
    triple_bind (triple_bind (sourced_maskHazard _ _) fun _ => sourced_pure _) fun _ => sourced_pure _

/-- The loop of a paged write (R189): the frames still to send are in its region. -/
theorem sourced_writeLoop {packets : Nat} (hroom : k.Room packets)
    (h : src.Covers (k.xboff.toNat + k.xcount.toNat) (64 * packets)) :
    Triple (Sourced src k) (writeLoop packets) (fun _ _ => True) (Ended.Stops src) := by
  induction packets generalizing k with
  | zero => exact triple_pure fun _ _ => trivial
  | succ packets ih =>
    obtain ⟨hreads, hfrom, hto⟩ := h
    have hcount := Kept.counted_toNat hroom
    have hnext : src.Covers (k.counted.xboff.toNat + k.counted.xcount.toNat) (64 * packets) := by
      rw [hcount]
      refine ⟨hreads, ?_, ?_⟩
      · show src.off ≤ k.xboff.toNat + (k.xcount.toNat + 64)
        omega
      · show k.xboff.toNat + (k.xcount.toNat + 64) + 64 * packets ≤ _
        omega
    exact triple_bind (sourced_setXState .continuing) fun _ => triple_bind (sourced_look _) fun _ =>
      triple_look_known (fun _ hs => congrArg (·.xboff.toNat) hs.1) <| triple_look_known (fun _ hs => congrArg (·.xcount.toNat) hs.1) <|
      triple_bind (sourced_look _) fun _ => triple_bind (sourced_sendLoaded _ ⟨hreads, hfrom, by omega⟩) fun _ =>
      triple_bind (sourced_setXState .awaitResponse) fun _ => triple_bind sourced_expectAck fun _ =>
      triple_bind sourced_countFrame fun _ => ih hroom.counted hnext

theorem sourced_gbWriteRamBody {boff len : Reg32}
    (h : transferLength len.toNat ∧ boff.toNat + len.toNat ≤ k.cfg.dbufSize → src.Covers boff.toNat len.toNat) :
    Triple (Sourced src k) (gbWriteRamBody boff len) (fun _ _ => True) (Ended.Stops src) :=
  triple_bind (sourced_checkTransfer boff len) fun _ => triple_of fun hin => by
    obtain ⟨hreads, hfrom, hto⟩ := h hin
    have hframes : 64 * (len.toNat / 64) ≤ len.toNat := Nat.mul_div_le _ _
    exact triple_bind (sourced_startTransfer _ _ _) fun _ => triple_bind (sourced_look _) fun _ =>
      triple_bind (sourced_sendBuilt _) fun _ => triple_bind (sourced_setXState _) fun _ => triple_bind sourced_expectAck fun _ =>
      triple_bind (sourced_writeLoop (Kept.room_transfer len.isLt hframes hin.2)
        ⟨hreads, hfrom, show boff.toNat + 0 + 64 * (len.toNat / 64) ≤ _ by omega⟩) fun _ =>
      triple_bind (triple_upd (Q := fun _ _ => True) fun _ _ => trivial) fun _ => triple_look fun _ _ => trivial

theorem sourced_statusQuery (h : ¬src.reads) (sub : Byte) (boff : Reg32) :
    Triple (Sourced src k) (statusQuery sub boff) (fun _ _ => True) (Ended.Stops src) :=
  triple_bind (sourced_checkDbuf boff 64) fun _ => triple_of fun _ => triple_bind (sourced_startTransfer _ _ _) fun _ =>
    triple_bind (sourced_sendBuilt _) fun _ => triple_bind (sourced_setXState _) fun _ => triple_bind sourced_receivePacket fun p =>
    triple_bind (sourced_checkPacket p) fun _ => triple_bind (sourced_storeFrame h p) fun _ =>
    sourced_finishTransfer.post fun _ _ _ => trivial

end Bodies
end Sys2Proof.Machine
end

section
/-! SUPPORT. The instructions that can stop the model, and why they do (R27, R28, R61, I4). -/

namespace Sys2Proof.Machine

/-! ### The forms of an instruction -/

/-- Every instruction is a request of the block, an effect on the peer, or a packet sent. -/
theorem exec_forms (i : Instr) : (isRequest i = true ∧ ∃ m, exec i = request m) ∨
    (∃ g : State → State, exec i = fun s => .next (g s)) ∨ ∃ p, exec i = sendAlone p := by
  cases i with
  | crcClear | crcByte | crcBlock | pktBuild | pktSend | pktReceive | pktCheck | gbReadRam | gbWriteRam | gbReadDeviceStatus
  | gbReadStatus | mdSeek | mdRead | mdWrite | mdReadWord | mdWriteWord | mdWriteByte | mdRamEnable | mdRamDisable | mdGetId
  | mdHandshake | mdFlashErase | mdFlashUnlockBypass | mdFlashResetBypass | mdFlashWrite => exact .inl ⟨rfl, _, rfl⟩
  | gbAck | gbNak | gbEnd | gbDataConfigRrom | gbDataConfigRram | gbDataConfigWrom | gbDataConfigWram | gbDataNormalData
  | gbDataLastData | gbDataEraseEfla | gbDataEraseEram | gbDataStatusNreadId | gbDataStatusReadId => exact .inr (.inr ⟨_, rfl⟩)
  | _ => exact .inr (.inl ⟨_, rfl⟩)

theorem request_not_refused (m : Act Reg32) (s : State) (r : Refusal) : request m s ≠ .refused r := by
  unfold request
  split
  · exact nofun
  · rcases runRequest_cases m s with ⟨v, t, -, h⟩ | ⟨t, -, h⟩ | ⟨t, -, h⟩ | ⟨f, t, -, h⟩ <;> rw [h] <;> exact nofun

/-- A packet sent outside a request goes on to a next state, with the requester's actions kept for the next request, or stops as
sending it stops. -/
theorem sendAlone_cases (p : List Byte) (s : State) :
    (∃ t : State, sendAlone p s = .next { t with env := { t.env with visits := s.env.visits } }) ∨
    ∃ f t, sendBuilt p { s with env := { s.env with visits := [] } } = .error (.fault f) t ∧ sendAlone p s = .fault f := by
  unfold sendAlone
  dsimp only
  cases h : sendBuilt p { s with env := { s.env with visits := [] } } with
  | ok n t => exact .inl ⟨t, rfl⟩
  | error e t =>
    cases e with
    | fault f => exact .inr ⟨f, t, rfl, rfl⟩
    | raised => exact .inl ⟨t, rfl⟩
    | reset => exact .inl ⟨t, rfl⟩

/-- Nothing is refused. -/
theorem exec_not_refused (i : Instr) (s : State) (r : Refusal) : exec i s ≠ .refused r := by
  rcases exec_forms i with ⟨-, m, h⟩ | ⟨g, h⟩ | ⟨p, h⟩
  · rw [h]
    exact request_not_refused m s r
  · rw [h]
    exact nofun
  · rw [h]
    rcases sendAlone_cases p s with ⟨t, ht⟩ | ⟨f, t, -, ht⟩
    · rw [ht]
      exact nofun
    · rw [ht]
      exact nofun

/-! ### Requests that stop -/

/-- What a request from a state reads: the packet bytes the requester will read, and, where c holds, a region of DBUF. -/
def State.source (s : State) (c : Prop) (off len : Nat) : Source where
  wanted := s.ReadsWritten ∧ (c → s.dbuf.getBytes off len ≠ none)
  reads := c
  off := off
  len := len

theorem sourced_accept (s : State) (c : Prop) (off len : Nat) : Sourced (s.source c off len) s.accept.kept s.accept :=
  ⟨rfl, fun hw => ⟨fun actions ha r hr => readRegister_ne_none (s := s) (t := s.accept) (fun _ => id) (fun _ => id) (hw.1 actions ha r hr), hw.2⟩⟩

/-- A request that stops has been accepted, and something it wanted is not there. -/
theorem Triple.request_fault {src : Source} {P : State → Prop} {Q : Reg32 → State → Prop} {m : Act Reg32} {s : State} {f : Fault}
    (hm : Triple P m Q (Ended.Stops src)) (hs : P s.accept) (h : request m s = .fault f) :
    f = .unwrittenByte ∧ s.busy = false ∧ ¬src.wanted := by
  cases hb : s.busy with
  | true =>
    rw [request_busy hb] at h
    cases h
  | false =>
    rw [request_ready hb] at h
    rcases runRequest_cases m s with ⟨r, u, -, he⟩ | ⟨u, -, he⟩ | ⟨u, -, he⟩ | ⟨g, u, hu, he⟩ <;> rw [he] at h <;> cases h
    obtain ⟨hf, hw⟩ := hm.error hs hu
    exact ⟨hf, rfl, hw⟩

/-- Why an instruction stops. -/
def StopReason (i : Instr) (s : State) : Prop :=
  (∃ boff len : Reg32, (i = .crcBlock boff len ∨
      (len.toNat % 2 = 0 ∧ (i = .mdWrite boff len ∨ i = .mdFlashWrite boff len)) ∨
      (transferLength len.toNat ∧ i = .gbWriteRam boff len)) ∧
    boff.toNat + len.toNat ≤ s.cfg.dbufSize ∧ s.dbuf.getBytes boff.toNat len.toNat = none) ∨
  (∃ m sub idx boff, i = .pktBuild 0x55 m sub idx boff ∧ validatePacket 0x55 m sub = none ∧
    boff.toNat + 64 ≤ s.cfg.dbufSize ∧ s.dbuf.getBytes boff.toNat 64 = none) ∨
  (i = .pktSend ∧ txPacket s = none) ∨ (i = .pktCheck ∧ rxPacket s = none) ∨ (isRequest i = true ∧ ¬s.ReadsWritten)

/-- A request that reads a region of DBUF stops for the region, where it comes to it, or for the requester. -/
theorem stopReason_of_region {i : Instr} {m : Act Reg32} {s : State} {f : Fault} {c : Prop} {off len : Nat} {Q : Reg32 → State → Prop}
    (hi : isRequest i = true) (hm : Triple (Sourced (s.source c off len) s.accept.kept) m Q (Ended.Stops (s.source c off len)))
    (hregion : c → s.dbuf.getBytes off len = none → StopReason i s) (h : request m s = .fault f) :
    f = .unwrittenByte ∧ s.busy = false ∧ StopReason i s := by
  obtain ⟨hf, hb, hw⟩ := hm.request_fault (sourced_accept s c off len) h
  refine ⟨hf, hb, ?_⟩
  by_cases hreads : s.ReadsWritten
  · obtain ⟨hc, hnone⟩ : c ∧ s.dbuf.getBytes off len = none := by simpa [State.source, hreads] using hw
    exact hregion hc hnone
  · exact .inr (.inr (.inr (.inr ⟨hi, hreads⟩)))

/-- A request that reads nothing of DBUF stops for the requester. -/
theorem stopReason_of_plain {i : Instr} {m : Act Reg32} {s : State} {f : Fault} {Q : Source → Kept → Reg32 → State → Prop}
    (hi : isRequest i = true) (hm : ∀ src k, ¬src.reads → Triple (Sourced src k) m (Q src k) (Ended.Stops src)) (h : request m s = .fault f) :
    f = .unwrittenByte ∧ s.busy = false ∧ StopReason i s :=
  stopReason_of_region (c := False) (off := 0) (len := 0) hi (hm _ _ id) (fun hc => hc.elim) h

/-- A request that first reads a whole packet stops for the packet, or for the requester. -/
theorem stopReason_of_packet {i : Instr} {m : Act Reg32} {s : State} {f : Fault} {packet : State → Option (List Byte)}
    {Q : Source → Reg32 → State → Prop} (hi : isRequest i = true) (hp : packet s.accept = packet s)
    (hm : ∀ src o, (src.wanted → o ≠ none) →
      Triple (fun t => Sourced src s.accept.kept t ∧ packet t = o) m (Q src) (Ended.Stops src))
    (hpacket : packet s = none → StopReason i s) (h : request m s = .fault f) :
    f = .unwrittenByte ∧ s.busy = false ∧ StopReason i s := by
  let src : Source := { s.source False 0 0 with wanted := s.ReadsWritten ∧ packet s ≠ none }
  have haccept : Sourced src s.accept.kept s.accept :=
    ⟨rfl, fun hw => ((sourced_accept s False 0 0).2 ⟨hw.1, fun hc => hc.elim⟩)⟩
  obtain ⟨hf, hb, hw⟩ := (hm src (packet s) fun hw => hw.2).request_fault ⟨haccept, hp⟩ h
  refine ⟨hf, hb, ?_⟩
  by_cases hreads : s.ReadsWritten
  · have hnone : packet s = none := by
      by_contra hne
      exact hw ⟨hreads, hne⟩
    exact hpacket hnone
  · exact .inr (.inr (.inr (.inr ⟨hi, hreads⟩)))

/-- The region of DBUF a request reads. -/
theorem State.source_covers (s : State) {c : Prop} (off len : Nat) (hc : c) : (s.source c off len).Covers off len :=
  ⟨hc, le_refl _, le_refl _⟩

/-- A packet sent outside a request stops nothing: no requester acts meanwhile. -/
theorem sendAlone_ne_fault (p : List Byte) (s : State) (f : Fault) : sendAlone p s ≠ .fault f := by
  intro h
  have hquiet : Sourced ⟨True, False, 0, 0⟩ s.kept { s with env := { s.env with visits := [] } } :=
    ⟨rfl, fun _ => ⟨fun actions ha => absurd ha List.not_mem_nil, fun hc => hc.elim⟩⟩
  rcases sendAlone_cases p s with ⟨t, ht⟩ | ⟨g, t, hg, -⟩
  · rw [ht] at h
    cases h
  · exact ((sourced_sendBuilt p).error hquiet hg).2 trivial

/-- Where an instruction stops the model, an unwritten byte was to be read. -/
theorem exec_fault {i : Instr} {s : State} {f : Fault} (h : exec i s = .fault f) :
    f = .unwrittenByte ∧ s.busy = false ∧ StopReason i s := by
  cases i with
  | crcClear => exact stopReason_of_plain rfl (fun _ _ _ => sourced_crcClearBody) h
  | crcByte b => exact stopReason_of_plain rfl (fun _ _ _ => sourced_crcContinue [b]) h
  | crcBlock boff len =>
    exact stopReason_of_region rfl (sourced_crcBlockBody (s.source_covers _ _))
      (fun hc hnone => .inl ⟨boff, len, .inl rfl, hc, hnone⟩) h
  | pktBuild c m sub index boff =>
    refine stopReason_of_region (c := c = ctlData ∧ validatePacket c m sub = none ∧ boff.toNat + 64 ≤ s.cfg.dbufSize) rfl
      (sourced_pktBuildBody fun hc hvalid hin => s.source_covers _ _ ⟨hc, hvalid, hin⟩) (fun hc hnone => ?_) h
    obtain ⟨rfl, hvalid, hin⟩ := hc
    exact .inr (.inl ⟨m, sub, index, boff, rfl, hvalid, hin, hnone⟩)
  | pktSend =>
    exact stopReason_of_packet rfl rfl (fun _ _ ho => sourced_pktSendBody ho) (fun hnone => .inr (.inr (.inl ⟨rfl, hnone⟩))) h
  | pktReceive => exact stopReason_of_plain rfl (fun _ _ _ => sourced_pktReceiveBody) h
  | pktCheck =>
    exact stopReason_of_packet rfl rfl (fun _ _ ho => sourced_pktCheckBody ho) (fun hnone => .inr (.inr (.inr (.inl ⟨rfl, hnone⟩)))) h
  | gbReadRam boff len => exact stopReason_of_plain rfl (fun _ _ hr => sourced_gbReadRamBody hr boff len) h
  | gbWriteRam boff len =>
    exact stopReason_of_region rfl (sourced_gbWriteRamBody (s.source_covers _ _))
      (fun hc hnone => .inl ⟨boff, len, .inr (.inr ⟨hc.1, rfl⟩), hc.2, hnone⟩) h
  | gbReadDeviceStatus boff => exact stopReason_of_plain rfl (fun _ _ hr => sourced_statusQuery hr subNreadId boff) h
  | gbReadStatus boff => exact stopReason_of_plain rfl (fun _ _ hr => sourced_statusQuery hr subReadId boff) h
  | mdSeek whence addr => exact stopReason_of_plain rfl (fun _ _ _ => sourced_mdSeekBody whence addr) h
  | mdRead boff len => exact stopReason_of_plain rfl (fun _ _ hr => sourced_mdReadBody hr boff len) h
  | mdWrite boff len =>
    exact stopReason_of_region rfl (sourced_mdWriteBody (s.source_covers _ _))
      (fun hc hnone => .inl ⟨boff, len, .inr (.inl ⟨hc.1, .inl rfl⟩), hc.2, hnone⟩) h
  | mdReadWord addr => exact stopReason_of_plain rfl (fun _ _ _ => sourced_mdReadWordBody addr) h
  | mdWriteWord addr v => exact stopReason_of_plain rfl (fun _ _ _ => sourced_wordWrite addr v) h
  | mdWriteByte addr b => exact stopReason_of_plain rfl (fun _ _ _ => sourced_wordWrite addr (word16 0x00 b)) h
  | mdRamEnable => exact stopReason_of_plain rfl (fun _ _ _ => sourced_mdRamEnableBody) h
  | mdRamDisable => exact stopReason_of_plain rfl (fun _ _ _ => sourced_mdRamDisableBody) h
  | mdGetId => exact stopReason_of_plain rfl (fun _ _ _ => sourced_mdGetIdBody) h
  | mdHandshake => exact stopReason_of_plain rfl (fun _ _ _ => sourced_mdHandshakeBody) h
  | mdFlashErase addr => exact stopReason_of_plain rfl (fun _ _ _ => sourced_mdFlashEraseBody addr) h
  | mdFlashUnlockBypass => exact stopReason_of_plain rfl (fun _ _ _ => sourced_mdFlashUnlockBypassBody) h
  | mdFlashResetBypass => exact stopReason_of_plain rfl (fun _ _ _ => sourced_mdFlashResetBypassBody) h
  | mdFlashWrite boff len =>
    exact stopReason_of_region rfl (sourced_mdFlashWriteBody (s.source_covers _ _))
      (fun hc hnone => .inl ⟨boff, len, .inr (.inl ⟨hc.1, .inr rfl⟩), hc.2, hnone⟩) h
  | gbAck | gbNak | gbEnd | gbDataConfigRrom | gbDataConfigRram | gbDataConfigWrom | gbDataConfigWram | gbDataNormalData
  | gbDataLastData | gbDataEraseEfla | gbDataEraseEram | gbDataStatusNreadId | gbDataStatusReadId =>
    exact absurd h (sendAlone_ne_fault _ _ _)
  | _ => exact nomatch h

/-- A request that neither stops nor is refused goes on to a next state. -/
theorem exec_next {i : Instr} {s : State} (h : ∀ f, exec i s ≠ .fault f) : ∃ t, exec i s = .next t := by
  cases hr : exec i s with
  | next t => exact ⟨t, rfl⟩
  | fault f => exact absurd hr (h f)
  | refused r => exact absurd hr (exec_not_refused i s r)

theorem stopReason_pktSend {s : State} (h : StopReason .pktSend s) : txPacket s = none ∨ ¬s.ReadsWritten := by
  rcases h with ⟨boff, len, hi, -⟩ | ⟨m, sub, index, boff, hi, -⟩ | ⟨-, hnone⟩ | ⟨hi, -⟩ | ⟨-, hnot⟩
  · simp at hi
  · cases hi
  · exact .inl hnone
  · cases hi
  · exact .inr hnot

theorem stopReason_pktCheck {s : State} (h : StopReason .pktCheck s) : rxPacket s = none ∨ ¬s.ReadsWritten := by
  rcases h with ⟨boff, len, hi, -⟩ | ⟨m, sub, index, boff, hi, -⟩ | ⟨hi, -⟩ | ⟨-, hnone⟩ | ⟨-, hnot⟩
  · simp at hi
  · cases hi
  · cases hi
  · exact .inl hnone
  · exact .inr hnot

/-- Settles O23: the invariant says that the packets are there. -/
theorem packetRequestsNeverFault : Obligations.PacketRequestsNeverFault := by
  intro s hstores htx hrx hreads
  obtain ⟨-, -, htxwf, -⟩ := hstores
  have htxPacket : txPacket s ≠ none := by
    rcases htx with h0 | ⟨h1, c, hc, -⟩ | ⟨h72, p, hp, -⟩
    · simp [txPacket, h0]
    · have hread : s.txpkt.getBytes 0 1 = some [c] :=
        (Memory.getBytes_eq_some _ 0 1 [c] htxwf).2 ⟨rfl, fun i hi => by simpa [Nat.lt_one_iff.1 hi] using hc⟩
      simp [txPacket, h1, hread]
    · simp [txPacket, h72, hp]
  have hrxPacket : rxPacket s ≠ none := by
    rcases hrx with h0 | ⟨h1, -⟩ | ⟨h72, p, hp, -⟩
    · simp [rxPacket, h0]
    · simp [rxPacket, h1]
    · simp [rxPacket, h72, hp]
  refine ⟨exec_next fun f h => ?_, exec_next fun f h => ?_⟩
  · rcases stopReason_pktSend (exec_fault h).2.2 with hnone | hnot
    · exact htxPacket hnone
    · exact hnot hreads
  · rcases stopReason_pktCheck (exec_fault h).2.2 with hnone | hnot
    · exact hrxPacket hnone
    · exact hnot hreads

end Sys2Proof.Machine
end

section
/-! SUPPORT. One TxWrite with bytes of DBUF, the requester not acting: which bytes are read, and what follows (R221, R61, log entry 4). -/

namespace Sys2Proof.Machine

/-- A region can be read where each of its bytes can. -/
theorem Memory.getBytes_ne_none_iff {m : Memory} (h : m.wf = true) (a n : Nat) :
    m.getBytes a n ≠ none ↔ ∀ j < n, m.get (a + j) ≠ none := by
  constructor
  · intro hread j hj
    obtain ⟨bytes, hbytes⟩ := Option.ne_none_iff_exists'.1 hread
    obtain ⟨hl, hget⟩ := (Memory.getBytes_eq_some m a n bytes h).1 hbytes
    rw [hget j hj, List.getElem?_eq_getElem (by omega)]
    exact Option.some_ne_none _
  · intro hget
    refine Option.ne_none_iff_exists'.2 ⟨(List.range n).map fun j => (m.get (a + j)).getD 0, ?_⟩
    refine (Memory.getBytes_eq_some m a n _ h).2 ⟨by simp, fun j hj => ?_⟩
    obtain ⟨b, hb⟩ := Option.ne_none_iff_exists'.1 (hget j hj)
    simp [hj, hb]

/-! ### What the first bytes of a stream read -/

/-- The bytes of DBUF among the first k bytes of a stream can be read. -/
def Readable (d : Memory) : List TxPart → Nat → Prop
  | [], _ => True
  | .bytes b :: rest, k => Readable d rest (k - b.length)
  | .dbuf off n :: rest, k => d.getBytes off (min n k) ≠ none ∧ Readable d rest (k - n)

@[simp] theorem txLength_nil : txLength [] = 0 := rfl

@[simp] theorem txLength_bytes (b : List Byte) (rest : List TxPart) : txLength (.bytes b :: rest) = b.length + txLength rest := rfl

@[simp] theorem txLength_dbuf (off n : Nat) (rest : List TxPart) : txLength (.dbuf off n :: rest) = n + txLength rest := rfl

theorem txLength_append (p q : List TxPart) : txLength (p ++ q) = txLength p + txLength q := by
  simp [txLength]

theorem readable_append (d : Memory) (p q : List TxPart) (k : Nat) :
    Readable d (p ++ q) k ↔ Readable d p k ∧ Readable d q (k - txLength p) := by
  induction p generalizing k with
  | nil => simp [Readable]
  | cons part rest ih =>
    cases part with
    | bytes b => simp only [List.cons_append, Readable, ih, txLength_bytes, Nat.sub_sub]
    | dbuf off n => simp only [List.cons_append, Readable, ih, txLength_dbuf, Nat.sub_sub, and_assoc]

/-- The first bytes of a stream, where they can be read. -/
theorem txBytes_readable {parts : List TxPart} {k : Nat} {s : State} (hz : s.hazard = []) (h : Readable s.dbuf parts k) :
    ∃ bytes, txBytes parts k s = .ok bytes s ∧ bytes.length = min k (txLength parts) := by
  induction parts generalizing k with
  | nil => exact ⟨[], rfl, by simp⟩
  | cons part rest ih =>
    cases part with
    | bytes b =>
      obtain ⟨more, hmore, hl⟩ := ih h
      refine ⟨b.take k ++ more, ?_, ?_⟩
      · rw [txBytes, act_bind_ok hmore, act_pure]
      · rw [List.length_append, List.length_take, hl, txLength_bytes]
        omega
    | dbuf off n =>
      obtain ⟨hread, hrest⟩ := h
      obtain ⟨data, hdata⟩ := Option.ne_none_iff_exists'.1 hread
      obtain ⟨more, hmore, hl⟩ := ih hrest
      have hlen := Memory.run_length _ _ _ _ hdata
      refine ⟨data ++ more, ?_, ?_⟩
      · rw [txBytes, act_bind_ok (memRead_some hdata hz), act_bind_ok hmore, act_pure]
      · rw [List.length_append, hlen, hl, txLength_dbuf]
        omega

/-- Where they cannot, the model stops. -/
theorem txBytes_unreadable {parts : List TxPart} {k : Nat} {s : State} (hz : s.hazard = []) (h : ¬Readable s.dbuf parts k) :
    txBytes parts k s = .error (.fault .unwrittenByte) s := by
  induction parts generalizing k with
  | nil => exact absurd trivial h
  | cons part rest ih =>
    cases part with
    | bytes b => rw [txBytes, act_bind_error (ih h)]
    | dbuf off n =>
      rw [txBytes]
      cases hread : s.dbuf.getBytes off (min n k) with
      | none => rw [act_bind_error (memRead_none hread)]
      | some data => rw [act_bind_ok (memRead_some hread hz), act_bind_error (ih fun hrest => h ⟨by simp [hread], hrest⟩)]

/-! ### One TxWrite -/

/-- The parameters, what DBUF holds and which adapter is attached. -/
structure Setting where
  cfg : Params
  dbuf : Memory
  adapter : AdapterKind

def State.setting (s : State) : Setting where
  cfg := s.cfg
  dbuf := s.dbuf
  adapter := s.adapter

/-- The requester does not act, these are the transport's answers to come, and so many bytes have been sent. -/
structure Quiet (w : Setting) (tx : List TxDraw) (rx : List RxDraw) (log : Nat) (s : State) : Prop where
  visits : s.env.visits = []
  hazard : s.hazard = []
  setting : s.setting = w
  tx : s.env.tx = tx
  rx : s.env.rx = rx
  log : s.txLog.length = log

/-- SHORT_WRITE after k bytes, so many bytes having been sent altogether (R221). -/
def ShortAt (k log : Nat) (t : State) : Prop :=
  t.errKind = 1 ∧ t.errSub = 1 ∧ t.errInfo = BitVec.ofNat 32 k ∧ t.txLog.length = log

theorem Quiet.dbuf {w : Setting} {tx : List TxDraw} {rx : List RxDraw} {log : Nat} {s : State} (h : Quiet w tx rx log s) :
    s.dbuf = w.dbuf := congrArg Setting.dbuf h.setting

section Pieces

variable {α β : Type} {w : Setting} {tx : List TxDraw} {rx : List RxDraw} {log : Nat} {E : Ended → State → Prop}

theorem transmit_log (bytes : List Byte) (s : State) : (s.transmit bytes).txLog = s.txLog ++ bytes := by
  unfold State.transmit
  split <;> rfl

theorem Quiet.transmit {s : State} (h : Quiet w tx rx log s) (bytes : List Byte) :
    Quiet w tx rx (log + bytes.length) (s.transmit bytes) := by
  refine ⟨?_, ?_, ?_, ?_, ?_, ?_⟩
  · simpa using h.visits
  · simpa using h.hazard
  · simpa [State.setting] using h.setting
  · simpa using h.tx
  · simpa using h.rx
  · rw [transmit_log, List.length_append, h.log]

theorem Quiet.shortWrite {s : State} {k : Nat} (h : Quiet w tx rx log s) (fam : Family) :
    ShortAt k log (s.raiseTransport fam .shortWrite k) := by
  cases fam <;> exact ⟨rfl, rfl, rfl, h.log⟩

/-- A TxWrite, without a requester's action, whose bytes cannot be had ends as getting them ends. -/
theorem txWriteOf_calm_error {fam : Family} {n : Nat} {first : Nat → Act (List Byte)} {s t : State} {answer : TxDraw}
    {rest : List TxDraw} {e : Ended} (hv : s.env.visits = []) (ht : s.env.tx = answer :: rest)
    (hf : first (acceptedOf answer n) { s with env := { s.env with tx := rest } } = .error e t) :
    txWriteOf fam n first s = .error e t := by
  unfold txWriteOf
  rw [act_bind_ok (visit_none hv), act_bind_ok (draw_run _ _), takeTx_cons ht]
  exact act_bind_error hf

/-- One TxWrite of a stream to a transport that takes up to n bytes: the model stops where one of them cannot be read; fewer than all
of them raise SHORT_WRITE (R61, R221). -/
theorem quiet_txWriteParts {fam : Family} {parts : List TxPart} {n : Nat} (hne : parts ≠ [])
    (hstop : ¬Readable w.dbuf parts (min n (txLength parts)) → ∀ t, E (.fault .unwrittenByte) t)
    (hshort : n < txLength parts → ∀ t, ShortAt n (log + n) t → E .raised t) :
    Triple (Quiet w (.accepted n :: tx) rx log) (txWriteParts fam parts)
      (fun _ s => Quiet w tx rx (log + txLength parts) s ∧ txLength parts ≤ n ∧ Readable w.dbuf parts (txLength parts)) E := by
  intro s hs
  let u : State := { s with env := { s.env with tx := tx } }
  have hu : Quiet w tx rx log u := { hs with tx := rfl }
  unfold txWriteParts
  rw [if_neg hne]
  by_cases hread : Readable w.dbuf parts (min n (txLength parts))
  · obtain ⟨bytes, hbytes, hl⟩ := txBytes_readable (s := u) hu.hazard (hu.dbuf.symm ▸ hread)
    rw [Nat.min_eq_left (Nat.min_le_right _ _)] at hl
    rw [txWriteOf_calm hs.visits hs.tx hbytes]
    have hsent := hu.transmit bytes
    dsimp only [acceptedOf]
    by_cases hn : min n (txLength parts) < txLength parts
    · simp only [hn, ↓reduceIte]
      have hlt : n < txLength parts := by omega
      have hmin : min n (txLength parts) = n := by omega
      rw [hl, hmin] at hsent
      rw [hmin]
      exact hshort hlt _ (hsent.shortWrite fam)
    · simp only [hn, ↓reduceIte]
      have hmin : min n (txLength parts) = txLength parts := by omega
      rw [hl, hmin] at hsent
      exact ⟨hsent, by omega, hmin ▸ hread⟩
  · have herr := txBytes_unreadable (s := u) hu.hazard (hu.dbuf.symm ▸ hread)
    rw [txWriteOf_calm_error hs.visits hs.tx herr]
    exact hstop hread _

end Pieces
end Sys2Proof.Machine
end

section
/-! SUPPORT. MD_WRITE and MD_FLASH_WRITE from a region with unwritten bytes (R61, R221, R228, R277; log entries 4 and 14). -/

namespace Sys2Proof.Machine

/-! ### Requests that end in one way -/

/-- The model stops, and nothing else happens. -/
def Ended.OnlyStops (e : Ended) (_ : State) : Prop := e = .fault .unwrittenByte

/-- A SHORT_WRITE after k bytes is raised, and nothing else happens. -/
def Ended.OnlyShort (k log : Nat) (e : Ended) (t : State) : Prop := e = .raised ∧ ShortAt k log t

section Ways

variable {α β : Type} {P : State → Prop} {Q : β → State → Prop} {E : Ended → State → Prop} {m : Act Reg32} {s : State}

/-- A piece whose effect is known is passed over. -/
theorem triple_skip {p : Act α} {f : α → Act β} {a : α} (h : ∀ s, P s → p s = .ok a s) (hf : Triple P (f a) Q E) :
    Triple P (p >>= f) Q E :=
  triple_bind (R := fun b s => P s ∧ b = a) (fun s hs => by rw [h s hs]; exact ⟨hs, rfl⟩) fun b => triple_of fun hb => hb ▸ hf

theorem Triple.request_stops (hm : Triple P m (fun _ _ => False) Ended.OnlyStops) (hs : P s.accept) (hb : s.busy = false) :
    request m s = .fault .unwrittenByte := by
  rw [request_ready hb]
  rcases runRequest_cases m s with ⟨r, u, hu, -⟩ | ⟨u, hu, -⟩ | ⟨u, hu, -⟩ | ⟨f, u, hu, he⟩
  · exact (hm.ok hs hu).elim
  · cases hm.error hs hu
  · cases hm.error hs hu
  · cases hm.error hs hu
    exact he

/-- A request that ends in an error and in no other way. -/
theorem Triple.request_raises (hm : Triple P m (fun _ _ => False) E) (hE : ∀ e t, E e t → e = .raised) (hs : P s.accept)
    (hb : s.busy = false) : ∃ t, request m s = .next t ∧ E .raised t := by
  rw [request_ready hb]
  rcases runRequest_cases m s with ⟨r, u, hu, -⟩ | ⟨u, hu, he⟩ | ⟨u, hu, -⟩ | ⟨f, u, hu, -⟩
  · exact (hm.ok hs hu).elim
  · exact ⟨u, he, hm.error hs hu⟩
  · cases hE _ _ (hm.error hs hu)
  · cases hE _ _ (hm.error hs hu)

theorem Triple.request_short {k log : Nat} (hm : Triple P m (fun _ _ => False) (Ended.OnlyShort k log)) (hs : P s.accept)
    (hb : s.busy = false) : ∃ t, request m s = .next t ∧ ShortAt k log t := by
  obtain ⟨t, ht, -, hshort⟩ := hm.request_raises (fun _ _ h => h.1) hs hb
  exact ⟨t, ht, hshort⟩

end Ways

theorem State.Calm.quiet {s : State} (h : s.Calm) {tx : List TxDraw} (htx : s.env.tx = tx) :
    Quiet s.setting tx s.env.rx s.txLog.length s.accept := ⟨h.2, rfl, rfl, htx, rfl, rfl⟩

section Bodies

variable {α β : Type} {w : Setting} {tx : List TxDraw} {rx : List RxDraw} {log : Nat} {Q : α → State → Prop}
  {E : Ended → State → Prop}

theorem Quiet.cfg {s : State} (h : Quiet w tx rx log s) : s.cfg = w.cfg := congrArg Setting.cfg h.setting

theorem Quiet.adapter {s : State} (h : Quiet w tx rx log s) : s.adapter = w.adapter := congrArg Setting.adapter h.setting

theorem quiet_look_cfg {f : Params → Act α} (h : Triple (Quiet w tx rx log) (f w.cfg) Q E) :
    Triple (Quiet w tx rx log) (look (·.cfg) >>= f) Q E :=
  triple_look_known (fun _ hs => hs.cfg) h

theorem checkBulk_ok {boff len : Reg32} {s : State} (heven : len.toNat % 2 = 0) (h : boff.toNat + len.toNat ≤ s.cfg.dbufSize) :
    checkBulk boff len s = .ok () s := by
  rw [checkBulk, decide_eq_true heven, act_bind_ok (check_true _ _ _), checkDbuf_ok h]

theorem quiet_checkBulk {boff len : Reg32} {f : Unit → Act α} (heven : len.toNat % 2 = 0)
    (h : boff.toNat + len.toNat ≤ w.cfg.dbufSize) (hf : Triple (Quiet w tx rx log) (f ()) Q E) :
    Triple (Quiet w tx rx log) (checkBulk boff len >>= f) Q E :=
  triple_skip (fun _ hs => checkBulk_ok heven (by rwa [hs.cfg])) hf

/-! ### MD_WRITE -/

theorem chunks_of_large {n : Nat} (h : 65536 ≤ n) : chunks n = 65536 :: chunks (n - 65536) := by
  obtain ⟨m, rfl⟩ := Nat.exists_eq_add_of_le h
  have hdiv : (65536 + m) / 65536 = m / 65536 + 1 := by omega
  have hmod : (65536 + m) % 65536 = m % 65536 := by omega
  rw [Nat.add_sub_cancel_left, chunks, chunks, hdiv, hmod, List.replicate_succ, List.cons_append]

theorem chunks_of_small {n : Nat} (h0 : 0 < n) (h : n < 65536) : chunks n = [n] := by
  rw [chunks, Nat.div_eq_of_lt h, Nat.mod_eq_of_lt h, if_neg (by omega)]
  rfl

/-- The chunks of a length, one after another. -/
theorem chunks_induction {p : Nat → Prop} (h0 : p 0) (hlast : ∀ n, 0 < n → n < 65536 → p n)
    (hmore : ∀ n, 65536 ≤ n → p (n - 65536) → p n) (n : Nat) : p n := by
  induction n using Nat.strong_induction_on with
  | _ n ih =>
    by_cases hn0 : n = 0
    · exact hn0 ▸ h0
    · by_cases hn : n < 65536
      · exact hlast n (by omega) hn
      · exact hmore n (by omega) (ih _ (by omega))

/-- Each chunk brings 5 bytes of its own (R228). -/
theorem txLength_writeStream (n off : Nat) : txLength (writeStream (chunks n) off) = 5 * ((n + 65535) / 65536) + n := by
  induction n using chunks_induction generalizing off with
  | h0 => rfl
  | hlast n h0 h =>
    have hdiv : (n + 65535) / 65536 = 1 := by omega
    rw [chunks_of_small h0 h, hdiv]
    simp [writeStream, lenFrame, bulkWrFrame]
  | hmore n h ih =>
    have hdiv : (n + 65535) / 65536 = (n - 65536 + 65535) / 65536 + 1 := by omega
    rw [chunks_of_large h, writeStream, txLength_bytes, txLength_dbuf, ih, hdiv]
    simp [lenFrame, bulkWrFrame]
    omega

/-- The byte j of the data is the byte 5 * (j / 65536 + 1) + j of the stream. -/
theorem readable_writeStream {d : Memory} (hd : d.wf = true) (n off k : Nat) :
    Readable d (writeStream (chunks n) off) k ↔ ∀ j < n, 5 * (j / 65536 + 1) + j < k → d.get (off + j) ≠ none := by
  have hframe (c : Word) : (lenFrame c ++ bulkWrFrame).length = 5 := rfl
  induction n using chunks_induction generalizing off k with
  | h0 => simp [chunks, writeStream, Readable]
  | hlast n h0 h =>
    rw [chunks_of_small h0 h]
    simp only [writeStream, Readable, hframe, Memory.getBytes_ne_none_iff hd, and_true]
    constructor
    · intro hread j hj hk
      exact hread j (by omega)
    · intro hread j hj
      exact hread j (by omega) (by omega)
  | hmore n h ih =>
    have hmore : Readable d (writeStream (chunks (n - 65536)) (off + 65536)) (k - 5 - 65536) ↔ _ := ih _ _
    rw [chunks_of_large h, writeStream, Readable, Readable, hframe, Memory.getBytes_ne_none_iff hd, hmore]
    constructor
    · rintro ⟨hfirst, hrest⟩ j hj hk
      by_cases hlow : j < 65536
      · exact hfirst j (by omega)
      · have hget := hrest (j - 65536) (by omega) (by omega)
        rwa [show off + 65536 + (j - 65536) = off + j by omega] at hget
    · intro hread
      refine ⟨fun j hj => hread j (by omega) (by omega), fun j hj hk => ?_⟩
      have hget := hread (65536 + j) (by omega) (by omega)
      rwa [← Nat.add_assoc] at hget

theorem writeStream_ne_nil {n off : Nat} (h : 0 < n) : writeStream (chunks n) off ≠ [] := by
  intro hnil
  have hlen := txLength_writeStream n off
  rw [hnil, txLength_nil] at hlen
  omega

/-- A region that cannot be read is not empty. -/
theorem Memory.pos_of_getBytes_none {m : Memory} {a n : Nat} (h : m.getBytes a n = none) : 0 < n := by
  refine Nat.pos_of_ne_zero fun h0 => ?_
  rw [h0, Memory.getBytes_zero] at h
  cases h

/-- MD_WRITE where the transport would take everything. -/
theorem quiet_mdWriteBody_stops {boff len : Reg32} {k : Nat} (heven : len.toNat % 2 = 0)
    (hin : boff.toNat + len.toNat ≤ w.cfg.dbufSize) (hwf : w.dbuf.wf = true)
    (hnone : w.dbuf.getBytes boff.toNat len.toNat = none) (hk : 5 * ((len.toNat + 65535) / 65536) + len.toNat ≤ k) :
    Triple (Quiet w (.accepted k :: tx) rx log) (mdWriteBody boff len) (fun _ _ => False) Ended.OnlyStops := by
  have hlen := txLength_writeStream len.toNat boff.toNat
  refine quiet_checkBulk heven hin (triple_bind (quiet_txWriteParts (writeStream_ne_nil (Memory.pos_of_getBytes_none hnone))
    (fun _ _ => rfl) fun hshort => absurd hshort (by omega)) fun _ => ?_)
  rintro s ⟨-, -, hread⟩
  refine absurd hnone ((Memory.getBytes_ne_none_iff hwf _ _).2 fun j hj => ?_)
  exact (readable_writeStream hwf _ _ _).1 hread j hj (by omega)

/-- MD_WRITE where the transport takes only bytes that are there. -/
theorem quiet_mdWriteBody_short {boff len : Reg32} {k : Nat} (heven : len.toNat % 2 = 0)
    (hin : boff.toNat + len.toNat ≤ w.cfg.dbufSize) (hwf : w.dbuf.wf = true)
    (hnone : w.dbuf.getBytes boff.toNat len.toNat = none) (hk : k < 5 * ((len.toNat + 65535) / 65536) + len.toNat)
    (hread : ∀ j < len.toNat, 5 * (j / 65536 + 1) + j < k → w.dbuf.get (boff.toNat + j) ≠ none) :
    Triple (Quiet w (.accepted k :: tx) rx log) (mdWriteBody boff len) (fun _ _ => False) (Ended.OnlyShort k (log + k)) := by
  have hlen := txLength_writeStream len.toNat boff.toNat
  refine quiet_checkBulk heven hin (triple_bind (quiet_txWriteParts (writeStream_ne_nil (Memory.pos_of_getBytes_none hnone))
    (fun hnot => absurd ?_ hnot) fun _ _ ht => ⟨rfl, ht⟩) fun _ => ?_)
  · rw [Nat.min_eq_left (by omega)]
    exact (readable_writeStream hwf _ _ _).2 hread
  · rintro s ⟨-, hall, -⟩
    omega

/-! ### MD_FLASH_WRITE -/

/-- How many bytes go out for a programmed word (R271, R277). -/
theorem txLength_programStream (cfg : Params) (off : Nat) :
    txLength (programStream cfg off) = 10 + (readyPollTx cfg.readyPoll).length := by
  simp [programStream, lenFrame, wordWrFrame, bulkWrFrame]
  omega

theorem programStream_ne_nil (cfg : Params) (off : Nat) : programStream cfg off ≠ [] := by
  intro hnil
  have hlen := txLength_programStream cfg off
  rw [hnil, txLength_nil] at hlen
  omega

/-- The two bytes of a programmed word are the bytes 8 and 9 of its stream. -/
theorem readable_programStream {d : Memory} (hd : d.wf = true) (cfg : Params) (off k : Nat) :
    Readable d (programStream cfg off) k ↔ ∀ j < 2, 8 + j < k → d.get (off + j) ≠ none := by
  have hframe : (lenFrame 1 ++ wordWrFrame 0x00A0 ++ bulkWrFrame).length = 8 := rfl
  simp only [programStream, Readable, hframe, Memory.getBytes_ne_none_iff hd, and_true]
  constructor
  · intro hread j hj hk
    exact hread j (by omega)
  · intro hread j hj
    exact hread j (by omega) (by omega)

/-- What a failed write leaves of the cartridge is not what says how it failed (R281). -/
theorem ShortAt.loseFlash {k log : Nat} {t : State} (h : ShortAt k log t) (x n : Nat) : ShortAt k log (loseFlash x n t) := by
  obtain ⟨env, cart, peer, hframe⟩ := settlePeer_frame t
  unfold Machine.loseFlash
  rw [hframe]
  exact h

/-- The draws of a transport that takes the next n + 1 TxWrites. -/
theorem Accepts.cons {n size : Nat} {draws : List TxDraw} (h : Accepts (n + 1) size draws) :
    ∃ k rest, draws = .accepted k :: rest ∧ size ≤ k ∧ Accepts n size rest := by
  obtain ⟨hlen, hall⟩ := h
  cases draws with
  | nil => simp at hlen
  | cons answer rest =>
    obtain ⟨k, rfl, hk⟩ := hall answer (by simp)
    exact ⟨k, rest, rfl, hk, Nat.le_of_succ_le_succ hlen, fun x hx => hall x (by simp [hx])⟩

/-- The poll reply of a GB adapter (R271, R378). -/
theorem quiet_rxFill_word {r : List Byte} (hw : w.adapter = .gb) (hr : r.length = 2) :
    Triple (Quiet w tx (.got r :: rx) log) (rxFill .latch 2) (fun _ => Quiet w tx rx log) E := by
  intro s hs
  have hread := rxRead_got (fam := .md) (n := 2) hs.visits (hs.adapter.trans hw) hs.rx
  rw [List.take_of_length_le (by omega)] at hread
  rw [rxFill_one (by decide) hr hread]
  exact { hs with rx := rfl }

theorem quiet_advanceCursor (words : Nat) : Triple (Quiet w tx rx log) (upd (advanceCursor words)) (fun _ => Quiet w tx rx log) E :=
  triple_upd fun s hs => by
    unfold advanceCursor
    split
    · exact { hs with }
    · exact hs

/-- One programmed word and its poll reply, where the transport takes the whole word (R277). -/
theorem quiet_programWord {off n : Nat} {r : List Byte} {g : Unit → Act α} (hw : w.adapter = .gb)
    (hpoll : w.cfg.readyPoll = .ryThenRdSingle) (hwf : w.dbuf.wf = true) (hr : r.length = 2) (hn : 12 ≤ n)
    (hstop : (¬∀ j < 2, w.dbuf.get (off + j) ≠ none) → ∀ t, E (.fault .unwrittenByte) t)
    (hg : (∀ j < 2, w.dbuf.get (off + j) ≠ none) → Triple (Quiet w tx rx (log + 12)) (g ()) Q E) :
    Triple (Quiet w (.accepted n :: tx) (.got r :: rx) log)
      (txWriteParts .md (programStream w.cfg off) >>= fun _ =>
        rxFill .latch (readyPollReplies w.cfg.readyPoll) >>= fun _ => upd (advanceCursor 1) >>= g) Q E := by
  have hlen : txLength (programStream w.cfg off) = 12 := by
    rw [txLength_programStream, hpoll]
    rfl
  have hword : Readable w.dbuf (programStream w.cfg off) 12 ↔ ∀ j < 2, w.dbuf.get (off + j) ≠ none := by
    rw [readable_programStream hwf]
    exact ⟨fun h j hj => h j hj (by omega), fun h j hj _ => h j hj⟩
  refine triple_bind (quiet_txWriteParts (programStream_ne_nil _ _) (fun hnot => hstop fun hread => hnot ?_)
    fun hshort => absurd hshort (by omega)) fun _ => ?_
  · rw [hlen, Nat.min_eq_right hn]
    exact hword.2 hread
  · rw [hlen, hword, hpoll]
    exact fun s ⟨hs, _, hread⟩ => (triple_bind (quiet_rxFill_word hw hr) fun _ => triple_bind (quiet_advanceCursor 1) fun _ =>
      hg hread) s hs

/-- The words of MD_FLASH_WRITE, the transport taking and answering each: where nothing stops, all of them can be read. -/
theorem quiet_programWords_stops {words off : Nat} {replies : List (List Byte)} (hw : w.adapter = .gb)
    (hpoll : w.cfg.readyPoll = .ryThenRdSingle) (hwf : w.dbuf.wf = true) (htx : Accepts words 12 tx)
    (hcount : replies.length = words) (hreplies : ∀ r ∈ replies, r.length = 2) :
    Triple (Quiet w tx (replies.map .got ++ rx) log) (programWords w.cfg words off)
      (fun _ _ => ∀ j < 2 * words, w.dbuf.get (off + j) ≠ none) Ended.OnlyStops := by
  induction words generalizing off tx log replies with
  | zero => exact triple_pure fun _ _ j hj => absurd hj (by omega)
  | succ words ih =>
    obtain ⟨n, rest, rfl, hn, hrest⟩ := htx.cons
    obtain ⟨r, more, rfl⟩ := List.exists_cons_of_length_eq_add_one hcount
    refine quiet_programWord hw hpoll hwf (hreplies r List.mem_cons_self) hn (fun _ _ => rfl) fun hword =>
      (ih hrest (by simpa using hcount) fun q hq => hreplies q (List.mem_cons_of_mem _ hq)).post fun _ _ hmore j hj => ?_
    by_cases hlow : j < 2
    · exact hword j hlow
    · have hget := hmore (j - 2) (by omega)
      rwa [show off + 2 + (j - 2) = off + j by omega] at hget

/-- The words of MD_FLASH_WRITE, the transport taking m of them and k bytes of the next. -/
theorem quiet_programWords_short {m words off k : Nat} {replies : List (List Byte)} (hw : w.adapter = .gb)
    (hpoll : w.cfg.readyPoll = .ryThenRdSingle) (hwf : w.dbuf.wf = true) (hm : m < words) (htx : Accepts m 12 tx)
    (hlast : tx[m]? = some (.accepted k)) (hk : k < 12) (hcount : replies.length = m) (hreplies : ∀ r ∈ replies, r.length = 2)
    (hread : ∀ j < 2 * words, 12 * (j / 2) + 8 + j % 2 < 12 * m + k → w.dbuf.get (off + j) ≠ none) :
    Triple (Quiet w tx (replies.map .got ++ rx) log) (programWords w.cfg words off) (fun _ _ => False)
      (Ended.OnlyShort k (log + 12 * m + k)) := by
  obtain ⟨words, rfl⟩ : ∃ n, words = n + 1 := ⟨words - 1, by omega⟩
  induction m generalizing off tx log replies words with
  | zero =>
    obtain ⟨rest, rfl⟩ : ∃ rest, tx = .accepted k :: rest := by
      cases tx with
      | nil => simp at hlast
      | cons answer rest => exact ⟨rest, by simpa using hlast⟩
    have hlen : txLength (programStream w.cfg off) = 12 := by
      rw [txLength_programStream, hpoll]
      rfl
    refine triple_bind (quiet_txWriteParts (programStream_ne_nil _ _) (fun hnot => absurd ?_ hnot) fun _ _ ht => ⟨rfl, ht⟩)
      fun _ => ?_
    · rw [readable_programStream hwf]
      exact fun j hj hpos => hread j (by omega) (by omega)
    · rw [hlen]
      rintro s ⟨-, hall, -⟩
      omega
  | succ m ih =>
    obtain ⟨n, rest, rfl, hn, hrest⟩ := htx.cons
    obtain ⟨r, more, rfl⟩ := List.exists_cons_of_length_eq_add_one hcount
    have hword : ∀ j < 2, w.dbuf.get (off + j) ≠ none := fun j hj => hread j (by omega) (by omega)
    obtain ⟨words, rfl⟩ : ∃ n, words = n + 1 := ⟨words - 1, by omega⟩
    have hnext := ih (off := off + 2) (log := log + 12) hrest (by simpa using hlast) (by simpa using hcount)
      (fun q hq => hreplies q (List.mem_cons_of_mem _ hq)) words (by omega) fun j hj hpos => by
        have hget := hread (2 + j) (by omega) (by omega)
        rwa [← Nat.add_assoc] at hget
    rw [show log + 12 + 12 * m + k = log + 12 * (m + 1) + k by omega] at hnext
    exact quiet_programWord hw hpoll hwf (hreplies r List.mem_cons_self) hn (fun hnot => absurd hword hnot) fun _ => hnext

/-- The stream of some words in one run (R221, R277). -/
def runStream (cfg : Params) (words off : Nat) : List TxPart := (List.range words).flatMap fun i => programStream cfg (off + 2 * i)

theorem runStream_succ (cfg : Params) (words off : Nat) :
    runStream cfg (words + 1) off = runStream cfg words off ++ programStream cfg (off + 2 * words) := by
  rw [runStream, List.range_succ, List.flatMap_append, List.flatMap_singleton, runStream]

theorem txLength_runStream {cfg : Params} (hpoll : cfg.readyPoll = .ryOnly) (words off : Nat) :
    txLength (runStream cfg words off) = 11 * words := by
  induction words with
  | zero => rfl
  | succ words ih =>
    rw [runStream_succ, txLength_append, ih, txLength_programStream, hpoll]
    rfl

/-- The byte j of the words in one run is the byte 11 * (j / 2) + 8 + j % 2 of the stream. -/
theorem readable_runStream {d : Memory} (hd : d.wf = true) {cfg : Params} (hpoll : cfg.readyPoll = .ryOnly) (words off k : Nat) :
    Readable d (runStream cfg words off) k ↔ ∀ j < 2 * words, 11 * (j / 2) + 8 + j % 2 < k → d.get (off + j) ≠ none := by
  induction words with
  | zero => exact ⟨fun _ j hj => absurd hj (by omega), fun _ => trivial⟩
  | succ words ih =>
    rw [runStream_succ, readable_append, ih, readable_programStream hd, txLength_runStream hpoll]
    constructor
    · rintro ⟨hfirst, hlast⟩ j hj hk
      by_cases hlow : j < 2 * words
      · exact hfirst j hlow hk
      · have hget := hlast (j - 2 * words) (by omega) (by omega)
        rwa [show off + 2 * words + (j - 2 * words) = off + j by omega] at hget
    · intro hread
      refine ⟨fun j hj hk => hread j (by omega) hk, fun j hj hk => ?_⟩
      have hget := hread (2 * words + j) (by omega) (by omega)
      rwa [← Nat.add_assoc] at hget

theorem runStream_ne_nil {cfg : Params} (hpoll : cfg.readyPoll = .ryOnly) {words off : Nat} (h : 0 < words) :
    runStream cfg words off ≠ [] := by
  intro hnil
  have hlen := txLength_runStream hpoll words off
  rw [hnil, txLength_nil] at hlen
  omega

theorem programRun_eq (cfg : Params) (words off : Nat) :
    programRun cfg words off = (txWriteParts .md (runStream cfg words off) >>= fun _ => upd (advanceCursor words)) := rfl

section FlashBodies

variable {boff len : Reg32} (heven : len.toNat % 2 = 0) (hin : boff.toNat + len.toNat ≤ w.cfg.dbufSize)
include heven hin

/-- MD_FLASH_WRITE once its checks have passed; a failure's effect on the cartridge does not matter to how it failed. -/
theorem quiet_mdFlashWriteBody {E : Ended → State → Prop} (hE : ∀ x n t, E .raised t → E .raised (loseFlash x n t))
    (hio : Triple (Quiet w tx rx log) (programIo (len.toNat / 2) boff.toNat) (fun _ _ => False) E) :
    Triple (Quiet w tx rx log) (mdFlashWriteBody boff len) (fun _ _ => False) E :=
  quiet_checkBulk heven hin (triple_bind (R := fun _ => Quiet w tx rx log) (triple_look fun _ => id) fun _ =>
    triple_bind (triple_onRaise (hE _ _) hio) fun _ _ hfalse => hfalse.elim)

theorem quiet_mdFlashWriteBody_stops {replies : List (List Byte)} (hw : w.adapter = .gb)
    (hpoll : w.cfg.readyPoll = .ryThenRdSingle) (hwf : w.dbuf.wf = true)
    (hnone : w.dbuf.getBytes boff.toNat len.toNat = none) (htx : Accepts (len.toNat / 2) 12 tx)
    (hcount : replies.length = len.toNat / 2) (hreplies : ∀ r ∈ replies, r.length = 2) :
    Triple (Quiet w tx (replies.map .got ++ rx) log) (mdFlashWriteBody boff len) (fun _ _ => False) Ended.OnlyStops := by
  refine quiet_mdFlashWriteBody heven hin (fun _ _ _ h => nomatch h) (quiet_look_cfg ?_)
  rw [hpoll]
  refine (quiet_programWords_stops hw hpoll hwf htx hcount hreplies).post fun _ _ hread => ?_
  exact absurd hnone ((Memory.getBytes_ne_none_iff hwf _ _).2 fun j hj => hread j (by omega))

theorem quiet_mdFlashWriteBody_short {m k : Nat} {replies : List (List Byte)} (hw : w.adapter = .gb)
    (hpoll : w.cfg.readyPoll = .ryThenRdSingle) (hwf : w.dbuf.wf = true) (hm : m < len.toNat / 2) (htx : Accepts m 12 tx)
    (hlast : tx[m]? = some (.accepted k)) (hk : k < 12) (hcount : replies.length = m) (hreplies : ∀ r ∈ replies, r.length = 2)
    (hread : ∀ j < len.toNat, 12 * (j / 2) + 8 + j % 2 < 12 * m + k → w.dbuf.get (boff.toNat + j) ≠ none) :
    Triple (Quiet w tx (replies.map .got ++ rx) log) (mdFlashWriteBody boff len) (fun _ _ => False)
      (Ended.OnlyShort k (log + 12 * m + k)) := by
  refine quiet_mdFlashWriteBody heven hin (fun x n _ h => ⟨rfl, h.2.loseFlash x n⟩) (quiet_look_cfg ?_)
  rw [hpoll]
  exact quiet_programWords_short hw hpoll hwf hm htx hlast hk hcount hreplies fun j hj => hread j (by omega)

theorem quiet_mdFlashWriteBody_run_stops {k : Nat} (hpoll : w.cfg.readyPoll = .ryOnly) (hwf : w.dbuf.wf = true)
    (hnone : w.dbuf.getBytes boff.toNat len.toNat = none) (hk : 11 * (len.toNat / 2) ≤ k) :
    Triple (Quiet w (.accepted k :: tx) rx log) (mdFlashWriteBody boff len) (fun _ _ => False) Ended.OnlyStops := by
  have hpos := Memory.pos_of_getBytes_none hnone
  have hlen := txLength_runStream hpoll (len.toNat / 2) boff.toNat
  refine quiet_mdFlashWriteBody heven hin (fun _ _ _ h => nomatch h) (quiet_look_cfg ?_)
  rw [hpoll]
  dsimp only
  rw [programRun_eq]
  refine triple_bind (quiet_txWriteParts (runStream_ne_nil hpoll (by omega)) (fun _ _ => rfl)
    fun hshort => absurd hshort (by rw [hlen]; omega)) fun _ => ?_
  rintro s ⟨-, -, hread⟩
  refine absurd hnone ((Memory.getBytes_ne_none_iff hwf _ _).2 fun j hj => ?_)
  exact (readable_runStream hwf hpoll _ _ _).1 hread j (by omega) (by rw [hlen]; omega)

theorem quiet_mdFlashWriteBody_run_short {k : Nat} (hpoll : w.cfg.readyPoll = .ryOnly) (hwf : w.dbuf.wf = true)
    (hk : k < 11 * (len.toNat / 2))
    (hread : ∀ j < len.toNat, 11 * (j / 2) + 8 + j % 2 < k → w.dbuf.get (boff.toNat + j) ≠ none) :
    Triple (Quiet w (.accepted k :: tx) rx log) (mdFlashWriteBody boff len) (fun _ _ => False) (Ended.OnlyShort k (log + k)) := by
  have hlen := txLength_runStream hpoll (len.toNat / 2) boff.toNat
  refine quiet_mdFlashWriteBody heven hin (fun x n _ h => ⟨rfl, h.2.loseFlash x n⟩) (quiet_look_cfg ?_)
  rw [hpoll]
  dsimp only
  rw [programRun_eq]
  refine triple_bind (quiet_txWriteParts (runStream_ne_nil hpoll (by omega)) (fun hnot => absurd ?_ hnot) fun _ _ ht => ⟨rfl, ht⟩)
    fun _ => ?_
  · rw [hlen, Nat.min_eq_left (Nat.le_of_lt hk), readable_runStream hwf hpoll]
    exact fun j hj => hread j (by omega)
  · rintro s ⟨-, hall, -⟩
    omega

end FlashBodies

/-! ### GB_WRITE_RAM -/

/-- Quiet, with known registers of the transfer. -/
def QuietAt (w : Setting) (k : Kept) (tx : List TxDraw) (rx : List RxDraw) (log : Nat) (s : State) : Prop :=
  Quiet w tx rx log s ∧ s.kept = k

section Transfer

variable {k : Kept}

theorem quietAt_setXState (x : XState) : Triple (QuietAt w k tx rx log) (setXState x) (fun _ => QuietAt w k tx rx log) E :=
  triple_upd fun _ hs => ⟨{ hs.1 with }, hs.2⟩

theorem State.kept_transmit (bytes : List Byte) (s : State) : (s.transmit bytes).kept = s.kept := by
  unfold State.transmit
  split <;> rfl

/-- A data packet sent to a transport that takes it (R153). -/
theorem quietAt_sendBuilt {p : List Byte} {n : Nat} (hp : p.length = 72) (hn : 72 ≤ n) :
    Triple (QuietAt w k (.accepted n :: tx) rx log) (sendBuilt p) (fun _ => QuietAt w k tx rx (log + 72)) E := by
  intro s hs
  have hbuilt : QuietAt w k (.accepted n :: tx) rx log (buildPacket p s) := by
    refine ⟨?_, (State.kept_buildPacket p s).trans hs.2⟩
    rw [buildPacket, if_pos hp]
    exact { hs.1 with }
  have hl : (withTrailer p).length = 72 := by simp [withTrailer, hp]
  rw [sendBuilt_eq, sendPacket_data hp hbuilt.1.visits hbuilt.1.tx hn]
  have hsent := (show Quiet w tx rx log { sealPacket p (buildPacket p s) with
    env := { (buildPacket p s).env with tx := tx } } from { hbuilt.1 with tx := rfl }).transmit (withTrailer p)
  rw [hl] at hsent
  exact ⟨hsent, (State.kept_transmit _ _).trans hbuilt.2⟩

/-- An ACK comes (R192). -/
theorem quietAt_expectAck (hw : w.adapter = .gb) :
    Triple (QuietAt w k tx (.got [0xAA] :: rx) log) expectAck (fun _ => QuietAt w k tx rx log) E := by
  intro s hs
  rw [expectAck, act_bind_ok (receivePacket_control hs.1.visits (hs.1.adapter.trans hw) hs.1.rx (by decide))]
  exact ⟨{ hs.1 with rx := rfl }, hs.2⟩

/-- A region of DBUF is read, or the model stops. -/
theorem quietAt_memRead (off n : Nat) :
    Triple (QuietAt w k tx rx log) (memRead off n) (fun bytes s => QuietAt w k tx rx log s ∧ w.dbuf.getBytes off n = some bytes)
      Ended.OnlyStops := by
  intro s hs
  cases hread : w.dbuf.getBytes off n with
  | none =>
    rw [memRead_none (hs.1.dbuf ▸ hread)]
    exact rfl
  | some bytes =>
    rw [memRead_some (hs.1.dbuf ▸ hread) hs.1.hazard]
    exact ⟨hs, rfl⟩

/-- A packet with its frame from DBUF, loaded into TXPKT, or the model stops. -/
theorem quietAt_loadPacket {mk : List Byte → List Byte} (hmk : MakesPacket mk) (off : Nat) :
    Triple (QuietAt w k tx rx log) (loadPacket mk off)
      (fun p s => QuietAt w k tx rx log s ∧ p.length = 72 ∧ w.dbuf.getBytes off 64 ≠ none) Ended.OnlyStops :=
  triple_bind (quietAt_memRead off 64) fun frame => triple_of fun hread => by
    obtain ⟨hl, -⟩ := hmk frame (Memory.run_length _ _ _ _ hread)
    refine triple_upd_bind (R := QuietAt w k tx rx log) (fun s hs => ⟨?_, (State.kept_buildPacket _ s).trans hs.2⟩)
      (triple_upd_bind (R := QuietAt w k tx rx log) (fun s hs => ⟨{ hs.1 with }, hs.2⟩) (triple_pure fun s hs => ⟨hs, ?_, ?_⟩))
    · rw [buildPacket, if_pos hl]
      exact { hs.1 with }
    · simp [withTrailer, hl]
    · simp [hread]

/-- A TxWrite to a transport that takes all of its bytes. -/
theorem quietAt_txWriteOf {fam : Family} {n j : Nat} {first : Nat → Act (List Byte)} (hn : n ≤ j)
    (hf : Triple (QuietAt w k tx rx log) (first n) (fun bytes s => QuietAt w k tx rx log s ∧ bytes.length = n) E) :
    Triple (QuietAt w k (.accepted j :: tx) rx log) (txWriteOf fam n first) (fun _ => QuietAt w k tx rx (log + n)) E := by
  intro s hs
  let u : State := { s with env := { s.env with tx := tx } }
  have hu : QuietAt w k tx rx log u := ⟨{ hs.1 with tx := rfl }, hs.2⟩
  have hall : acceptedOf (.accepted j) n = n := Nat.min_eq_right hn
  cases hr : first n u with
  | ok bytes t =>
    obtain ⟨ht, hl⟩ := hf.ok hu hr
    rw [txWriteOf_calm hs.1.visits hs.1.tx (by rw [hall]; exact hr)]
    have hsent := ht.1.transmit bytes
    rw [hl] at hsent
    simp only [hall, Nat.lt_irrefl, ↓reduceIte]
    exact ⟨hsent, (State.kept_transmit _ _).trans ht.2⟩
  | error e t =>
    rw [txWriteOf_calm_error hs.1.visits hs.1.tx (by rw [hall]; exact hr)]
    exact hf.error hu hr

/-- A packet with its frame from DBUF, sent; where it does not stop, its frame can be read (R189). -/
theorem quietAt_sendLoaded {mk : List Byte → List Byte} (hmk : MakesPacket mk) (off : Nat) {n : Nat} (hn : 72 ≤ n) :
    Triple (QuietAt w k (.accepted n :: tx) rx log) (sendLoaded mk off)
      (fun _ s => QuietAt w k tx rx (log + 72) s ∧ w.dbuf.getBytes off 64 ≠ none) Ended.OnlyStops := by
  refine triple_bind (quietAt_loadPacket hmk off) fun _ => ?_
  rintro s ⟨hs, -, hread⟩
  refine ((quietAt_txWriteOf hn ?_).post fun _ _ ht => ⟨ht, hread⟩) s hs
  refine triple_bind (quietAt_loadPacket hmk off) fun p => ?_
  rintro t ⟨ht, hl, -⟩
  have hwire : wirePacket off p t = .ok (p.take 6 ++ packetFrame p ++ p.drop 70) t := by
    rw [wirePacket, act_bind_ok (maskHazard_none off _ t ht.1.hazard), act_pure]
  rw [act_bind_ok hwire]
  exact ⟨ht, by simp [packetFrame, hl]⟩

/-- The packets of a paged write, the transport taking and the adapter acknowledging each: where nothing stops, every frame can be
read (R189, R192). -/
theorem quietAt_writeLoop {packets : Nat} (hw : w.adapter = .gb) (hwf : w.dbuf.wf = true) (hroom : k.Room packets)
    (htx : Accepts packets 72 tx) :
    Triple (QuietAt w k tx (List.replicate packets (.got [0xAA]) ++ rx) log) (writeLoop packets)
      (fun _ _ => ∀ j < 64 * packets, w.dbuf.get (k.xboff.toNat + k.xcount.toNat + j) ≠ none) Ended.OnlyStops := by
  induction packets generalizing k tx log with
  | zero => exact triple_pure fun _ _ j hj => absurd hj (by omega)
  | succ packets ih =>
    obtain ⟨n, rest, rfl, hn, hrest⟩ := htx.cons
    have hmk (command : Byte) (index : BitVec 24) : MakesPacket fun frame => dataPacket command 0 index frame 0 :=
      fun frame hl => ⟨by rw [dataPacket_length, hl], isPacket_dataPacket _ _ _ _ hl⟩
    have hcounted : k.counted.xcount.toNat = k.xcount.toNat + 64 := Kept.counted_toNat hroom
    have hcount : Triple (QuietAt w k rest (List.replicate packets (.got [0xAA]) ++ rx) (log + 72)) countFrame
        (fun _ => QuietAt w k.counted rest (List.replicate packets (.got [0xAA]) ++ rx) (log + 72)) Ended.OnlyStops :=
      triple_upd fun _ hs => ⟨{ hs.1 with }, congrArg Kept.counted hs.2⟩
    refine triple_bind (quietAt_setXState .continuing) fun _ => triple_bind (triple_look fun _ => id) fun _ =>
      triple_look_known (fun _ hs => congrArg (·.xboff.toNat) hs.2) <| triple_look_known (fun _ hs => congrArg (·.xcount.toNat) hs.2) <|
      triple_bind (triple_look fun _ => id) fun _ => triple_bind (quietAt_sendLoaded (hmk _ _) _ hn) fun _ => triple_of fun hread =>
      triple_bind (quietAt_setXState .awaitResponse) fun _ => triple_bind (quietAt_expectAck hw) fun _ =>
      triple_bind hcount fun _ => (ih hroom.counted hrest).post fun _ _ hmore j hj => ?_
    by_cases hlow : j < 64
    · exact (Memory.getBytes_ne_none_iff hwf _ _).1 hread j hlow
    · have hget := hmore (j - 64) (by omega)
      rw [hcounted] at hget
      rwa [show k.counted.xboff.toNat + (k.xcount.toNat + 64) + (j - 64) = k.xboff.toNat + k.xcount.toNat + j by
        show k.xboff.toNat + _ + _ = _
        omega] at hget

/-- GB_WRITE_RAM where the transport takes and the adapter acknowledges everything. -/
theorem quietAt_gbWriteRamBody_stops {boff len : Reg32} (hw : w.adapter = .gb) (hwf : w.dbuf.wf = true)
    (hlen : transferLength len.toNat) (hin : boff.toNat + len.toNat ≤ w.cfg.dbufSize)
    (hnone : w.dbuf.getBytes boff.toNat len.toNat = none) (hk : k.cfg = w.cfg) (htx : Accepts (len.toNat / 64 + 1) 72 tx) :
    Triple (QuietAt w k tx (List.replicate (len.toNat / 64 + 1) (.got [0xAA]) ++ rx) log) (gbWriteRamBody boff len)
      (fun _ _ => False) Ended.OnlyStops := by
  obtain ⟨n, rest, rfl, hn, hrest⟩ := htx.cons
  have hchecks (s : State) (hs : s.cfg = w.cfg) : checkTransfer boff len s = .ok () s := by
    have hsize : sizeOk len.toNat = true := by simpa [sizeOk, transferLength] using hlen
    rw [checkTransfer, hsize, act_bind_ok (check_true _ _ _), checkDbuf_ok (by rwa [hs])]
  have hconfig (sub : Byte) : (configPacket sub len.toNat).length = 72 := dataPacket_length _ _ _ _ _
  refine triple_skip (fun s hs => hchecks s hs.1.cfg) <|
    triple_bind (R := fun _ => QuietAt w (k.transfer len.toNat boff) _ _ log)
      (triple_upd fun _ hs => ⟨{ hs.1 with }, congrArg (Kept.transfer · len.toNat boff) hs.2⟩) fun _ =>
    triple_bind (triple_look fun _ => id) fun _ => triple_bind (quietAt_sendBuilt (hconfig _) hn) fun _ =>
    triple_bind (quietAt_setXState _) fun _ => triple_bind (quietAt_expectAck hw) fun _ =>
    triple_bind (quietAt_writeLoop hw hwf (Kept.room_transfer len.isLt (Nat.mul_div_le _ _) (by rwa [hk])) hrest) fun _ => ?_
  intro s hread
  refine absurd hnone ((Memory.getBytes_ne_none_iff hwf _ _).2 fun j hj => ?_)
  exact hread j (by unfold transferLength at hlen; omega)

end Transfer

end Bodies
end Sys2Proof.Machine
end

section
/-! SUPPORT. The statement on unwritten bytes, clause by clause (UnwrittenSourceFaults). -/

namespace Sys2Proof.Machine

theorem crcBlock_stops {s : State} {boff len : Reg32} (h : s.Calm) (hin : boff.toNat + len.toNat ≤ s.cfg.dbufSize)
    (hnone : s.dbuf.getBytes boff.toNat len.toNat = none) : exec (.crcBlock boff len) s = .fault .unwrittenByte := by
  have hbody : crcBlockBody boff len s.accept = .error (.fault .unwrittenByte) s.accept := by
    rw [crcBlockBody, act_bind_ok (checkDbuf_ok (s := s.accept) hin), act_bind_ok (meet_calm (s := s.accept) h.2), act_bind_error (memRead_none (s := s.accept) hnone)]
  exact (request_ready h.1).trans (runRequest_fault hbody)

theorem pktBuild_stops {s : State} {m sub : Byte} {index : BitVec 24} {boff : Reg32} (h : s.Calm)
    (hvalid : validatePacket 0x55 m sub = none) (hin : boff.toNat + 64 ≤ s.cfg.dbufSize)
    (hnone : s.dbuf.getBytes boff.toNat 64 = none) : exec (.pktBuild 0x55 m sub index boff) s = .fault .unwrittenByte := by
  have hbody : pktBuildBody 0x55 m sub index boff s.accept = .error (.fault .unwrittenByte) s.accept := by
    rw [pktBuildBody, hvalid]
    dsimp only
    rw [if_neg (by decide), act_bind_ok (checkDbuf_ok (s := s.accept) hin), act_bind_ok (meet_calm (s := s.accept) h.2), act_bind_error (memRead_none (s := s.accept) hnone)]
  exact (request_ready h.1).trans (runRequest_fault hbody)

theorem pktSend_stops {s : State} (hb : s.busy = false) (hnone : txPacket s = none) : exec .pktSend s = .fault .unwrittenByte := by
  have hne : s.txlen ≠ 0 := by
    intro h0
    simp [txPacket, h0] at hnone
  have hbody : pktSendBody s.accept = .error (.fault .unwrittenByte) s.accept := by
    rw [pktSendBody, act_bind_ok (look_run _ _), decide_eq_true (show s.accept.txlen ≠ 0 from hne), act_bind_ok (check_true _ _ _),
      act_bind_error (orStop_none (s := s.accept) hnone)]
  exact (request_ready hb).trans (runRequest_fault hbody)

theorem pktCheck_stops {s : State} (hb : s.busy = false) (hnone : rxPacket s = none) : exec .pktCheck s = .fault .unwrittenByte := by
  have hbody : pktCheckBody s.accept = .error (.fault .unwrittenByte) s.accept := by
    rw [pktCheckBody, act_bind_error (orStop_none (s := s.accept) hnone)]
  exact (request_ready hb).trans (runRequest_fault hbody)

/-- Settles O15: what the last clauses say by what every piece of a request finds there, the others by the stream that is sent. -/
theorem unwrittenSourceFaults : Obligations.UnwrittenSourceFaults := by
  refine ⟨fun _ _ _ => crcBlock_stops, fun _ _ _ _ _ => pktBuild_stops, fun _ => pktSend_stops, fun _ => pktCheck_stops,
    fun s boff len k txs h hwf heven hin hnone htx => ⟨fun hk => ?_, fun hk hread => ?_⟩,
    fun s boff len replies rxs h hgb hpoll hwf heven hin hnone htx hcount hreplies hrx => ?_,
    fun s boff len m k replies rxs h hgb hpoll hwf heven hin hm htx hlast hk hcount hreplies hrx hread => ?_,
    fun s boff len k txs h hpoll hwf heven hin hnone htx => ⟨fun hk => ?_, fun hk hread => ?_⟩,
    fun s boff len rxs h hgb hwf hlen hin hnone htx hrx => ?_, fun _ _ _ => exec_fault, exec_not_refused⟩
  · exact (quiet_mdWriteBody_stops heven hin hwf hnone hk).request_stops (h.quiet htx) h.1
  · exact (quiet_mdWriteBody_short heven hin hwf hnone hk hread).request_short (h.quiet htx) h.1
  · exact (quiet_mdFlashWriteBody_stops heven hin hgb hpoll hwf hnone htx hcount hreplies).request_stops (hrx ▸ h.quiet rfl) h.1
  · exact (quiet_mdFlashWriteBody_short heven hin hgb hpoll hwf hm htx hlast hk hcount hreplies hread).request_short
      (hrx ▸ h.quiet rfl) h.1
  · exact (quiet_mdFlashWriteBody_run_stops heven hin hpoll hwf hnone hk).request_stops (h.quiet htx) h.1
  · exact (quiet_mdFlashWriteBody_run_short heven hin hpoll hwf hk hread).request_short (h.quiet htx) h.1
  · exact (quietAt_gbWriteRamBody_stops (k := s.accept.kept) hgb hwf hlen hin hnone rfl htx).request_stops
      ⟨hrx ▸ h.quiet rfl, rfl⟩ h.1

end Sys2Proof.Machine
end

section
/-! SUPPORT. What has no part in the requester's actions to come does the same whatever these are (R22). -/

namespace Sys2Proof.Machine

/-- The same state with other actions of the requester to come during the next requests. -/
def State.withVisits (v : List (List PortAction)) (s : State) : State := { s with env := { s.env with visits := v } }

/-- A function that does not go by the requester's actions to come, and leaves them. -/
def Oblivious (f : State → State) : Prop := ∀ v s, f (s.withVisits v) = (f s).withVisits v

/-- A draw that does not go by them. -/
def ObliviousDraw {α : Type} (take : State → α × State) : Prop :=
  ∀ v s, take (s.withVisits v) = ((take s).1, (take s).2.withVisits v)

theorem Oblivious.comp {f g : State → State} (hf : Oblivious f) (hg : Oblivious g) : Oblivious fun s => f (g s) :=
  fun v s => by
    show f (g (s.withVisits v)) = _
    rw [hg v s, hf v]

/-! ### Draws -/

theorem obliviousDraw_takeTx : ObliviousDraw takeTx := by
  intro v s
  cases h : s.env.tx <;> simp [takeTx, State.withVisits, State.countDraw, h]

theorem obliviousDraw_takeRx : ObliviousDraw takeRx := by
  intro v s
  cases h : s.env.rx <;> simp [takeRx, State.withVisits, State.countDraw, h]

theorem obliviousDraw_takeReopen : ObliviousDraw takeReopen := by
  intro v s
  cases h : s.env.reopen <;> simp [takeReopen, State.withVisits, State.countDraw, h]

theorem obliviousDraw_takeFree : ObliviousDraw takeFree := by
  intro v s
  cases h : s.env.free <;> simp [takeFree, State.withVisits, State.countDraw, h]

theorem obliviousDraw_takeFreeByte : ObliviousDraw takeFreeByte := by
  intro v s
  rw [takeFreeByte, obliviousDraw_takeFree v s]
  rfl

theorem obliviousDraw_takeReplies (fam : Family) (n : Nat) (offered : List Byte) : ObliviousDraw (takeReplies fam n offered) := by
  intro v s
  have hbound : (s.withVisits v).repliesBound fam = s.repliesBound fam := rfl
  unfold takeReplies
  rw [hbound]
  split <;> rfl

/-! ### The cartridge and the peer -/

theorem obliviousDraw_cartRead (w : WordAddr) : ObliviousDraw (cartRead w) := by
  intro v s
  unfold cartRead
  rw [obliviousDraw_takeFree v s]
  dsimp only [State.withVisits]
  split <;> rfl

theorem oblivious_cartWrite (w : WordAddr) (hi : Option Byte) (lo : Byte) : Oblivious (cartWrite w hi lo) := fun _ _ => rfl

theorem obliviousDraw_identityWord (f : MdFlags) : ObliviousDraw (identityWord f) := by
  intro v s
  unfold identityWord
  rw [obliviousDraw_takeFree v s]
  dsimp only [State.withVisits]
  split
  · split <;> rfl
  · rfl

theorem obliviousDraw_rdUnits (f : MdFlags) (n : Nat) (w : WordAddr) : ObliviousDraw (rdUnits f n w) := by
  induction n generalizing w with
  | zero => exact fun _ _ => rfl
  | succ n ih =>
    intro v s
    have hunit : (if f.devId then identityWord f (s.withVisits v) else cartRead w (s.withVisits v)) =
        ((if f.devId then identityWord f s else cartRead w s).1,
          (if f.devId then identityWord f s else cartRead w s).2.withVisits v) := by
      split
      · exact obliviousDraw_identityWord f v s
      · exact obliviousDraw_cartRead w v s
    rw [rdUnits, hunit]
    dsimp only
    rw [ih]
    rfl

theorem oblivious_peerRd (f : MdFlags) : Oblivious (peerRd f) := by
  intro v s
  have hunits := obliviousDraw_rdUnits f (mdUnits f s.peer.devLen) s.peer.devAddr v s
  unfold peerRd
  dsimp only
  rw [show (s.withVisits v).peer = s.peer from rfl, hunits]
  rfl

theorem oblivious_wrWords (moves : Bool) : ∀ (data : List Byte) (w : WordAddr), Oblivious (wrWords moves data w)
  | h :: l :: rest, w => (oblivious_wrWords moves rest _).comp (oblivious_cartWrite w (some h) l)
  | [], _ => fun _ _ => rfl
  | [_], _ => fun _ _ => rfl

theorem oblivious_wrLowBytes (moves : Bool) (data : List Byte) (w : WordAddr) : Oblivious (wrLowBytes moves data w) := by
  induction data generalizing w with
  | nil => exact fun _ _ => rfl
  | cons l rest ih => exact (ih _).comp (oblivious_cartWrite w none l)

theorem oblivious_peerWr (f : MdFlags) (data : List Byte) : Oblivious (peerWr f data) := by
  intro v s
  unfold peerWr
  dsimp only
  rw [show (s.withVisits v).peer = s.peer from rfl, oblivious_wrWords, oblivious_wrLowBytes]
  split <;> rfl

theorem oblivious_peerCommand (b : Byte) : Oblivious (peerCommand b) := by
  intro v s
  unfold peerCommand
  cases mdKind b with
  | rd => exact oblivious_peerRd _ v s
  | wr =>
    dsimp only
    rw [show (s.withVisits v).peer = s.peer from rfl]
    split
    · exact oblivious_peerWr _ _ v s
    · rfl
  | addr | len | delay | ry | reserved => rfl

theorem oblivious_peerByte (b : Byte) : Oblivious (peerByte b) := by
  intro v s
  unfold peerByte
  rw [show (s.withVisits v).peer = s.peer from rfl]
  cases s.peer.ps with
  | op => exact oblivious_peerCommand b v s
  | wrData n f taken =>
    dsimp only
    split
    · exact oblivious_peerWr _ _ v s
    · rfl
  | addrB | lenB | delayB | undef => rfl

theorem oblivious_peerFeed (bytes : List Byte) : Oblivious (peerFeed bytes) := by
  induction bytes with
  | nil => exact fun _ _ => rfl
  | cons b rest ih => exact ih.comp (oblivious_peerByte b)

theorem oblivious_drain : Oblivious drain := fun v s =>
  oblivious_peerFeed s.peer.inbox v { s with peer := { s.peer with inbox := [] } }

theorem oblivious_settlePeer : Oblivious settlePeer := by
  intro v s
  unfold settlePeer
  rw [show (s.withVisits v).adapter = s.adapter from rfl]
  split
  · exact oblivious_drain v s
  · rfl

theorem oblivious_transmit (bytes : List Byte) : Oblivious (State.transmit bytes) := by
  intro v s
  unfold State.transmit
  rw [show (s.withVisits v).adapter = s.adapter from rfl]
  split <;> rfl

theorem oblivious_loseSync (fam : Family) : Oblivious (State.loseSync fam) := by
  intro v s
  cases fam <;> rfl

theorem oblivious_raiseTransport (fam : Family) (e : Err) (info : Nat) : Oblivious (State.raiseTransport fam e info) := by
  intro v s
  rw [State.raiseTransport, oblivious_loseSync]
  rfl

end Sys2Proof.Machine
end

section
/-! SUPPORT. A request does the same without the requester's writes of REQ, where it is not reset (R22). -/

namespace Sys2Proof.Machine

variable {α β : Type}

/-- An ending with a change to its state. -/
def onState (g : State → State) (r : EStateM.Result Ended State α) : EStateM.Result Ended State α :=
  match r with
  | .ok a t => .ok a (g t)
  | .error e t => .error e (g t)

@[simp] theorem onState_ok (g : State → State) (a : α) (t : State) :
    onState g (.ok a t : EStateM.Result Ended State α) = .ok a (g t) := rfl

@[simp] theorem onState_error (g : State → State) (e : Ended) (t : State) :
    onState g (.error e t : EStateM.Result Ended State α) = .error e (g t) := rfl

/-- A piece that does not go by the requester's actions to come, and leaves them. -/
def ObliviousAct (m : Act α) : Prop := ∀ v s, m (s.withVisits v) = onState (State.withVisits v) (m s)

/-- A piece that does the same without the requester's writes of REQ, where the requester does not reset the block. -/
def Blind (m : Act α) : Prop :=
  ∀ s, s.NoReset → m s.withoutReqWrites = onState State.withoutReqWrites (m s) ∧ ∀ a t, m s = .ok a t → t.NoReset

/-! ### Pieces that do not go by the requester's actions -/

theorem obliviousAct_bind {m : Act α} {f : α → Act β} (hm : ObliviousAct m) (hf : ∀ a, ObliviousAct (f a)) :
    ObliviousAct (m >>= f) := by
  intro v s
  rw [act_bind, act_bind, hm v s]
  cases m s with
  | ok a t => exact hf a v t
  | error e t => rfl

theorem obliviousAct_pure (a : α) : ObliviousAct (pure a) := fun _ _ => rfl

theorem obliviousAct_upd {f : State → State} (h : Oblivious f) : ObliviousAct (upd f) := fun v s => by
  rw [upd_run, upd_run, h v s, onState_ok]

theorem obliviousAct_look {f : State → α} (h : ∀ v s, f (s.withVisits v) = f s) : ObliviousAct (look f) := fun v s => by
  rw [look_run, look_run, h v s, onState_ok]

theorem obliviousAct_raise (e : Err) (info : Nat) : ObliviousAct (raise e info : Act α) := fun _ _ => rfl

theorem obliviousAct_check (ok : Bool) (e : Err) (info : Nat) : ObliviousAct (check ok e info) := by
  cases ok with
  | true => exact obliviousAct_pure ()
  | false => exact obliviousAct_raise e info

theorem obliviousAct_raiseTransport (fam : Family) (e : Err) (info : Nat) : ObliviousAct (raiseTransport fam e info : Act α) :=
  fun v s => by rw [raiseTransport_run, raiseTransport_run, oblivious_raiseTransport, onState_error]

theorem obliviousAct_orStop {f : State → Option α} (h : ∀ v s, f (s.withVisits v) = f s) : ObliviousAct (orStop f) := by
  intro v s
  cases hf : f s with
  | none => rw [orStop_none hf, orStop_none ((h v s).trans hf), onState_error]
  | some a => rw [orStop_some hf, orStop_some ((h v s).trans hf), onState_ok]

theorem obliviousAct_draw {take : State → α × State} (h : ObliviousDraw take) : ObliviousAct (draw take) := fun v s => by
  rw [draw_run, draw_run, h v s, onState_ok]

theorem obliviousAct_maskHazard (off : Nat) (bytes : List Byte) : ObliviousAct (maskHazard off bytes) := by
  induction bytes generalizing off with
  | nil => exact obliviousAct_pure []
  | cons b rest ih =>
    have hbyte : ObliviousAct (maskByte off b) := by
      intro v s
      unfold maskByte
      rw [show (s.withVisits v).hazard = s.hazard from rfl, obliviousDraw_takeFreeByte v s]
      split <;> rfl
    exact obliviousAct_bind hbyte fun _ => obliviousAct_bind (ih _) fun _ => obliviousAct_pure _

theorem obliviousAct_memRead (off n : Nat) : ObliviousAct (memRead off n) :=
  obliviousAct_bind (obliviousAct_orStop fun _ _ => rfl) fun _ => obliviousAct_maskHazard _ _

theorem obliviousAct_storeDbuf (off : Nat) (bytes : List Byte) : ObliviousAct (storeDbuf off bytes) :=
  obliviousAct_bind (obliviousAct_maskHazard _ _) fun _ => obliviousAct_upd fun _ _ => rfl

theorem obliviousAct_storeAt (d : Destination) (got : Nat) (bytes : List Byte) : ObliviousAct (storeAt d got bytes) := by
  cases d with
  | dbuf off => exact obliviousAct_storeDbuf _ bytes
  | latch => exact obliviousAct_pure ()

theorem obliviousAct_txBytes (parts : List TxPart) (k : Nat) : ObliviousAct (txBytes parts k) := by
  induction parts generalizing k with
  | nil => exact obliviousAct_pure []
  | cons part rest ih =>
    cases part with
    | bytes b => exact obliviousAct_bind (ih _) fun _ => obliviousAct_pure _
    | dbuf off n => exact obliviousAct_bind (obliviousAct_memRead _ _) fun _ => obliviousAct_bind (ih _) fun _ => obliviousAct_pure _

theorem obliviousAct_checkDbuf (boff : Reg32) (n : Nat) : ObliviousAct (checkDbuf boff n) :=
  obliviousAct_bind (obliviousAct_look fun _ _ => rfl) fun _ => obliviousAct_check _ _ _

/-! ### The requester's actions themselves -/

theorem readRegister_withVisits (r : ReadableReg) (v : List (List PortAction)) (s : State) :
    readRegister r (s.withVisits v) = readRegister r s := by
  cases r <;> rfl

theorem oblivious_busyReadDbuf : Oblivious busyReadDbuf := by
  intro v s
  rw [busyReadDbuf, obliviousDraw_takeFreeByte v s]
  rfl

theorem oblivious_busyWriteDbuf (off : Nat) : Oblivious (busyWriteDbuf off) := by
  intro v s
  unfold busyWriteDbuf
  rw [show (s.withVisits v).cfg = s.cfg from rfl, obliviousDraw_takeFreeByte v s]
  split <;> rfl

theorem obliviousAct_visitAction (a : PortAction) : ObliviousAct (visitAction a) := by
  cases a with
  | writeReq w => exact obliviousAct_pure ()
  | readReg r =>
    exact obliviousAct_bind (obliviousAct_orStop fun v s => readRegister_withVisits r v s) fun _ => obliviousAct_upd fun _ _ => rfl
  | readDbuf off => exact obliviousAct_upd oblivious_busyReadDbuf
  | writeDbuf off b => exact obliviousAct_upd (oblivious_busyWriteDbuf off)
  | reset => exact obliviousAct_pure ()

theorem obliviousAct_visitActions (actions : List PortAction) : ObliviousAct (visitActions actions) := by
  induction actions with
  | nil => exact obliviousAct_pure none
  | cons a rest ih =>
    by_cases ha : a = .reset
    · subst ha
      exact obliviousAct_pure (some rest)
    · rw [visitActions_cons rest ha]
      exact obliviousAct_bind (obliviousAct_visitAction a) fun _ => ih

/-- A write of REQ during a request is nothing (R22). -/
theorem visitActions_filter {actions : List PortAction} (h : PortAction.reset ∉ actions) :
    visitActions (actions.filter notReqWrite) = visitActions actions := by
  induction actions with
  | nil => rfl
  | cons a rest ih =>
    have ha := List.ne_of_not_mem_cons h
    have hrest := List.not_mem_of_not_mem_cons h
    rw [visitActions_cons rest (Ne.symm ha), ← ih hrest]
    cases a with
    | writeReq w => rfl
    | readReg | readDbuf | writeDbuf => exact visitActions_cons _ (Ne.symm ha)
    | reset => exact absurd rfl ha

/-! ### Blind pieces -/

theorem State.withVisits_visits (s : State) : s.withVisits s.env.visits = s := rfl

theorem Oblivious.visits {f : State → State} (h : Oblivious f) (s : State) : (f s).env.visits = s.env.visits := by
  have hsame := h s.env.visits s
  rw [State.withVisits_visits] at hsame
  rw [hsame]
  rfl

/-- What does not go by the requester's actions leaves them. -/
theorem ObliviousAct.visits_ok {m : Act α} (h : ObliviousAct m) {s t : State} {a : α} (hm : m s = .ok a t) :
    t.env.visits = s.env.visits := by
  have hsame := h s.env.visits s
  rw [State.withVisits_visits, hm, onState_ok, EStateM.Result.ok.injEq] at hsame
  rw [hsame.2]
  rfl

theorem ObliviousAct.visits_error {m : Act α} (h : ObliviousAct m) {s t : State} {e : Ended} (hm : m s = .error e t) :
    t.env.visits = s.env.visits := by
  have hsame := h s.env.visits s
  rw [State.withVisits_visits, hm, onState_error, EStateM.Result.error.injEq] at hsame
  rw [hsame.2]
  rfl

/-- The requester's actions without its writes of REQ. -/
def withoutWrites (v : List (List PortAction)) : List (List PortAction) := v.map fun actions => actions.filter notReqWrite

theorem State.withoutReqWrites_eq (s : State) : s.withoutReqWrites = s.withVisits (withoutWrites s.env.visits) := rfl

/-- A piece's states hold the actions that its own state holds, less the writes of REQ. -/
theorem ObliviousAct.onState_withoutWrites {m : Act α} (h : ObliviousAct m) (s : State) :
    onState (State.withVisits (withoutWrites s.env.visits)) (m s) =
      onState State.withoutReqWrites (m s) := by
  cases hm : m s with
  | ok a t => rw [onState_ok, onState_ok, ← h.visits_ok hm]; rfl
  | error e t => rw [onState_error, onState_error, ← h.visits_error hm]; rfl

theorem ObliviousAct.blind {m : Act α} (h : ObliviousAct m) : Blind m := by
  intro s hs
  refine ⟨(h _ s).trans (h.onState_withoutWrites s), fun a t hm => ?_⟩
  rw [State.NoReset, h.visits_ok hm]
  exact hs

theorem blind_bind {m : Act α} {f : α → Act β} (hm : Blind m) (hf : ∀ a, Blind (f a)) : Blind (m >>= f) := by
  intro s hs
  obtain ⟨hsame, hnext⟩ := hm s hs
  rw [act_bind, act_bind, hsame]
  cases hr : m s with
  | ok a t => exact hf a t (hnext a t hr)
  | error e t => exact ⟨rfl, fun _ _ hu => nomatch hu⟩

/-- The requester's visit: without a reset among its actions nothing comes after it. -/
theorem blind_visit : Blind visit := by
  intro s hs
  cases hv : s.env.visits with
  | nil =>
    have hv' : s.withoutReqWrites.env.visits = [] := by simp [State.withoutReqWrites, hv]
    rw [visit_none hv, visit_none hv']
    refine ⟨rfl, fun a t ht => ?_⟩
    cases ht
    exact hs
  | cons actions rest =>
    have hv' : s.withoutReqWrites.env.visits = actions.filter notReqWrite :: withoutWrites rest := by
      simp [State.withoutReqWrites, withoutWrites, hv]
    have hactions : PortAction.reset ∉ actions := hs actions (by simp [hv])
    have hobl := obliviousAct_visitActions actions
    have hsame : visitActions actions ((s.withVisits rest).withVisits (withoutWrites rest)) =
        onState State.withoutReqWrites (visitActions actions (s.withVisits rest)) :=
      (hobl _ _).trans (hobl.onState_withoutWrites (s.withVisits rest))
    rw [visit_cons hv, visit_cons hv', visitActions_filter hactions]
    refine ⟨hsame, fun a t ht => ?_⟩
    have hrest : t.env.visits = rest := hobl.visits_ok (s := s.withVisits rest) ht
    rw [State.NoReset, hrest]
    exact fun more hmore => hs more (by simp [hv, hmore])

/-- A visit without a reset, and what follows it. -/
theorem blind_visit_bind {f : Option (List PortAction) → Act β} (hf : Blind (f none)) : Blind (visit >>= f) := by
  intro s hs
  obtain ⟨hsame, hnext⟩ := blind_visit s hs
  rw [act_bind, act_bind, hsame]
  cases hr : visit s with
  | ok r t =>
    obtain rfl := visit_ok_none hs hr
    exact hf t (hnext _ t hr)
  | error e t => exact ⟨rfl, fun _ _ hu => nomatch hu⟩

theorem blind_meet : Blind meet := blind_visit_bind (obliviousAct_pure ()).blind

theorem blind_txWriteOf (fam : Family) (n : Nat) {first : Nat → Act (List Byte)} (hf : ∀ k, ObliviousAct (first k)) :
    Blind (txWriteOf fam n first) := by
  unfold txWriteOf
  refine blind_visit_bind (obliviousAct_bind (obliviousAct_draw obliviousDraw_takeTx) fun d => obliviousAct_bind (hf _) fun bytes =>
    obliviousAct_bind (obliviousAct_upd (oblivious_transmit bytes)) fun _ => obliviousAct_bind (obliviousAct_pure ()) fun _ => ?_).blind
  cases d with
  | accepted k =>
    dsimp only
    split
    · exact obliviousAct_raiseTransport _ _ _
    · exact obliviousAct_pure ()
  | failed k => exact obliviousAct_raiseTransport _ _ _

theorem blind_txWrite (fam : Family) (bytes : List Byte) : Blind (txWrite fam bytes) :=
  blind_txWriteOf fam _ fun _ => obliviousAct_pure _

theorem blind_txWriteParts (fam : Family) (parts : List TxPart) : Blind (txWriteParts fam parts) := by
  unfold txWriteParts
  split
  · exact (obliviousAct_pure ()).blind
  · exact blind_txWriteOf fam _ (obliviousAct_txBytes parts)

theorem blind_rxRead (fam : Family) (n : Nat) : Blind (rxRead fam n) :=
  blind_bind blind_meet fun _ => ObliviousAct.blind <| obliviousAct_bind (obliviousAct_upd oblivious_settlePeer) fun _ =>
    obliviousAct_bind (obliviousAct_draw obliviousDraw_takeRx) fun _ =>
    obliviousAct_bind (obliviousAct_draw (obliviousDraw_takeReplies fam n _)) fun _ => obliviousAct_pure _

theorem blind_reopen (t : Nat) : Blind (reopen t) := by
  refine blind_bind blind_meet fun _ => ObliviousAct.blind <| obliviousAct_bind (obliviousAct_upd oblivious_settlePeer) fun _ =>
    obliviousAct_bind (obliviousAct_draw obliviousDraw_takeReopen) fun ok => obliviousAct_bind (obliviousAct_upd fun _ _ => rfl) fun _ => ?_
  split
  · exact obliviousAct_pure ()
  · exact obliviousAct_raiseTransport _ _ _

theorem blind_rxFillLoop (d : Destination) (n fuel : Nat) (got : List Byte) : Blind (rxFillLoop d n fuel got) := by
  induction fuel generalizing got with
  | zero => exact (obliviousAct_pure got).blind
  | succ fuel ih =>
    unfold rxFillLoop
    split
    · exact (obliviousAct_pure got).blind
    · refine blind_bind (blind_rxRead _ _) fun answer => ?_
      cases answer with
      | timedOut t => exact (obliviousAct_bind (obliviousAct_storeAt d _ t) fun _ => obliviousAct_raiseTransport _ _ _).blind
      | failed t => exact (obliviousAct_bind (obliviousAct_storeAt d _ t) fun _ => obliviousAct_raiseTransport _ _ _).blind
      | got t =>
        dsimp only
        split
        · exact (obliviousAct_raiseTransport _ _ _).blind
        · exact blind_bind (obliviousAct_storeAt d _ t).blind fun _ => ih _

theorem blind_rxFill (d : Destination) (n : Nat) : Blind (rxFill d n) := blind_rxFillLoop d n n []

/-- An error's effect beside the error itself. -/
theorem blind_onRaise {f : State → State} {m : Act α} (hf : Oblivious f) (hm : Blind m) : Blind (onRaise f m) := by
  intro s hs
  obtain ⟨hsame, hnext⟩ := hm s hs
  unfold onRaise
  rw [hsame]
  cases hr : m s with
  | ok a t => exact ⟨rfl, fun b u hu => hnext b u (hr.trans hu)⟩
  | error e t =>
    cases e with
    | raised =>
      have hcomm : f t.withoutReqWrites = (f t).withoutReqWrites := by
        rw [State.withoutReqWrites_eq, hf, State.withoutReqWrites_eq, hf.visits]
      exact ⟨congrArg (EStateM.Result.error Ended.raised) hcomm, fun _ _ hu => nomatch hu⟩
    | reset => exact ⟨rfl, fun _ _ hu => nomatch hu⟩
    | fault g => exact ⟨rfl, fun _ _ hu => nomatch hu⟩

end Sys2Proof.Machine
end

section
/-! SUPPORT. Every request, frame and packet does the same without the requester's writes of REQ (R22). -/

namespace Sys2Proof.Machine

section Bodies

variable {α : Type}

theorem blind_pure (a : α) : Blind (pure a) := (obliviousAct_pure a).blind

theorem blind_upd {f : State → State} (h : Oblivious f) : Blind (upd f) := (obliviousAct_upd h).blind

theorem blind_look {f : State → α} (h : ∀ v s, f (s.withVisits v) = f s) : Blind (look f) := (obliviousAct_look h).blind

theorem blind_raise (e : Err) (info : Nat) : Blind (raise e info : Act α) := (obliviousAct_raise e info).blind

theorem blind_raiseTransport (fam : Family) (e : Err) (info : Nat) : Blind (raiseTransport fam e info : Act α) :=
  (obliviousAct_raiseTransport fam e info).blind

theorem blind_check (ok : Bool) (e : Err) (info : Nat) : Blind (check ok e info) := (obliviousAct_check ok e info).blind

theorem blind_checkDbuf (boff : Reg32) (n : Nat) : Blind (checkDbuf boff n) := (obliviousAct_checkDbuf boff n).blind

theorem blind_memRead (off n : Nat) : Blind (memRead off n) := (obliviousAct_memRead off n).blind

theorem blind_orStop {f : State → Option α} (h : ∀ v s, f (s.withVisits v) = f s) : Blind (orStop f) := (obliviousAct_orStop h).blind

/-! ### The CRC requests -/

theorem blind_crcContinue (bytes : List Byte) : Blind (crcContinue bytes) :=
  blind_bind (blind_upd fun _ _ => rfl) fun _ => blind_look fun _ _ => rfl

theorem blind_crcClearBody : Blind crcClearBody := blind_bind (blind_upd fun _ _ => rfl) fun _ => blind_pure _

theorem blind_crcBlockBody (boff len : Reg32) : Blind (crcBlockBody boff len) :=
  blind_bind (blind_checkDbuf _ _) fun _ => blind_bind blind_meet fun _ => blind_bind (blind_memRead _ _) fun _ =>
    blind_crcContinue _

/-! ### The MD requests -/

theorem blind_setCursor (w : WordAddr) : Blind (upd (setCursor w)) := blind_upd fun _ _ => rfl

theorem blind_setDelay (d : Byte) : Blind (upd (setDelay d)) := blind_upd fun _ _ => rfl

theorem blind_advanceCursor (words : Nat) : Blind (upd (advanceCursor words)) :=
  blind_upd fun v s => by
    unfold advanceCursor
    rw [show (s.withVisits v).cursorValid = s.cursorValid from rfl]
    split <;> rfl

theorem blind_wordAddress (addr : Reg32) : Blind (wordAddress addr) := blind_bind (blind_check _ _ _) fun _ => blind_pure _

theorem blind_mdSeekBody (whence : BitVec 2) (addr : Reg32) : Blind (mdSeekBody whence addr) :=
  blind_bind (blind_check _ _ _) fun _ => blind_bind (blind_check _ _ _) fun _ => blind_bind (blind_check _ _ _) fun _ =>
    blind_bind (blind_wordAddress addr) fun w => blind_bind (blind_txWrite _ _) fun _ => blind_bind (blind_setCursor w) fun _ =>
    blind_pure _

theorem blind_checkBulk (boff len : Reg32) : Blind (checkBulk boff len) :=
  blind_bind (blind_check _ _ _) fun _ => blind_checkDbuf _ _

theorem blind_readChunks (sizes : List Nat) (off : Nat) : Blind (readChunks sizes off) := by
  induction sizes generalizing off with
  | nil => exact blind_pure ()
  | cons c rest ih =>
    exact blind_bind (blind_txWrite _ _) fun _ => blind_bind (blind_rxFill _ _) fun _ => blind_bind (blind_advanceCursor _) fun _ => ih _

theorem blind_mdReadBody (boff len : Reg32) : Blind (mdReadBody boff len) :=
  blind_bind (blind_checkBulk _ _) fun _ => blind_bind (blind_readChunks _ _) fun _ => blind_pure _

theorem blind_mdWriteBody (boff len : Reg32) : Blind (mdWriteBody boff len) :=
  blind_bind (blind_checkBulk _ _) fun _ => blind_bind (blind_txWriteParts _ _) fun _ => blind_bind (blind_advanceCursor _) fun _ =>
    blind_pure _

theorem blind_mdReadWordBody (addr : Reg32) : Blind (mdReadWordBody addr) :=
  blind_bind (blind_wordAddress addr) fun w => blind_bind (blind_txWrite _ _) fun _ => blind_bind (blind_setCursor w) fun _ =>
    blind_bind (blind_rxFill _ _) fun _ => blind_pure _

theorem blind_wordWrite (addr : Reg32) (v : Word) : Blind (wordWrite addr v) :=
  blind_bind (blind_wordAddress addr) fun w => blind_bind (blind_txWrite _ _) fun _ => blind_bind (blind_setCursor w) fun _ =>
    blind_pure _

theorem blind_ramCtl (v : Word) (d : Byte) : Blind (ramCtl v d) :=
  blind_bind (blind_txWrite _ _) fun _ => blind_bind (blind_setCursor _) fun _ => blind_setDelay d

theorem oblivious_loseRamMode : Oblivious loseRamMode := fun v s => by
  rw [loseRamMode, oblivious_settlePeer]
  rfl

theorem oblivious_loseFlash (x n : Nat) : Oblivious (loseFlash x n) := fun v s => by
  rw [loseFlash, oblivious_settlePeer]
  rfl

theorem blind_mdRamEnableBody : Blind mdRamEnableBody :=
  blind_bind (blind_look fun _ _ => rfl) fun _ => blind_bind (blind_onRaise oblivious_loseRamMode (blind_ramCtl _ _)) fun _ =>
    blind_bind (blind_upd fun _ _ => rfl) fun _ => blind_pure _

theorem blind_mdRamDisableBody : Blind mdRamDisableBody :=
  blind_bind (blind_look fun _ _ => rfl) fun _ => blind_bind (blind_onRaise oblivious_loseRamMode (blind_ramCtl _ _)) fun _ =>
    blind_bind (blind_upd fun _ _ => rfl) fun _ => blind_pure _

theorem blind_getId : Blind getId := blind_bind (blind_txWrite _ _) fun _ => blind_bind (blind_rxFill _ _) fun _ => blind_pure _

theorem blind_mdGetIdBody : Blind mdGetIdBody := blind_bind blind_getId fun _ => blind_pure _

theorem blind_setAttempt (n : BitVec 2) : Blind (setAttempt n) := blind_upd fun _ _ => rfl

theorem blind_mdHandshakeBody : Blind mdHandshakeBody := by
  unfold mdHandshakeBody
  refine blind_bind (blind_setAttempt 0) fun _ => blind_bind blind_getId fun id => blind_bind (blind_setAttempt 1) fun _ => ?_
  split
  · refine blind_bind (blind_look fun _ _ => rfl) fun cfg => blind_bind (blind_reopen _) fun _ => blind_bind blind_getId fun id =>
      blind_bind (blind_setAttempt 2) fun _ => ?_
    split
    · exact blind_bind (blind_setAttempt 0) fun _ => blind_raise _ _
    · exact blind_bind (blind_txWrite _ _) fun _ => blind_bind (blind_setDelay _) fun _ => blind_bind (blind_setAttempt 0) fun _ =>
        blind_pure _
  · exact blind_bind (blind_setAttempt 0) fun _ => blind_pure _

theorem blind_eraseIo (addr : Reg32) : Blind (eraseIo addr) :=
  blind_bind (blind_look fun _ _ => rfl) fun _ => blind_bind (blind_txWrite _ _) fun _ => blind_bind (blind_rxFill _ _) fun _ =>
    blind_setCursor _

theorem blind_mdFlashEraseBody (addr : Reg32) : Blind (mdFlashEraseBody addr) :=
  blind_bind (blind_bind (blind_check _ _ _) fun _ => blind_check _ _ _) fun _ =>
    blind_bind (blind_onRaise (oblivious_loseFlash _ _) (blind_eraseIo addr)) fun _ => blind_pure _

theorem blind_sendSequence (seq : List (Nat × Word)) : Blind (sendSequence seq) := by
  unfold sendSequence
  refine blind_bind (blind_txWrite _ _) fun _ => ?_
  split
  · exact blind_setCursor _
  · exact blind_pure ()

theorem blind_mdFlashUnlockBypassBody : Blind mdFlashUnlockBypassBody :=
  blind_bind (blind_look fun _ _ => rfl) fun _ => blind_bind (blind_sendSequence _) fun _ =>
    blind_bind (blind_upd fun _ _ => rfl) fun _ => blind_pure _

theorem blind_mdFlashResetBypassBody : Blind mdFlashResetBypassBody :=
  blind_bind (blind_look fun _ _ => rfl) fun _ => blind_bind (blind_sendSequence _) fun _ =>
    blind_bind (blind_upd fun _ _ => rfl) fun _ => blind_pure _

theorem blind_programWords (cfg : Params) (words off : Nat) : Blind (programWords cfg words off) := by
  induction words generalizing off with
  | zero => exact blind_pure ()
  | succ words ih =>
    exact blind_bind (blind_txWriteParts _ _) fun _ => blind_bind (blind_rxFill _ _) fun _ =>
      blind_bind (blind_advanceCursor 1) fun _ => ih _

theorem blind_programIo (words off : Nat) : Blind (programIo words off) := by
  unfold programIo
  refine blind_bind (blind_look fun _ _ => rfl) fun cfg => ?_
  split
  · exact blind_programWords cfg words off
  · exact blind_bind (blind_txWriteParts _ _) fun _ => blind_advanceCursor words

/-- Where MD_FLASH_WRITE programs does not go by the requester. -/
theorem flashTarget_withVisits (v : List (List PortAction)) (s : State) : flashTarget (s.withVisits v) = flashTarget s := by
  rw [flashTarget, oblivious_settlePeer]
  rfl

theorem blind_mdFlashWriteBody (boff len : Reg32) : Blind (mdFlashWriteBody boff len) :=
  blind_bind (blind_checkBulk _ _) fun _ => blind_bind (blind_look flashTarget_withVisits) fun _ =>
    blind_bind (blind_onRaise (oblivious_loseFlash _ _) (blind_programIo _ _)) fun _ => blind_pure _

/-! ### The packet framer -/

theorem oblivious_buildPacket (p : List Byte) : Oblivious (buildPacket p) := by
  intro v s
  unfold buildPacket
  split <;> rfl

theorem blind_buildPacket (p : List Byte) : Blind (upd (buildPacket p)) := blind_upd (oblivious_buildPacket p)

theorem blind_sendPacket (p : List Byte) : Blind (sendPacket p) := by
  unfold sendPacket
  split
  · exact blind_bind (blind_upd fun _ _ => rfl) fun _ => blind_bind (blind_txWrite _ _) fun _ => blind_pure _
  · exact blind_bind (blind_txWrite _ _) fun _ => blind_pure _

theorem blind_sendBuilt (p : List Byte) : Blind (sendBuilt p) := blind_bind (blind_buildPacket p) fun _ => blind_sendPacket p

theorem blind_storeRx (off : Nat) (bytes : List Byte) : Blind (upd (storeRx off bytes)) := blind_upd fun _ _ => rfl

theorem blind_receivePacket : Blind receivePacket := by
  have hlost (off : Nat) (t : List Byte) (e : Err) :
      Blind (upd (storeRx off t) >>= fun _ => (raiseTransport .gb e t.length : Act (List Byte))) :=
    blind_bind (blind_storeRx off t) fun _ => blind_raiseTransport _ _ _
  unfold receivePacket
  refine blind_bind (blind_upd fun _ _ => rfl) fun _ => blind_bind (blind_rxRead _ _) fun first => ?_
  split
  · exact hlost 0 _ _
  · exact hlost 0 _ _
  · exact blind_raiseTransport _ _ _
  · refine blind_bind (blind_storeRx 0 _) fun _ => ?_
    split
    · exact blind_bind (blind_upd fun _ _ => rfl) fun _ => blind_pure _
    · refine blind_bind (blind_rxRead _ _) fun rest => ?_
      cases rest with
      | timedOut t => exact hlost 1 t _
      | failed t => exact hlost 1 t _
      | got t =>
        refine blind_bind (blind_storeRx 1 t) fun _ => ?_
        split
        · exact blind_raiseTransport _ _ _
        · exact blind_bind (blind_upd fun _ _ => rfl) fun _ => blind_pure _

theorem blind_checkPacket (p : List Byte) : Blind (checkPacket p) := by
  unfold checkPacket
  refine blind_bind (blind_look fun _ _ => rfl) fun n => ?_
  split
  · exact blind_raise _ _
  · exact blind_bind (blind_upd fun _ _ => rfl) fun _ => blind_bind (blind_check _ _ _) fun _ => blind_pure _

theorem blind_pktBuildBody (c m sub : Byte) (index : BitVec 24) (boff : Reg32) : Blind (pktBuildBody c m sub index boff) := by
  unfold pktBuildBody
  split
  · exact blind_raise _ _
  · split
    · exact blind_bind (blind_buildPacket _) fun _ => blind_pure _
    · exact blind_bind (blind_checkDbuf _ _) fun _ => blind_bind blind_meet fun _ => blind_bind (blind_memRead _ _) fun _ =>
        blind_bind (blind_buildPacket _) fun _ => blind_pure _

theorem blind_pktSendBody : Blind pktSendBody :=
  blind_bind (blind_look fun _ _ => rfl) fun _ => blind_bind (blind_check _ _ _) fun _ => blind_bind (blind_orStop fun _ _ => rfl) fun p =>
    blind_bind (blind_sendPacket p) fun _ => blind_pure _

theorem blind_pktReceiveBody : Blind pktReceiveBody := blind_bind blind_receivePacket fun _ => blind_pure _

theorem blind_pktCheckBody : Blind pktCheckBody :=
  blind_bind (blind_orStop fun _ _ => rfl) fun p => blind_bind (blind_checkPacket p) fun _ => blind_pure _

/-! ### The paged transfers -/

theorem blind_setXState (x : XState) : Blind (setXState x) := blind_upd fun _ _ => rfl

theorem blind_finishTransfer : Blind finishTransfer := blind_bind (blind_setXState .done) fun _ => blind_look fun _ _ => rfl

theorem blind_startTransfer (dir : BitVec 2) (n : Nat) (boff : Reg32) : Blind (startTransfer dir n boff) := blind_upd fun _ _ => rfl

theorem blind_countFrame : Blind countFrame := blind_upd fun _ _ => rfl

theorem blind_storeFrame (p : List Byte) : Blind (storeFrame p) :=
  blind_bind (blind_look fun _ _ => rfl) fun _ => blind_bind (blind_look fun _ _ => rfl) fun _ =>
    blind_bind (obliviousAct_storeDbuf _ _).blind fun _ => blind_countFrame

theorem blind_acceptData (p : List Byte) : Blind (acceptData p) :=
  blind_bind (blind_checkPacket p) fun _ => blind_bind (blind_check _ _ _) fun _ => blind_bind (blind_look fun _ _ => rfl) fun _ =>
    blind_bind (blind_look fun _ _ => rfl) fun _ => blind_bind (blind_look fun _ _ => rfl) fun _ => blind_bind (blind_check _ _ _) fun _ =>
    blind_check _ _ _

theorem blind_readLoop (fuel : Nat) : Blind (readLoop fuel) := by
  induction fuel with
  | zero => exact blind_look fun _ _ => rfl
  | succ fuel ih =>
    unfold readLoop
    refine blind_bind blind_receivePacket fun p => ?_
    split
    · refine blind_bind (blind_look fun _ _ => rfl) fun _ => blind_bind (blind_look fun _ _ => rfl) fun _ => ?_
      split
      · exact blind_finishTransfer
      · exact blind_raise _ _
    · refine blind_bind (blind_acceptData p) fun _ => blind_bind (blind_storeFrame p) fun _ =>
        blind_bind (blind_look fun _ _ => rfl) fun _ => blind_bind (blind_look fun _ _ => rfl) fun _ => ?_
      split
      · exact blind_finishTransfer
      · exact blind_bind (blind_setXState .continuing) fun _ => blind_bind (blind_sendBuilt _) fun _ =>
          blind_bind (blind_setXState .awaitResponse) fun _ => ih

theorem blind_checkTransfer (boff len : Reg32) : Blind (checkTransfer boff len) :=
  blind_bind (blind_check _ _ _) fun _ => blind_checkDbuf _ _

theorem blind_gbReadRamBody (boff len : Reg32) : Blind (gbReadRamBody boff len) :=
  blind_bind (blind_checkTransfer _ _) fun _ => blind_bind (blind_startTransfer _ _ _) fun _ => blind_bind (blind_look fun _ _ => rfl) fun _ =>
    blind_bind (blind_sendBuilt _) fun _ => blind_bind (blind_setXState _) fun _ => blind_readLoop _

theorem blind_expectAck : Blind expectAck := blind_bind blind_receivePacket fun _ => blind_check _ _ _

theorem obliviousAct_loadPacket (mk : List Byte → List Byte) (off : Nat) : ObliviousAct (loadPacket mk off) :=
  obliviousAct_bind (obliviousAct_memRead _ _) fun _ => obliviousAct_bind (obliviousAct_upd (oblivious_buildPacket _)) fun _ =>
    obliviousAct_bind (obliviousAct_upd fun _ _ => rfl) fun _ => obliviousAct_pure _

theorem blind_sendLoaded (mk : List Byte → List Byte) (off : Nat) : Blind (sendLoaded mk off) :=
  blind_bind (obliviousAct_loadPacket mk off).blind fun _ => blind_txWriteOf _ _ fun _ =>
    obliviousAct_bind (obliviousAct_loadPacket mk off) fun _ =>
    obliviousAct_bind (obliviousAct_bind (obliviousAct_maskHazard _ _) fun _ => obliviousAct_pure _) fun _ => obliviousAct_pure _

theorem blind_writeLoop (packets : Nat) : Blind (writeLoop packets) := by
  induction packets with
  | zero => exact blind_pure ()
  | succ packets ih =>
    exact blind_bind (blind_setXState .continuing) fun _ => blind_bind (blind_look fun _ _ => rfl) fun _ =>
      blind_bind (blind_look fun _ _ => rfl) fun _ => blind_bind (blind_look fun _ _ => rfl) fun _ =>
      blind_bind (blind_look fun _ _ => rfl) fun _ => blind_bind (blind_sendLoaded _ _) fun _ =>
      blind_bind (blind_setXState .awaitResponse) fun _ => blind_bind blind_expectAck fun _ => blind_bind blind_countFrame fun _ => ih

theorem blind_gbWriteRamBody (boff len : Reg32) : Blind (gbWriteRamBody boff len) :=
  blind_bind (blind_checkTransfer _ _) fun _ => blind_bind (blind_startTransfer _ _ _) fun _ => blind_bind (blind_look fun _ _ => rfl) fun _ =>
    blind_bind (blind_sendBuilt _) fun _ => blind_bind (blind_setXState _) fun _ => blind_bind blind_expectAck fun _ =>
    blind_bind (blind_writeLoop _) fun _ => blind_finishTransfer

theorem blind_statusQuery (sub : Byte) (boff : Reg32) : Blind (statusQuery sub boff) :=
  blind_bind (blind_checkDbuf _ _) fun _ => blind_bind (blind_startTransfer _ _ _) fun _ => blind_bind (blind_sendBuilt _) fun _ =>
    blind_bind (blind_setXState _) fun _ => blind_bind blind_receivePacket fun p => blind_bind (blind_checkPacket p) fun _ =>
    blind_bind (blind_storeFrame p) fun _ => blind_finishTransfer

end Bodies

/-! ### Instructions -/

/-- An instruction that does the same without the requester's writes of REQ. -/
def BlindExec (e : State → Host.Outcome State Fault Refusal) : Prop :=
  ∀ s : State, s.NoReset → e s.withoutReqWrites = match e s with
    | .next t => .next t.withoutReqWrites
    | .fault f => .fault f
    | .refused r => .refused r

theorem blindExec_request {m : Act Reg32} (hm : Blind m) : BlindExec (request m) := by
  intro s hs
  cases hb : s.busy with
  | true =>
    rw [request_busy hb, request_busy (show s.withoutReqWrites.busy = true from hb)]
  | false =>
    obtain ⟨hsame, -⟩ := hm s.accept hs
    rw [request_ready hb, request_ready (show s.withoutReqWrites.busy = false from hb), runRequest, runRequest]
    rw [show s.withoutReqWrites.accept = s.accept.withoutReqWrites from rfl, hsame]
    cases m s.accept with
    | ok r t => rfl
    | error e t => cases e <;> rfl

theorem blindExec_next {g : State → State} (hg : Oblivious g) : BlindExec fun s => .next (g s) := by
  intro s _
  show Host.Outcome.next (g s.withoutReqWrites) = .next (g s).withoutReqWrites
  rw [State.withoutReqWrites_eq, hg, State.withoutReqWrites_eq, hg.visits]

theorem blindExec_mdFrame (i : Instr) {effect : State → State} (h : Oblivious effect) : BlindExec (mdFrame i effect) :=
  blindExec_next (g := fun s => if s.peer.ps = .op then effect s else peerFeed (frameBytes i) s) fun v s => by
    dsimp only
    rw [show (s.withVisits v).peer = s.peer from rfl, h, oblivious_peerFeed]
    split <;> rfl

theorem blindExec_wrFrame (i : Instr) (f : MdFlags) (data : List Byte) : BlindExec (wrFrame i f data) :=
  blindExec_next
    (g := fun s => if s.peer.ps = .op ∧ data.length = wrDataLength f s.peer.devLen then peerWr f data s else peerFeed (frameBytes i) s)
    fun v s => by
      dsimp only
      rw [show (s.withVisits v).peer = s.peer from rfl, oblivious_peerWr, oblivious_peerFeed]
      split <;> rfl

/-- A packet sent outside a request meets no action of the requester. -/
theorem blindExec_sendAlone (p : List Byte) : BlindExec (sendAlone p) := by
  intro s _
  have hquiet : sendBuilt p (s.withoutReqWrites.withVisits []) = sendBuilt p (s.withVisits []) := rfl
  unfold sendAlone
  dsimp only
  rw [show ({ s.withoutReqWrites with env := { s.withoutReqWrites.env with visits := [] } } : State) =
    { s with env := { s.env with visits := [] } } from rfl]
  cases sendBuilt p { s with env := { s.env with visits := [] } } with
  | ok n t => rfl
  | error e t => cases e <;> rfl

theorem blindExec_exec (i : Instr) : BlindExec (exec i) := by
  cases i with
  | crcClear => exact blindExec_request blind_crcClearBody
  | crcByte b => exact blindExec_request (blind_crcContinue [b])
  | crcBlock boff len => exact blindExec_request (blind_crcBlockBody boff len)
  | pktBuild c m sub index boff => exact blindExec_request (blind_pktBuildBody c m sub index boff)
  | pktSend => exact blindExec_request blind_pktSendBody
  | pktReceive => exact blindExec_request blind_pktReceiveBody
  | pktCheck => exact blindExec_request blind_pktCheckBody
  | gbReadRam boff len => exact blindExec_request (blind_gbReadRamBody boff len)
  | gbWriteRam boff len => exact blindExec_request (blind_gbWriteRamBody boff len)
  | gbReadDeviceStatus boff => exact blindExec_request (blind_statusQuery subNreadId boff)
  | gbReadStatus boff => exact blindExec_request (blind_statusQuery subReadId boff)
  | mdSeek whence addr => exact blindExec_request (blind_mdSeekBody whence addr)
  | mdRead boff len => exact blindExec_request (blind_mdReadBody boff len)
  | mdWrite boff len => exact blindExec_request (blind_mdWriteBody boff len)
  | mdReadWord addr => exact blindExec_request (blind_mdReadWordBody addr)
  | mdWriteWord addr v => exact blindExec_request (blind_wordWrite addr v)
  | mdWriteByte addr b => exact blindExec_request (blind_wordWrite addr (word16 0x00 b))
  | mdRamEnable => exact blindExec_request blind_mdRamEnableBody
  | mdRamDisable => exact blindExec_request blind_mdRamDisableBody
  | mdGetId => exact blindExec_request blind_mdGetIdBody
  | mdHandshake => exact blindExec_request blind_mdHandshakeBody
  | mdFlashErase addr => exact blindExec_request (blind_mdFlashEraseBody addr)
  | mdFlashUnlockBypass => exact blindExec_request blind_mdFlashUnlockBypassBody
  | mdFlashResetBypass => exact blindExec_request blind_mdFlashResetBypassBody
  | mdFlashWrite boff len => exact blindExec_request (blind_mdFlashWriteBody boff len)
  | addr b => exact blindExec_mdFrame _ fun _ _ => rfl
  | len b => exact blindExec_mdFrame _ fun _ _ => rfl
  | delay d => exact blindExec_mdFrame _ fun _ _ => rfl
  | ry => exact blindExec_mdFrame _ fun _ _ => rfl
  | rd | rdMode8 | rdDevId | rdMode8DevId | rdSingle | rdMode8Single | rdDevIdSingle | rdMode8DevIdSingle | rdInc | rdMode8Inc
  | rdDevIdInc | rdMode8DevIdInc | rdSingleInc | rdMode8SingleInc | rdDevIdSingleInc | rdMode8DevIdSingleInc =>
    exact blindExec_mdFrame _ (oblivious_peerRd _)
  | wr | wrMode8 | wrDevId | wrMode8DevId | wrSingle | wrMode8Single | wrDevIdSingle | wrMode8DevIdSingle | wrInc | wrMode8Inc
  | wrDevIdInc | wrMode8DevIdInc | wrSingleInc | wrMode8SingleInc | wrDevIdSingleInc | wrMode8DevIdSingleInc =>
    exact blindExec_wrFrame _ _ _
  | mdReservedOp67 | mdReservedOp8F | mdReservedAddrWithFlags | mdReservedLenWithFlags | mdReservedRyWithFlags
  | mdReservedDelayWithFlags => exact blindExec_mdFrame _ fun _ _ => rfl
  | gbAck | gbNak | gbEnd | gbDataConfigRrom | gbDataConfigRram | gbDataConfigWrom | gbDataConfigWram | gbDataNormalData
  | gbDataLastData | gbDataEraseEfla | gbDataEraseEram | gbDataStatusNreadId | gbDataStatusReadId =>
    exact blindExec_sendAlone _

theorem exec_of_isRequest {i : Instr} (h : isRequest i = true) : ∃ m, exec i = request m := by
  cases i with
  | crcClear | crcByte | crcBlock | pktBuild | pktSend | pktReceive | pktCheck | gbReadRam | gbWriteRam | gbReadDeviceStatus
  | gbReadStatus | mdSeek | mdRead | mdWrite | mdReadWord | mdWriteWord | mdWriteByte | mdRamEnable | mdRamDisable | mdGetId
  | mdHandshake | mdFlashErase | mdFlashUnlockBypass | mdFlashResetBypass | mdFlashWrite => exact ⟨_, rfl⟩
  | _ => exact absurd h Bool.false_ne_true

/-- While BUSY = 1 no request is accepted (R22). -/
theorem exec_busy {i : Instr} {s : State} (hi : isRequest i = true) (hb : s.busy = true) : exec i s = .next s := by
  obtain ⟨m, hm⟩ := exec_of_isRequest hi
  rw [hm, request_busy hb]

/-- The requester's action is what a step finds when nothing else waits (R8). -/
theorem fetch_port {s : State} {a : PortAction} {rest : List PortAction} (hpeer : s.peerPending = false) (hpkt : s.pktPort = [])
    (hport : s.port = a :: rest) : fetch s = portAction a { s with port := rest } := by
  simp [fetch, hpeer, hpkt, hport]

/-- While BUSY = 1 a write of REQ is ignored (R22). -/
theorem step_writeReq_busy {s : State} {w : BitVec 128} {rest : List PortAction} (hb : s.busy = true) (hpeer : s.peerPending = false)
    (hpkt : s.pktPort = []) (hport : s.port = .writeReq w :: rest) : step s = .next { s with port := rest } := by
  rw [step, fetch_port hpeer hpkt hport, portAction, writeRequest, if_pos hb]

/-- Settles O5: what no request accepts while BUSY = 1, and what no piece of a request goes by. -/
theorem busyIgnoresRequests : Obligations.BusyIgnoresRequests := by
  refine ⟨fun s hb => ⟨fun i hi => exec_busy hi hb, fun w rest => step_writeReq_busy hb⟩, fun i s hs => ?_⟩
  exact (blindExec_exec i s hs).trans (by cases exec i s <;> rfl)

end Sys2Proof.Machine
end

section
/-! SUPPORT. The requester at DBUF and at the registers (R60, R61, R338, R371). -/

namespace Sys2Proof.Machine

/-! ### Between requests -/

theorem step_writeDbuf {s : State} {off : Nat} {b : Byte} {rest : List PortAction} (hpeer : s.peerPending = false) (hpkt : s.pktPort = [])
    (hport : s.port = .writeDbuf off b :: rest) (hb : s.busy = false) :
    step s = if off < s.cfg.dbufSize then .next { s with port := rest, dbuf := s.dbuf.set off b } else .fault .noSuchByte := by
  rw [step, fetch_port hpeer hpkt hport, portAction]
  dsimp only [writeDbuf]
  by_cases hoff : off < s.cfg.dbufSize
  · simp [hb, hoff]
  · simp [hb, hoff]

theorem step_readDbuf {s : State} {off : Nat} {rest : List PortAction} (hpeer : s.peerPending = false) (hpkt : s.pktPort = [])
    (hport : s.port = .readDbuf off :: rest) (hb : s.busy = false) :
    step s = if off < s.cfg.dbufSize then
      (match s.dbuf.get off with
        | some b => .next { s with port := rest, reads := s.reads ++ [b.setWidth 32] }
        | none => .fault .unwrittenByte)
      else .fault .noSuchByte := by
  rw [step, fetch_port hpeer hpkt hport, portAction]
  dsimp only [readDbuf]
  by_cases hoff : off < s.cfg.dbufSize
  · cases s.dbuf.get off with
    | none => simp [hb, hoff]
    | some b => simp [hb, hoff, State.noteRead]
  · simp [hb, hoff]

/-- What a register reads as does not go by the requester's port. -/
theorem readRegister_port (r : ReadableReg) (rest : List PortAction) (s : State) :
    readRegister r { s with port := rest } = readRegister r s := by
  cases r <;> rfl

/-- The requester reads a register: its value, one longer what it has read; or the model stops. -/
theorem readPort_run (r : ReadableReg) (s : State) : readPort r s = match readRegister r s with
    | some v => .ok () { s with reads := s.reads ++ [v] }
    | none => .error (.fault .unwrittenByte) s := by
  unfold readPort
  cases h : readRegister r s with
  | none => rw [act_bind_error (orStop_none h)]
  | some v =>
    rw [act_bind_ok (orStop_some h)]
    rfl

theorem step_readReg {s : State} {r : ReadableReg} {rest : List PortAction} (hpeer : s.peerPending = false) (hpkt : s.pktPort = [])
    (hport : s.port = .readReg r :: rest) : step s = match readRegister r s with
      | some v => .next { s with port := rest, reads := s.reads ++ [v] }
      | none => .fault .unwrittenByte := by
  rw [step, fetch_port hpeer hpkt hport, portAction]
  dsimp only [portOutcome]
  rw [readPort_run, readRegister_port]
  cases readRegister r s <;> rfl

/-! ### While a request runs -/

theorem takeFreeByte_cons {s : State} {v : Word} {fs : List Word} (h : s.env.free = v :: fs) :
    takeFreeByte s = (v.extractLsb' 0 8, { s with env := { s.env with free := fs } }) := by
  simp [takeFreeByte, takeFree, h, loByte]

theorem busyWriteDbuf_cons {s : State} {off : Nat} {v : Word} {fs : List Word} (h : s.env.free = v :: fs) :
    busyWriteDbuf off s = if off < s.cfg.dbufSize then
      { s with dbuf := s.dbuf.set off (v.extractLsb' 0 8), hazard := off :: s.hazard, env := { s.env with free := fs } }
      else s := by
  rw [busyWriteDbuf, takeFreeByte_cons h]

/-- A TxWrite with a visit of the requester that brings no reset: the answer, the accepted bytes sent, then success or a
TransportError (R14, R221, R371). -/
theorem txWriteOf_visited {fam : Family} {n : Nat} {first : Nat → Act (List Byte)} {s u t : State} {d : TxDraw} {rest : List TxDraw}
    {bytes : List Byte} (hv : visit s = .ok none u) (ht : u.env.tx = d :: rest)
    (hf : first (acceptedOf d n) { u with env := { u.env with tx := rest } } = .ok bytes t) :
    txWriteOf fam n first s = (match d with
      | .accepted _ => if acceptedOf d n < n then raiseTransport fam .shortWrite (acceptedOf d n) else pure ()
      | .failed _ => raiseTransport fam .ioFailure (acceptedOf d n) : Act Unit) (t.transmit bytes) := by
  unfold txWriteOf
  rw [act_bind_ok hv, act_bind_ok (draw_run _ _), takeTx_cons ht, act_bind_ok hf, act_bind_ok (upd_run _ _),
    act_bind_ok (endVisit_none _)]
  cases d <;> rfl

/-- The same, all bytes being taken. -/
theorem txWriteOf_visited_all {fam : Family} {n k : Nat} {first : Nat → Act (List Byte)} {s u t : State} {rest : List TxDraw}
    {bytes : List Byte} (hv : visit s = .ok none u) (ht : u.env.tx = .accepted k :: rest) (hk : n ≤ k)
    (hf : first n { u with env := { u.env with tx := rest } } = .ok bytes t) :
    txWriteOf fam n first s = .ok () (t.transmit bytes) := by
  have hall : acceptedOf (.accepted k) n = n := Nat.min_eq_right hk
  rw [txWriteOf_visited hv ht (by rw [hall]; exact hf)]
  simp only [hall, Nat.lt_irrefl, ↓reduceIte, act_pure]

theorem meet_visited {s u : State} (hv : visit s = .ok none u) : meet s = .ok () u := by
  rw [meet, act_bind_ok hv, endVisit_none]

theorem transmit_eq_sent (bytes : List Byte) (rest : List TxDraw) (s : State) :
    State.transmit bytes { s with env := { s.env with tx := rest } } = s.sent bytes rest := by
  unfold State.transmit State.sent
  dsimp only
  cases s.adapter <;> rfl

/-- The requester's actions leave ERR. -/
theorem visitActions_err {actions : List PortAction} :
    Triple (fun s => s.err = false) (visitActions actions) (fun _ s => s.err = false) fun _ _ => True := by
  have hfree (s : State) : (takeFreeByte s).2.err = s.err := by
    obtain ⟨env, henv⟩ := takeFree_env s
    rw [show (takeFreeByte s).2 = (takeFree s).2 from rfl, henv]
  have haction (a : PortAction) : Triple (fun s => s.err = false) (visitAction a) (fun _ s => s.err = false) fun _ _ => True := by
    cases a with
    | readReg r =>
      exact triple_bind ((triple_orStop fun _ _ _ => trivial).post fun _ _ hs => hs.1) fun _ => triple_upd fun _ => id
    | readDbuf off => exact triple_upd fun s hs => (hfree s).trans hs
    | writeDbuf off b =>
      refine triple_upd fun s hs => ?_
      unfold busyWriteDbuf
      split
      · exact (hfree s).trans hs
      · exact hs
    | writeReq | reset => exact triple_pure fun _ => id
  induction actions with
  | nil => exact triple_pure fun _ => id
  | cons a rest ih =>
    by_cases ha : a = .reset
    · subst ha
      exact triple_pure (a := some rest) fun _ => id
    · rw [visitActions_cons rest ha]
      exact triple_bind (haction a) fun _ => ih

/-- A request that has raised nothing completes without ERR (R320). -/
theorem complete_eq_completed (r : Reg32) {s : State} (h : s.err = false) : s.complete r = s.completed r := by
  have hsame : ({ s with err := false } : State) = s := by rw [← h]
  calc s.complete r = State.complete r { s with err := false } := by rw [hsame]
    _ = s.completed r := rfl

theorem check_ok {ok : Bool} {e : Err} {info : Nat} {s : State} (h : ok = true) : check ok e info s = .ok () s := by
  rw [h, check_true]

/-- MD_SEEK with a visit of the requester in its TxWrite (R225, R371). -/
theorem mdSeek_visited {s u : State} {actions : List PortAction} {more : List (List PortAction)} {addr : Reg32} {k : Nat}
    {txs : List TxDraw} (hb : s.busy = false) (hvisits : s.env.visits = actions :: more)
    (hu : visitActions actions { s.accept with env := { s.env with visits := more } } = .ok none u)
    (htx : u.env.tx = .accepted k :: txs) (hk : 6 ≤ k) (haddr : addr.toNat < 2 ^ 25) :
    exec (.mdSeek 0 addr) s = .next (State.completed ((halved addr.toNat).setWidth 32)
      { u.sent (seekFrame (halved addr.toNat)) txs with curW := halved addr.toNat, cursorValid := true }) := by
  have hvisit : visit s.accept = .ok none u := (visit_cons (s := s.accept) hvisits).trans hu
  have herr : u.err = false := visitActions_err.ok (s := { s.accept with env := { s.env with visits := more } }) rfl hu
  have hwrite : txWrite .md (seekFrame (halved addr.toNat)) s.accept = .ok () (u.sent (seekFrame (halved addr.toNat)) txs) := by
    rw [txWrite, txWriteOf_visited_all (bytes := seekFrame (halved addr.toNat)) (n := (seekFrame (halved addr.toNat)).length)
      (t := { u with env := { u.env with tx := txs } }) hvisit htx hk (by simp), transmit_eq_sent]
  have hcheck : decide (addr.toNat < addressLimit) = true := decide_eq_true haddr
  have hbody : mdSeekBody 0 addr s.accept = .ok ((halved addr.toNat).setWidth 32)
      (setCursor (halved addr.toNat) (u.sent (seekFrame (halved addr.toNat)) txs)) := by
    have hword : wordAddress addr s.accept = .ok (halved addr.toNat) s.accept := by
      rw [wordAddress, hcheck, act_bind_ok (check_true _ _ _), act_pure]
    rw [mdSeekBody, act_bind_ok (check_ok (by decide)), act_bind_ok (check_ok (by decide)), act_bind_ok (check_ok (by decide)),
      act_bind_ok hword, act_bind_ok hwrite, act_bind_ok (upd_run _ _), act_pure]
  rw [show exec (.mdSeek 0 addr) s = request (mdSeekBody 0 addr) s from rfl, request_ready hb, runRequest_ok hbody]
  exact congrArg Host.Outcome.next (complete_eq_completed _ herr)

end Sys2Proof.Machine
end

section
/-! SUPPORT. A byte of DBUF that the requester writes while a request runs is free where the request takes it (R371, I5). -/

namespace Sys2Proof.Machine

/-- The state in which the requester has written a byte of DBUF during the last moment at which it acts: v is what DBUF then holds. -/
def State.disturbed (off : Nat) (v : Word) (fs : List Word) (s : State) : State :=
  { s with
    dbuf := s.dbuf.set off (v.extractLsb' 0 8)
    hazard := off :: s.hazard
    env := { s.env with visits := [], free := fs } }

theorem visit_writeDbuf {s : State} {off : Nat} {b : Byte} {v : Word} {fs : List Word} (hv : s.env.visits = [[.writeDbuf off b]])
    (hfree : s.env.free = v :: fs) (hoff : off < s.cfg.dbufSize) : visit s = .ok none (s.disturbed off v fs) := by
  have haction : visitAction (.writeDbuf off b) { s with env := { s.env with visits := [] } } = .ok () (s.disturbed off v fs) := by
    rw [visitAction, upd_run, busyWriteDbuf_cons (s := { s with env := { s.env with visits := [] } }) hfree, if_pos hoff]
    rfl
  rw [visit_cons hv, visitActions_cons _ (by simp), act_bind_ok haction]
  rfl

/-- Bytes outside what the requester has written are taken as they are. -/
theorem maskHazard_above {s : State} {off a : Nat} (hz : s.hazard = [off]) (h : off < a) (bytes : List Byte) :
    maskHazard a bytes s = .ok bytes s := by
  induction bytes generalizing a with
  | nil => rfl
  | cons b rest ih =>
    have hbyte : maskByte a b s = .ok b s := by simp [maskByte, hz, show a ≠ off by omega]
    rw [maskHazard, act_bind_ok hbyte, act_bind_ok (ih (by omega)), act_pure]

/-- The byte that the requester has written is a free one of its own. -/
theorem maskHazard_disturbed {s : State} {off a : Nat} {w : Word} {fs : List Word} (hz : s.hazard = [off]) (hfree : s.env.free = w :: fs)
    {bytes : List Byte} (ha : a ≤ off) (hl : off < a + bytes.length) :
    maskHazard a bytes s = .ok (bytes.set (off - a) (w.extractLsb' 0 8)) { s with env := { s.env with free := fs } } := by
  induction bytes generalizing a with
  | nil => exact absurd hl (by simpa using ha)
  | cons b rest ih =>
    by_cases heq : off = a
    · subst heq
      have hbyte : maskByte off b s = .ok (w.extractLsb' 0 8) { s with env := { s.env with free := fs } } := by
        simp [maskByte, hz, takeFreeByte_cons hfree]
      have hrest := maskHazard_above (s := { s with env := { s.env with free := fs } }) hz (show off < off + 1 by omega) rest
      rw [maskHazard, act_bind_ok hbyte, act_bind_ok hrest, act_pure, Nat.sub_self, List.set_cons_zero]
    · have hbyte : maskByte a b s = .ok b s := by simp [maskByte, hz, Ne.symm heq]
      have hrest := ih (a := a + 1) (by omega) (by rw [List.length_cons] at hl; omega)
      rw [maskHazard, act_bind_ok hbyte, act_bind_ok hrest, act_pure, show off - a = off - (a + 1) + 1 by omega, List.set_cons_succ]

/-- A region with one byte that the requester has just written, as a running request takes it (R371). -/
theorem memRead_disturbed {s : State} {off a n : Nat} {v w : Word} {fs : List Word} {data : List Byte} (hz : s.hazard = [])
    (hread : s.dbuf.getBytes a n = some data) (ha : a ≤ off) (hn : off < a + n) :
    memRead a n (s.disturbed off v (w :: fs)) =
      .ok (data.set (off - a) (w.extractLsb' 0 8)) (s.disturbed off v fs) := by
  have hl := Memory.run_length _ _ _ _ hread
  have hset : (s.disturbed off v (w :: fs)).dbuf.getBytes a n = some (data.set (off - a) (v.extractLsb' 0 8)) := by
    rw [State.disturbed, Memory.getBytes_set off _ hread, if_pos ha]
  have hmask := maskHazard_disturbed (s := s.disturbed off v (w :: fs)) (off := off) (a := a) (w := w) (fs := fs)
    (bytes := data.set (off - a) (v.extractLsb' 0 8)) (by rw [State.disturbed, hz]) rfl ha (by rw [List.length_set, hl]; exact hn)
  rw [memRead, act_bind_ok (orStop_some hset), hmask, List.set_set]
  rfl

/-- DBUF then holds the byte that the requester's write has left. -/
theorem disturbed_get (s : State) (off : Nat) (v : Word) (fs : List Word) :
    (s.disturbed off v fs).dbuf.get off = some (v.extractLsb' 0 8) := by
  rw [State.disturbed, Memory.get_set, if_pos rfl]

/-- The frames of a chunk (R228), byte by byte. -/
theorem writeHeader_bytes (n : Nat) : lenFrame (BitVec.ofNat 16 (n / 2)) ++ bulkWrFrame =
    [0x01, BitVec.ofNat 8 (n / 512), 0x01, BitVec.ofNat 8 (n / 2), 0x83] := by
  have hhi : hiByte (BitVec.ofNat 16 (n / 2)) = BitVec.ofNat 8 (n / 512) := by
    apply BitVec.eq_of_toNat_eq
    simp only [hiByte, BitVec.extractLsb'_toNat, BitVec.toNat_ofNat, Nat.shiftRight_eq_div_pow]
    omega
  have hlo : loByte (BitVec.ofNat 16 (n / 2)) = BitVec.ofNat 8 (n / 2) := by
    apply BitVec.eq_of_toNat_eq
    simp only [loByte, BitVec.extractLsb'_toNat, BitVec.toNat_ofNat, Nat.shiftRight_zero]
    omega
  rw [lenFrame, hhi, hlo]
  rfl

/-- No more than 65536 bytes are one chunk (R227). -/
theorem chunks_single {n : Nat} (h0 : 0 < n) (h : n ≤ 65536) : chunks n = [n] := by
  rcases Nat.lt_or_eq_of_le h with hlt | rfl
  · exact chunks_of_small h0 hlt
  · rw [chunks_of_large (le_refl _)]
    simp [chunks]

/-- A stream of given bytes and one region, whole (R221). -/
theorem txBytes_region {header data : List Byte} {a n : Nat} {s t : State} (h : memRead a n s = .ok data t) :
    txBytes [.bytes header, .dbuf a n] (header.length + n) s = .ok (header ++ data) t := by
  have hregion : txBytes [.dbuf a n] n s = .ok data t := by
    rw [txBytes, Nat.min_self, act_bind_ok h, txBytes, act_bind_ok (act_pure _ _), act_pure, List.append_nil]
  rw [txBytes, Nat.add_sub_cancel_left, act_bind_ok hregion, act_pure, List.take_of_length_le (Nat.le_add_right _ _)]

/-- What is read back of bytes stored from the start on, whatever the store held. -/
theorem Memory.getBytes_setBytes_start (m : Memory) {bytes : List Byte} (h : bytes ≠ []) :
    (m.setBytes 0 bytes).getBytes 0 bytes.length = some bytes := by
  have hrun (a : Nat) (l : List Byte) (rest : Memory) : Memory.run (Memory.cells a l ++ rest) a l.length = some l := by
    induction l generalizing a with
    | nil => rw [List.length_nil, Memory.run]
    | cons b more ih => simp [Memory.cells, Memory.run, ih]
  have hkeep (n : Memory) : n.dropWhile (fun c => c.1 < 0) = n := by cases n <;> simp
  rw [Memory.getBytes, hkeep]
  cases bytes with
  | nil => exact absurd rfl h
  | cons b more =>
    rw [Memory.setBytes, show m.filter (fun c => c.1 < 0) = [] by simp, List.nil_append]
    exact hrun 0 (b :: more) _

/-- The frame of a packet built in TXPKT (R104, R151). -/
theorem getBytes_buildPacket {s : State} {m sub : Byte} {index : BitVec 24} {frame : List Byte} {trailer : Word}
    (h : frame.length = 64) : (buildPacket (dataPacket m sub index frame trailer) s).txpkt.getBytes 6 64 = some frame := by
  have hl : (dataPacket m sub index frame trailer).length = 72 := by rw [dataPacket_length, h]
  have hwhole := Memory.getBytes_setBytes_start s.txpkt (bytes := dataPacket m sub index frame trailer)
    (List.ne_nil_of_length_pos (by omega))
  have hlayout : ((dataPacket m sub index frame trailer).drop 6).take 64 = frame := by
    simp [dataPacket, bytes24, ← h]
  have hpart := Memory.getBytes_drop_take (i := 6) (len := 64) (by rw [hl]; decide) hwhole
  rw [buildPacket, if_pos hl]
  exact hpart.trans (congrArg some hlayout)

section Requests

variable {s : State} {off : Nat} {b : Byte} {v w : Word} {fs : List Word} (hb : s.busy = false)
  (hvisits : s.env.visits = [[.writeDbuf off b]]) (hfree : s.env.free = v :: w :: fs)
include hb hvisits hfree

theorem mdWrite_disturbed {boff len : Reg32} {data : List Byte} {k : Nat} {txs : List TxDraw} (heven : len.toNat % 2 = 0)
    (hlen : len.toNat ≤ 65536) (hin : boff.toNat + len.toNat ≤ s.cfg.dbufSize)
    (hread : s.dbuf.getBytes boff.toNat len.toNat = some data) (hfrom : boff.toNat ≤ off) (hto : off < boff.toNat + len.toNat)
    (htx : s.env.tx = .accepted k :: txs) (hk : 5 + len.toNat ≤ k) :
    ∃ t, exec (.mdWrite boff len) s = .next t ∧ t.done = true ∧ t.dbuf.get off = some (v.extractLsb' 0 8) ∧
      t.txLog = s.txLog ++ [0x01, BitVec.ofNat 8 (len.toNat / 512), 0x01, BitVec.ofNat 8 (len.toNat / 2), 0x83] ++
        data.set (off - boff.toNat) (w.extractLsb' 0 8) := by
  let header : List Byte := lenFrame (BitVec.ofNat 16 (len.toNat / 2)) ++ bulkWrFrame
  let sent : List Byte := header ++ data.set (off - boff.toNat) (w.extractLsb' 0 8)
  let taken : State := { s.accept with env := { s.env with tx := txs } }
  have hvisit : visit s.accept = .ok none (s.accept.disturbed off v (w :: fs)) :=
    visit_writeDbuf (s := s.accept) hvisits hfree (by show off < s.cfg.dbufSize; omega)
  have hstream : txBytes [.bytes header, .dbuf boff.toNat len.toNat] (5 + len.toNat) (taken.disturbed off v (w :: fs)) =
      .ok sent (taken.disturbed off v fs) :=
    txBytes_region (memRead_disturbed (s := taken) rfl hread hfrom hto)
  have hwrite : txWriteParts .md (writeStream (chunks len.toNat) boff.toNat) s.accept =
      .ok () ((taken.disturbed off v fs).transmit sent) := by
    rw [chunks_single (by omega) hlen, txWriteParts, if_neg (by simp [writeStream])]
    exact txWriteOf_visited_all hvisit htx hk hstream
  have hbody : mdWriteBody boff len s.accept =
      .ok len (advanceCursor (len.toNat / 2) ((taken.disturbed off v fs).transmit sent)) := by
    rw [mdWriteBody, act_bind_ok (checkBulk_ok (s := s.accept) heven hin), act_bind_ok hwrite, act_bind_ok (upd_run _ _), act_pure]
  refine ⟨_, (request_ready hb).trans (runRequest_ok hbody), rfl, ?_, ?_⟩
  · simpa using disturbed_get taken off v fs
  · have hlog : (taken.disturbed off v fs).txLog = s.txLog := rfl
    rw [State.complete_txLog, advanceCursor_txLog, transmit_log, hlog, List.append_assoc, ← writeHeader_bytes]

theorem crcBlock_disturbed {boff len : Reg32} {data : List Byte} (hin : boff.toNat + len.toNat ≤ s.cfg.dbufSize)
    (hread : s.dbuf.getBytes boff.toNat len.toNat = some data) (hfrom : boff.toNat ≤ off) (hto : off < boff.toNat + len.toNat) :
    ∃ t, exec (.crcBlock boff len) s = .next t ∧ t.done = true ∧ t.dbuf.get off = some (v.extractLsb' 0 8) ∧
      t.crc = crc16 s.crc (data.set (off - boff.toNat) (w.extractLsb' 0 8)) := by
  have hvisit : visit s.accept = .ok none (s.accept.disturbed off v (w :: fs)) :=
    visit_writeDbuf (s := s.accept) hvisits hfree (by show off < s.cfg.dbufSize; omega)
  have hbody : crcBlockBody boff len s.accept = crcContinue (data.set (off - boff.toNat) (w.extractLsb' 0 8))
      (s.accept.disturbed off v fs) := by
    rw [crcBlockBody, act_bind_ok (checkDbuf_ok (s := s.accept) hin), act_bind_ok (meet_visited hvisit),
      act_bind_ok (memRead_disturbed (s := s.accept) rfl hread hfrom hto)]
  exact ⟨_, (request_ready hb).trans (runRequest_ok hbody), rfl, disturbed_get s.accept off v fs, rfl⟩

theorem pktBuild_disturbed {m sub : Byte} {index : BitVec 24} {boff : Reg32} {frame : List Byte}
    (hvalid : validatePacket 0x55 m sub = none) (hin : boff.toNat + 64 ≤ s.cfg.dbufSize)
    (hread : s.dbuf.getBytes boff.toNat 64 = some frame) (hfrom : boff.toNat ≤ off) (hto : off < boff.toNat + 64) :
    ∃ t, exec (.pktBuild 0x55 m sub index boff) s = .next t ∧ t.done = true ∧ t.dbuf.get off = some (v.extractLsb' 0 8) ∧
      t.txpkt.getBytes 6 64 = some (frame.set (off - boff.toNat) (w.extractLsb' 0 8)) := by
  have hvisit : visit s.accept = .ok none (s.accept.disturbed off v (w :: fs)) :=
    visit_writeDbuf (s := s.accept) hvisits hfree (by show off < s.cfg.dbufSize; omega)
  have hl := Memory.run_length _ _ _ _ hread
  have hbody : pktBuildBody 0x55 m sub index boff s.accept =
      .ok 72 (buildPacket (dataPacket m sub index (frame.set (off - boff.toNat) (w.extractLsb' 0 8)) 0) (s.accept.disturbed off v fs)) := by
    rw [pktBuildBody, hvalid]
    dsimp only
    rw [if_neg (by decide), act_bind_ok (checkDbuf_ok (s := s.accept) hin), act_bind_ok (meet_visited hvisit),
      act_bind_ok (memRead_disturbed (s := s.accept) rfl hread hfrom hto), act_bind_ok (upd_run _ _), act_pure]
  refine ⟨_, (request_ready hb).trans (runRequest_ok hbody), rfl, ?_, getBytes_buildPacket (by rw [List.length_set, hl])⟩
  simpa using disturbed_get s.accept off v fs

end Requests
end Sys2Proof.Machine
end

section
/-! SUPPORT. A requester that reads STATUS at every transport call of a GB write sees BUSY and the sequencer at work (R22, R29, R180). -/

namespace Sys2Proof.Machine

/-- XSTATE and BUSY, of a value of STATUS that the requester has read (R23). -/
def statusView (x : Reg32) : BitVec 3 × Bool := (x.extractLsb' 8 3, x.getLsbD 0)

theorem statusView_status (s : State) : statusView (s.status.setWidth 32) = (s.xstate.code, s.busy) := by
  have hxstate : (s.status.setWidth 32).extractLsb' 8 3 = s.xstate.code := by
    ext i hi
    simp [State.status_getLsbD, BitVec.getLsbD_eq_getElem hi, show 8 + i < 32 by omega]
  have hbusy : (s.status.setWidth 32).getLsbD 0 = s.busy := by
    rw [BitVec.getLsbD_setWidth, s.status_getLsbD]
    rfl
  rw [statusView, hxstate, hbusy]

/-- A GB write under way, of which the requester will read STATUS at the next n transport calls. The transport's answers to come, XSTATE
and what the requester has seen of STATUS, after what it had read before, are known; the next frame can be read. -/
structure Watched (before : List Reg32) (boff n : Nat) (tx : List TxDraw) (rx : List RxDraw) (x : XState)
    (views : List (BitVec 3 × Bool)) (s : State) : Prop where
  visits : s.env.visits = List.replicate n [.readReg .status]
  tx : s.env.tx = tx
  rx : s.env.rx = rx
  hazard : s.hazard = []
  adapter : s.adapter = .gb
  busy : s.busy = true
  xstate : s.xstate = x
  base : s.xboff.toNat = boff
  count : s.xcount = 0
  frame : s.dbuf.getBytes boff 64 ≠ none
  seen : ∃ seen, s.reads = before ++ seen ∧ seen.map statusView = views

section Pieces

variable {α : Type} {before : List Reg32} {boff n : Nat} {tx : List TxDraw} {rx : List RxDraw} {x : XState}
  {views : List (BitVec 3 × Bool)} {E : Ended → State → Prop}

/-- At a transport call the requester reads STATUS: XSTATE as it is, and BUSY. -/
theorem Watched.visit {s : State} (h : Watched before boff (n + 1) tx rx x views s) :
    ∃ u, Machine.visit s = .ok none u ∧ Watched before boff n tx rx x (views ++ [(x.code, true)]) u := by
  obtain ⟨seen, hreads, hviews⟩ := h.seen
  let popped : State := { s with env := { s.env with visits := List.replicate n [.readReg .status] } }
  have hread : visitAction (.readReg .status) popped =
      .ok () { popped with reads := popped.reads ++ [popped.status.setWidth 32] } := readPort_run _ _
  refine ⟨{ popped with reads := popped.reads ++ [popped.status.setWidth 32] }, ?_, { h with visits := rfl, seen := ?_ }⟩
  · rw [visit_cons (h.visits.trans List.replicate_succ), visitActions_cons _ (by simp), act_bind_ok hread]
    rfl
  · refine ⟨seen ++ [popped.status.setWidth 32], ?_, ?_⟩
    · show s.reads ++ _ = _
      rw [hreads, List.append_assoc]
    · have hview : statusView (popped.status.setWidth 32) = (x.code, true) := by
        rw [statusView_status, show popped.xstate = x from h.xstate, show popped.busy = true from h.busy]
      rw [List.map_append, hviews, List.map_singleton, hview]

theorem watched_setXState (y : XState) :
    Triple (Watched before boff n tx rx x views) (setXState y) (fun _ => Watched before boff n tx rx y views) E :=
  triple_upd fun _ hs => { hs with xstate := rfl }

theorem Watched.transmit {s : State} (h : Watched before boff n tx rx x views s) (bytes : List Byte) :
    Watched before boff n tx rx x views (s.transmit bytes) := by
  unfold State.transmit
  split
  · exact { h with }
  · exact { h with }

theorem Watched.buildPacket {s : State} (h : Watched before boff n tx rx x views s) (p : List Byte) :
    Watched before boff n tx rx x views (buildPacket p s) := by
  unfold Machine.buildPacket
  split
  · exact { h with }
  · exact { h with }

/-- A TxWrite to a transport that takes all of its bytes. -/
theorem watched_txWriteOf {fam : Family} {m k : Nat} {first : Nat → Act (List Byte)} (hm : m ≤ k)
    (hf : ∀ s, Watched before boff n tx rx x (views ++ [(x.code, true)]) s →
      ∃ bytes t, first m s = .ok bytes t ∧ Watched before boff n tx rx x (views ++ [(x.code, true)]) t) :
    Triple (Watched before boff (n + 1) (.accepted k :: tx) rx x views) (txWriteOf fam m first)
      (fun _ => Watched before boff n tx rx x (views ++ [(x.code, true)])) E := by
  intro s hs
  obtain ⟨u, hvisit, hu⟩ := hs.visit
  obtain ⟨bytes, t, hfirst, ht⟩ := hf { u with env := { u.env with tx := tx } } { hu with tx := rfl }
  rw [txWriteOf_visited_all hvisit hu.tx hm hfirst]
  exact ht.transmit bytes

/-- A data packet sent (R153). -/
theorem watched_sendBuilt {p : List Byte} {k : Nat} (hp : p.length = 72) (hk : 72 ≤ k) :
    Triple (Watched before boff (n + 1) (.accepted k :: tx) rx x views) (sendBuilt p)
      (fun _ => Watched before boff n tx rx x (views ++ [(x.code, true)])) E := by
  have hl : (withTrailer p).length = 72 := by simp [withTrailer, hp]
  refine triple_upd_bind (fun _ hs => hs.buildPacket p) ?_
  rw [sendPacket, if_pos hp]
  refine triple_upd_bind (R := Watched before boff (n + 1) (.accepted k :: tx) rx x views) (fun _ hs => { hs with }) ?_
  exact triple_bind (watched_txWriteOf (by omega) fun s hs => ⟨_, s, act_pure _ _, hs⟩) fun _ => triple_pure fun _ => id

/-- The next frame made into a packet in TXPKT. -/
theorem watched_loadPacket {mk : List Byte → List Byte} {s : State} (h : Watched before boff n tx rx x views s) :
    ∃ p t, loadPacket mk boff s = .ok p t ∧ Watched before boff n tx rx x views t := by
  obtain ⟨frame, hframe⟩ := Option.ne_none_iff_exists'.1 h.frame
  refine ⟨withTrailer (mk frame), sealPacket (mk frame) (Machine.buildPacket (mk frame) s), ?_, { h.buildPacket (mk frame) with }⟩
  rw [loadPacket, act_bind_ok (memRead_some hframe h.hazard), act_bind_ok (upd_run _ _), act_bind_ok (upd_run _ _), act_pure]

/-- The packet with the next frame, sent (R189). -/
theorem watched_sendLoaded (mk : List Byte → List Byte) {k : Nat} (hk : 72 ≤ k) :
    Triple (Watched before boff (n + 1) (.accepted k :: tx) rx x views) (sendLoaded mk boff)
      (fun _ => Watched before boff n tx rx x (views ++ [(x.code, true)])) E := by
  intro s hs
  obtain ⟨p, u, hload, hu⟩ := watched_loadPacket (mk := mk) hs
  rw [sendLoaded, act_bind_ok hload]
  refine watched_txWriteOf hk (fun t ht => ?_) u hu
  obtain ⟨q, r, hagain, hr⟩ := watched_loadPacket (mk := mk) ht
  have hwire : wirePacket boff q r = .ok (q.take 6 ++ packetFrame q ++ q.drop 70) r := by
    rw [wirePacket, act_bind_ok (maskHazard_none boff _ r hr.hazard), act_pure]
  exact ⟨_, r, by rw [act_bind_ok hagain, act_bind_ok hwire, act_pure], hr⟩

/-- A read from a GB adapter. -/
theorem watched_rxRead {fam : Family} {m : Nat} {offered : List Byte} :
    Triple (Watched before boff (n + 1) tx (.got offered :: rx) x views) (rxRead fam m)
      (fun d s => Watched before boff n tx rx x (views ++ [(x.code, true)]) s ∧ d = .got (offered.take m)) E := by
  intro s hs
  obtain ⟨u, hvisit, hu⟩ := hs.visit
  have hfree : State.repliesBound fam { u with env := { u.env with rx := rx } } = false := by
    simp [State.repliesBound, hu.adapter]
  have hread : rxRead fam m s = .ok (.got (offered.take m)) { u with env := { u.env with rx := rx } } := by
    rw [rxRead, act_bind_ok (meet_visited hvisit), act_bind_ok (upd_run _ _), settlePeer_gb hu.adapter, act_bind_ok (draw_run _ _),
      takeRx_cons hu.rx, act_bind_ok (draw_run _ _), takeReplies_free hfree]
    rfl
  rw [hread]
  exact ⟨{ hu with rx := rfl }, rfl⟩

/-- A control byte received (R157). -/
theorem watched_receivePacket {c : Byte} {more : List Byte} (hc : c ≠ ctlData) :
    Triple (Watched before boff (n + 1) tx (.got (c :: more) :: rx) x views) receivePacket
      (fun p s => Watched before boff n tx rx x (views ++ [(x.code, true)]) s ∧ p = [c]) E := by
  refine triple_upd_bind (R := Watched before boff (n + 1) tx (.got (c :: more) :: rx) x views) (fun _ hs => { hs with }) <|
    triple_bind watched_rxRead fun d => triple_of fun hd => ?_
  subst hd
  refine triple_upd_bind (R := Watched before boff n tx rx x (views ++ [(x.code, true)])) (fun _ hs => { hs with }) ?_
  rw [if_pos hc]
  exact triple_upd_bind (R := Watched before boff n tx rx x (views ++ [(x.code, true)])) (fun _ hs => { hs with })
    (triple_pure fun _ hs => ⟨hs, rfl⟩)

/-- An ACK (R192). -/
theorem watched_expectAck : Triple (Watched before boff (n + 1) tx (.got [0xAA] :: rx) x views) expectAck
    (fun _ => Watched before boff n tx rx x (views ++ [(x.code, true)])) E :=
  triple_bind (watched_receivePacket (by decide)) fun p => triple_of fun hp => by
    subst hp
    exact triple_pure fun _ => id

/-- The error that ends a GB write, after the requester has seen so much of STATUS. -/
def Ended.Seen (before : List Reg32) (views : List (BitVec 3 × Bool)) (e : Ended) (t : State) : Prop :=
  e = .raised ∧ ∃ seen, t.reads = before ++ seen ∧ seen.map statusView = views

/-- Another control byte (R192). -/
theorem watched_expectAck_raises {c : Byte} {more : List Byte} (hdata : c ≠ 0x55) (hack : c ≠ 0xAA) :
    Triple (Watched before boff (n + 1) tx (.got (c :: more) :: rx) x views) expectAck (fun _ _ => False)
      (Ended.Seen before (views ++ [(x.code, true)])) :=
  triple_bind (watched_receivePacket hdata) fun p => triple_of fun hp => by
    subst hp
    rw [show decide ([c] = [ctlAck]) = false by simpa [ctlAck] using hack]
    exact triple_raise fun _ _ hs => ⟨rfl, hs.seen⟩

/-- GB_WRITE_RAM up to a reply to its first data packet that is no ACK. -/
theorem watched_writeLoop {packets k : Nat} {c : Byte} {more : List Byte} (hk : 72 ≤ k) (hdata : c ≠ 0x55) (hack : c ≠ 0xAA) :
    Triple (Watched before boff (n + 2) (.accepted k :: tx) (.got (c :: more) :: rx) x views) (writeLoop (packets + 1))
      (fun _ _ => False) (Ended.Seen before (views ++ [(3, true), (2, true)])) := by
  refine triple_bind (watched_setXState .continuing) fun _ => triple_bind (triple_look fun _ => id) fun _ =>
    triple_look_known (fun _ hs => hs.base) <| triple_look_known (fun _ hs => congrArg BitVec.toNat hs.count) <|
    triple_bind (triple_look fun _ => id) fun _ => triple_bind (watched_sendLoaded _ hk) fun _ =>
    triple_bind (watched_setXState .awaitResponse) fun _ => ?_
  have hend := watched_expectAck_raises (before := before) (boff := boff) (n := n) (tx := tx) (rx := rx) (x := .awaitResponse)
    (views := views ++ [(3, true)]) (more := more) hdata hack
  rw [List.append_assoc] at hend
  exact triple_bind hend fun _ _ hs => hs.elim

end Pieces

/-- What the requester sees of STATUS in a GB write: the CONFIG packet sent, its reply awaited, a data packet sent, its reply awaited
(R180). -/
theorem gbWriteRam_watched {s : State} {boff len : Reg32} {data : List Byte} {k₁ k₂ : Nat} {txs : List TxDraw} {c : Byte}
    {more : List Byte} {rxs : List RxDraw} (hb : s.busy = false) (hadapter : s.adapter = .gb) (hlen : transferLength len.toNat)
    (hin : boff.toNat + len.toNat ≤ s.cfg.dbufSize) (hread : s.dbuf.getBytes boff.toNat 64 = some data)
    (hvisits : s.env.visits = List.replicate 4 [.readReg .status]) (htx : s.env.tx = .accepted k₁ :: .accepted k₂ :: txs)
    (hk₁ : 72 ≤ k₁) (hk₂ : 72 ≤ k₂) (hrx : s.env.rx = .got [0xAA] :: .got (c :: more) :: rxs) (hdata : c ≠ 0x55) (hack : c ≠ 0xAA) :
    ∃ t seen, exec (.gbWriteRam boff len) s = .next t ∧ t.reads = s.reads ++ seen ∧
      seen.map statusView = [(1, true), (2, true), (3, true), (2, true)] := by
  have hsize : sizeOk len.toNat = true := by simpa [sizeOk, transferLength] using hlen
  have hcheck : checkTransfer boff len s.accept = .ok () s.accept := by
    rw [checkTransfer, hsize, act_bind_ok (check_true _ _ _), checkDbuf_ok (s := s.accept) hin]
  obtain ⟨packets, hpackets⟩ : ∃ packets, len.toNat / 64 = packets + 1 :=
    ⟨len.toNat / 64 - 1, by unfold transferLength at hlen; omega⟩
  have hstart : Triple (· = s.accept) (startTransfer 1 len.toNat boff)
      (fun _ => Watched s.reads boff.toNat 4 (.accepted k₁ :: .accepted k₂ :: txs) (.got [0xAA] :: .got (c :: more) :: rxs)
        .sendHeader []) (Ended.Seen s.reads [(1, true), (2, true), (3, true), (2, true)]) := by
    refine triple_upd fun t ht => ?_
    subst ht
    exact ⟨hvisits, htx, hrx, rfl, hadapter, rfl, rfl, rfl, rfl, by simp [hread], [], (List.append_nil _).symm, rfl⟩
  have hbody : Triple (· = s.accept) (gbWriteRamBody boff len) (fun _ _ => False)
      (Ended.Seen s.reads [(1, true), (2, true), (3, true), (2, true)]) := by
    refine triple_skip (fun t ht => by rw [ht]; exact hcheck) <| triple_bind hstart fun _ =>
      triple_bind (triple_look fun _ => id) fun _ => triple_bind (watched_sendBuilt (dataPacket_length _ _ _ _ _) hk₁) fun _ =>
      triple_bind (watched_setXState .awaitResponse) fun _ => triple_bind watched_expectAck fun _ => ?_
    rw [hpackets]
    exact triple_bind (watched_writeLoop hk₂ hdata hack) fun _ _ hs => hs.elim
  obtain ⟨t, ht, -, seen, hreads, hviews⟩ := hbody.request_raises (fun _ _ h => h.1) rfl hb
  exact ⟨t, seen, ht, hreads, hviews⟩

/-! ### What the requester's actions do while a request runs -/

theorem visitAction_readDbuf {s : State} {v : Word} {fs : List Word} (off : Nat) (hfree : s.env.free = v :: fs) :
    visitAction (.readDbuf off) s =
      .ok () { s with reads := s.reads ++ [(v.extractLsb' 0 8).setWidth 32], env := { s.env with free := fs } } := by
  rw [visitAction, upd_run, busyReadDbuf, takeFreeByte_cons hfree]
  rfl

/-- Settles O59: the requester's actions one by one, between requests and while a request runs; a request with a visit among its
transport calls; and a GB write watched through STATUS. -/
theorem requesterPort : Obligations.RequesterPort := by
  refine ⟨fun s rest hpeer hpkt => ⟨fun off b => step_writeDbuf hpeer hpkt, fun off hport hb => ?_, fun r hport => ?_⟩,
    fun s => ⟨rfl, rfl, rfl, rfl, rfl, rfl, rfl, rfl, rfl, rfl, rfl, fun _ => rfl, fun _ => rfl⟩,
    fun s v fs off b hfree => ⟨fun _ => rfl, fun r => ?_, visitAction_readDbuf off hfree, ?_⟩,
    fun s u actions more addr k txs => mdSeek_visited,
    fun s off b v w fs hb hvisits hfree => ⟨fun boff len data k txs => mdWrite_disturbed hb hvisits hfree,
      fun boff len data => crcBlock_disturbed hb hvisits hfree, fun m sub index boff frame => pktBuild_disturbed hb hvisits hfree⟩,
    fun s boff len data k₁ k₂ txs c more rxs => gbWriteRam_watched⟩
  · exact (step_readDbuf hpeer hpkt hport hb).trans (by cases s.dbuf.get off <;> rfl)
  · exact (step_readReg hpeer hpkt hport).trans (by cases readRegister r s <;> rfl)
  · exact (readPort_run r s).trans (by cases readRegister r s <;> rfl)
  · rw [visitAction, upd_run, busyWriteDbuf_cons hfree]

end Sys2Proof.Machine
end

section
/-! SUPPORT. The argument checks that open a request (R70, R73, R322, R324): what each raises, and that nothing else is changed. -/

namespace Sys2Proof.Machine

/-- A request whose first piece raises, having changed nothing, ends there: what changes is what an error changes (R330). -/
theorem request_raises_first {α : Type} {m : Act α} {f : α → Act Reg32} {s : State} {e : Err} {info : Reg32} (hb : s.busy = false)
    (h : m s.accept = .error .raised (s.accept.raise e info)) : request (m >>= f) s = .next (s.raised e.kind e.sub info) :=
  (request_ready hb).trans (runRequest_raised (act_bind_error h))

theorem check_raises {ok : Bool} {e : Err} {info : Reg32} {s : State} (h : ok = false) :
    check ok e info.toNat s = .error .raised (s.raise e info) := by
  rw [h, check_false, BitVec.ofNat_toNat, BitVec.setWidth_eq]

theorem checkDbuf_leaves {boff : Reg32} {n : Nat} {s : State} (h : s.cfg.dbufSize < boff.toNat + n) :
    checkDbuf boff n s = .error .raised (s.raise .bufferRange boff) := by
  rw [checkDbuf_raises h, BitVec.ofNat_toNat, BitVec.setWidth_eq]

/-! ### The paged transfers -/

theorem sizeOk_iff (n : Nat) : sizeOk n = true ↔ transferLength n := by simp [sizeOk, transferLength]

/-- XFER_SIZE comes first (R73). -/
theorem checkTransfer_size {boff len : Reg32} {s : State} (h : ¬transferLength len.toNat) :
    checkTransfer boff len s = .error .raised (s.raise .xferSize len) := by
  have hsize : sizeOk len.toNat = false := by rwa [← Bool.not_eq_true, sizeOk_iff]
  exact act_bind_error (check_raises hsize)

theorem checkTransfer_range {boff len : Reg32} {s : State} (hsize : transferLength len.toNat)
    (h : s.cfg.dbufSize < boff.toNat + len.toNat) : checkTransfer boff len s = .error .raised (s.raise .bufferRange boff) := by
  rw [checkTransfer, act_bind_ok (check_ok ((sizeOk_iff _).2 hsize)), checkDbuf_leaves h]

theorem checkTransfer_ok {boff len : Reg32} {s : State} (hsize : transferLength len.toNat)
    (h : boff.toNat + len.toNat ≤ s.cfg.dbufSize) : checkTransfer boff len s = .ok () s := by
  rw [checkTransfer, act_bind_ok (check_ok ((sizeOk_iff _).2 hsize)), checkDbuf_ok h]

/-! ### The bulk transfers of the MD stream -/

/-- ODD_LENGTH comes first (R70). -/
theorem checkBulk_odd {boff len : Reg32} {s : State} (h : len.toNat % 2 = 1) :
    checkBulk boff len s = .error .raised (s.raise .oddLength len) :=
  act_bind_error (check_raises (decide_eq_false (by omega)))

theorem checkBulk_range {boff len : Reg32} {s : State} (heven : len.toNat % 2 = 0)
    (h : s.cfg.dbufSize < boff.toNat + len.toNat) : checkBulk boff len s = .error .raised (s.raise .bufferRange boff) := by
  rw [checkBulk, act_bind_ok (check_ok (decide_eq_true heven)), checkDbuf_leaves h]

theorem advanceCursor_zero (s : State) : advanceCursor 0 s = s := by
  unfold advanceCursor
  split
  · rw [BitVec.add_zero]
  · rfl

/-- MD_FLASH_WRITE of no word does no I/O, in either poll form (R239). -/
theorem programIo_zero (off : Nat) (s : State) : programIo 0 off s = .ok () s := by
  rw [programIo, act_bind_ok (look_run _ _)]
  cases s.cfg.readyPoll with
  | ryThenRdSingle => rfl
  | ryOnly => exact congrArg (EStateM.Result.ok ()) (advanceCursor_zero s)

/-- A bulk transfer starts with its checks, and a length of 0 makes no I/O after them (R239, R240). -/
theorem exec_bulk {i : Instr} {boff len : Reg32}
    (hi : i ∈ [Instr.mdRead boff len, Instr.mdWrite boff len, Instr.mdFlashWrite boff len]) :
    ∃ io : Unit → Act Reg32, exec i = request (checkBulk boff len >>= io) ∧ (len = 0 → ∀ s, io () s = .ok 0 s) := by
  simp only [List.mem_cons, List.not_mem_nil, or_false] at hi
  rcases hi with rfl | rfl | rfl
  · exact ⟨_, rfl, fun h s => by subst h; rfl⟩
  · refine ⟨_, rfl, fun h s => ?_⟩
    subst h
    exact congrArg (EStateM.Result.ok 0) (advanceCursor_zero s)
  · refine ⟨_, rfl, fun h s => ?_⟩
    subst h
    exact (act_bind_ok (look_run _ _)).trans (act_bind_ok (onRaise_ok (programIo_zero _ s)))

/-- Settles O38: the three requests share their checks, and differ only in the I/O after them. -/
theorem mdBulkChecks : Obligations.MdBulkChecks := by
  intro s boff len i hi hb
  obtain ⟨io, hexec, hzero⟩ := exec_bulk hi
  rw [hexec]
  split
  · next hodd => exact request_raises_first hb (checkBulk_odd hodd)
  next hodd =>
  have heven : len.toNat % 2 = 0 := by omega
  split
  · next hout => exact request_raises_first hb (checkBulk_range heven hout)
  next hin =>
  split
  · next h0 =>
    have hchecks : checkBulk boff len s.accept = .ok () s.accept := checkBulk_ok heven (Nat.not_lt.1 hin)
    exact (request_ready hb).trans (runRequest_ok ((act_bind_ok hchecks).trans (hzero h0 s.accept)))
  · trivial

end Sys2Proof.Machine
end

section
/-! SUPPORT. XDIR, XLEN and XBOFF are those of the transfer from its start to its end, however it ends, where the requester does not act
meanwhile (R30, R180). -/

namespace Sys2Proof.Machine

/-- The registers that say which transfer runs (R30). -/
structure TransferRegs where
  xdir : BitVec 2
  xlen : Reg32
  xboff : Reg32

def State.transferRegs (s : State) : TransferRegs where
  xdir := s.xdir
  xlen := s.xlen
  xboff := s.xboff

/-- This transfer is in the registers, and the requester will not act. -/
def Transferring (x : TransferRegs) (s : State) : Prop := s.env.visits = [] ∧ s.transferRegs = x

/-- How a transfer may end early: by an error that leaves the registers, or where the model stops; without the requester no reset comes. -/
def Ended.Transferring (x : TransferRegs) : Ended → State → Prop
  | .raised, t => t.transferRegs = x
  | .reset, _ => False
  | .fault _, _ => True

section Pieces

variable {α : Type} {x : TransferRegs}

theorem Transferring.same {s t : State} (h : Transferring x s) (hv : t.env.visits = s.env.visits)
    (hr : t.transferRegs = s.transferRegs) : Transferring x t :=
  ⟨hv.trans h.1, hr.trans h.2⟩

theorem Transferring.takeFreeByte {s : State} (h : Transferring x s) : Transferring x (takeFreeByte s).2 := by
  have hvisits : (takeFree s).2.env.visits = s.env.visits := congrArg State.Session.visits (takeFree_session s)
  refine h.same hvisits ?_
  show (takeFree s).2.transferRegs = _
  rw [takeFree_frame]
  rfl

theorem Transferring.takeTx {s : State} (h : Transferring x s) : Transferring x (takeTx s).2 := by
  unfold Machine.takeTx
  split <;> exact h.same rfl rfl

theorem Transferring.takeRx {s : State} (h : Transferring x s) : Transferring x (takeRx s).2 := by
  unfold Machine.takeRx
  split <;> exact h.same rfl rfl

theorem Transferring.takeReplies {s : State} (h : Transferring x s) (fam : Family) (n : Nat) (offered : List Byte) :
    Transferring x (takeReplies fam n offered s).2 := by
  unfold Machine.takeReplies
  split
  · exact h.same rfl rfl
  · exact h

theorem Transferring.settlePeer {s : State} (h : Transferring x s) : Transferring x (settlePeer s) := by
  have hvisits : (Machine.settlePeer s).env.visits = s.env.visits := congrArg State.Session.visits (settlePeer_session s)
  obtain ⟨env, cart, peer, hframe⟩ := settlePeer_frame s
  rw [hframe] at hvisits ⊢
  exact h.same hvisits rfl

theorem Transferring.transmit {s : State} (h : Transferring x s) (bytes : List Byte) : Transferring x (s.transmit bytes) := by
  unfold State.transmit
  split <;> exact h.same rfl rfl

theorem Transferring.buildPacket {s : State} (h : Transferring x s) (p : List Byte) : Transferring x (buildPacket p s) := by
  unfold Machine.buildPacket
  split <;> exact h.same rfl rfl

/-! ### The shared operations -/

/-- A piece that leaves the registers of the transfer. -/
abbrev TransferAct (x : TransferRegs) (m : Act α) : Prop :=
  Triple (Transferring x) m (fun _ => Transferring x) (Ended.Transferring x)

theorem transferring_pure (a : α) : TransferAct x (pure a) := triple_pure fun _ => id

theorem transferring_look (f : State → α) : TransferAct x (look f) := triple_look fun _ => id

theorem transferring_upd {f : State → State} (hv : ∀ s, (f s).env.visits = s.env.visits)
    (hr : ∀ s, (f s).transferRegs = s.transferRegs) : TransferAct x (upd f) :=
  triple_upd fun s hs => hs.same (hv s) (hr s)

theorem transferring_raise (e : Err) (info : Nat) : TransferAct x (raise e info : Act α) := triple_raise fun _ _ hs => hs.2

theorem transferring_check (ok : Bool) (e : Err) (info : Nat) : TransferAct x (check ok e info) :=
  (triple_check fun _ _ hs => hs.2).post fun _ _ hs => hs.1

theorem transferring_raiseTransport (fam : Family) (e : Err) (info : Nat) :
    TransferAct x (raiseTransport fam e info : Act α) := by
  intro s hs
  cases fam <;> exact hs.2

/-- The requester does not act. -/
theorem transferring_visit :
    Triple (Transferring x) visit (fun v s => Transferring x s ∧ v = none) (Ended.Transferring x) := by
  intro s hs
  rw [visit_none hs.1]
  exact ⟨hs, rfl⟩

theorem transferring_meet : TransferAct x meet :=
  triple_bind transferring_visit fun _ => triple_of fun hv => hv ▸ transferring_pure ()

theorem transferring_txWriteOf (fam : Family) (n : Nat) {first : Nat → Act (List Byte)} (hf : ∀ j, TransferAct x (first j)) :
    TransferAct x (txWriteOf fam n first) :=
  triple_txWriteOf (R := fun _ => Transferring x) transferring_visit (fun _ hs => hs.takeTx)
    (fun j _ => (hf j).post fun bytes _ hs => hs.transmit bytes) (fun _ _ hv => hv ▸ transferring_pure ())
    fun _ e s hs => transferring_raiseTransport (α := Unit) fam e _ s hs

theorem transferring_txWrite (fam : Family) (bytes : List Byte) : TransferAct x (txWrite fam bytes) :=
  transferring_txWriteOf fam _ fun _ => transferring_pure _

theorem transferring_rxRead (fam : Family) (n : Nat) : TransferAct x (rxRead fam n) :=
  triple_bind transferring_meet fun _ =>
    triple_upd_bind (R := Transferring x) (fun _ hs => hs.settlePeer) <|
    triple_bind (R := fun _ => Transferring x) (triple_draw fun _ hs => hs.takeRx) fun _ =>
    triple_bind (R := fun _ => Transferring x) (triple_draw fun _ hs => hs.takeReplies fam n _) fun _ => transferring_pure _

theorem transferring_maskByte (off : Nat) (b : Byte) : TransferAct x (maskByte off b) := by
  intro s hs
  by_cases h : off ∈ s.hazard
  · have hfree : maskByte off b s = .ok (takeFreeByte s).1 (takeFreeByte s).2 := by simp [maskByte, h]
    rw [hfree]
    exact hs.takeFreeByte
  · have hown : maskByte off b s = .ok b s := by simp [maskByte, h]
    rw [hown]
    exact hs

theorem transferring_maskHazard (off : Nat) (bytes : List Byte) : TransferAct x (maskHazard off bytes) := by
  induction bytes generalizing off with
  | nil => exact transferring_pure []
  | cons b rest ih =>
    exact triple_bind (transferring_maskByte off b) fun _ => triple_bind (ih _) fun _ => transferring_pure _

theorem transferring_memRead (off n : Nat) : TransferAct x (memRead off n) :=
  triple_bind ((triple_orStop fun _ _ _ => trivial).post fun _ _ hs => hs.1) fun _ => transferring_maskHazard _ _

theorem transferring_storeDbuf (off : Nat) (bytes : List Byte) : TransferAct x (storeDbuf off bytes) :=
  triple_bind (transferring_maskHazard off bytes) fun _ => transferring_upd (fun _ => rfl) fun _ => rfl

/-! ### The framer -/

theorem transferring_buildPacket (p : List Byte) : TransferAct x (upd (buildPacket p)) := triple_upd fun _ hs => hs.buildPacket p

theorem transferring_sealPacket (p : List Byte) : TransferAct x (upd (sealPacket p)) := transferring_upd (fun _ => rfl) fun _ => rfl

theorem transferring_sendBuilt (p : List Byte) : TransferAct x (sendBuilt p) := by
  refine triple_bind (transferring_buildPacket p) fun _ => ?_
  unfold sendPacket
  split
  · exact triple_bind (transferring_sealPacket p) fun _ => triple_bind (transferring_txWrite _ _) fun _ => transferring_pure _
  · exact triple_bind (transferring_txWrite _ _) fun _ => transferring_pure _

theorem transferring_storeRx (off : Nat) (bytes : List Byte) : TransferAct x (upd (storeRx off bytes)) :=
  transferring_upd (fun _ => rfl) fun _ => rfl

theorem transferring_setRxlen (n : BitVec 7) : TransferAct x (upd fun s => { s with rxlen := n }) :=
  transferring_upd (fun _ => rfl) fun _ => rfl

/-- A TransportError after what came was stored (R321). -/
theorem transferring_storeRx_raise (off : Nat) (bytes : List Byte) (e : Err) (info : Nat) :
    TransferAct x (upd (storeRx off bytes) >>= fun _ => raiseTransport .gb e info : Act α) :=
  triple_bind (transferring_storeRx off bytes) fun _ => transferring_raiseTransport _ _ _

theorem transferring_receivePacket : TransferAct x receivePacket := by
  refine triple_bind (transferring_setRxlen 0) fun _ => triple_bind (transferring_rxRead _ _) fun first => ?_
  split
  · exact transferring_storeRx_raise _ _ _ _
  · exact transferring_storeRx_raise _ _ _ _
  · exact transferring_raiseTransport _ _ _
  · refine triple_bind (transferring_storeRx _ _) fun _ => ?_
    split
    · exact triple_bind (transferring_setRxlen 1) fun _ => transferring_pure _
    · refine triple_bind (transferring_rxRead _ _) fun rest => ?_
      cases rest with
      | timedOut t => exact transferring_storeRx_raise _ _ _ _
      | failed t => exact transferring_storeRx_raise _ _ _ _
      | got t =>
        refine triple_bind (transferring_storeRx _ _) fun _ => ?_
        split
        · exact transferring_raiseTransport _ _ _
        · exact triple_bind (transferring_setRxlen 72) fun _ => transferring_pure _

theorem transferring_checkPacket (p : List Byte) : TransferAct x (checkPacket p) := by
  refine triple_bind (transferring_look _) fun n => ?_
  split
  · exact transferring_raise _ _
  · exact triple_bind (transferring_upd (fun _ => rfl) fun _ => rfl) fun _ => triple_bind (transferring_check _ _ _) fun _ =>
      transferring_pure _

/-! ### The loops of the transfers -/

theorem transferring_setXState (y : XState) : TransferAct x (setXState y) := transferring_upd (fun _ => rfl) fun _ => rfl

theorem transferring_countFrame : TransferAct x countFrame := transferring_upd (fun _ => rfl) fun _ => rfl

theorem transferring_finishTransfer : TransferAct x finishTransfer :=
  triple_bind (transferring_setXState .done) fun _ => transferring_look _

theorem transferring_acceptData (p : List Byte) : TransferAct x (acceptData p) :=
  triple_bind (transferring_checkPacket p) fun _ => triple_bind (transferring_check _ _ _) fun _ =>
    triple_bind (transferring_look _) fun _ => triple_bind (transferring_look _) fun _ =>
    triple_bind (transferring_look _) fun _ => triple_bind (transferring_check _ _ _) fun _ => transferring_check _ _ _

theorem transferring_storeFrame (p : List Byte) : TransferAct x (storeFrame p) :=
  triple_bind (transferring_look _) fun _ => triple_bind (transferring_look _) fun _ =>
    triple_bind (transferring_storeDbuf _ _) fun _ => transferring_countFrame

theorem transferring_readLoop (fuel : Nat) : TransferAct x (readLoop fuel) := by
  induction fuel with
  | zero => exact transferring_look _
  | succ fuel ih =>
    refine triple_bind transferring_receivePacket fun p => ?_
    split
    · refine triple_bind (transferring_look _) fun _ => triple_bind (transferring_look _) fun _ => ?_
      split
      · exact transferring_finishTransfer
      · exact transferring_raise _ _
    · refine triple_bind (transferring_acceptData p) fun _ => triple_bind (transferring_storeFrame p) fun _ =>
        triple_bind (transferring_look _) fun _ => triple_bind (transferring_look _) fun _ => ?_
      split
      · exact transferring_finishTransfer
      · exact triple_bind (transferring_setXState .continuing) fun _ => triple_bind (transferring_sendBuilt _) fun _ =>
          triple_bind (transferring_setXState .awaitResponse) fun _ => ih

theorem transferring_expectAck : TransferAct x expectAck :=
  triple_bind transferring_receivePacket fun _ => transferring_check _ _ _

theorem transferring_loadPacket (mk : List Byte → List Byte) (off : Nat) : TransferAct x (loadPacket mk off) :=
  triple_bind (transferring_memRead off 64) fun _ => triple_bind (transferring_buildPacket _) fun _ =>
    triple_bind (transferring_sealPacket _) fun _ => transferring_pure _

theorem transferring_sendLoaded (mk : List Byte → List Byte) (off : Nat) : TransferAct x (sendLoaded mk off) :=
  triple_bind (transferring_loadPacket mk off) fun _ => transferring_txWriteOf _ _ fun _ =>
    triple_bind (transferring_loadPacket mk off) fun _ =>
    triple_bind (triple_bind (transferring_maskHazard _ _) fun _ => transferring_pure _) fun _ => transferring_pure _

theorem transferring_writeLoop (packets : Nat) : TransferAct x (writeLoop packets) := by
  induction packets with
  | zero => exact transferring_pure ()
  | succ packets ih =>
    exact triple_bind (transferring_setXState .continuing) fun _ => triple_bind (transferring_look _) fun _ =>
      triple_bind (transferring_look _) fun _ => triple_bind (transferring_look _) fun _ =>
      triple_bind (transferring_look _) fun _ => triple_bind (transferring_sendLoaded _ _) fun _ =>
      triple_bind (transferring_setXState .awaitResponse) fun _ => triple_bind transferring_expectAck fun _ =>
      triple_bind transferring_countFrame fun _ => ih

/-! ### The requests -/

/-- A transfer whose checks pass is in the registers from its start on (R30, R180). -/
theorem transferring_start {s : State} {boff len : Reg32} (dir : BitVec 2) {f : Unit → Act Reg32} (hvisits : s.env.visits = [])
    (hsize : transferLength len.toNat) (hin : boff.toNat + len.toNat ≤ s.cfg.dbufSize) (hf : TransferAct ⟨dir, len, boff⟩ (f ())) :
    Triple (· = s.accept) (checkTransfer boff len >>= fun _ => startTransfer dir len.toNat boff >>= f)
      (fun _ => Transferring ⟨dir, len, boff⟩) (Ended.Transferring ⟨dir, len, boff⟩) := by
  refine triple_skip (fun t ht => ht ▸ checkTransfer_ok (s := s.accept) hsize hin) <|
    triple_upd_bind (R := Transferring ⟨dir, len, boff⟩) (fun t ht => ?_) hf
  subst ht
  refine ⟨hvisits, ?_⟩
  show TransferRegs.mk dir (BitVec.ofNat 32 len.toNat) boff = _
  rw [BitVec.ofNat_toNat, BitVec.setWidth_eq]

/-- A request that leaves a transfer in the registers leaves it there in its next state. -/
theorem transferRegs_of_next {m : Act Reg32} {s t : State}
    (hm : Triple (· = s.accept) m (fun _ => Transferring x) (Ended.Transferring x)) (hb : s.busy = false)
    (h : request m s = .next t) : t.transferRegs = x := by
  rcases hm.request_next rfl hb h with ⟨r, u, hu, rfl⟩ | hraised | hreset
  · exact hu.2
  · exact hraised
  · exact hreset.elim

end Pieces

section Requests

variable {s t : State} {boff len : Reg32} (hb : s.busy = false) (hvisits : s.env.visits = []) (hsize : transferLength len.toNat)
  (hin : boff.toNat + len.toNat ≤ s.cfg.dbufSize)
include hb hvisits hsize hin

theorem gbReadRam_transferRegs (h : exec (.gbReadRam boff len) s = .next t) : t.transferRegs = ⟨0, len, boff⟩ := by
  refine transferRegs_of_next (transferring_start 0 hvisits hsize hin ?_) hb h
  exact triple_bind (transferring_look _) fun _ => triple_bind (transferring_sendBuilt _) fun _ =>
    triple_bind (transferring_setXState _) fun _ => transferring_readLoop _

theorem gbWriteRam_transferRegs (h : exec (.gbWriteRam boff len) s = .next t) : t.transferRegs = ⟨1, len, boff⟩ := by
  refine transferRegs_of_next (transferring_start 1 hvisits hsize hin ?_) hb h
  exact triple_bind (transferring_look _) fun _ => triple_bind (transferring_sendBuilt _) fun _ =>
    triple_bind (transferring_setXState _) fun _ => triple_bind transferring_expectAck fun _ =>
    triple_bind (transferring_writeLoop _) fun _ => transferring_finishTransfer

end Requests

/-- A requester that does not act reads no packet byte. -/
theorem readsWritten_of_quiet {s : State} (h : s.env.visits = []) : s.ReadsWritten := by
  intro actions hmem
  rw [h] at hmem
  cases hmem

/-- GB_READ_RAM reads nothing of DBUF, so only the requester's own reads could stop it (I4). -/
theorem gbReadRam_next {s : State} (boff len : Reg32) (hvisits : s.env.visits = []) :
    ∃ t, exec (.gbReadRam boff len) s = .next t := by
  refine exec_next fun f h => ?_
  obtain ⟨-, -, hreason⟩ := exec_fault h
  simp [StopReason, readsWritten_of_quiet hvisits] at hreason

/-- GB_WRITE_RAM goes on where its region can be read (R61, I4). -/
theorem gbWriteRam_next {s : State} {boff len : Reg32} {data : List Byte} (hvisits : s.env.visits = [])
    (hdata : s.dbuf.getBytes boff.toNat len.toNat = some data) : ∃ t, exec (.gbWriteRam boff len) s = .next t := by
  refine exec_next fun f h => ?_
  obtain ⟨-, -, hreason⟩ := exec_fault h
  simp [StopReason, readsWritten_of_quiet hvisits, hdata] at hreason

theorem transferRegs_eq_iff {s : State} {dir : BitVec 2} {len boff : Reg32} :
    s.transferRegs = ⟨dir, len, boff⟩ ↔ s.xdir = dir ∧ s.xlen = len ∧ s.xboff = boff := by
  simp [State.transferRegs]

/-- Settles O24: the checks in their order, and what every piece of a transfer keeps of the registers set at its start. -/
theorem gbTransferChecks : Obligations.GbTransferChecks := by
  intro s boff len hb
  split
  · next hsize =>
    exact ⟨request_raises_first hb (checkTransfer_size hsize), request_raises_first hb (checkTransfer_size hsize)⟩
  next hsize =>
  have hsize : transferLength len.toNat := not_not.1 hsize
  split
  · next hout =>
    exact ⟨request_raises_first hb (checkTransfer_range (s := s.accept) hsize hout),
      request_raises_first hb (checkTransfer_range (s := s.accept) hsize hout)⟩
  next hin =>
  intro hvisits
  refine ⟨?_, fun data hdata => ?_⟩
  · obtain ⟨t, ht⟩ := gbReadRam_next boff len hvisits
    exact ⟨t, ht, transferRegs_eq_iff.1 (gbReadRam_transferRegs hb hvisits hsize (Nat.not_lt.1 hin) ht)⟩
  · obtain ⟨t, ht⟩ := gbWriteRam_next hvisits hdata
    exact ⟨t, ht, transferRegs_eq_iff.1 (gbWriteRam_transferRegs hb hvisits hsize (Nat.not_lt.1 hin) ht)⟩

end Sys2Proof.Machine
end

section
/-! SUPPORT. Fields put together and taken apart again: words of bytes, the request word (R90), the MD command byte (R95). -/

namespace Sys2Proof

/-- The bits of the upper part of two parts put together. -/
theorem extractLsb'_append_above {v w n start : Nat} {x : BitVec v} {y : BitVec w} {z : BitVec n} (h : w ≤ start)
    (hx : x.extractLsb' (start - w) n = z) : (x ++ y).extractLsb' start n = z :=
  (BitVec.extractLsb'_append_eq_of_le h).trans hx

@[simp] theorem hiByte_word16 (hi lo : Byte) : hiByte (word16 hi lo) = hi := BitVec.extractLsb'_append_eq_left

@[simp] theorem loByte_word16 (hi lo : Byte) : loByte (word16 hi lo) = lo := BitVec.extractLsb'_append_eq_right

@[simp] theorem word16_hiByte_loByte (v : Word) : word16 (hiByte v) (loByte v) = v :=
  (BitVec.extractLsb'_append_extractLsb'_eq_extractLsb' (start₁ := 0) (len₁ := 8) (len₂ := 8) rfl).trans
    BitVec.extractLsb'_eq_self

/-- A byte in a wider field is its low byte (R90). -/
@[simp] theorem loByte_setWidth (b : Byte) : loByte (b.setWidth 16) = b :=
  (BitVec.extractLsb'_setWidth_of_le (by decide)).trans BitVec.extractLsb'_eq_self

theorem bytes24_word24 (b2 b1 b0 : Byte) : bytes24 (word24 b2 b1 b0) = [b2, b1, b0] := by
  have h2 : (word24 b2 b1 b0).extractLsb' 16 8 = b2 :=
    extractLsb'_append_above (by decide) BitVec.extractLsb'_append_eq_left
  have h1 : (word24 b2 b1 b0).extractLsb' 8 8 = b1 :=
    extractLsb'_append_above (by decide) BitVec.extractLsb'_append_eq_right
  have h0 : (word24 b2 b1 b0).extractLsb' 0 8 = b0 := BitVec.extractLsb'_append_eq_right
  rw [bytes24, h2, h1, h0]

theorem word24_bytes (v : BitVec 24) : word24 (v.extractLsb' 16 8) (v.extractLsb' 8 8) (v.extractLsb' 0 8) = v := by
  have h : (v.extractLsb' 16 8 ++ v.extractLsb' 8 8 : BitVec 16) = v.extractLsb' 8 16 :=
    BitVec.extractLsb'_append_extractLsb'_eq_extractLsb' (start₁ := 8) rfl
  rw [word24, h]
  exact (BitVec.extractLsb'_append_extractLsb'_eq_extractLsb' (start₁ := 0) (len₁ := 8) (len₂ := 16) rfl).trans
    BitVec.extractLsb'_eq_self

/-- The fields of a request word are those it was made of (R90). -/
theorem requestFields_packRequest (f : RequestFields) : requestFields (packRequest f) = f := by
  obtain ⟨code, whence, rsvd, val, addr, len, boff⟩ := f
  simp only [requestFields, packRequest, RequestFields.mk.injEq]
  refine ⟨BitVec.extractLsb'_append_eq_right, ?_, ?_, ?_, ?_, ?_, ?_⟩
  · exact extractLsb'_append_above (by decide) BitVec.extractLsb'_append_eq_right
  · iterate 2 refine extractLsb'_append_above (by decide) ?_
    exact BitVec.extractLsb'_append_eq_right
  · iterate 3 refine extractLsb'_append_above (by decide) ?_
    exact BitVec.extractLsb'_append_eq_right
  · iterate 4 refine extractLsb'_append_above (by decide) ?_
    exact BitVec.extractLsb'_append_eq_right
  · iterate 5 refine extractLsb'_append_above (by decide) ?_
    exact BitVec.extractLsb'_append_eq_right
  · iterate 5 refine extractLsb'_append_above (by decide) ?_
    exact BitVec.extractLsb'_append_eq_left

/-- A command byte is its flags above its operation (R95). -/
theorem commandByte_append (b : Byte) : b = (b.extractLsb' 4 4 ++ b.extractLsb' 0 4 : BitVec 8) :=
  ((BitVec.extractLsb'_append_extractLsb'_eq_extractLsb' (start₁ := 0) (len₁ := 4) (len₂ := 4) rfl).trans
    BitVec.extractLsb'_eq_self).symm

@[simp] theorem commandByte_flags (flags op : BitVec 4) : (flags ++ op : BitVec 8).extractLsb' 4 4 = flags :=
  BitVec.extractLsb'_append_eq_left

@[simp] theorem commandByte_op (flags op : BitVec 4) : (flags ++ op : BitVec 8).extractLsb' 0 4 = op :=
  BitVec.extractLsb'_append_eq_right

theorem commandByte_low (flags op : BitVec 4) {n : Nat} (h : n ≤ 4) :
    (flags ++ op : BitVec 8).extractLsb' 0 n = op.extractLsb' 0 n :=
  BitVec.extractLsb'_append_eq_of_add_le (by omega)

/-- The command bytes of operations 6 and 7: their three upper operation bits are 011 (R97). -/
theorem append_op67 (flags : BitVec 4) (low : BitVec 1) :
    (flags ++ 3#3 ++ low : BitVec 8) = (flags ++ (3#3 ++ low : BitVec 4) : BitVec 8) :=
  BitVec.append_assoc

/-- The command bytes of operations 8 to 15: their upper operation bit is 1 (R97). -/
theorem append_op8F (flags : BitVec 4) (low : BitVec 3) :
    (flags ++ 1#1 ++ low : BitVec 8) = (flags ++ (1#1 ++ low : BitVec 4) : BitVec 8) :=
  BitVec.append_assoc

/-- What is shown for every flag and operation field is shown for every command byte (R95). -/
theorem commandByte_cases {motive : Byte → Prop} (append : ∀ flags op : BitVec 4, motive (flags ++ op : BitVec 8)) (b : Byte) :
    motive b := by
  rw [commandByte_append b]
  exact append _ _

/-- A field is one of its finitely many numbers. -/
theorem bitVec_cases {w : Nat} {motive : BitVec w → Prop} (ofNat : ∀ n < 2 ^ w, motive (BitVec.ofNat w n)) (v : BitVec w) :
    motive v := by
  have h := ofNat v.toNat v.isLt
  rwa [BitVec.ofNat_toNat, BitVec.setWidth_eq] at h

end Sys2Proof
end

section
/-! SUPPORT. The decoders and the encoder against each other: request words (R90 to R94), MD frames (R95 to R99) and GB packets (R102 to
R110), each by lemmas that all instructions of the interface share. -/

namespace Sys2Proof

/-! ### Request words -/

theorem decodeRequest_badCode {w : BitVec 128} (h : requestInstr (requestFields w) = none) :
    decodeRequest w = .error (.badCode (w.extractLsb' 0 8)) := by
  simp only [decodeRequest, h]
  rfl

/-- RSVD is checked after the code (R91, R322). -/
theorem decodeRequest_rsvd {w : BitVec 128} {i : Instr} (h : requestInstr (requestFields w) = some i)
    (hrsvd : w.extractLsb' 10 6 ≠ 0) : decodeRequest w = .error (.rsvdBits ((w.extractLsb' 10 6).setWidth 8)) := by
  simp only [decodeRequest, h]
  exact if_pos hrsvd

/-- WHENCE is checked last, and is MD_SEEK's alone (R91, R322). -/
theorem decodeRequest_whence {w : BitVec 128} {i : Instr} (h : requestInstr (requestFields w) = some i)
    (hrsvd : w.extractLsb' 10 6 = 0) (hwhence : w.extractLsb' 8 2 ≠ 0 ∧ w.extractLsb' 0 8 ≠ 0x30) :
    decodeRequest w = .error (.rsvdBits ((w.extractLsb' 8 2).setWidth 8)) := by
  simp only [decodeRequest, h]
  exact (if_neg (not_not_intro hrsvd)).trans (if_pos hwhence)

theorem decodeRequest_ok {w : BitVec 128} {i : Instr} (h : requestInstr (requestFields w) = some i)
    (hrsvd : w.extractLsb' 10 6 = 0) (hwhence : ¬(w.extractLsb' 8 2 ≠ 0 ∧ w.extractLsb' 0 8 ≠ 0x30)) :
    decodeRequest w = .ok i := by
  simp only [decodeRequest, h]
  exact (if_neg (not_not_intro hrsvd)).trans (if_neg hwhence)

theorem requestInstr_of_decodeRequest {w : BitVec 128} {i : Instr} (h : decodeRequest w = .ok i) :
    requestInstr (requestFields w) = some i := by
  unfold decodeRequest at h
  dsimp only at h
  split at h
  · cases h
  · next hi =>
    split at h
    · cases h
    · split at h <;> cases h
      exact hi

/-- A request made of the fields of an instruction is decoded to it (R90, R92). -/
theorem decode_requestCode {f : RequestFields} {i : Instr} {devLen : Word} (hi : requestInstr f = some i) (hrsvd : f.rsvd = 0)
    (hwhence : f.whence = 0 ∨ f.code = 0x30) : decode devLen (requestCode f) = .ok i := by
  have hf : requestFields (packRequest f) = f := requestFields_packRequest f
  refine decodeRequest_ok (hf.symm ▸ hi) ((congrArg RequestFields.rsvd hf).trans hrsvd) fun h => ?_
  have hbad : f.whence ≠ 0 ∧ f.code ≠ 0x30 := hf ▸ h
  exact hwhence.elim hbad.1 hbad.2

theorem wellFormed_of_requestInstr {f : RequestFields} {i : Instr} (h : requestInstr f = some i) : i.wellFormed = true := by
  unfold requestInstr at h
  split at h <;> cases h <;> rfl

/-! ### MD frames -/

theorem encode_rdInstr (flags : BitVec 4) : encode (rdInstr flags) = .frame [(flags ++ 2#4 : BitVec 8)] := by
  induction flags using bitVec_cases with
  | ofNat n hn => interval_cases n <;> rfl

theorem encode_wrInstr (flags : BitVec 4) (data : List Byte) :
    encode (wrInstr flags data) = .frame ((flags ++ 3#4 : BitVec 8) :: data) := by
  induction flags using bitVec_cases with
  | ofNat n hn => interval_cases n <;> rfl

theorem wellFormed_rdInstr (flags : BitVec 4) : (rdInstr flags).wellFormed = true := by
  induction flags using bitVec_cases with
  | ofNat n hn => interval_cases n <;> rfl

/-- Which WR frames are well formed, by their flags alone (R98). -/
theorem wellFormed_wrInstr (flags : BitVec 4) (data : List Byte) : (wrInstr flags data).wellFormed =
    if (mdFlags flags).single then decide (data.length = mdUnitBytes (mdFlags flags))
    else if (mdFlags flags).mode8 then bulkBytes data else bulkWords data := by
  induction flags using bitVec_cases with
  | ofNat n hn => interval_cases n <;> rfl

/-- How many units DEV_LEN must announce for a WR frame: those of its data, unless it has SINGLE (R98, R300). -/
theorem bulkUnits_wrInstr (flags : BitVec 4) (data : List Byte) : (wrInstr flags data).bulkUnits =
    if (mdFlags flags).single then none else some (data.length / mdUnitBytes (mdFlags flags)) := by
  induction flags using bitVec_cases with
  | ofNat n hn => interval_cases n <;> simp [wrInstr, Instr.bulkUnits, mdFlags, mdUnitBytes]

/-- A WR frame has as many data bytes as its flags and DEV_LEN ask for exactly where it is well formed and DEV_LEN announces its units
(R98). -/
theorem wrInstr_whole_iff (flags : BitVec 4) (data : List Byte) (devLen : Word) :
    data.length = wrDataLength (mdFlags flags) devLen ↔ (wrInstr flags data).wellFormed = true ∧
      ∀ n, (wrInstr flags data).bulkUnits = some n → devLen.toNat = n := by
  have hdev : devLen.toNat < 65536 := devLen.isLt
  rw [wellFormed_wrInstr, bulkUnits_wrInstr]
  cases hs : (mdFlags flags).single <;> cases hm : (mdFlags flags).mode8 <;>
    simp [wrDataLength, mdUnits, mdUnitBytes, bulkBytes, bulkWords, hs, hm] <;> omega

/-- What a command byte of a kind is: an operation without flags, one with any flags, or a byte of a reserved class (R96, R97). -/
def MdKind.Fits (b : Byte) : MdKind → Prop
  | .addr => b = 0x00
  | .len => b = 0x01
  | .ry => b = 0x04
  | .delay => b = 0x05
  | .rd => b = (b.extractLsb' 4 4 ++ 2#4 : BitVec 8)
  | .wr => b = (b.extractLsb' 4 4 ++ 3#4 : BitVec 8)
  | .reserved => encode (reservedInstr b) = .frame [b] ∧ (reservedInstr b).wellFormed = true

/-- The kind of every command byte, by its 16 operations without and with flags (R96, R97). -/
theorem mdKind_fits (b : Byte) : (mdKind b).Fits b := by
  induction b using commandByte_cases with
  | append flags op =>
  induction op using bitVec_cases with
  | ofNat n hn =>
  by_cases hflags : flags = 0#4 <;> interval_cases n <;>
    simp [mdKind, MdKind.Fits, reservedInstr, encode, Instr.wellFormed, append_op67, append_op8F, commandByte_low, hflags]

theorem reserved_op67 (flags : BitVec 4) (low : BitVec 1) :
    mdKind (flags ++ 3#3 ++ low : BitVec 8) = .reserved ∧
      reservedInstr (flags ++ 3#3 ++ low : BitVec 8) = .mdReservedOp67 low flags := by
  rw [append_op67]
  induction low using bitVec_cases with
  | ofNat n hn => interval_cases n <;> simp [mdKind, reservedInstr, commandByte_low]

theorem reserved_op8F (flags : BitVec 4) (low : BitVec 3) :
    mdKind (flags ++ 1#1 ++ low : BitVec 8) = .reserved ∧
      reservedInstr (flags ++ 1#1 ++ low : BitVec 8) = .mdReservedOp8F low flags := by
  rw [append_op8F]
  induction low using bitVec_cases with
  | ofNat n hn => interval_cases n <;> simp [mdKind, reservedInstr, commandByte_low]

/-! ### The first frame of a stream -/

/-- DEV_LEN announces the units of a bulk WR frame (R98, R300). -/
def Instr.Announced (i : Instr) (devLen : Word) : Prop := ∀ n, i.bulkUnits = some n → devLen.toNat = n

/-- A WR frame takes the data bytes that its flags and DEV_LEN ask for (R98). -/
theorem decodeFrame_wr {devLen : Word} {b : Byte} {data rest : List Byte} {i : Instr} (hb : mdKind b = .wr)
    (hi : wrInstr (b.extractLsb' 4 4) data = i) (hwf : i.wellFormed = true) (hann : i.Announced devLen) :
    decodeFrame devLen (b :: data ++ rest) = .ok (i, rest) := by
  subst hi
  have hl : data.length = wrDataLength (mdFlags (b.extractLsb' 4 4)) devLen := (wrInstr_whole_iff _ _ _).2 ⟨hwf, hann⟩
  simp [decodeFrame, hb, ← hl]

theorem decodeFrame_reserved {devLen : Word} {b : Byte} {i : Instr} {rest : List Byte}
    (h : mdKind b = .reserved ∧ reservedInstr b = i) : decodeFrame devLen (b :: rest) = .ok (i, rest) := by
  simp [decodeFrame, h]

/-- An instruction without bulk units has nothing to announce (R98). -/
theorem announced_of_bulkUnits {i : Instr} {devLen : Word} (h : i.bulkUnits = none) : i.Announced devLen := by
  intro n hn
  cases h.symm.trans hn

theorem bulkUnits_rdInstr (flags : BitVec 4) : (rdInstr flags).bulkUnits = none := by
  induction flags using bitVec_cases with
  | ofNat n hn => interval_cases n <;> rfl

theorem bulkUnits_reservedInstr (b : Byte) : (reservedInstr b).bulkUnits = none := by
  unfold reservedInstr
  dsimp only
  split <;> rfl

/-- A well-formed frame is decoded from its bytes, whatever follows them (R95 to R99). -/
theorem decodeFrame_encode {i : Instr} {bytes : List Byte} {devLen : Word} (h : encode i = .frame bytes)
    (hwf : i.wellFormed = true) (hann : i.Announced devLen) (rest : List Byte) :
    decodeFrame devLen (bytes ++ rest) = .ok (i, rest) := by
  cases i with
  | wr | wrMode8 | wrDevId | wrMode8DevId | wrSingle | wrMode8Single | wrDevIdSingle | wrMode8DevIdSingle | wrInc | wrMode8Inc
  | wrDevIdInc | wrMode8DevIdInc | wrSingleInc | wrMode8SingleInc | wrDevIdSingleInc | wrMode8DevIdSingleInc =>
    cases h
    exact decodeFrame_wr rfl rfl hwf hann
  | mdReservedOp67 low flags =>
    cases h
    exact decodeFrame_reserved (reserved_op67 flags low)
  | mdReservedOp8F low flags =>
    cases h
    exact decodeFrame_reserved (reserved_op8F flags low)
  | mdReservedAddrWithFlags flags | mdReservedLenWithFlags flags | mdReservedRyWithFlags flags | mdReservedDelayWithFlags flags =>
    cases h
    have hflags : flags ≠ 0#4 := of_decide_eq_true hwf
    exact decodeFrame_reserved ⟨by simp [mdKind, hflags], by simp [reservedInstr]⟩
  | addr | len | ry | delay | rd | rdMode8 | rdDevId | rdMode8DevId | rdSingle | rdMode8Single | rdDevIdSingle
  | rdMode8DevIdSingle | rdInc | rdMode8Inc | rdDevIdInc | rdMode8DevIdInc | rdSingleInc | rdMode8SingleInc | rdDevIdSingleInc
  | rdMode8DevIdSingleInc =>
    cases h
    rfl
  | _ => cases h

/-- What is decoded as a frame is a well-formed instruction whose bytes stand first (R95 to R99). -/
theorem decodeFrame_ok {devLen : Word} {bytes rest : List Byte} {i : Instr} (h : decodeFrame devLen bytes = .ok (i, rest)) :
    ∃ front, encode i = .frame front ∧ bytes = front ++ rest ∧ i.wellFormed = true ∧ i.Announced devLen := by
  cases bytes with
  | nil => cases h
  | cons b more =>
    have hb := mdKind_fits b
    unfold decodeFrame at h
    cases hk : mdKind b <;> simp only [hk, MdKind.Fits] at h hb
    case addr | len | delay =>
      split at h <;> cases h
      exact ⟨_, rfl, by rw [hb]; rfl, rfl, nofun⟩
    case ry =>
      cases h
      exact ⟨_, rfl, by rw [hb]; rfl, rfl, nofun⟩
    case rd =>
      cases h
      exact ⟨_, encode_rdInstr _, by rw [← hb]; rfl, wellFormed_rdInstr _, announced_of_bulkUnits (bulkUnits_rdInstr _)⟩
    case wr =>
      split at h <;> cases h
      next hlen =>
      exact ⟨_, encode_wrInstr _ _, by rw [← hb, List.cons_append, List.take_append_drop],
        (wrInstr_whole_iff _ _ _).1 (List.length_take_of_le (Nat.not_lt.1 hlen))⟩
    case reserved =>
      cases h
      exact ⟨_, hb.1, rfl, hb.2, announced_of_bulkUnits (bulkUnits_reservedInstr b)⟩

/-- A frame is decoded whatever bytes follow it (R290). -/
theorem decodeFrame_append {devLen : Word} {bytes rest : List Byte} {i : Instr} (h : decodeFrame devLen bytes = .ok (i, rest))
    (more : List Byte) : decodeFrame devLen (bytes ++ more) = .ok (i, rest ++ more) := by
  obtain ⟨front, henc, rfl, hwf, hann⟩ := decodeFrame_ok h
  rw [List.append_assoc]
  exact decodeFrame_encode henc hwf hann _

/-! ### GB packets -/

/-- What dataInstr makes of a command and a subcommand (R105, R106): both are in range, and the packet is theirs. -/
theorem dataInstr_some {m sub : Byte} {index : BitVec 24} {frame : List Byte} {trailer : Word} {i : Instr}
    (h : dataInstr m sub index frame trailer = some i) :
    subCount m ≠ 0 ∧ sub.toNat < subCount m ∧ encode i = .packet (dataPacket m sub index frame trailer) ∧
      i.wellFormed = decide (frame.length = 64) := by
  unfold dataInstr at h
  split at h <;> cases h
  all_goals
    next hm hs =>
    obtain ⟨-, rfl⟩ := BitVec.toNat_eq_nat.1 hm
    obtain ⟨-, rfl⟩ := BitVec.toNat_eq_nat.1 hs
    exact ⟨by decide, by decide, rfl, rfl⟩

/-- A DATA packet is decoded from its command, subcommand, index, frame and trailer (R104). -/
theorem decode_dataPacket {m sub : Byte} {index : BitVec 24} {frame : List Byte} {trailer : Word} {i : Instr} {devLen : Word}
    (h : dataInstr m sub index frame trailer = some i) (hl : frame.length = 64) :
    decode devLen (.packet (dataPacket m sub index frame trailer)) = .ok i := by
  obtain ⟨hm, hs, -, -⟩ := dataInstr_some h
  simp [decode, decodePacket, dataPacket, bytes24, hm, Nat.not_le.2 hs, word24_bytes, ← hl, h, ctlData, ctlAck, ctlNak, ctlEnd]

/-- What is decoded as a packet is a control packet, or the DATA packet of a command and subcommand (R102 to R106). -/
theorem decodePacket_ok {p : List Byte} {i : Instr} (h : decodePacket p = .ok i) :
    (i, p) ∈ [(Instr.gbAck, [ctlAck]), (Instr.gbNak, [ctlNak]), (Instr.gbEnd, [ctlEnd])] ∨
    ∃ m sub index frame trailer, dataInstr m sub index frame trailer = some i ∧ frame.length = 64 ∧
      p = dataPacket m sub index frame trailer := by
  unfold decodePacket at h
  split at h
  · cases h
  · next c =>
    split at h
    · next hc => cases h; rw [hc]; simp
    split at h
    · next hc => cases h; rw [hc]; simp
    split at h
    · next hc => cases h; rw [hc]; simp
    split at h <;> cases h
  · next c m s rest =>
    split at h
    · cases h
    split at h
    · cases h
    next hc =>
    split at h
    · cases h
    split at h
    · cases h
    split at h
    case h_2 => cases h
    next b3 b4 b5 body =>
    split at h
    case h_2 => cases h
    next t1 t0 hbody =>
    split at h
    case h_2 => cases h
    next hi =>
    cases h
    have hlen := congrArg List.length hbody
    simp only [List.length_drop, List.length_cons, List.length_nil] at hlen
    refine .inr ⟨m, s, _, _, _, hi, by rw [List.length_take]; omega, ?_⟩
    rw [dataPacket, bytes24_word24, hiByte_word16, loByte_word16, List.append_assoc, List.append_assoc, ← hbody,
      List.take_append_drop, not_not.1 hc]
    rfl
  · cases h

theorem encode_of_decodePacket {p : List Byte} {i : Instr} (h : decodePacket p = .ok i) :
    encode i = .packet p ∧ i.wellFormed = true := by
  rcases decodePacket_ok h with hctl | ⟨m, sub, index, frame, trailer, hi, hl, rfl⟩
  · simp only [List.mem_cons, List.not_mem_nil, or_false, Prod.mk.injEq] at hctl
    obtain ⟨rfl, rfl⟩ | ⟨rfl, rfl⟩ | ⟨rfl, rfl⟩ := hctl <;> exact ⟨rfl, rfl⟩
  · obtain ⟨-, -, henc, hwf⟩ := dataInstr_some hi
    exact ⟨henc, hwf.trans (decide_eq_true hl)⟩

/-! ### All three interfaces -/

theorem decode_frame {devLen : Word} {bytes : List Byte} {i : Instr} :
    decode devLen (.frame bytes) = .ok i ↔ decodeFrame devLen bytes = .ok (i, []) := by
  unfold decode
  cases h : decodeFrame devLen bytes with
  | error e => simp [h]
  | ok r =>
    obtain ⟨j, rest⟩ := r
    cases rest <;> simp [h]

/-- A well-formed frame is decoded from its bytes alone (R95 to R99). -/
theorem decode_encode_frame {i : Instr} {bytes : List Byte} {devLen : Word} (h : encode i = .frame bytes)
    (hwf : i.wellFormed = true) (hann : i.Announced devLen) : decode devLen (encode i) = .ok i := by
  rw [h, decode_frame, ← List.append_nil bytes]
  exact decodeFrame_encode h hwf hann []

/-- Settles O8: a request by its fields, a DATA packet by its command and subcommand, a frame by its command byte. -/
theorem decodeEncode : Obligations.DecodeEncode := by
  intro i devLen hwf hann
  cases i with
  | crcClear | crcBlock | pktSend | pktReceive | pktCheck | gbReadRam | gbWriteRam | gbReadDeviceStatus | gbReadStatus
  | mdRead | mdWrite | mdReadWord | mdWriteWord | mdRamEnable | mdRamDisable | mdGetId | mdHandshake | mdFlashErase
  | mdFlashUnlockBypass | mdFlashResetBypass | mdFlashWrite => exact decode_requestCode rfl rfl (.inl rfl)
  | mdSeek => exact decode_requestCode rfl rfl (.inr rfl)
  | crcByte | mdWriteByte => exact decode_requestCode (by simp [requestInstr, codeOnly]) rfl (.inl rfl)
  | pktBuild c m sub index boff =>
    have hsub : (sub ++ index : Reg32).extractLsb' 24 8 = sub := BitVec.extractLsb'_append_eq_left
    have hindex : (sub ++ index : Reg32).extractLsb' 0 24 = index := BitVec.extractLsb'_append_eq_right
    exact decode_requestCode (by simp [requestInstr, codeOnly, hsub, hindex]) rfl (.inl rfl)
  | gbAck | gbNak | gbEnd => rfl
  | gbDataConfigRrom | gbDataConfigRram | gbDataConfigWrom | gbDataConfigWram | gbDataNormalData | gbDataLastData
  | gbDataEraseEfla | gbDataEraseEram | gbDataStatusNreadId | gbDataStatusReadId =>
    exact decode_dataPacket rfl (of_decide_eq_true hwf)
  | _ => exact decode_encode_frame rfl hwf hann

/-- Settles O9: decoding a frame or a packet finds an instruction that encodes to what was decoded. -/
theorem decodeIsInverse : Obligations.DecodeIsInverse := by
  refine ⟨fun devLen c i h => ?_, fun devLen bytes i rest h => ?_, fun p i h => (encode_of_decodePacket h).1⟩
  · cases c with
    | request w => exact wellFormed_of_requestInstr (requestInstr_of_decodeRequest h)
    | frame bytes =>
      obtain ⟨front, -, -, hwf, -⟩ := decodeFrame_ok (decode_frame.1 h)
      exact hwf
    | packet p => exact (encode_of_decodePacket h).2
  · obtain ⟨front, henc, hbytes, -, -⟩ := decodeFrame_ok h
    rw [hbytes, frameBytes, henc]

end Sys2Proof
end

section
/-! SUPPORT. A step takes the instruction that a word stands for, or rejects the word (R22, R91, R93, R320, R322). -/

namespace Sys2Proof.Machine

/-- The codes of R92 are those that name a request (R93). -/
theorem requestInstr_isSome_iff (f : RequestFields) : (requestInstr f).isSome = true ↔
    f.code ∈ ([0x01, 0x02, 0x03, 0x10, 0x11, 0x12, 0x13, 0x20, 0x21, 0x22, 0x23, 0x30, 0x31, 0x32, 0x33, 0x34, 0x35, 0x36,
      0x37, 0x38, 0x39, 0x40, 0x41, 0x42, 0x43] : List Byte) := by
  constructor
  · intro h
    unfold requestInstr at h
    split at h
    case h_26 => cases h
    all_goals
      next hcode =>
      rw [(BitVec.toNat_eq_nat.1 hcode).2]
      decide
  · intro h
    obtain ⟨code, whence, rsvd, val, addr, len, boff⟩ := f
    dsimp only at h
    fin_cases h <;> rfl

theorem isRequest_of_requestInstr {f : RequestFields} {i : Instr} (h : requestInstr f = some i) : isRequest i = true := by
  unfold requestInstr at h
  split at h <;> cases h <;> rfl

/-- A request that only raises changes what an error changes (R330). -/
theorem request_raise {s : State} (hb : s.busy = false) (e : Err) {n : Nat} (v : BitVec n) :
    request (raise e v.toNat) s = .next (s.raised e.kind e.sub (v.setWidth 32)) := by
  rw [request_ready hb, runRequest_raised (raise_run _ _ _), BitVec.ofNat_toNat]
  rfl

theorem rejectRequest_badCode {s : State} (hb : s.busy = false) (c : Byte) :
    rejectRequest (.badCode c) s = .next (s.raised 7 1 ((s.req.extractLsb' 0 8).setWidth 32)) :=
  request_raise hb .badCode _

theorem rejectRequest_rsvdBits {s : State} (hb : s.busy = false) {n : Nat} (hn : n ≤ 8) (v : BitVec n) :
    rejectRequest (.rsvdBits (v.setWidth 8)) s = .next (s.raised 7 2 (v.setWidth 32)) := by
  have hv : (v.setWidth 8).setWidth 32 = v.setWidth 32 := BitVec.setWidth_setWidth (by omega)
  rw [← hv]
  exact request_raise hb .rsvdBits _

theorem step_rejects {s : State} {w : BitVec 128} {rest : List PortAction} {e : DecodeError} (hpeer : s.peerPending = false)
    (hpkt : s.pktPort = []) (hport : s.port = .writeReq w :: rest) (hb : s.busy = false) (he : decodeRequest w = .error e) :
    step s = rejectRequest e { s with port := rest, req := w } := by
  have hf : fetch s = writeRequest w { s with port := rest } := by simp [fetch, hpeer, hpkt, hport, portAction]
  simp [step, hf, writeRequest, hb, he]

/-- Settles O10: a code of R92 names a request, and a word that fails a check raises IllegalRequest. -/
theorem requestWordChecks : Obligations.RequestWordChecks := by
  intro s w rest hpeer hpkt hport hb
  have hu : State.busy { s with port := rest, req := w } = false := hb
  have hcode := requestInstr_isSome_iff (requestFields w)
  split
  · next hbad =>
    have hnone : requestInstr (requestFields w) = none := Option.not_isSome_iff_eq_none.1 fun h => hbad (hcode.1 h)
    exact (step_rejects hpeer hpkt hport hb (decodeRequest_badCode hnone)).trans (rejectRequest_badCode hu _)
  next hgood =>
  obtain ⟨i, hi⟩ := Option.isSome_iff_exists.1 (hcode.2 (not_not.1 hgood))
  split
  · next hrsvd =>
    exact (step_rejects hpeer hpkt hport hb (decodeRequest_rsvd hi hrsvd)).trans (rejectRequest_rsvdBits hu (by omega) _)
  next hrsvd =>
  have hrsvd : w.extractLsb' 10 6 = 0 := not_not.1 hrsvd
  split
  · next hwhence =>
    exact (step_rejects hpeer hpkt hport hb (decodeRequest_whence hi hrsvd hwhence)).trans
      (rejectRequest_rsvdBits hu (by omega) _)
  · next hwhence => exact ⟨i, decodeRequest_ok hi hrsvd hwhence, isRequest_of_requestInstr hi⟩

/-- Settles O7: placed on its interface, a code is what that interface serves next. -/
theorem fetchWordRunsFirst : Obligations.FetchWordRunsFirst := by
  obtain ⟨hrequest, hpacket, hframe⟩ := stepRunsDecoded
  intro s nbits w i h
  unfold State.withFetchWord
  generalize tableCode s.peer.devLen nbits w = c at h ⊢
  cases c with
  | request word => exact hrequest _ word i s.port (by simp [placeCode, State.peerPending]) rfl rfl rfl h
  | packet p => exact hpacket _ p i s.pktPort (by simp [placeCode, State.peerPending]) rfl h
  | frame bytes => exact hframe _ i s.peer.inbox rfl rfl (decodeFrame_append (decode_frame.1 h) s.peer.inbox)

/-- Settles O11: each word evaluated. -/
theorem decodeWords : Obligations.DecodeWords :=
  ⟨rfl, rfl, rfl, rfl, rfl, rfl, rfl, rfl, rfl, rfl⟩

end Sys2Proof.Machine
end

section
/-! SUPPORT. What PKT_RECEIVE, the reserved frames and the GB packets do (R102 to R106, R156, R305). -/

namespace Sys2Proof.Machine

/-- PKT_RECEIVE completes with the length and the first byte of what was received (R156). -/
theorem exec_pktReceive {s t : State} {p : List Byte} {n : Nat} (hb : s.busy = false) (h : receivePacket s.accept = .ok p t)
    (hn : p.length * 256 + (packetByte p 0).toNat = n) : exec .pktReceive s = .next (t.complete (BitVec.ofNat 32 n)) := by
  subst hn
  have hbody : pktReceiveBody s.accept = _ := act_bind_ok h
  exact (request_ready hb).trans (runRequest_ok hbody)

/-- Settles O19: PKT_RECEIVE is one ReceivePacket, of a control byte or of a whole DATA packet. -/
theorem pktReceiveCompletes : Obligations.PktReceiveCompletes := by
  constructor
  · intro s c more rest ⟨hb, hvisits⟩ hgb hrx hc
    have hreceive : receivePacket s.accept = _ := receivePacket_control hvisits hgb hrx hc
    exact exec_pktReceive hb hreceive (by simp [packetByte])
  · intro s more body rest ⟨hb, hvisits⟩ hgb hrx hlen
    have hreceive : receivePacket s.accept = _ := receivePacket_data hvisits hgb hrx hlen
    exact exec_pktReceive (n := 0x4855) hb hreceive (by simp [packetByte, ctlData, hlen])

/-- Whatever a frame does in state OP, it does nothing in state UNDEF (R305). -/
theorem mdFrame_undef {i : Instr} {effect : State → State} {s : State} (h : s.peer.ps = .undef) :
    mdFrame i effect s = .next s := by
  simp [mdFrame, h, peerFeed_undef]

theorem wrFrame_undef {i : Instr} {f : MdFlags} {data : List Byte} {s : State} (h : s.peer.ps = .undef) :
    wrFrame i f data s = .next s := by
  simp [wrFrame, h, peerFeed_undef]

theorem exec_frame_undef {i : Instr} {s : State} (h : s.peer.ps = .undef) (hi : frameBytes i ≠ []) : exec i s = .next s := by
  cases i with
  | wr | wrMode8 | wrDevId | wrMode8DevId | wrSingle | wrMode8Single | wrDevIdSingle | wrMode8DevIdSingle | wrInc | wrMode8Inc
  | wrDevIdInc | wrMode8DevIdInc | wrSingleInc | wrMode8SingleInc | wrDevIdSingleInc | wrMode8DevIdSingleInc =>
    exact wrFrame_undef h
  | addr | len | ry | delay | rd | rdMode8 | rdDevId | rdMode8DevId | rdSingle | rdMode8Single | rdDevIdSingle
  | rdMode8DevIdSingle | rdInc | rdMode8Inc | rdDevIdInc | rdMode8DevIdInc | rdSingleInc | rdMode8SingleInc | rdDevIdSingleInc
  | rdMode8DevIdSingleInc | mdReservedOp67 | mdReservedOp8F | mdReservedAddrWithFlags | mdReservedLenWithFlags
  | mdReservedRyWithFlags | mdReservedDelayWithFlags => exact mdFrame_undef h
  | _ => exact absurd rfl hi

/-- Settles O52: the reserved frames share one effect, and state UNDEF takes every byte without effect. -/
theorem reservedFrames : Obligations.ReservedFrames := by
  refine ⟨fun s i flags low1 low3 hop hi => ?_, fun s b hop hb => ?_, fun s i fam hundef hi => ⟨exec_frame_undef hundef hi, ?_⟩⟩
  · simp only [List.mem_cons, List.not_mem_nil, or_false] at hi
    rcases hi with rfl | rfl | rfl | rfl | rfl | rfl <;> exact mdFrame_op hop
  · simp only [peerByte, hop, peerCommand, hb]
    rfl
  · simp [State.repliesBound, hundef]

/-- A packet sent outside a request is sent as in one, the requester's actions kept for the next one (log entry 10). -/
theorem sendAlone_ok {p : List Byte} {s t : State} {n : Nat}
    (h : sendBuilt p { s with env := { s.env with visits := [] } } = .ok n t) :
    sendAlone p s = .next { t with env := { t.env with visits := s.env.visits } } := by
  simp only [sendAlone, h]

/-- The CRC of a packet is over the 70 bytes before its trailer (R136). -/
theorem packetCrc_append {q : List Byte} (hq : q.length = 70) (tail : List Byte) : packetCrc (q ++ tail) = crc16 0x0000 q := by
  rw [packetCrc, ← hq, List.take_left]

theorem withTrailer_append {q : List Byte} (hq : q.length = 70) (t1 t0 : Byte) :
    withTrailer (q ++ [t1, t0]) = q ++ [hiByte (crc16 0x0000 q), loByte (crc16 0x0000 q)] := by
  rw [withTrailer, if_pos (by simp [hq]), packetCrc_append hq, ← hq, List.take_left]

section Send

variable {s : State} {k : Nat} {rest : List TxDraw}

/-- A control packet sent outside a request (R102, R103, R155). -/
theorem sendAlone_control (c : Byte) (htx : s.env.tx = .accepted k :: rest) (hk : 1 ≤ k) :
    sendAlone [c] s = .next (State.sent [c] rest { s with txpkt := s.txpkt.set 0 c, txlen := 1 }) := by
  have hbuilt : sendBuilt [c] { s with env := { s.env with visits := [] } } = _ :=
    (sendBuilt_eq _ _).trans (sendPacket_control rfl htx hk)
  rw [sendAlone_ok hbuilt, transmit_eq_sent]
  rfl

theorem buildPacket_data {p : List Byte} (hp : p.length = 72) (s : State) :
    buildPacket p s = { s with txpkt := s.txpkt.setBytes 0 p, txlen := 72 } := if_pos hp

/-- A DATA packet sent outside a request, its trailer computed over the 70 bytes before it (R104, R153). -/
theorem sendAlone_data {q : List Byte} (hq : q.length = 70) (t1 t0 : Byte) (htx : s.env.tx = .accepted k :: rest) (hk : 72 ≤ k) :
    sendAlone (q ++ [t1, t0]) s = .next (State.sent (q ++ [hiByte (crc16 0x0000 q), loByte (crc16 0x0000 q)]) rest { s with
      txpkt := (s.txpkt.setBytes 0 (q ++ [t1, t0])).setBytes 70 [hiByte (crc16 0x0000 q), loByte (crc16 0x0000 q)]
      txlen := 72
      crc := crc16 0x0000 q }) := by
  have hp : (q ++ [t1, t0]).length = 72 := by simp [hq]
  have hbuilt : sendBuilt (q ++ [t1, t0]) { s with env := { s.env with visits := [] } } = .ok 72 (State.sent _ rest _) :=
    (sendBuilt_eq _ _).trans ((sendPacket_data hp (by simp) (by simpa using htx) hk).trans
      (congrArg (EStateM.Result.ok 72) (transmit_eq_sent _ _ (sealPacket _ (buildPacket _ _)))))
  rw [sendAlone_ok hbuilt, buildPacket_data hp, withTrailer_append hq, ← packetCrc_append hq [t1, t0]]
  rfl

end Send

/-- Settles O55: the three control packets differ in their byte only, the ten DATA packets in their command and subcommand. -/
theorem gbPacketsSend : Obligations.GbPacketsSend := by
  refine ⟨fun s k rest htx hk => ?_, fun s k rest index frame trailer htx hk hlen => ?_⟩
  · have hsend (c : Byte) := sendAlone_control c htx hk
    simp only [List.forall_mem_cons]
    exact ⟨hsend _, hsend _, hsend _, nofun⟩
  · have hsend (m sub : Byte) := sendAlone_data (q := [ctlData, m, sub] ++ bytes24 index ++ frame) (by simp [bytes24, hlen])
      (hiByte trailer) (loByte trailer) htx hk
    simp only [List.forall_mem_cons]
    exact ⟨hsend 0 0, hsend 0 1, hsend 0 2, hsend 0 3, hsend 1 0, hsend 2 0, hsend 3 0, hsend 3 1, hsend 4 0, hsend 4 1, nofun⟩

end Sys2Proof.Machine
end

section
/-! SUPPORT. The CRC register (R131): every shift is linear over exclusive or and loses nothing, so the CRCs of two sequences differ
by the CRC of the sequences' difference. -/

namespace Sys2Proof.Machine

/-! ### Shifts -/

/-- A shift is to the left by one bit, and the bit that leaves comes back as the polynomial. -/
theorem crcShift_eq (c : Word) : crcShift c = c <<< 1 ^^^ if c.getLsbD 15 then crcPoly else 0 := by
  unfold crcShift
  split
  · rfl
  · exact BitVec.xor_zero.symm

theorem crcShift_xor (c d : Word) : crcShift (c ^^^ d) = crcShift c ^^^ crcShift d := by
  have hcarry : (if (c ^^^ d).getLsbD 15 then crcPoly else 0) =
      (if c.getLsbD 15 then crcPoly else 0) ^^^ if d.getLsbD 15 then crcPoly else 0 := by
    rw [BitVec.getLsbD_xor]
    cases c.getLsbD 15 <;> cases d.getLsbD 15 <;> rfl
  rw [crcShift_eq, crcShift_eq c, crcShift_eq d, hcarry, BitVec.shiftLeft_xor_distrib]
  ac_rfl

/-- The polynomial is odd, so bit 0 tells which bit has left. -/
theorem crcShift_getLsbD_zero (c : Word) : (crcShift c).getLsbD 0 = c.getLsbD 15 := by
  rw [crcShift_eq, BitVec.getLsbD_xor, BitVec.getLsbD_shiftLeft]
  cases c.getLsbD 15 <;> rfl

theorem crcShift_of_clear {c : Word} (h : c.getLsbD 15 = false) : crcShift c = c <<< 1 :=
  if_neg (ne_true_of_eq_false h)

theorem crcShift_eq_zero {c : Word} (h : crcShift c = 0) : c = 0 := by
  have hclear : c.getLsbD 15 = false := by rw [← crcShift_getLsbD_zero, h]; rfl
  have hlow (i : Nat) (hi : i < 15) : c.getLsbD i = false := by
    have hnext : (c <<< 1).getLsbD (i + 1) = false := by rw [← crcShift_of_clear hclear, h]; exact BitVec.getLsbD_zero
    simpa [BitVec.getLsbD_eq_getElem, hi, show i < 16 by omega, show i + 1 < 16 by omega] using hnext
  refine BitVec.eq_of_getLsbD_eq fun i hi => ?_
  obtain hi | rfl : i < 15 ∨ i = 15 := by omega
  · rw [hlow i hi]; exact BitVec.getLsbD_zero.symm
  · exact hclear

theorem crcShifts_xor : ∀ (n : Nat) (c d : Word), crcShifts n (c ^^^ d) = crcShifts n c ^^^ crcShifts n d
  | 0, _, _ => rfl
  | n + 1, c, d => by rw [crcShifts, crcShift_xor, crcShifts_xor n]; rfl

theorem crcShifts_eq_zero : ∀ {n : Nat} {c : Word}, crcShifts n c = 0 → c = 0
  | 0, _, h => h
  | _ + 1, _, h => crcShift_eq_zero (crcShifts_eq_zero h)

/-- As long as no bit leaves, the shifts of the register are a plain shift. -/
theorem crcShifts_of_small : ∀ {n : Nat} {c : Word}, c.toNat * 2 ^ n < 2 ^ 16 → crcShifts n c = c <<< n
  | 0, c, _ => (BitVec.shiftLeft_zero c).symm
  | n + 1, c, h => by
    have hdouble : c.toNat * 2 * 2 ^ n < 2 ^ 16 := by rwa [Nat.mul_assoc, ← Nat.pow_succ']
    have hsmall : c.toNat * 2 < 2 ^ 16 := Nat.lt_of_le_of_lt (Nat.le_mul_of_pos_right _ (Nat.two_pow_pos n)) hdouble
    have hclear : c.getLsbD 15 = false := by
      rw [← BitVec.testBit_toNat]
      exact Nat.testBit_lt_two_pow (by omega)
    have hnext : (c <<< 1).toNat = c.toNat * 2 := by
      rw [BitVec.toNat_shiftLeft, Nat.shiftLeft_eq, Nat.pow_one, Nat.mod_eq_of_lt hsmall]
    rw [crcShifts, crcShift_of_clear hclear, crcShifts_of_small (by rwa [hnext]), ← BitVec.shiftLeft_add, Nat.add_comm]

/-! ### Bytes -/

theorem crcByte_xor (c d : Word) (a b : Byte) : crcByte (c ^^^ d) (a ^^^ b) = crcByte c a ^^^ crcByte d b := by
  rw [crcByte, crcByte, crcByte, ← crcShifts_xor, BitVec.setWidth_xor, BitVec.shiftLeft_xor_distrib]
  congr 1
  ac_rfl

theorem crcTable_eq (b : Byte) : crcTable b = crcShifts 8 (b.setWidth 16 <<< 8) :=
  congrArg (crcShifts 8) BitVec.zero_xor

theorem crcByte_register_eq_zero {c : Word} (h : crcByte c 0 = 0) : c = 0 := by
  have hregister : c ^^^ 0 = 0 := crcShifts_eq_zero h
  simpa using hregister

theorem crcTable_eq_zero {b : Byte} (h : crcTable b = 0) : b = 0 := by
  have hhigh : hiByte (b.setWidth 16 <<< 8) = b := by
    ext i hi
    simp [hiByte, BitVec.getLsbD_eq_getElem, hi, show 8 + i < 16 by omega]
  rw [crcTable_eq] at h
  rw [← hhigh, crcShifts_eq_zero h]
  rfl

theorem hiByte_shiftLeft (c : Word) : hiByte (c <<< 8) = loByte c := by
  ext i hi
  simp [hiByte, loByte, BitVec.getLsbD_eq_getElem, show i < 16 by omega, show 8 + i < 16 by omega]

/-- A byte taken in meets the high byte of the register, and the low byte stays. -/
theorem register_xor_byte (c : Word) (b : Byte) :
    c ^^^ b.setWidth 16 <<< 8 = (loByte c).setWidth 16 ^^^ (hiByte c ^^^ b).setWidth 16 <<< 8 := by
  ext i hi
  by_cases h : i < 8
  · simp [hiByte, loByte, BitVec.getLsbD_eq_getElem, h, hi]
  · simp [hiByte, loByte, BitVec.getLsbD_eq_getElem, h, hi, show i - 8 < 8 by omega, show 8 + (i - 8) = i by omega]

theorem crcShifts_loByte (c : Word) : crcShifts 8 ((loByte c).setWidth 16) = c <<< 8 := by
  have hsmall : ((loByte c).setWidth 16).toNat < 2 ^ 8 := by
    rw [BitVec.toNat_setWidth_of_le (by decide)]
    exact (loByte c).isLt
  rw [crcShifts_of_small (by omega)]
  ext i hi
  by_cases h : i < 8
  · simp [h]
  · simp [loByte, BitVec.getLsbD_eq_getElem, h, show i - 8 < 8 by omega, show i - 8 < 16 by omega]

/-- The low byte goes where the high byte was, and the high byte acts as the byte taken in does: the step of R132. -/
theorem crcByte_eq (c : Word) (b : Byte) : crcByte c b = c <<< 8 ^^^ crcTable (hiByte c ^^^ b) := by
  rw [crcByte, register_xor_byte, crcShifts_xor, crcShifts_loByte, crcTable_eq]

/-! ### Sequences -/

@[simp] theorem crc16_nil (c : Word) : crc16 c [] = c := rfl

@[simp] theorem crc16_cons (c : Word) (b : Byte) (s : List Byte) : crc16 c (b :: s) = crc16 (crcByte c b) s := rfl

theorem crc16_append (s t : List Byte) (c : Word) : crc16 c (s ++ t) = crc16 (crc16 c s) t := by
  induction s generalizing c with
  | nil => rfl
  | cons b s ih => exact ih _

theorem crc16_xor {a b : List Byte} (h : a.length = b.length) (c d : Word) :
    crc16 (c ^^^ d) (List.zipWith (· ^^^ ·) a b) = crc16 c a ^^^ crc16 d b := by
  induction a generalizing b c d with
  | nil => rw [List.eq_nil_of_length_eq_zero h.symm]; rfl
  | cons x a ih =>
    cases b with
    | nil => cases h
    | cons y b =>
      rw [List.zipWith_cons_cons, crc16_cons, crcByte_xor]
      exact ih (Nat.succ.inj h) _ _

/-- A difference in the register goes on as over zeros, whatever the bytes are. -/
theorem crc16_register_xor (s : List Byte) (c d : Word) :
    crc16 (c ^^^ d) s = crc16 c s ^^^ crc16 d (List.replicate s.length 0) := by
  induction s generalizing c d with
  | nil => rfl
  | cons b s ih =>
    have hbyte : crcByte (c ^^^ d) b = crcByte c b ^^^ crcByte d 0 := by simp [← crcByte_xor]
    exact (congrArg (crc16 · s) hbyte).trans (ih _ _)

/-- A difference in one byte goes on as that difference before zeros. -/
theorem crc16_set {p : List Byte} {i : Nat} (hi : i < p.length) (c : Word) (e : Byte) :
    crc16 c (p.set i (p.getD i 0 ^^^ e)) = crc16 c p ^^^ crc16 0 (e :: List.replicate (p.length - (i + 1)) 0) := by
  induction p generalizing i c with
  | nil => cases hi
  | cons x p ih =>
    cases i with
    | zero =>
      have hbyte : crcByte c (x ^^^ e) = crcByte c x ^^^ crcByte 0 e := by simp [← crcByte_xor]
      exact (congrArg (crc16 · p) hbyte).trans (crc16_register_xor p _ _)
    | succ i =>
      rw [List.length_cons, Nat.add_sub_add_right]
      exact ih (Nat.lt_of_succ_lt_succ hi) _

theorem crc16_zeros_eq_zero {n : Nat} {c : Word} (h : crc16 c (List.replicate n 0) = 0) : c = 0 := by
  induction n generalizing c with
  | zero => exact h
  | succ n ih => exact crcByte_register_eq_zero (ih h)

/-- A register continued with its own two bytes, high byte first, is zero. -/
theorem crc16_residue (c : Word) : crc16 c [hiByte c, loByte c] = 0 := by
  have hself (d : Word) : crcByte d (hiByte d) = d <<< 8 := by
    rw [crcByte_eq, BitVec.xor_self]
    exact BitVec.xor_zero
  rw [crc16_cons, hself, ← hiByte_shiftLeft, crc16_cons, hself, crc16_nil, ← BitVec.shiftLeft_add]
  exact BitVec.shiftLeft_eq_zero (by decide)

/-! ### Packets (R136) -/

theorem packetCrc_set {p : List Byte} {i : Nat} (hp : p.length = 72) (hi : i < 70) (e : Byte) :
    packetCrc (p.set i (p.getD i 0 ^^^ e)) = packetCrc p ^^^ crc16 0 (e :: List.replicate (69 - i) 0) := by
  have hlen : (p.take 70).length = 70 := by simp [hp]
  have hget : p.getD i 0 = (p.take 70).getD i 0 := by simp [List.getD_eq_getElem?_getD, hi]
  have hset := crc16_set (hlen.symm ▸ hi : i < (p.take 70).length) 0 e
  rw [packetCrc, List.take_set, hget, hset, hlen, Nat.add_comm i, Nat.sub_add_eq]
  rfl

/-- A change of any one byte that the CRC covers changes it. -/
theorem packetCrc_set_ne {p : List Byte} {i : Nat} (hp : p.length = 72) (hi : i < 70) {e : Byte} (he : e ≠ 0) :
    packetCrc (p.set i (p.getD i 0 ^^^ e)) ≠ packetCrc p := by
  rw [packetCrc_set hp hi]
  intro hsame
  have hzero : crc16 0 (e :: List.replicate (69 - i) 0) = 0 := by simpa using hsame
  exact he (crcTable_eq_zero (crc16_zeros_eq_zero hzero))

theorem bit_ne_zero {b : Nat} (hb : b < 8) : (1 : Byte) <<< b ≠ 0 := by
  intro hzero
  have hset : ((1 : Byte) <<< b).getLsbD b = true := by simp [hb]
  rw [hzero] at hset
  simp at hset

/-- A packet is the 70 bytes its CRC covers and the two bytes of its trailer. -/
theorem packet_eq_take_append_trailer {p : List Byte} (hp : p.length = 72) :
    p = p.take 70 ++ [hiByte (packetTrailer p), loByte (packetTrailer p)] := by
  have hdrop : p.drop 70 = [packetByte p 70, packetByte p 71] := by
    rw [List.drop_eq_getElem_cons (by omega), List.drop_eq_getElem_cons (by omega), List.drop_of_length_le (by omega), packetByte,
      packetByte, List.getD_eq_getElem _ _ (by omega), List.getD_eq_getElem _ _ (by omega)]
  rw [packetTrailer, hiByte_word16, loByte_word16, ← hdrop, List.take_append_drop]

/-! ### The statements on the CRC unit (40_crc16.md) -/

/-- Settles O12: one step of the table is one byte taken in. -/
theorem crcTableForm : Obligations.CrcTableForm := by
  intro seed s
  induction s generalizing seed with
  | nil => rfl
  | cons b s ih =>
    rw [crc16_cons, crcByte_eq]
    exact ih _

/-- Settles O13: a change of one byte changes the CRC by the CRC of the change, and a CRC continued with its own bytes is zero. -/
theorem crcLaws : Obligations.CrcLaws := by
  refine ⟨fun p q h => congrArg (crc16 0) h, fun a b h => crc16_xor h 0 0, fun p hp h2 => ?_,
    fun p i b hp hi hb => packetCrc_set_ne hp hi (bit_ne_zero hb), fun s => ?_, fun p hp htrailer => ?_⟩
  · have hset := packetCrc_set hp (i := 2) (by decide) 0x01
    have hchange : crc16 0 (0x01 :: List.replicate 67 0) = 0x3AF7 := by decide +kernel
    rw [h2, hchange] at hset
    exact hset
  · rw [crc16_append, crc16_residue]
  · rw [packet_eq_take_append_trailer hp, htrailer, crc16_append]
    exact crc16_residue _

theorem crcClearBody_run (s : State) : crcClearBody s = .ok 0 { s with crc := 0x0000 } := rfl

theorem crcContinue_run (bytes : List Byte) (s : State) :
    crcContinue bytes s = .ok ((crc16 s.crc bytes).setWidth 32) { s with crc := crc16 s.crc bytes } := rfl

/-- Settles O14: the pieces of each request one after the other. -/
theorem crcRequestsComplete : Obligations.CrcRequestsComplete := by
  intro s hb
  refine ⟨(request_ready hb).trans (runRequest_ok (crcClearBody_run _)),
    fun b => (request_ready hb).trans (runRequest_ok (crcContinue_run _ _)),
    fun boff len bytes hvisits hin hread => ?_, fun boff len hout => request_raises_first hb (checkDbuf_leaves hout)⟩
  have hbody : crcBlockBody boff len s.accept = crcContinue bytes s.accept := by
    rw [crcBlockBody, act_bind_ok (checkDbuf_ok (s := s.accept) hin), act_bind_ok (meet_calm (s := s.accept) hvisits),
      act_bind_ok (memRead_some (s := s.accept) hread rfl)]
  exact (request_ready hb).trans (runRequest_ok (hbody.trans (crcContinue_run _ _)))

end Sys2Proof.Machine
end

section
/-! SUPPORT. PKT_BUILD and PKT_CHECK (R151, R152, R158, R159): what each check raises, and what is left where all of them pass. -/

namespace Sys2Proof.Machine

/-- A request that only raises, having changed nothing, changes what an error changes (R330). -/
theorem request_raises {m : Act Reg32} {s : State} {e : Err} {info : Reg32} (hb : s.busy = false)
    (h : m s.accept = .error .raised (s.accept.raise e info)) : request m s = .next (s.raised e.kind e.sub info) :=
  (request_ready hb).trans (runRequest_raised h)

/-! ### PKT_BUILD -/

/-- The subcommands of R106 as a list, none beyond its end. -/
theorem subCount_eq_getD (m : Byte) : subCount m = [4, 1, 1, 2, 2].getD m.toNat 0 := by
  unfold subCount
  split
  case h_6 =>
    simp only [imp_false] at *
    have hbeyond : 5 ≤ m.toNat := by omega
    exact (List.getD_eq_default _ _ hbeyond).symm
  all_goals
    next hm =>
    rw [hm]
    rfl

section Build

variable {c m sub : Byte} {index : BitVec 24} {boff : Reg32} {s : State}

theorem pktBuild_invalid {e : Err} {n : Nat} (hb : s.busy = false) (h : validatePacket c m sub = some (e, n)) :
    exec (.pktBuild c m sub index boff) s = .next (s.raised e.kind e.sub (BitVec.ofNat 32 n)) := by
  have hbody : pktBuildBody c m sub index boff s.accept = .error .raised (s.accept.raise e (BitVec.ofNat 32 n)) := by
    rw [pktBuildBody, h]
    rfl
  exact request_raises hb hbody

theorem pktBuild_control (hb : s.busy = false) (h : validatePacket c m sub = none) (hc : c ≠ ctlData) :
    exec (.pktBuild c m sub index boff) s =
      .next (State.completed 1 { s with txpkt := s.txpkt.set 0 c, txlen := 1 }) := by
  have hbody : pktBuildBody c m sub index boff s.accept = .ok 1 (buildPacket [c] s.accept) := by
    rw [pktBuildBody, h]
    dsimp only
    rw [if_pos hc, act_bind_ok (upd_run _ _), act_pure]
  exact (request_ready hb).trans (runRequest_ok hbody)

theorem pktBuild_range (hb : s.busy = false) (h : validatePacket ctlData m sub = none)
    (hout : s.cfg.dbufSize < boff.toNat + 64) :
    exec (.pktBuild ctlData m sub index boff) s = .next (s.raised 7 3 boff) := by
  have hbody : pktBuildBody ctlData m sub index boff s.accept = .error .raised (s.accept.raise .bufferRange boff) := by
    rw [pktBuildBody, h]
    dsimp only
    rw [if_neg (by decide), act_bind_error (checkDbuf_leaves (s := s.accept) hout)]
  exact request_raises hb hbody

theorem pktBuild_data {frame : List Byte} (hs : s.Calm) (h : validatePacket ctlData m sub = none)
    (hin : boff.toNat + 64 ≤ s.cfg.dbufSize) (hread : s.dbuf.getBytes boff.toNat 64 = some frame) :
    exec (.pktBuild ctlData m sub index boff) s = .next (State.completed 72 { s with
      txpkt := s.txpkt.setBytes 0 (dataPacket m sub index frame 0), txlen := 72 }) := by
  obtain ⟨hb, hvisits⟩ := hs
  have hlen : (dataPacket m sub index frame 0).length = 72 := by
    rw [dataPacket_length, Memory.run_length _ _ _ _ hread]
  have hbody : pktBuildBody ctlData m sub index boff s.accept =
      .ok 72 (buildPacket (dataPacket m sub index frame 0) s.accept) := by
    rw [pktBuildBody, h]
    dsimp only
    rw [if_neg (by decide), act_bind_ok (checkDbuf_ok (s := s.accept) hin), act_bind_ok (meet_calm (s := s.accept) hvisits),
      act_bind_ok (memRead_some (s := s.accept) hread rfl), act_bind_ok (upd_run _ _), act_pure]
  rw [buildPacket_data hlen] at hbody
  exact (request_ready hb).trans (runRequest_ok hbody)

end Build

/-- Settles O16: the checks of R152 are the branches of `validatePacket`, and BUFFER_RANGE comes after them. -/
theorem pktBuildMeaning : Obligations.PktBuildMeaning := by
  intro s c m sub idx boff hb
  rw [← subCount_eq_getD]
  split
  · next hcontrol =>
    have hinvalid : validatePacket c m sub = some (.invalidControl, c.toNat) := if_pos hcontrol
    rw [pktBuild_invalid hb hinvalid, BitVec.ofNat_toNat]
    rfl
  next hcontrol =>
  split
  · next hcommand =>
    have hinvalid : validatePacket c m sub = some (.invalidCommand, m.toNat) := (if_neg hcontrol).trans (if_pos hcommand)
    rw [pktBuild_invalid hb hinvalid, BitVec.ofNat_toNat]
    rfl
  next hcommand =>
  split
  · next hsub =>
    have hinvalid : validatePacket c m sub = some (.invalidSubcommand, m.toNat * 256 + sub.toNat) :=
      (if_neg hcontrol).trans ((if_neg hcommand).trans (if_pos hsub))
    exact pktBuild_invalid hb hinvalid
  next hsub =>
  have hvalid : validatePacket c m sub = none := (if_neg hcontrol).trans ((if_neg hcommand).trans (if_neg hsub))
  split
  · next hrange =>
    obtain ⟨rfl, hout⟩ := hrange
    exact pktBuild_range hb hvalid hout
  next hrange =>
  split
  · next hdata =>
    subst hdata
    intro frame hvisits hread
    exact pktBuild_data ⟨hb, hvisits⟩ hvalid (by simpa using hrange) hread
  · next hdata => exact pktBuild_control hb hvalid hdata

/-! ### PKT_CHECK -/

/-- Anything but a whole packet with control byte DATA is NOT_DATA (R159). -/
theorem checkPacket_notData {p : List Byte} {s : State} (h : s.rxlen.toNat ≠ 72 ∨ packetByte p 0 ≠ ctlData) :
    checkPacket p s = .error .raised (s.raise .notData (s.rxlen.setWidth 32)) := by
  rw [checkPacket, act_bind_ok (look_run _ _), if_pos h, raise_run, BitVec.ofNat_toNat]

/-- ERR_INFO of CRC_MISMATCH: one number of the two CRCs (R159). -/
theorem ofNat_words (x y : Word) : BitVec.ofNat 32 (x.toNat * 65536 + y.toNat) = (x ++ y : BitVec 32) := by
  refine BitVec.eq_of_toNat_eq ?_
  rw [BitVec.toNat_append, ← Nat.shiftLeft_add_eq_or_of_lt y.isLt, Nat.shiftLeft_eq, BitVec.toNat_ofNat]
  have hx := x.isLt
  have hy := y.isLt
  omega

theorem checkPacket_mismatch {p : List Byte} {s : State} (hn : s.rxlen = 72) (hd : packetByte p 0 = ctlData)
    (hc : packetCrc p ≠ packetTrailer p) : checkPacket p s =
      .error .raised (State.raise .crcMismatch (packetCrc p ++ packetTrailer p : BitVec 32) { s with crc := packetCrc p }) := by
  rw [checkPacket, act_bind_ok (look_run _ _), if_neg (by simp [hn, hd]), act_bind_ok (upd_run _ _), decide_eq_false hc,
    act_bind_error (check_false _ _ _), ofNat_words]

section Check

variable {p : List Byte} {s : State}

theorem pktCheckBody_run (h : rxPacket s = some p) :
    pktCheckBody s = (checkPacket p >>= fun crc => pure (crc.setWidth 32) : Act Reg32) s := by
  rw [pktCheckBody, act_bind_ok (orStop_some h)]

theorem pktCheck_notData (hb : s.busy = false) (hp : rxPacket s = some p)
    (h : s.rxlen.toNat ≠ 72 ∨ packetByte p 0 ≠ ctlData) :
    exec .pktCheck s = .next (s.raised 2 7 (s.rxlen.setWidth 32)) := by
  have hbody := pktCheckBody_run (s := s.accept) hp
  rw [act_bind_error (checkPacket_notData (s := s.accept) h)] at hbody
  exact request_raises hb hbody

variable (hb : s.busy = false) (hlen : s.rxlen = 72) (hread : s.rxpkt.getBytes 0 72 = some p)
  (hdata : packetByte p 0 = ctlData)
include hb hlen hread hdata

theorem pktCheck_completes (hcrc : packetCrc p = packetTrailer p) :
    exec .pktCheck s = .next (State.completed ((packetCrc p).setWidth 32) { s with crc := packetCrc p }) := by
  have hbody := pktCheckBody_run (s := s.accept) ((if_pos hlen).trans hread)
  rw [act_bind_ok (checkPacket_ok (s := s.accept) hlen hdata hcrc), act_pure] at hbody
  exact (request_ready hb).trans (runRequest_ok hbody)

theorem pktCheck_mismatch (hcrc : packetCrc p ≠ packetTrailer p) : exec .pktCheck s =
    .next (State.raised 2 4 (packetCrc p ++ packetTrailer p : BitVec 32) { s with crc := packetCrc p }) := by
  have hbody := pktCheckBody_run (s := s.accept) ((if_pos hlen).trans hread)
  rw [act_bind_error (checkPacket_mismatch (s := s.accept) hlen hdata hcrc)] at hbody
  exact (request_ready hb).trans (runRequest_raised hbody)

end Check

/-- Settles O20: one CheckPacket, of nothing where RXLEN is not 72. -/
theorem pktCheckVerdicts : Obligations.PktCheckVerdicts := by
  intro s hb
  refine ⟨fun hlen => ?_, fun p hlen hread => ?_⟩
  · exact pktCheck_notData hb (if_neg hlen) (.inl fun h => hlen (BitVec.eq_of_toNat_eq h))
  split
  · next hdata =>
    have hraised := pktCheck_notData hb ((if_pos hlen).trans hread) (.inr hdata)
    rwa [hlen] at hraised
  next hdata =>
  split
  · next hcrc => exact pktCheck_completes hb hlen hread (not_not.1 hdata) hcrc
  · next hcrc => exact pktCheck_mismatch hb hlen hread (not_not.1 hdata) hcrc

end Sys2Proof.Machine
end

section
/-! SUPPORT. PKT_SEND and the TransportErrors of the framer (R153, R155, R157, R329). -/

namespace Sys2Proof.Machine

/-! ### TxWrite by the GB unit -/

theorem lost_sent (bytes : List Byte) (rest : List TxDraw) (s : State) : (s.sent bytes rest).lost = s.lost.sent bytes rest := by
  unfold State.sent State.lost
  dsimp only
  cases s.adapter <;> rfl

/-- How the transport fails a TxWrite of n bytes: the error, and how many bytes it has taken (R14, R325). -/
def writeError (n : Nat) : TxDraw → Option (Err × Nat)
  | .accepted k => if k < n then some (.shortWrite, k) else none
  | .failed k => some (.ioFailure, min k n)

theorem txWrite_gb_fails {bytes : List Byte} {s : State} {d : TxDraw} {rest : List TxDraw} {e : Err} {k : Nat}
    (hv : s.env.visits = []) (ht : s.env.tx = d :: rest) (hd : writeError bytes.length d = some (e, k)) :
    txWrite .gb bytes s =
      .error .raised (State.raised e.kind e.sub (BitVec.ofNat 32 k) (s.lost.sent (bytes.take k) rest)) := by
  rw [← lost_sent, ← transmit_eq_sent]
  cases d with
  | accepted j =>
    obtain ⟨hj, heq⟩ := Option.ite_none_right_eq_some.1 hd
    cases heq
    exact txWrite_short hv ht hj
  | failed j =>
    cases hd
    exact txWrite_failed hv ht

/-! ### PKT_SEND -/

section Send

variable {p : List Byte} {s t : State}

theorem pktSendBody_run (hlen : s.txlen ≠ 0) (hp : txPacket s = some p) :
    pktSendBody s = (sendPacket p >>= fun n => pure (BitVec.ofNat 32 n) : Act Reg32) s := by
  rw [pktSendBody, act_bind_ok (look_run _ _), act_bind_ok (check_ok (decide_eq_true hlen)), act_bind_ok (orStop_some hp)]

theorem pktSend_completes {n : Nat} (hb : s.busy = false) (hlen : s.txlen ≠ 0) (hp : txPacket s = some p)
    (h : sendPacket p s.accept = .ok n t) : exec .pktSend s = .next (t.complete (BitVec.ofNat 32 n)) :=
  (request_ready hb).trans (runRequest_ok ((pktSendBody_run (s := s.accept) hlen hp).trans (act_bind_ok h)))

theorem pktSend_raises (hb : s.busy = false) (hlen : s.txlen ≠ 0) (hp : txPacket s = some p)
    (h : sendPacket p s.accept = .error .raised t) : exec .pktSend s = .next t :=
  (request_ready hb).trans (runRequest_raised ((pktSendBody_run (s := s.accept) hlen hp).trans (act_bind_error h)))

theorem pktSend_noPacket (hb : s.busy = false) (hlen : s.txlen = 0) : exec .pktSend s = .next (s.raised 7 4 0) := by
  have hbody : pktSendBody s.accept = .error .raised (s.accept.raise .noPacket 0) := by
    rw [pktSendBody, act_bind_ok (look_run _ _), show s.accept.txlen = 0 from hlen]
    rfl
  exact request_raises hb hbody

theorem txPacket_data (hlen : s.txlen = 72) : txPacket s = s.txpkt.getBytes 0 72 := by
  simp [txPacket, hlen]

theorem txPacket_control (hlen : s.txlen = 1) : txPacket s = s.txpkt.getBytes 0 1 := by
  simp [txPacket, hlen]

theorem withTrailer_data (hp : p.length = 72) :
    withTrailer p = p.take 70 ++ [hiByte (packetCrc p), loByte (packetCrc p)] := if_pos hp

theorem withTrailer_length (p : List Byte) : (withTrailer p).length = p.length := by
  unfold withTrailer
  split
  · next hp => simp [hp]
  · rfl

theorem sendPacket_data_fails (hp : p.length = 72) (h : txWrite .gb (withTrailer p) (sealPacket p s) = .error .raised t) :
    sendPacket p s = .error .raised t := by
  rw [sendPacket, if_pos hp, act_bind_ok (upd_run _ _), act_bind_error h]

theorem sendPacket_control_fails {c : Byte} (h : txWrite .gb [c] s = .error .raised t) :
    sendPacket [c] s = .error .raised t := by
  rw [sendPacket, if_neg (by simp), List.take_of_length_le (by simp), act_bind_error h]

end Send

/-- Settles O17: SendPacket of what TXPKT holds. -/
theorem pktSendMeaning : Obligations.PktSendMeaning := by
  refine ⟨fun s => pktSend_noPacket, fun s p k rest ⟨hb, hvisits⟩ hlen hread htx hk => ?_,
    fun s c k rest ⟨hb, hvisits⟩ hlen hread htx hk => ?_⟩
  · have hp : p.length = 72 := Memory.run_length _ _ _ _ hread
    have hsend : sendPacket p s.accept = .ok 72 ((sealPacket p s.accept).sent (withTrailer p) rest) :=
      (sendPacket_data (s := s.accept) hp hvisits htx hk).trans (congrArg _ (transmit_eq_sent _ _ _))
    rw [withTrailer_data hp] at hsend
    exact pktSend_completes hb (by simp [hlen]) ((txPacket_data hlen).trans hread) hsend
  · have hsend : sendPacket [c] s.accept = .ok 1 (s.accept.sent [c] rest) :=
      (sendPacket_control (s := s.accept) hvisits htx hk).trans (congrArg _ (transmit_eq_sent _ _ _))
    exact pktSend_completes hb (by simp [hlen]) ((txPacket_control hlen).trans hread) hsend

/-- A TransportError of PKT_SEND with a DATA packet: the trailer is computed, and what was taken is sent (R153, R329). -/
theorem pktSend_data_fails {s : State} {p : List Byte} {d : TxDraw} {rest : List TxDraw} {e : Err} {k : Nat} (hs : s.Calm)
    (hlen : s.txlen = 72) (hread : s.txpkt.getBytes 0 72 = some p) (htx : s.env.tx = d :: rest)
    (hd : writeError 72 d = some (e, k)) : exec .pktSend s = .next (State.raised e.kind e.sub (BitVec.ofNat 32 k)
      ((sealPacket p s).lost.sent ((p.take 70 ++ [hiByte (packetCrc p), loByte (packetCrc p)]).take k) rest)) := by
  obtain ⟨hb, hvisits⟩ := hs
  have hp : p.length = 72 := Memory.run_length _ _ _ _ hread
  have hsend := sendPacket_data_fails hp (txWrite_gb_fails (s := sealPacket p s.accept) hvisits htx
    (by rwa [withTrailer_length, hp]))
  rw [withTrailer_data hp] at hsend
  exact pktSend_raises hb (by simp [hlen]) ((txPacket_data hlen).trans hread) hsend

theorem pktSend_control_fails {s : State} {c : Byte} {d : TxDraw} {rest : List TxDraw} {e : Err} {k : Nat} (hs : s.Calm)
    (hlen : s.txlen = 1) (hread : s.txpkt.getBytes 0 1 = some [c]) (htx : s.env.tx = d :: rest)
    (hd : writeError 1 d = some (e, k)) :
    exec .pktSend s = .next (State.raised e.kind e.sub (BitVec.ofNat 32 k) (s.lost.sent ([c].take k) rest)) := by
  obtain ⟨hb, hvisits⟩ := hs
  exact pktSend_raises hb (by simp [hlen]) ((txPacket_control hlen).trans hread)
    (sendPacket_control_fails (txWrite_gb_fails (s := s.accept) hvisits htx hd))

/-! ### PKT_RECEIVE -/

/-- How an RxRead of n bytes fails: the error, and the bytes that come with it (R14, R157; log entry 15). -/
def readError (n : Nat) : RxDraw → Option (Err × List Byte)
  | .got bytes => if bytes.length < n then some (.shortRead, bytes.take n) else none
  | .timedOut bytes => some (.timeout, bytes.take n)
  | .failed bytes => some (.ioFailure, bytes.take n)

section Receive

variable {s : State} {d : RxDraw} {rest : List RxDraw} {e : Err} {bytes : List Byte}

theorem receivePacket_first_fails (hv : s.env.visits = []) (ha : s.adapter = .gb) (hr : s.env.rx = d :: rest)
    (hd : readError 1 d = some (e, bytes)) : receivePacket s = .error .raised
      (State.raiseTransport .gb e bytes.length (storeRx 0 bytes { s.received rest with rxlen := 0 })) := by
  have hread := rxRead_gb (fam := .gb) (n := 1) (s := { s with rxlen := 0 }) hv ha hr
  rw [receivePacket, act_bind_ok (upd_run _ _), act_bind_ok hread]
  cases d with
  | got offered =>
    obtain ⟨hempty, heq⟩ := Option.ite_none_right_eq_some.1 hd
    cases List.length_eq_zero_iff.1 (Nat.lt_one_iff.1 hempty)
    cases heq
    rfl
  | timedOut offered => cases hd; rfl
  | failed offered => cases hd; rfl

theorem receivePacket_second_fails {more : List Byte} (hv : s.env.visits = []) (ha : s.adapter = .gb)
    (hr : s.env.rx = .got (ctlData :: more) :: d :: rest) (hd : readError 71 d = some (e, bytes)) :
    receivePacket s = .error .raised (State.raiseTransport .gb e bytes.length
      (storeRx 1 bytes (storeRx 0 [ctlData] { s.received rest with rxlen := 0 }))) := by
  have hfirst := rxRead_got (fam := .gb) (n := 1) (s := { s with rxlen := 0 }) hv ha hr
  have hsecond := rxRead_gb (fam := .gb) (n := 71)
    (s := storeRx 0 [ctlData] { s.received (d :: rest) with rxlen := 0 }) hv ha rfl
  rw [receivePacket, act_bind_ok (upd_run _ _), act_bind_ok hfirst]
  show (upd (storeRx 0 [ctlData]) >>= fun _ => _ : Act (List Byte)) _ = _
  rw [act_bind_ok (upd_run _ _), if_neg (by simp)]
  refine (act_bind_ok hsecond).trans ?_
  cases d with
  | got offered =>
    obtain ⟨hshort, heq⟩ := Option.ite_none_right_eq_some.1 hd
    cases heq
    have hlt : (offered.take 71).length < 71 := by rw [List.length_take]; omega
    exact (act_bind_ok (upd_run _ _)).trans (congrFun (if_pos hlt) _)
  | timedOut offered => cases hd; rfl
  | failed offered => cases hd; rfl

theorem pktReceive_raises {t : State} (hb : s.busy = false) (h : receivePacket s.accept = .error .raised t) :
    exec .pktReceive s = .next t := by
  have hbody : pktReceiveBody s.accept = .error .raised t := act_bind_error h
  exact (request_ready hb).trans (runRequest_raised hbody)

/-- A TransportError of PKT_RECEIVE in its first read (R157, R329). -/
theorem pktReceive_first_fails {n : Nat} (hs : s.Calm) (ha : s.adapter = .gb) (hr : s.env.rx = d :: rest)
    (hd : readError 1 d = some (e, bytes)) (hn : bytes.length = n) : exec .pktReceive s = .next (State.raised e.kind e.sub
      (BitVec.ofNat 32 n) (storeRx 0 bytes { (s.received rest).lost with rxlen := 0 })) := by
  subst hn
  exact pktReceive_raises hs.1 (receivePacket_first_fails (s := s.accept) hs.2 ha hr hd)

/-- A TransportError of PKT_RECEIVE in the read of the 71 bytes after DATA (R157, R329). -/
theorem pktReceive_second_fails {more : List Byte} {n : Nat} (hs : s.Calm) (ha : s.adapter = .gb)
    (hr : s.env.rx = .got (0x55 :: more) :: d :: rest) (hd : readError 71 d = some (e, bytes)) (hn : bytes.length = n) :
    exec .pktReceive s = .next (State.raised e.kind e.sub (BitVec.ofNat 32 n)
      (storeRx 1 bytes (storeRx 0 [0x55] { (s.received rest).lost with rxlen := 0 }))) := by
  subst hn
  exact pktReceive_raises hs.1 (receivePacket_second_fails (s := s.accept) hs.2 ha hr hd)

end Receive

/-- Settles O18: each answer of the transport that is a TransportError, by its error and the bytes moved. -/
theorem framerTransportErrors : Obligations.FramerTransportErrors := by
  refine ⟨fun s p d rest hs hlen hread htx => ?_, fun s c d rest hs hlen hread htx => ?_, fun s d rest hs hgb hrx => ?_,
    fun s more d rest hs hgb hrx => ?_⟩
  · cases d with
    | accepted k => exact fun hk => pktSend_data_fails hs hlen hread htx (if_pos hk)
    | failed k => exact pktSend_data_fails hs hlen hread htx rfl
  · cases d with
    | accepted k =>
      intro hk
      cases Nat.lt_one_iff.1 hk
      exact pktSend_control_fails hs hlen hread htx rfl
    | failed k => exact pktSend_control_fails hs hlen hread htx rfl
  · cases d with
    | got bytes =>
      cases bytes with
      | nil => exact pktReceive_first_fails hs hgb hrx rfl rfl
      | cons b more => trivial
    | timedOut bytes => exact pktReceive_first_fails hs hgb hrx rfl List.length_take
    | failed bytes => exact pktReceive_first_fails hs hgb hrx rfl List.length_take
  · cases d with
    | got bytes =>
      intro _ hshort
      exact pktReceive_second_fails hs hgb hrx (if_pos hshort) (by rw [List.take_of_length_le hshort.le])
    | timedOut bytes => exact pktReceive_second_fails hs hgb hrx rfl List.length_take
    | failed bytes => exact pktReceive_second_fails hs hgb hrx rfl List.length_take

end Sys2Proof.Machine
end

section
/-! SUPPORT. The laws of the packet (R160, R162): its index bytes read back, it comes back as it was sent, a changed bit shows. -/

namespace Sys2Proof.Machine

/-! ### The index bytes -/

section Index

variable (m sub : Byte) (index : BitVec 24) (frame : List Byte) (trailer : Word)

theorem packetCount_dataPacket : packetCount (dataPacket m sub index frame trailer) = index.toNat :=
  congrArg BitVec.toNat (word24_bytes index)

/-- Under PAGE16_PACKET8 the page is in the first two index bytes (R107, R160). -/
theorem pageIdx_page16 :
    pageIdx .page16Packet8 (dataPacket m sub index frame trailer) = (index.extractLsb' 8 16).toNat :=
  congrArg BitVec.toNat (BitVec.extractLsb'_append_extractLsb'_eq_extractLsb' (start₁ := 8) rfl)

theorem packetIdx_page16 :
    packetIdx .page16Packet8 (dataPacket m sub index frame trailer) = (index.extractLsb' 0 8).toNat := rfl

end Index

/-- Settles O27: PAGE16_PACKET8 has the two numbers in bytes of their own, SEQ24 has them as one number with base 128. -/
theorem indexRoundTrip : Obligations.IndexRoundTrip := by
  refine ⟨fun layout page packet m sub frame trailer hpage hpacket => ?_, fun k => ?_⟩
  · cases layout with
    | page16Packet8 =>
      have htop : (idxField .page16Packet8 page packet).extractLsb' 8 16 = BitVec.ofNat 16 page :=
        BitVec.extractLsb'_append_eq_left
      have hlow : (idxField .page16Packet8 page packet).extractLsb' 0 8 = BitVec.ofNat 8 packet :=
        BitVec.extractLsb'_append_eq_right
      rw [pageIdx_page16, packetIdx_page16, htop, hlow, BitVec.toNat_ofNat, BitVec.toNat_ofNat]
      omega
    | seq24 =>
      have hindex : (idxField .seq24 page packet).toNat = page * 128 + packet := by
        rw [idxField, BitVec.toNat_ofNat]
        omega
      rw [pageIdx, packetIdx, packetCount_dataPacket, hindex]
      omega
  · rw [expPacket, expPage, Nat.mul_div_cancel_left k (by decide)]
    exact ⟨rfl, rfl⟩

/-! ### A packet that comes back -/

theorem Memory.cells_append (a : Nat) (x y : List Byte) :
    Memory.cells a (x ++ y) = Memory.cells a x ++ Memory.cells (a + x.length) y := by
  induction x generalizing a with
  | nil => rfl
  | cons b x ih =>
    rw [List.cons_append, Memory.cells, ih, Nat.add_right_comm]
    rfl

theorem Memory.setBytes_eq (m : Memory) (a : Nat) {bytes : List Byte} (h : bytes ≠ []) : m.setBytes a bytes =
    m.filter (fun c => c.1 < a) ++ Memory.cells a bytes ++ m.filter (fun c => a + bytes.length ≤ c.1) := by
  cases bytes with
  | nil => exact absurd rfl h
  | cons b more => rfl

section Stored

variable (m : Memory) {a : Nat} {bytes : List Byte} (h : bytes ≠ [])
include h

/-- The entries before the end of what was stored. -/
theorem Memory.filter_lt_setBytes : (m.setBytes a bytes).filter (fun c => c.1 < a + bytes.length) =
    m.filter (fun c => c.1 < a) ++ Memory.cells a bytes := by
  have hbefore : m.filter (fun c => c.1 < a + bytes.length ∧ c.1 < a) = m.filter fun c => c.1 < a :=
    List.filter_congr fun c _ => decide_eq_decide.2 ⟨And.right, fun hc => ⟨by omega, hc⟩⟩
  have hstored : (Memory.cells a bytes).filter (fun c => c.1 < a + bytes.length) = Memory.cells a bytes :=
    List.filter_eq_self.2 fun c hc => decide_eq_true (Memory.mem_cells _ _ _ hc).2
  have hafter : m.filter (fun c => c.1 < a + bytes.length ∧ a + bytes.length ≤ c.1) = [] :=
    List.filter_eq_nil_iff.2 fun c _ => by simp
  simp only [Bool.decide_and] at hbefore hafter
  simp only [Memory.setBytes_eq m a h, List.filter_append, List.filter_filter, hbefore, hstored, hafter, List.append_nil]

/-- The entries from an offset on that is not before the end of what was stored. -/
theorem Memory.filter_le_setBytes {n : Nat} (hn : a + bytes.length ≤ n) :
    (m.setBytes a bytes).filter (fun c => n ≤ c.1) = m.filter fun c => n ≤ c.1 := by
  have hbefore : m.filter (fun c => n ≤ c.1 ∧ c.1 < a) = [] :=
    List.filter_eq_nil_iff.2 fun c _ => by simp; omega
  have hstored : (Memory.cells a bytes).filter (fun c => n ≤ c.1) = [] :=
    List.filter_eq_nil_iff.2 fun c hc => by have := Memory.mem_cells _ _ _ hc; simp; omega
  have hafter : m.filter (fun c => n ≤ c.1 ∧ a + bytes.length ≤ c.1) = m.filter fun c => n ≤ c.1 :=
    List.filter_congr fun c _ => decide_eq_decide.2 ⟨And.left, fun hc => ⟨hc, by omega⟩⟩
  simp only [Bool.decide_and] at hbefore hafter
  simp only [Memory.setBytes_eq m a h, List.filter_append, List.filter_filter, hbefore, hstored, hafter, List.nil_append]

end Stored

/-- Bytes stored in two pieces, one after the other, are stored as at once. -/
theorem Memory.setBytes_setBytes (m : Memory) (a : Nat) {x y : List Byte} (hx : x ≠ []) (hy : y ≠ []) :
    (m.setBytes a x).setBytes (a + x.length) y = m.setBytes a (x ++ y) := by
  have hxy : x ++ y ≠ [] := List.append_ne_nil_of_left_ne_nil hx y
  rw [Memory.setBytes_eq _ _ hy, Memory.filter_lt_setBytes m hx, Memory.filter_le_setBytes m hx (Nat.le_add_right _ _),
    Memory.setBytes_eq m a hxy, Memory.cells_append, List.length_append, Nat.add_assoc]
  simp only [List.append_assoc]

theorem packetTrailer_append {q : List Byte} (hq : q.length = 70) (t1 t0 : Byte) :
    packetTrailer (q ++ [t1, t0]) = word16 t1 t0 := by
  have hbyte (i : Nat) (hi : 70 ≤ i) : packetByte (q ++ [t1, t0]) i = [t1, t0].getD (i - 70) 0 := by
    rw [packetByte, List.getD_append_right _ _ _ _ (hq ▸ hi), hq]
  rw [packetTrailer, hbyte 70 (by decide), hbyte 71 (by decide)]
  rfl

/-- A packet with its trailer computed passes the CRC check (R153, R159). -/
theorem packetCrc_withTrailer {p : List Byte} (hp : p.length = 72) :
    packetCrc (withTrailer p) = packetTrailer (withTrailer p) := by
  have hcovered : (p.take 70).length = 70 := by simp [hp]
  rw [withTrailer_data hp, packetCrc_append hcovered, packetTrailer_append hcovered, word16_hiByte_loByte]
  rfl

/-- Computing the trailer leaves the control byte. -/
theorem withTrailer_eq_cons {p : List Byte} (hp : p.length = 72) (hdata : packetByte p 0 = ctlData) :
    ∃ body, body.length = 71 ∧ withTrailer p = ctlData :: body := by
  cases p with
  | nil => cases hp
  | cons c more =>
    obtain rfl : c = ctlData := hdata
    have hmore : more.length = 71 := Nat.succ.inj hp
    exact ⟨_, by simp [hmore], withTrailer_data hp⟩

/-- What PKT_RECEIVE stores in two pieces reads back as one packet (R157). -/
theorem Memory.getBytes_received (m : Memory) {body : List Byte} (hbody : body.length = 71) :
    ((m.setBytes 0 [ctlData]).setBytes 1 body).getBytes 0 72 = some (ctlData :: body) := by
  have hnil : body ≠ [] := by rintro rfl; cases hbody
  have hstored : (m.setBytes 0 [ctlData]).setBytes 1 body = m.setBytes 0 (ctlData :: body) :=
    Memory.setBytes_setBytes m 0 (List.cons_ne_nil _ _) hnil
  have hwhole := Memory.getBytes_setBytes_start m (List.cons_ne_nil ctlData body)
  rwa [List.length_cons, hbody, ← hstored] at hwhole

/-- Settles O21: what is sent has its CRC as its trailer, and what was received in two pieces reads back as one packet. -/
theorem sendReceiveCheckRoundTrip : Obligations.SendReceiveCheckRoundTrip := by
  obtain ⟨-, hsends, -⟩ := pktSendMeaning
  obtain ⟨-, hreceives⟩ := pktReceiveCompletes
  intro s p k rest hs hgb hlen hread hdata htx hk
  have hp : p.length = 72 := Memory.run_length _ _ _ _ hread
  obtain ⟨body, hbody, hq⟩ := withTrailer_eq_cons hp hdata
  have hcrc := packetCrc_withTrailer hp
  have hsend := hsends s p k rest hs hlen hread htx hk
  rw [← withTrailer_data hp] at hsend
  rw [hq] at hcrc hsend
  refine ⟨_, ctlData :: body, hsend, rfl, by simp [hbody], rfl, fun rxs => ?_⟩
  have hreceived := Memory.getBytes_received s.rxpkt hbody
  exact ⟨_, _, hreceives _ [] body rxs ⟨rfl, hs.2⟩ hgb rfl hbody, rfl, pktCheck_completes rfl rfl hreceived rfl hcrc,
    rfl, rfl, rfl⟩

/-! ### A changed bit -/

section Changed

variable {p : List Byte} {i j : Nat} (b : Byte)

theorem packetByte_set_self (h : i < p.length) : packetByte (p.set i b) i = b := by
  simp [packetByte, List.getD_eq_getElem?_getD, h]

theorem packetByte_set_ne (h : i ≠ j) : packetByte (p.set i b) j = packetByte p j := by
  simp [packetByte, List.getD_eq_getElem?_getD, List.getElem?_set_ne h]

theorem packetTrailer_set (h : i < 70) : packetTrailer (p.set i b) = packetTrailer p := by
  rw [packetTrailer, packetByte_set_ne b (by omega), packetByte_set_ne b (by omega)]
  rfl

end Changed

/-- Settles O22: a changed control byte is no DATA, and any other changed bit changes the CRC but not the trailer. -/
theorem singleBitCorruptionDetected : Obligations.SingleBitCorruptionDetected := by
  intro s q i b hb hq hdata hcrc hi hbit hlen hread
  by_cases h0 : i = 0
  · subst h0
    refine ⟨_, pktCheck_notData hb ((if_pos hlen).trans hread) (.inr fun hsame => ?_), rfl, rfl, rfl, rfl, rfl⟩
    rw [packetByte_set_self _ (by omega), hdata] at hsame
    exact bit_ne_zero hbit (by simpa [ctlData] using hsame)
  · refine ⟨_, pktCheck_mismatch hb hlen hread ((packetByte_set_ne _ h0).trans hdata) fun hsame => ?_, rfl, rfl, rfl,
      (if_neg h0).symm, rfl⟩
    exact packetCrc_set_ne hq hi (bit_ne_zero hbit) (hsame.trans ((packetTrailer_set _ hi).trans hcrc.symm))

end Sys2Proof.Machine
end

section
/-! SUPPORT. Bytes written over bytes written before: what DBUF and the packet buffers hold after a transfer (R27, R28, R60). -/

namespace Sys2Proof.Machine

section Overwritten

variable (m : Memory) (a : Nat) {x y : List Byte}

/-- The entries before what was stored. -/
theorem Memory.filter_before_setBytes : (m.setBytes a x).filter (fun c => c.1 < a) = m.filter fun c => c.1 < a := by
  by_cases hx : x = []
  · rw [hx]; rfl
  have hstored : (Memory.cells a x).filter (fun c => c.1 < a) = [] :=
    List.filter_eq_nil_iff.2 fun c hc => by have := Memory.mem_cells _ _ _ hc; simp; omega
  have hafter : (m.filter fun c => a + x.length ≤ c.1).filter (fun c => c.1 < a) = [] :=
    List.filter_eq_nil_iff.2 fun c hc => by have := (List.mem_filter.1 hc).2; simp at this ⊢; omega
  rw [Memory.setBytes_eq m a hx, List.filter_append, List.filter_append, hstored, hafter, List.append_nil, List.append_nil,
    List.filter_filter]
  simp

/-- The entries from inside of what was stored on. -/
theorem Memory.filter_inside_setBytes (hxy : y.length ≤ x.length) (hx : x ≠ []) :
    (m.setBytes a x).filter (fun c => a + y.length ≤ c.1) =
      Memory.cells (a + y.length) (x.drop y.length) ++ m.filter fun c => a + x.length ≤ c.1 := by
  have hbefore : (m.filter fun c => c.1 < a).filter (fun c => a + y.length ≤ c.1) = [] :=
    List.filter_eq_nil_iff.2 fun c hc => by have := (List.mem_filter.1 hc).2; simp at this ⊢; omega
  have hcovered : (Memory.cells a (x.take y.length)).filter (fun c => a + y.length ≤ c.1) = [] :=
    List.filter_eq_nil_iff.2 fun c hc => by
      have := Memory.mem_cells _ _ _ hc
      rw [List.length_take, Nat.min_eq_left hxy] at this
      simp; omega
  have hleft : (Memory.cells (a + y.length) (x.drop y.length)).filter (fun c => a + y.length ≤ c.1) =
      Memory.cells (a + y.length) (x.drop y.length) :=
    List.filter_eq_self.2 fun c hc => decide_eq_true (Memory.mem_cells _ _ _ hc).1
  have hafter : (m.filter fun c => a + x.length ≤ c.1).filter (fun c => a + y.length ≤ c.1) =
      m.filter fun c => a + x.length ≤ c.1 :=
    List.filter_eq_self.2 fun c hc => by have := (List.mem_filter.1 hc).2; simp at this ⊢; omega
  have hcells : Memory.cells a x = Memory.cells a (x.take y.length) ++ Memory.cells (a + y.length) (x.drop y.length) := by
    have happend := Memory.cells_append a (x.take y.length) (x.drop y.length)
    rwa [List.take_append_drop, List.length_take, Nat.min_eq_left hxy] at happend
  rw [Memory.setBytes_eq m a hx, List.filter_append, List.filter_append, hbefore, hafter, hcells, List.filter_append, hcovered,
    hleft, List.nil_append, List.nil_append]

/-- Bytes stored over no more bytes leave nothing of them. -/
theorem Memory.setBytes_over (hxy : x.length ≤ y.length) : (m.setBytes a x).setBytes a y = m.setBytes a y := by
  by_cases hx : x = []
  · rw [hx]; rfl
  have hy : y ≠ [] := by rintro rfl; exact hx (List.length_eq_zero_iff.1 (Nat.le_zero.1 hxy))
  rw [Memory.setBytes_eq _ _ hy, Memory.filter_before_setBytes, Memory.filter_le_setBytes m hx (by omega), Memory.setBytes_eq m a hy]

/-- Bytes stored over more bytes leave the rest of them. -/
theorem Memory.setBytes_over_start (hxy : y.length ≤ x.length) (hy : y ≠ []) :
    (m.setBytes a x).setBytes a y = m.setBytes a (y ++ x.drop y.length) := by
  have hx : x ≠ [] := by rintro rfl; exact hy (List.length_eq_zero_iff.1 (Nat.le_zero.1 hxy))
  have hlen : (y ++ x.drop y.length).length = x.length := by simp; omega
  rw [Memory.setBytes_eq _ _ hy, Memory.filter_before_setBytes, Memory.filter_inside_setBytes m a hxy hx,
    Memory.setBytes_eq m a (List.append_ne_nil_of_left_ne_nil hy _), hlen, Memory.cells_append]
  simp only [List.append_assoc]

/-- Two pieces stored one after the other, of which the first may be empty. -/
theorem Memory.setBytes_append (hy : y ≠ []) : (m.setBytes a x).setBytes (a + x.length) y = m.setBytes a (x ++ y) := by
  by_cases hx : x = []
  · rw [hx]; rfl
  · exact Memory.setBytes_setBytes m a hx hy

theorem Memory.run_cells (a : Nat) (x : List Byte) (rest : Memory) : Memory.run (Memory.cells a x ++ rest) a x.length = some x := by
  induction x generalizing a with
  | nil => rw [List.length_nil, Memory.run]
  | cons b x ih => simp [Memory.cells, Memory.run, ih]

/-- What was stored reads back, also in a store that is not in canonical form. -/
theorem Memory.getBytes_setBytes : (m.setBytes a x).getBytes a x.length = some x := by
  cases x with
  | nil => exact Memory.getBytes_zero m a
  | cons b x =>
    have hstops (rest : Memory) : (Memory.cells a (b :: x) ++ rest).dropWhile (fun c => c.1 < a) = Memory.cells a (b :: x) ++ rest := by
      simp [Memory.cells]
    rw [Memory.getBytes, Memory.setBytes_eq m a (List.cons_ne_nil b x), List.append_assoc,
      List.dropWhile_append_of_pos fun c hc => (List.mem_filter.1 hc).2, hstops, Memory.run_cells]

end Overwritten

/-! ### The packet buffers -/

/-- A control byte written over the first byte of a packet (R151). -/
theorem Memory.set_setBytes_start (m : Memory) (b c : Byte) (x : List Byte) :
    (m.setBytes 0 (b :: x)).set 0 c = m.setBytes 0 (c :: x) := by
  have hbefore : m.filter (fun c => c.1 < 0) = [] := by simp
  rw [Memory.setBytes_eq m 0 (List.cons_ne_nil b x), Memory.setBytes_eq m 0 (List.cons_ne_nil c x), hbefore]
  rfl

/-- A packet built and sealed in TXPKT is there as it is sent (R151, R153). -/
theorem Memory.setBytes_seal (m : Memory) {p : List Byte} (hp : p.length = 72) :
    (m.setBytes 0 p).setBytes 70 [hiByte (packetCrc p), loByte (packetCrc p)] = m.setBytes 0 (withTrailer p) := by
  have hcovered : (p.take 70).length = 70 := by simp [hp]
  have htail : (p.drop 70).length = 2 := by simp [hp]
  have hparts : m.setBytes 0 p = (m.setBytes 0 (p.take 70)).setBytes 70 (p.drop 70) := by
    have happend := Memory.setBytes_append m 0 (x := p.take 70) (y := p.drop 70) (List.ne_nil_of_length_pos (by omega))
    rw [List.take_append_drop, hcovered] at happend
    exact happend.symm
  have hsealed := Memory.setBytes_append m 0 (x := p.take 70) (y := [hiByte (packetCrc p), loByte (packetCrc p)])
    (List.cons_ne_nil _ _)
  rw [hcovered, ← withTrailer_data hp] at hsealed
  rw [hparts, Memory.setBytes_over _ _ (by rw [htail]; rfl)]
  exact hsealed

/-- A DATA packet received in two pieces is in RXPKT as received at once (R157). -/
theorem Memory.setBytes_received (m : Memory) {body : List Byte} (hbody : body ≠ []) :
    (m.setBytes 0 [ctlData]).setBytes 1 body = m.setBytes 0 (ctlData :: body) :=
  Memory.setBytes_setBytes m 0 (List.cons_ne_nil _ _) hbody

end Sys2Proof.Machine
end

section
/-! SUPPORT. The packets of a paged transfer (R107, R160, R190, R191), and the answers of an adapter that sends them. -/

namespace Sys2Proof.Machine

section Packets

variable {m sub : Byte} {index : BitVec 24} {frame : List Byte} {trailer : Word}

/-- Only the trailer of a DATA packet changes where it is computed (R153). -/
theorem withTrailer_dataPacket (hframe : frame.length = 64) : withTrailer (dataPacket m sub index frame trailer) =
    dataPacket m sub index frame (crc16 0x0000 ([ctlData, m, sub] ++ bytes24 index ++ frame)) :=
  withTrailer_append (q := [ctlData, m, sub] ++ bytes24 index ++ frame) (by simp [bytes24, hframe]) _ _

theorem packetCrc_withTrailer_eq {p : List Byte} (hp : p.length = 72) : packetCrc (withTrailer p) = packetCrc p := by
  rw [withTrailer_data hp, packetCrc_append (by simp [hp])]
  rfl

theorem packetFrame_dataPacket (hframe : frame.length = 64) : packetFrame (dataPacket m sub index frame trailer) = frame := by
  simp [packetFrame, dataPacket, bytes24, ← hframe]

end Packets

section Frames

variable {layout : IndexLayout} {last : Bool} {k : Nat} {frame : List Byte}

theorem framePacket_eq (hframe : frame.length = 64) : ∃ trailer, framePacket layout last k frame =
    dataPacket (if last then cmdLastData else cmdNormalData) 0 (idxField layout (k / 128) (k % 128)) frame trailer :=
  ⟨_, withTrailer_dataPacket hframe⟩

theorem framePacket_length (hframe : frame.length = 64) : (framePacket layout last k frame).length = 72 := by
  rw [framePacket, withTrailer_length, dataPacket_length, hframe]

theorem framePacket_crc (hframe : frame.length = 64) :
    packetCrc (framePacket layout last k frame) = packetTrailer (framePacket layout last k frame) :=
  packetCrc_withTrailer (by rw [dataPacket_length, hframe])

theorem framePacket_eq_cons (hframe : frame.length = 64) :
    framePacket layout last k frame = ctlData :: (framePacket layout last k frame).drop 1 := by
  obtain ⟨trailer, heq⟩ := framePacket_eq (layout := layout) (last := last) (k := k) hframe
  rw [heq]
  rfl

theorem framePacket_command (hframe : frame.length = 64) :
    packetCommand (framePacket layout last k frame) = if last then cmdLastData else cmdNormalData := by
  obtain ⟨trailer, heq⟩ := framePacket_eq (layout := layout) (last := last) (k := k) hframe
  rw [heq]
  rfl

theorem framePacket_frame (hframe : frame.length = 64) : packetFrame (framePacket layout last k frame) = frame := by
  obtain ⟨trailer, heq⟩ := framePacket_eq (layout := layout) (last := last) (k := k) hframe
  rw [heq, packetFrame_dataPacket hframe]

/-- The index of the k-th packet is the position expected after k packets (R31, R160), as long as its page fits 16 bits. -/
theorem framePacket_index (hframe : frame.length = 64) (hk : k < 2 ^ 23) :
    packetIdx layout (framePacket layout last k frame) = expPacket (64 * k) ∧
      pageIdx layout (framePacket layout last k frame) = expPage (64 * k) := by
  obtain ⟨hback, hposition⟩ := indexRoundTrip
  obtain ⟨hpacket, hpage⟩ := hposition k
  obtain ⟨trailer, heq⟩ := framePacket_eq (layout := layout) (last := last) (k := k) hframe
  obtain ⟨hpageBack, hpacketBack⟩ := hback layout (k / 128) (k % 128) (if last then cmdLastData else cmdNormalData) 0 frame trailer
    (by omega) (by omega)
  rw [heq, hpacket, hpage]
  exact ⟨hpacketBack, hpageBack⟩

end Frames

/-! ### The draws of a transfer -/

theorem packetReplies_succ (layout : IndexLayout) (last : Nat → Bool) (n : Nat) (frames : List (List Byte)) :
    packetReplies layout last (n + 1) frames = packetReplies layout last n frames ++
      [.got ((framePacket layout (last n) n (frames.getD n [])).take 1),
        .got ((framePacket layout (last n) n (frames.getD n [])).drop 1)] := by
  simp [packetReplies, List.range_succ]

theorem packetReplies_length (layout : IndexLayout) (last : Nat → Bool) (n : Nat) (frames : List (List Byte)) :
    (packetReplies layout last n frames).length = 2 * n := by
  induction n with
  | zero => rfl
  | succ n ih => rw [packetReplies_succ, List.length_append, ih, Nat.mul_succ]; rfl

/-- The adapter's answers after k packets: the two reads of the next one, and what comes after it. -/
theorem packetReplies_drop {layout : IndexLayout} {last : Nat → Bool} {n k : Nat} {frames : List (List Byte)} (hk : k < n)
    (rxs : List RxDraw) : (packetReplies layout last n frames ++ rxs).drop (2 * k) =
      .got ((framePacket layout (last k) k (frames.getD k [])).take 1) ::
      .got ((framePacket layout (last k) k (frames.getD k [])).drop 1) ::
      (packetReplies layout last n frames ++ rxs).drop (2 * (k + 1)) := by
  induction n generalizing rxs with
  | zero => omega
  | succ n ih =>
    rw [packetReplies_succ, List.append_assoc]
    obtain hlt | rfl : k < n ∨ k = n := by omega
    · exact ih hlt _
    · rw [List.drop_left' (packetReplies_length _ _ _ _), Nat.mul_succ, ← List.drop_drop,
        List.drop_left' (packetReplies_length _ _ _ _)]
      rfl

/-- A transport that takes n TxWrites, after k of them. -/
theorem Accepts.drop {n size k : Nat} {draws : List TxDraw} (h : Accepts n size draws) (hk : k < n) :
    ∃ j, draws.drop k = .accepted j :: draws.drop (k + 1) ∧ size ≤ j := by
  induction k generalizing n draws with
  | zero =>
    obtain ⟨n, rfl⟩ : ∃ i, n = i + 1 := ⟨n - 1, by omega⟩
    obtain ⟨j, rest, rfl, hj, -⟩ := h.cons
    exact ⟨j, rfl, hj⟩
  | succ k ih =>
    obtain ⟨n, rfl⟩ : ∃ i, n = i + 1 := ⟨n - 1, by omega⟩
    obtain ⟨-, rest, rfl, -, hrest⟩ := h.cons
    exact ih hrest (by omega)

/-- The byte at a place of equally long pieces put together. -/
theorem getElem?_flatten_uniform {n : Nat} {pieces : List (List Byte)} (h : ∀ p ∈ pieces, p.length = n) {k j : Nat} (hj : j < n) :
    pieces.flatten[n * k + j]? = (pieces.getD k [])[j]? := by
  induction pieces generalizing k with
  | nil => simp
  | cons p pieces ih =>
    obtain ⟨hp, hpieces⟩ := List.forall_mem_cons.1 h
    cases k with
    | zero => simpa using List.getElem?_append_left (by omega)
    | succ k =>
      rw [List.flatten_cons, List.getElem?_append_right (by rw [hp, Nat.mul_succ]; omega), hp,
        show n * (k + 1) + j - n = n * k + j by rw [Nat.mul_succ]; omega, ih hpieces, List.getD_cons_succ]

theorem length_flatten_uniform {n : Nat} {pieces : List (List Byte)} (h : ∀ p ∈ pieces, p.length = n) :
    pieces.flatten.length = n * pieces.length := by
  rw [List.length_flatten, List.map_congr_left h, List.map_const', List.sum_replicate, smul_eq_mul, Nat.mul_comm]

end Sys2Proof.Machine
end

section
/-! SUPPORT. The pieces of a GB transfer with a GB adapter, the requester not acting: what each leaves (R153, R157, R184, R188). -/

namespace Sys2Proof.Machine

/-- What a GB adapter is sent is recorded, and it keeps no queue of it (R64, R80). -/
theorem transmit_gb {s : State} (ha : s.adapter = .gb) (bytes : List Byte) :
    s.transmit bytes = { s with txLog := s.txLog ++ bytes } := by
  simp [State.transmit, ha]

section Exchange

variable {s : State} (hv : s.env.visits = []) (ha : s.adapter = .gb)
include hv ha

/-- A DATA packet built and sent: TXPKT holds it as it is on the wire (R27, R153). -/
theorem sendBuilt_gb {p : List Byte} {j : Nat} {rest : List TxDraw} (hp : p.length = 72) (ht : s.env.tx = .accepted j :: rest)
    (hj : 72 ≤ j) : sendBuilt p s = .ok 72 { s with
      txpkt := s.txpkt.setBytes 0 (withTrailer p)
      txlen := 72
      crc := packetCrc (withTrailer p)
      env := { s.env with tx := rest }
      txLog := s.txLog ++ withTrailer p } := by
  rw [sendBuilt_eq, buildPacket_data hp, ← Memory.setBytes_seal _ hp, packetCrc_withTrailer_eq hp]
  exact (sendPacket_data (s := { s with txpkt := s.txpkt.setBytes 0 p, txlen := 72 }) hp hv ht hj).trans
    (congrArg _ (transmit_gb (s := { sealPacket p { s with txpkt := s.txpkt.setBytes 0 p, txlen := 72 } with
      env := { s.env with tx := rest } }) ha _))

/-- An ACK built and sent (R103, R155). -/
theorem sendBuilt_ack {j : Nat} {rest : List TxDraw} (ht : s.env.tx = .accepted j :: rest) (hj : 1 ≤ j) :
    sendBuilt [ctlAck] s = .ok 1 { s with
      txpkt := s.txpkt.set 0 0xAA
      txlen := 1
      env := { s.env with tx := rest }
      txLog := s.txLog ++ [0xAA] } := by
  rw [sendBuilt_eq]
  exact (sendPacket_control (s := buildPacket [ctlAck] s) hv ht hj).trans
    (congrArg _ (transmit_gb (s := { buildPacket [ctlAck] s with env := { s.env with tx := rest } }) ha _))

/-- A DATA packet received in its two reads (R28, R157). -/
theorem receivePacket_gb {body more : List Byte} {rest : List RxDraw} (hr : s.env.rx = .got (ctlData :: more) :: .got body :: rest)
    (hbody : body.length = 71) : receivePacket s = .ok (ctlData :: body) { s with
      rxpkt := s.rxpkt.setBytes 0 (ctlData :: body)
      rxlen := 72
      env := { s.env with rx := rest } } := by
  have hreceived := receivePacket_data hv ha hr hbody
  rw [storeRx, storeRx, Memory.setBytes_received s.rxpkt (List.ne_nil_of_length_pos (by omega))] at hreceived
  exact hreceived

end Exchange

/-! ### AcceptData (R184) -/

section Accept

variable {p : List Byte} {s : State} (hlen : s.rxlen = 72) (hdata : packetByte p 0 = ctlData)
include hlen hdata

theorem acceptData_mismatch (hcrc : packetCrc p ≠ packetTrailer p) : acceptData p s =
    .error .raised (State.raise .crcMismatch (packetCrc p ++ packetTrailer p : BitVec 32) { s with crc := packetCrc p }) := by
  rw [acceptData, act_bind_error (checkPacket_mismatch hlen hdata hcrc)]

variable (hcrc : packetCrc p = packetTrailer p)
include hcrc

theorem acceptData_command (hcmd : packetCommand p ≠ cmdNormalData ∧ packetCommand p ≠ cmdLastData) : acceptData p s =
    .error .raised (State.raise .unexpectedCommand ((packetCommand p).setWidth 32) { s with crc := packetCrc p }) := by
  rw [acceptData, act_bind_ok (checkPacket_ok hlen hdata hcrc)]
  refine act_bind_error ?_
  rw [decide_eq_false hcmd.1, decide_eq_false hcmd.2, ← BitVec.ofNat_toNat]
  rfl

variable (hcmd : packetCommand p = cmdNormalData ∨ packetCommand p = cmdLastData)
include hcmd

/-- The checks of a packet whose bytes are right: its place, then the room for it. -/
theorem acceptData_placed : acceptData p s = (do
      check (packetIdx s.cfg.indexLayout p = expPacket s.xcount.toNat && pageIdx s.cfg.indexLayout p = expPage s.xcount.toNat)
        .sequence s.xcount.toNat
      check (s.xcount.toNat + 64 ≤ s.xlen.toNat) .overrun s.xcount.toNat : Act Unit) { s with crc := packetCrc p } := by
  rw [acceptData, act_bind_ok (checkPacket_ok hlen hdata hcrc), act_bind_ok (check_ok (by simpa using hcmd)),
    act_bind_ok (look_run _ _), act_bind_ok (look_run _ _), act_bind_ok (look_run _ _)]

theorem acceptData_sequence (hplace : packetIdx s.cfg.indexLayout p ≠ expPacket s.xcount.toNat ∨
      pageIdx s.cfg.indexLayout p ≠ expPage s.xcount.toNat) :
    acceptData p s = .error .raised (State.raise .sequence s.xcount { s with crc := packetCrc p }) := by
  rw [acceptData_placed hlen hdata hcrc hcmd]
  exact act_bind_error (check_raises (Bool.eq_false_iff.2 (by simpa [imp_iff_not_or] using hplace)))

variable (hplace : packetIdx s.cfg.indexLayout p = expPacket s.xcount.toNat ∧
  pageIdx s.cfg.indexLayout p = expPage s.xcount.toNat)
include hplace

theorem acceptData_overrun (hfull : s.xlen.toNat < s.xcount.toNat + 64) :
    acceptData p s = .error .raised (State.raise .overrun s.xcount { s with crc := packetCrc p }) := by
  rw [acceptData_placed hlen hdata hcrc hcmd, act_bind_ok (check_ok (by simpa using hplace))]
  exact check_raises (decide_eq_false (by omega))

theorem acceptData_ok (hroom : s.xcount.toNat + 64 ≤ s.xlen.toNat) :
    acceptData p s = .ok () { s with crc := packetCrc p } := by
  rw [acceptData_placed hlen hdata hcrc hcmd, act_bind_ok (check_ok (by simpa using hplace))]
  exact check_ok (decide_eq_true hroom)

end Accept

/-- The frame of a packet stored and counted (R30, R188). -/
theorem storeFrame_run {s : State} (hz : s.hazard = []) (p : List Byte) : storeFrame p s = .ok () { s with
    dbuf := s.dbuf.setBytes (s.xboff.toNat + s.xcount.toNat) (packetFrame p), xcount := s.xcount + 64 } := by
  rw [storeFrame, act_bind_ok (look_run _ _), act_bind_ok (look_run _ _), act_bind_ok (storeDbuf_none _ _ _ hz)]
  rfl

theorem startTransfer_run (dir : BitVec 2) (len boff : Reg32) (s : State) : startTransfer dir len.toNat boff s =
    .ok () { s with xdir := dir, xlen := len, xcount := 0, xboff := boff, xstate := .sendHeader } := by
  rw [startTransfer, upd_run, BitVec.ofNat_toNat, BitVec.setWidth_eq]

theorem finishTransfer_run (s : State) : finishTransfer s = .ok s.xcount { s with xstate := .done } := rfl

end Sys2Proof.Machine
end

section
/-! SUPPORT. The status queries (R195 to R197). -/

namespace Sys2Proof.Machine

/-- The 70 bytes of a STATUS packet that its CRC covers (R197). -/
def queryBytes (sub : Byte) : List Byte := [0x55, 0x04, sub, 0x00, 0x00, 0x00] ++ List.replicate 64 0x00

theorem queryBytes_length (sub : Byte) : (queryBytes sub).length = 70 := rfl

theorem statusPacket_eq (sub : Byte) : statusPacket sub = queryBytes sub ++ [0x00, 0x00] := rfl

/-- A status query once its packet has been sent (R180, R197). -/
def State.queried (sub : Byte) (boff : Reg32) (txs : List TxDraw) (s : State) : State :=
  { s.accept.sent (queryBytes sub ++ [hiByte (crc16 0 (queryBytes sub)), loByte (crc16 0 (queryBytes sub))]) txs with
    txpkt := (s.txpkt.setBytes 0 (queryBytes sub ++ [0x00, 0x00])).setBytes 70
      [hiByte (crc16 0 (queryBytes sub)), loByte (crc16 0 (queryBytes sub))]
    txlen := 72
    crc := crc16 0 (queryBytes sub)
    xdir := 2
    xlen := 64
    xcount := 0
    xboff := boff
    xstate := .awaitResponse }

/-- What a status query does with the reply (R197). -/
def queryReply : Act Reg32 := do
  let p ← receivePacket
  let _ ← checkPacket p
  storeFrame p
  finishTransfer

section Query

variable {s : State} {sub : Byte} {boff : Reg32}

theorem exec_statusQuery {i : Instr}
    (hi : (sub, i) ∈ [((0 : Byte), Instr.gbReadDeviceStatus boff), ((1 : Byte), Instr.gbReadStatus boff)]) :
    exec i s = request (statusQuery sub boff) s := by
  simp only [List.mem_cons, Prod.mk.injEq, List.not_mem_nil, or_false] at hi
  rcases hi with ⟨rfl, rfl⟩ | ⟨rfl, rfl⟩ <;> rfl

theorem statusPacket_length (sub : Byte) : (statusPacket sub).length = 72 := dataPacket_length _ _ _ _ _

/-- A status query up to its reply. -/
theorem statusQuery_run {j : Nat} {txs : List TxDraw} (hv : s.env.visits = []) (hin : boff.toNat + 64 ≤ s.cfg.dbufSize)
    (ht : s.env.tx = .accepted j :: txs) (hj : 72 ≤ j) :
    statusQuery sub boff s.accept = queryReply (s.queried sub boff txs) := by
  let u : State := { s.accept with xdir := 2, xlen := 64, xcount := 0, xboff := boff, xstate := .sendHeader }
  have hstart : startTransfer 2 64 boff s.accept = .ok () u := rfl
  let v : State := { u with txpkt := s.txpkt.setBytes 0 (statusPacket sub), txlen := 72 }
  have hbuild : sendBuilt (statusPacket sub) u = sendPacket (statusPacket sub) v :=
    (sendBuilt_eq _ _).trans (congrArg _ (buildPacket_data (statusPacket_length sub) u))
  have hsend : sendPacket (statusPacket sub) v =
      .ok 72 ((sealPacket (statusPacket sub) v).sent (withTrailer (statusPacket sub)) txs) :=
    (sendPacket_data (s := v) (statusPacket_length sub) hv ht hj).trans
      (congrArg (EStateM.Result.ok 72) (transmit_eq_sent _ _ (sealPacket _ v)))
  have hsealed : sealPacket (statusPacket sub) v = { v with
      txpkt := v.txpkt.setBytes 70 [hiByte (crc16 0 (queryBytes sub)), loByte (crc16 0 (queryBytes sub))]
      crc := crc16 0 (queryBytes sub) } := by
    rw [sealPacket, statusPacket_eq, packetCrc_append (queryBytes_length sub)]
  have hwire := withTrailer_append (queryBytes_length sub) 0x00 0x00
  rw [hsealed, statusPacket_eq, hwire, ← statusPacket_eq] at hsend
  rw [statusQuery, act_bind_ok (checkDbuf_ok (s := s.accept) hin), act_bind_ok hstart, act_bind_ok (hbuild.trans hsend), setXState,
    act_bind_ok (upd_run _ _)]
  rfl

variable {t : State} (hv : t.env.visits = []) (ha : t.adapter = .gb)
include hv ha

theorem queryReply_control {c : Byte} {more : List Byte} {rxs : List RxDraw} (hc : c ≠ ctlData)
    (hr : t.env.rx = .got (c :: more) :: rxs) : queryReply t = .error .raised
      (State.raise .notData 1 { storeRx 0 [c] (t.received rxs) with rxlen := 1 }) := by
  have hlen : (1 : BitVec 7).toNat ≠ 72 := by decide
  rw [queryReply, act_bind_ok (receivePacket_control hv ha hr hc)]
  exact act_bind_error (checkPacket_notData (s := { storeRx 0 [c] (t.received rxs) with rxlen := 1 }) (.inl hlen))

variable {more body : List Byte} {rxs : List RxDraw} (hr : t.env.rx = .got (ctlData :: more) :: .got body :: rxs)
  (hbody : body.length = 71)
include hr hbody

theorem queryReply_mismatch (hcrc : packetCrc (ctlData :: body) ≠ packetTrailer (ctlData :: body)) :
    queryReply t = .error .raised
      (State.raise .crcMismatch (packetCrc (ctlData :: body) ++ packetTrailer (ctlData :: body) : BitVec 32)
        { storeRx 1 body (storeRx 0 [ctlData] (t.received rxs)) with rxlen := 72, crc := packetCrc (ctlData :: body) }) := by
  let u : State := { storeRx 1 body (storeRx 0 [ctlData] (t.received rxs)) with rxlen := 72 }
  have hcheck := checkPacket_mismatch (s := u) rfl rfl hcrc
  rw [queryReply, act_bind_ok (receivePacket_data hv ha hr hbody)]
  exact act_bind_error hcheck

theorem queryReply_data (hz : t.hazard = []) (hcrc : packetCrc (ctlData :: body) = packetTrailer (ctlData :: body)) :
    queryReply t = .ok (t.xcount + 64) { storeRx 1 body (storeRx 0 [ctlData] (t.received rxs)) with
      rxlen := 72
      crc := packetCrc (ctlData :: body)
      dbuf := t.dbuf.setBytes (t.xboff.toNat + t.xcount.toNat) (packetFrame (ctlData :: body))
      xcount := t.xcount + 64
      xstate := .done } := by
  let u : State := { storeRx 1 body (storeRx 0 [ctlData] (t.received rxs)) with rxlen := 72 }
  have hcheck := checkPacket_ok (s := u) rfl rfl hcrc
  have hstore := storeFrame_run (s := { u with crc := packetCrc (ctlData :: body) }) hz (ctlData :: body)
  rw [queryReply, act_bind_ok (receivePacket_data hv ha hr hbody)]
  exact (act_bind_ok hcheck).trans (act_bind_ok hstore)

end Query

/-- Settles O29: the query up to its reply, then one reply after the other. -/
theorem statusQueries : Obligations.StatusQueries := by
  intro s boff sub i hi ⟨hb, hvisits⟩ hgb
  rw [exec_statusQuery hi]
  refine ⟨fun hout => request_raises_first hb (checkDbuf_leaves (s := s.accept) hout), fun hin k txs htx hk => ?_⟩
  have hrun := statusQuery_run (sub := sub) hvisits hin htx hk
  refine ⟨fun c more rxs hc hrx => ?_, fun more body rxs hbody hrx => ?_⟩
  · exact (request_ready hb).trans (runRequest_raised (hrun.trans (queryReply_control (t := s.queried sub boff txs) hvisits hgb hc hrx)))
  dsimp only
  split
  · next hcrc =>
    exact (request_ready hb).trans (runRequest_ok (hrun.trans (queryReply_data (t := s.queried sub boff txs) hvisits hgb hrx hbody rfl hcrc)))
  · next hcrc =>
    exact (request_ready hb).trans (runRequest_raised (hrun.trans (queryReply_mismatch (t := s.queried sub boff txs) hvisits hgb hrx hbody hcrc)))

end Sys2Proof.Machine
end

section
/-! SUPPORT. A paged read packet by packet (R183 to R188): the state that waits for a packet, and what each packet makes of it. -/

namespace Sys2Proof.Machine

/-! ### One turn of the loop -/

/-- The answer to a packet that does not complete the transfer (R183, R187). -/
def ackAndReadOn (fuel : Nat) : Act Reg32 := do
  setXState .continuing
  let _ ← sendBuilt [ctlAck]
  setXState .awaitResponse
  readLoop fuel

section Turn

variable {fuel : Nat} {p : List Byte} {s t u v : State} {e : Ended}

theorem readLoop_control {c : Byte} (h : receivePacket s = .ok [c] t) : readLoop (fuel + 1) s =
    (if c = ctlEnd ∧ t.xcount = t.xlen then finishTransfer else raise .unexpectedControl c.toNat : Act Reg32) t := by
  rw [readLoop, act_bind_ok h]
  rfl

theorem readLoop_refused (h : receivePacket s = .ok p t) (hp : p.length = 72) (haccept : acceptData p t = .error e u) :
    readLoop (fuel + 1) s = .error e u := by
  rw [readLoop, act_bind_ok h, if_neg (by omega), act_bind_error haccept]

theorem readLoop_data (h : receivePacket s = .ok p t) (hp : p.length = 72) (haccept : acceptData p t = .ok () u)
    (hstore : storeFrame p u = .ok () v) : readLoop (fuel + 1) s =
      (if packetCommand p = cmdLastData ∧ v.xcount = v.xlen then finishTransfer else ackAndReadOn fuel) v := by
  rw [readLoop, act_bind_ok h, if_neg (by omega), act_bind_ok haccept, act_bind_ok hstore]
  rfl

end Turn

/-! ### The states of a paged read -/

/-- A paged read and the data packets that the adapter sends in it: their frames, and which of them are LAST_DATA. -/
structure PagedRead where
  boff : Reg32
  len : Reg32
  last : Nat → Bool
  frames : List (List Byte)

/-- The packet buffers and CRC (R26, R27, R28). -/
structure PacketBuffers where
  txpkt : Memory
  txlen : BitVec 7
  rxpkt : Memory
  rxlen : BitVec 7
  crc : Word

/-- The header of a paged read (R183). -/
def State.readHeader (s : State) (r : PagedRead) : List Byte := configWire s.cfg.subRram r.len.toNat

/-- The k-th data packet of a paged read. -/
def State.readPacket (s : State) (r : PagedRead) (k : Nat) : List Byte :=
  framePacket s.cfg.indexLayout (r.last k) k (r.frames.getD k [])

/-- The buffers when k packets have been acknowledged: the header sent and nothing received, or an ACK sent and a packet received. -/
def State.readBuffers (s : State) (r : PagedRead) : Nat → PacketBuffers
  | 0 => ⟨s.txpkt.setBytes 0 (s.readHeader r), 72, s.rxpkt, s.rxlen, packetCrc (s.readHeader r)⟩
  | k + 1 => ⟨s.txpkt.setBytes 0 (0xAA :: (s.readHeader r).drop 1), 1, s.rxpkt.setBytes 0 (s.readPacket r k), 72,
      packetCrc (s.readPacket r k)⟩

/-- A paged read that waits for a packet, k packets having been stored and acknowledged. -/
def State.reading (s : State) (r : PagedRead) (k : Nat) : State :=
  { s.accept with
    txpkt := (s.readBuffers r k).txpkt
    txlen := (s.readBuffers r k).txlen
    rxpkt := (s.readBuffers r k).rxpkt
    rxlen := (s.readBuffers r k).rxlen
    crc := (s.readBuffers r k).crc
    xdir := 0
    xlen := r.len
    xcount := BitVec.ofNat 32 (64 * k)
    xboff := r.boff
    xstate := .awaitResponse
    dbuf := s.dbuf.setBytes r.boff.toNat (r.frames.take k).flatten
    env := { s.env with tx := s.env.tx.drop (k + 1), rx := s.env.rx.drop (2 * k) }
    txLog := s.txLog ++ s.readHeader r ++ List.replicate k 0xAA }

/-- The packet that was waited for has been received. -/
def State.received72 (s : State) (r : PagedRead) (k : Nat) (p : List Byte) (rxs : List RxDraw) : State :=
  { s.reading r k with
    rxpkt := s.rxpkt.setBytes 0 p
    rxlen := 72
    env := { s.env with tx := s.env.tx.drop (k + 1), rx := rxs } }

/-- A control byte has been received instead. -/
def State.receivedControl (s : State) (r : PagedRead) (k : Nat) (c : Byte) (rxs : List RxDraw) : State :=
  { s.reading r k with
    rxpkt := (s.readBuffers r k).rxpkt.setBytes 0 [c]
    rxlen := 1
    env := { s.env with tx := s.env.tx.drop (k + 1), rx := rxs } }

/-- The k-th packet has been received and stored, and not been acknowledged. -/
def State.storedPacket (s : State) (r : PagedRead) (k : Nat) : State :=
  { s.received72 r k (s.readPacket r k) (s.env.rx.drop (2 * (k + 1))) with
    crc := packetCrc (s.readPacket r k)
    xcount := BitVec.ofNat 32 (64 * (k + 1))
    dbuf := s.dbuf.setBytes r.boff.toNat (r.frames.take (k + 1)).flatten }

/-- What a paged read meets: its arguments pass the checks, the adapter sends the data packets and then `rxs`, and the transport takes so
many packets. -/
structure Serves (s : State) (r : PagedRead) (writes : Nat) (rxs : List RxDraw) : Prop where
  calm : s.Calm
  adapter : s.adapter = .gb
  size : transferLength r.len.toNat
  small : r.len.toNat ≤ 2 ^ 29
  inside : r.boff.toNat + r.len.toNat ≤ s.cfg.dbufSize
  room : r.frames.length ≤ r.len.toNat / 64
  frames : ∀ f ∈ r.frames, f.length = 64
  accepts : Accepts writes 72 s.env.tx
  replies : s.env.rx = packetReplies s.cfg.indexLayout r.last r.frames.length r.frames ++ rxs

/-- A transfer is of whole packets, at least two (R73). -/
theorem transferLength_packets {n : Nat} (h : transferLength n) : ∃ i, n / 64 = i + 2 ∧ n = 64 * (i + 2) :=
  ⟨n / 64 - 2, by unfold transferLength at h; omega, by unfold transferLength at h; omega⟩

/-- XCOUNT as a number, in a transfer that its 32 bits can count. -/
theorem xcount_toNat {k : Nat} {len : Reg32} (h : k ≤ len.toNat / 64) : (BitVec.ofNat 32 (64 * k)).toNat = 64 * k := by
  have hlen := len.isLt
  rw [BitVec.toNat_ofNat]
  omega

theorem xcount_add (k : Nat) : BitVec.ofNat 32 (64 * k) + 64 = BitVec.ofNat 32 (64 * (k + 1)) := by
  rw [Nat.mul_succ, BitVec.ofNat_add]
  rfl

/-- XCOUNT = XLEN once all packets are counted (R187). -/
theorem xcount_eq_xlen_iff {k : Nat} {len : Reg32} (hsize : transferLength len.toNat) (h : k ≤ len.toNat / 64) :
    BitVec.ofNat 32 (64 * k) = len ↔ k = len.toNat / 64 := by
  obtain ⟨i, hi, hlen⟩ := transferLength_packets hsize
  rw [← BitVec.toNat_inj, xcount_toNat h]
  omega

theorem configWire_eq_cons (sub : Byte) (n : Nat) : configWire sub n = ctlData :: (configWire sub n).drop 1 := by
  have hframe : (List.replicate 64 0x00 : List Byte).length = 64 := List.length_replicate
  rw [configWire, withTrailer_dataPacket hframe]
  rfl

/-- An ACK is written over the first byte of the header, or of the ACK before it. -/
theorem State.txpkt_ack (s : State) (r : PagedRead) (k : Nat) :
    (s.readBuffers r k).txpkt.set 0 0xAA = s.txpkt.setBytes 0 (0xAA :: (s.readHeader r).drop 1) := by
  cases k with
  | zero =>
    have hheader : s.readHeader r = ctlData :: (s.readHeader r).drop 1 := configWire_eq_cons _ _
    rw [State.readBuffers, hheader]
    exact Memory.set_setBytes_start _ _ _ _
  | succ k => exact Memory.set_setBytes_start _ _ _ _

section Read

variable {s : State} {r : PagedRead} {writes k : Nat} {rxs : List RxDraw} (h : Serves s r writes rxs)
include h

theorem Serves.frame (hk : k < r.frames.length) : (r.frames.getD k []).length = 64 := by
  rw [List.getD_eq_getElem _ _ hk]
  exact h.frames _ (List.getElem_mem hk)

/-- The adapter's answers to the two reads of a packet. -/
theorem Serves.answers (hk : k < r.frames.length) : s.env.rx.drop (2 * k) =
    .got [ctlData] :: .got ((s.readPacket r k).drop 1) :: s.env.rx.drop (2 * (k + 1)) := by
  have hfirst : (s.readPacket r k).take 1 = [ctlData] := by
    rw [State.readPacket, framePacket_eq_cons (h.frame hk)]
    rfl
  rw [h.replies, packetReplies_drop hk, ← hfirst]
  rfl

theorem Serves.answers_end : s.env.rx.drop (2 * r.frames.length) = rxs := by
  rw [h.replies, List.drop_left' (packetReplies_length _ _ _ _)]

/-- RXPKT takes a whole packet over what it held. -/
theorem Serves.rxpkt_over (hk : k ≤ r.frames.length) {p : List Byte} (hp : p.length = 72) :
    (s.readBuffers r k).rxpkt.setBytes 0 p = s.rxpkt.setBytes 0 p := by
  cases k with
  | zero => rfl
  | succ k => exact Memory.setBytes_over _ _ (by rw [State.readPacket, framePacket_length (h.frame hk), hp])

/-- A DATA packet comes. -/
theorem Serves.receive_data (hk : k ≤ r.frames.length) {more body : List Byte} {rest : List RxDraw}
    (hr : s.env.rx.drop (2 * k) = .got (ctlData :: more) :: .got body :: rest) (hbody : body.length = 71) :
    receivePacket (s.reading r k) = .ok (ctlData :: body) (s.received72 r k (ctlData :: body) rest) := by
  have hreceived := receivePacket_gb (s := s.reading r k) h.calm.2 h.adapter hr hbody
  have hover := h.rxpkt_over hk (p := ctlData :: body) (by simp [hbody])
  rw [State.received72, ← hover]
  exact hreceived

theorem Serves.receive_control {c : Byte} {more : List Byte} {rest : List RxDraw} (hc : c ≠ ctlData)
    (hr : s.env.rx.drop (2 * k) = .got (c :: more) :: rest) :
    receivePacket (s.reading r k) = .ok [c] (s.receivedControl r k c rest) :=
  receivePacket_control (s := s.reading r k) h.calm.2 h.adapter hr hc

section Packet

variable (hk : k < r.frames.length)
include hk

theorem Serves.packet_eq_cons : s.readPacket r k = ctlData :: (s.readPacket r k).drop 1 := framePacket_eq_cons (h.frame hk)

theorem Serves.packet_length : (s.readPacket r k).length = 72 := framePacket_length (h.frame hk)

theorem Serves.packet_isLast : packetCommand (s.readPacket r k) = cmdLastData ↔ r.last k = true := by
  have hcmd : packetCommand (s.readPacket r k) = _ := framePacket_command (h.frame hk)
  rw [hcmd]
  cases r.last k <;> decide

/-- XCOUNT while a packet is waited for. -/
theorem Serves.count : (BitVec.ofNat 32 (64 * k)).toNat = 64 * k :=
  xcount_toNat (Nat.le_trans (Nat.le_of_lt hk) h.room)

theorem Serves.receive_packet : receivePacket (s.reading r k) =
    .ok (s.readPacket r k) (s.received72 r k (s.readPacket r k) (s.env.rx.drop (2 * (k + 1)))) := by
  have hreceive := h.receive_data (Nat.le_of_lt hk) (h.answers hk) (by simp [h.packet_length hk])
  rwa [← h.packet_eq_cons hk] at hreceive

/-- The packet is the one expected, and there is room for it (R184). -/
theorem Serves.accept_packet (rest : List RxDraw) : acceptData (s.readPacket r k) (s.received72 r k (s.readPacket r k) rest) =
    .ok () { s.received72 r k (s.readPacket r k) rest with crc := packetCrc (s.readPacket r k) } := by
  have hroom := h.room
  have hsmall := h.small
  have hcount := h.count hk
  have hcmd : packetCommand (s.readPacket r k) = _ := framePacket_command (h.frame hk)
  have hdata : packetByte (s.readPacket r k) 0 = ctlData := by rw [h.packet_eq_cons hk]; rfl
  refine acceptData_ok (s := s.received72 r k (s.readPacket r k) rest) rfl hdata (framePacket_crc (h.frame hk)) ?_ ?_ ?_
  · rw [hcmd]
    cases r.last k
    · exact .inl rfl
    · exact .inr rfl
  · show _ = expPacket (BitVec.ofNat 32 (64 * k)).toNat ∧ _ = expPage (BitVec.ofNat 32 (64 * k)).toNat
    rw [hcount]
    exact framePacket_index (h.frame hk) (by omega)
  · show (BitVec.ofNat 32 (64 * k)).toNat + 64 ≤ r.len.toNat
    omega

/-- Its frame comes after the frames before it (R188). -/
theorem Serves.dbuf_succ :
    (s.dbuf.setBytes r.boff.toNat (r.frames.take k).flatten).setBytes (r.boff.toNat + 64 * k) (packetFrame (s.readPacket r k)) =
      s.dbuf.setBytes r.boff.toNat (r.frames.take (k + 1)).flatten := by
  have hbefore : (r.frames.take k).flatten.length = 64 * k := by
    rw [length_flatten_uniform fun f hf => h.frames f (List.mem_of_mem_take hf), List.length_take, Nat.min_eq_left (by omega)]
  have hframe : packetFrame (s.readPacket r k) = r.frames[k] := by
    rw [State.readPacket, framePacket_frame (h.frame hk), List.getD_eq_getElem _ _ hk]
  rw [hframe, List.take_succ_eq_append_getElem hk, List.flatten_append, List.flatten_singleton, ← hbefore]
  exact Memory.setBytes_append _ _ (List.ne_nil_of_length_pos (by rw [h.frames _ (List.getElem_mem hk)]; decide))

theorem Serves.store_packet : storeFrame (s.readPacket r k)
    { s.received72 r k (s.readPacket r k) (s.env.rx.drop (2 * (k + 1))) with crc := packetCrc (s.readPacket r k) } =
      .ok () (s.storedPacket r k) := by
  let t : State := { s.received72 r k (s.readPacket r k) (s.env.rx.drop (2 * (k + 1))) with crc := packetCrc (s.readPacket r k) }
  calc storeFrame (s.readPacket r k) t = .ok () { t with
        dbuf := (s.dbuf.setBytes r.boff.toNat (r.frames.take k).flatten).setBytes
          (r.boff.toNat + (BitVec.ofNat 32 (64 * k)).toNat) (packetFrame (s.readPacket r k))
        xcount := BitVec.ofNat 32 (64 * k) + 64 } := storeFrame_run (s := t) rfl _
    _ = .ok () { t with
        dbuf := s.dbuf.setBytes r.boff.toNat (r.frames.take (k + 1)).flatten
        xcount := BitVec.ofNat 32 (64 * (k + 1)) } := by rw [h.count hk, h.dbuf_succ hk, xcount_add]
    _ = .ok () (s.storedPacket r k) := rfl

/-- A packet is received, accepted and stored; then the transfer is complete, or goes on (R183 to R188). -/
theorem Serves.readLoop_stored (fuel : Nat) : readLoop (fuel + 1) (s.reading r k) =
    (if r.last k = true ∧ k + 1 = r.len.toNat / 64 then finishTransfer else ackAndReadOn fuel : Act Reg32) (s.storedPacket r k) := by
  have hcomplete : (s.storedPacket r k).xcount = (s.storedPacket r k).xlen ↔ k + 1 = r.len.toNat / 64 :=
    xcount_eq_xlen_iff (len := r.len) h.size (Nat.le_trans hk h.room)
  rw [readLoop_data (h.receive_packet hk) (h.packet_length hk) (h.accept_packet hk _) (h.store_packet hk)]
  simp only [h.packet_isLast hk, hcomplete]

omit hk in
/-- The transfer goes on with an ACK (R187). -/
theorem Serves.ack_packet (fuel : Nat) (hwrites : k + 1 < writes) :
    ackAndReadOn fuel (s.storedPacket r k) = readLoop fuel (s.reading r (k + 1)) := by
  obtain ⟨j, htx, hj⟩ := h.accepts.drop hwrites
  let t : State := { s.storedPacket r k with xstate := .continuing }
  let u : State := { t with
    txpkt := s.txpkt.setBytes 0 (0xAA :: (s.readHeader r).drop 1)
    txlen := 1
    env := { t.env with tx := s.env.tx.drop (k + 2) }
    txLog := s.txLog ++ s.readHeader r ++ List.replicate (k + 1) 0xAA }
  have hlog : s.txLog ++ s.readHeader r ++ List.replicate (k + 1) 0xAA =
      s.txLog ++ s.readHeader r ++ List.replicate k 0xAA ++ [(0xAA : Byte)] := by
    rw [List.replicate_succ', ← List.append_assoc]
  have hsend : sendBuilt [ctlAck] t = .ok 1 u :=
    calc sendBuilt [ctlAck] t = .ok 1 { t with
          txpkt := (s.readBuffers r k).txpkt.set 0 0xAA
          txlen := 1
          env := { t.env with tx := s.env.tx.drop (k + 2) }
          txLog := s.txLog ++ s.readHeader r ++ List.replicate k 0xAA ++ [0xAA] } :=
          sendBuilt_ack (s := t) h.calm.2 h.adapter htx (by omega)
      _ = .ok 1 u := by rw [← hlog, s.txpkt_ack r k]
  rw [ackAndReadOn, setXState, act_bind_ok (upd_run _ _), act_bind_ok hsend, setXState, act_bind_ok (upd_run _ _)]
  rfl

end Packet

/-- Packets that do not complete the transfer are stored and acknowledged, one after the other. -/
theorem Serves.readLoop_packets (hk : k ≤ r.frames.length) (hwrites : k < writes)
    (hgoes : ∀ i < k, r.last i = true → i + 1 ≠ r.len.toNat / 64) (fuel : Nat) :
    readLoop (fuel + k) (s.reading r 0) = readLoop fuel (s.reading r k) := by
  induction k generalizing fuel with
  | zero => rfl
  | succ k ih =>
    have hrest := ih (by omega) (by omega) (fun i hi => hgoes i (by omega)) (fuel + 1)
    have hon : ¬(r.last k = true ∧ k + 1 = r.len.toNat / 64) := fun hc => hgoes k (by omega) hc.1 hc.2
    rw [show fuel + (k + 1) = fuel + 1 + k by omega, hrest, h.readLoop_stored hk, if_neg hon, h.ack_packet fuel hwrites]

/-- The header is sent, and the first packet waited for (R183). -/
theorem Serves.gbReadRamBody_run (hwrites : 0 < writes) :
    gbReadRamBody r.boff r.len s.accept = readLoop (r.len.toNat / 64 + 1) (s.reading r 0) := by
  obtain ⟨j, htx, hj⟩ := h.accepts.drop hwrites
  rw [List.drop_zero] at htx
  let t : State := { s.accept with xdir := 0, xlen := r.len, xcount := 0, xboff := r.boff, xstate := .sendHeader }
  have hsend := sendBuilt_gb (s := t) h.calm.2 h.adapter (p := configPacket s.cfg.subRram r.len.toNat)
    (dataPacket_length _ _ _ _ _) htx hj
  rw [gbReadRamBody, act_bind_ok (checkTransfer_ok (s := s.accept) h.size h.inside), act_bind_ok (startTransfer_run _ _ _ _),
    act_bind_ok (look_run _ _)]
  refine (act_bind_ok hsend).trans ((act_bind_ok (upd_run _ _)).trans (congrArg (readLoop _) ?_))
  have hlog : s.txLog ++ s.readHeader r = s.txLog ++ s.readHeader r ++ List.replicate 0 0xAA := (List.append_nil _).symm
  rw [State.reading, ← hlog]
  rfl

/-- A paged read up to the packet that ends it. -/
theorem Serves.exec_gbReadRam (hk : k ≤ r.frames.length) (hwrites : k < writes)
    (hgoes : ∀ i < k, r.last i = true → i + 1 ≠ r.len.toNat / 64) :
    exec (.gbReadRam r.boff r.len) s = settle (readLoop (r.len.toNat / 64 - k + 1) (s.reading r k)) := by
  have hroom := h.room
  have hloop := h.readLoop_packets hk hwrites hgoes (r.len.toNat / 64 - k + 1)
  rw [show r.len.toNat / 64 - k + 1 + k = r.len.toNat / 64 + 1 by omega, ← h.gbReadRamBody_run (by omega)] at hloop
  rw [← hloop]
  exact request_ready h.calm.1

end Read

end Sys2Proof.Machine
end

section
/-! SUPPORT. How a paged read ends (R184 to R188): complete, or with an error after any number of good packets. -/

namespace Sys2Proof.Machine

/-! ### DBUF after the frames -/

section Frames

variable (m : Memory) (a : Nat) {frames : List (List Byte)} (h : ∀ f ∈ frames, f.length = 64)
include h

/-- The frames stored one after the other read back byte by byte. -/
theorem Memory.get_setBytes_frames {k j : Nat} (hk : k < frames.length) (hj : j < 64) :
    (m.setBytes a frames.flatten).get (a + 64 * k + j) = (frames.getD k [])[j]? := by
  have hlen := length_flatten_uniform h
  rw [Memory.get_setBytes, if_pos (by omega), show a + 64 * k + j - a = 64 * k + j by omega, getElem?_flatten_uniform h hj]

theorem Memory.get_setBytes_frames_outside {x : Nat} (hx : x < a ∨ a + 64 * frames.length ≤ x) :
    (m.setBytes a frames.flatten).get x = m.get x := by
  have hlen := length_flatten_uniform h
  rw [Memory.get_setBytes, if_neg (by omega)]

end Frames

section Read

variable {s : State} {r : PagedRead} {writes : Nat} {rxs : List RxDraw} (h : Serves s r writes rxs)
include h

/-! ### Completion -/

/-- XCOUNT counts the whole transfer at its end. -/
theorem Serves.count_full (hall : r.frames.length = r.len.toNat / 64) : BitVec.ofNat 32 (64 * r.frames.length) = r.len :=
  (xcount_eq_xlen_iff h.size h.room).2 hall

/-- A LAST_DATA that fills the buffer ends the read (R187). -/
theorem Serves.gbReadRam_last {k : Nat} (hk : k + 1 = r.frames.length) (hall : r.frames.length = r.len.toNat / 64) (hwrites : k < writes)
    (hlast : r.last k = true) :
    exec (.gbReadRam r.boff r.len) s = .next (State.completed r.len { s.storedPacket r k with xcount := r.len }) := by
  have hfull := h.count_full hall
  rw [← hk] at hfull
  rw [h.exec_gbReadRam (by omega) hwrites fun i hi _ => by omega, h.readLoop_stored (by omega), if_pos ⟨hlast, by omega⟩,
    State.storedPacket, hfull]
  rfl

/-- END after a NORMAL_DATA that filled the buffer ends the read (R186). -/
theorem Serves.gbReadRam_end {k : Nat} {more : List Byte} {rest : List RxDraw} (hk : k + 1 = r.frames.length)
    (hall : r.frames.length = r.len.toNat / 64) (hwrites : k + 1 < writes) (hlast : r.last k = false)
    (hend : rxs = .got (ctlEnd :: more) :: rest) :
    exec (.gbReadRam r.boff r.len) s = .next (State.completed r.len { s.reading r (k + 1) with
      xcount := r.len
      rxpkt := s.rxpkt.setBytes 0 (ctlEnd :: (s.readPacket r k).drop 1)
      rxlen := 1
      env := { s.env with tx := s.env.tx.drop (k + 2), rx := rest } }) := by
  have hfull := h.count_full hall
  have hanswers := h.answers_end
  rw [← hk] at hfull hanswers
  have hcontrol := readLoop_control (fuel := r.len.toNat / 64 - (k + 1)) (h.receive_control (by decide) (hanswers.trans hend))
  have hgoes (i : Nat) (hi : i < k + 1) (hi' : r.last i = true) : i + 1 ≠ r.len.toNat / 64 := by
    rintro heq
    obtain rfl : i = k := by omega
    rw [hlast] at hi'
    cases hi'
  have hover : (s.rxpkt.setBytes 0 (s.readPacket r k)).setBytes 0 [ctlEnd] =
      s.rxpkt.setBytes 0 (ctlEnd :: (s.readPacket r k).drop 1) :=
    Memory.setBytes_over_start _ _ (by rw [h.packet_length (by omega)]; decide) (List.cons_ne_nil _ _)
  let t : State := { s.receivedControl r (k + 1) ctlEnd rest with xstate := .done }
  calc exec (.gbReadRam r.boff r.len) s = .next (t.complete (BitVec.ofNat 32 (64 * (k + 1)))) := by
        rw [h.exec_gbReadRam (by omega) hwrites hgoes, hcontrol, if_pos ⟨rfl, hfull⟩]
        rfl
    _ = .next (State.completed (BitVec.ofNat 32 (64 * (k + 1))) { t with
        xcount := BitVec.ofNat 32 (64 * (k + 1))
        rxpkt := (s.rxpkt.setBytes 0 (s.readPacket r k)).setBytes 0 [ctlEnd] }) := rfl
    _ = .next (State.completed r.len { t with
        xcount := r.len
        rxpkt := s.rxpkt.setBytes 0 (ctlEnd :: (s.readPacket r k).drop 1) }) := by rw [hover, hfull]
    _ = _ := rfl

/-! ### Errors -/

/-- A read has ended in a PacketProtocol error after the packets that the adapter sent: their frames are stored and counted, each of them
was acknowledged, and RESULT is as it was. -/
def State.ReadFails (s : State) (r : PagedRead) (sub : Byte) (info : Reg32) : Prop :=
  ∃ t, exec (.gbReadRam r.boff r.len) s = .next t ∧ t.done = false ∧ t.err = true ∧ t.errKind = 2 ∧ t.errSub = sub ∧
    t.errInfo = info ∧ t.xcount = BitVec.ofNat 32 (64 * r.frames.length) ∧ t.result = s.result ∧
    t.txLog = s.txLog ++ s.readHeader r ++ List.replicate r.frames.length 0xAA ∧
    (∀ k < r.frames.length, ∀ j < 64, t.dbuf.get (r.boff.toNat + 64 * k + j) = (r.frames.getD k [])[j]?) ∧
    (∀ a, a < r.boff.toNat ∨ r.boff.toNat + 64 * r.frames.length ≤ a → t.dbuf.get a = s.dbuf.get a)

variable (hwrites : r.frames.length < writes) (hgoes : ∀ k, k + 1 = r.len.toNat / 64 → r.last k = false)
include hwrites hgoes

/-- An error that the loop raises while it waits for the next packet, having touched only what a receive touches. -/
theorem Serves.readFails {e : Err} {info : Reg32} {rxpkt : Memory} {rxlen : BitVec 7} {crc : Word} {env : Env} (he : e.kind = 2)
    (hloop : ∀ fuel, readLoop (fuel + 1) (s.reading r r.frames.length) = .error .raised (State.raise e info
      { s.reading r r.frames.length with rxpkt := rxpkt, rxlen := rxlen, crc := crc, env := env })) :
    s.ReadFails r e.sub info := by
  have hon (i : Nat) (_ : i < r.frames.length) (hi : r.last i = true) : i + 1 ≠ r.len.toNat / 64 := fun heq => by
    rw [hgoes i heq] at hi
    cases hi
  have hexec := h.exec_gbReadRam (Nat.le_refl _) hwrites hon
  rw [hloop] at hexec
  have hdbuf : (s.reading r r.frames.length).dbuf = s.dbuf.setBytes r.boff.toNat r.frames.flatten := by
    rw [State.reading, List.take_length]
  refine ⟨_, hexec, rfl, rfl, he, rfl, rfl, rfl, rfl, rfl, fun k hk j hj => ?_, fun a ha => ?_⟩
  · exact (congrArg (Memory.get · _) hdbuf).trans (Memory.get_setBytes_frames _ _ h.frames hk hj)
  · exact (congrArg (Memory.get · _) hdbuf).trans (Memory.get_setBytes_frames_outside _ _ h.frames ha)

/-- A control byte other than END after a full buffer (R186). -/
theorem Serves.readFails_control {c : Byte} {more : List Byte} {rest : List RxDraw} (hc : c ≠ ctlData)
    (hend : ¬(c = ctlEnd ∧ 64 * r.frames.length = r.len.toNat)) (hrx : rxs = .got (c :: more) :: rest) :
    s.ReadFails r 6 (c.setWidth 32) := by
  let t := s.receivedControl r r.frames.length c rest
  have hon : ¬(c = ctlEnd ∧ t.xcount = t.xlen) := fun ⟨hc, hfull⟩ =>
    hend ⟨hc, (xcount_toNat h.room).symm.trans (congrArg BitVec.toNat hfull)⟩
  refine h.readFails hwrites hgoes (e := .unexpectedControl) (rxpkt := t.rxpkt) (rxlen := 1) (crc := t.crc) (env := t.env) rfl fun fuel => ?_
  rw [readLoop_control (h.receive_control hc (h.answers_end.trans hrx)), ← BitVec.ofNat_toNat]
  exact congrFun (if_neg hon) t

section Data

variable {more body : List Byte} {rest : List RxDraw} (hbody : body.length = 71)
  (hrx : rxs = .got (ctlData :: more) :: .got body :: rest)
include hbody hrx

/-- A DATA packet that AcceptData refuses (R184). -/
theorem Serves.readFails_data {e : Err} {info : Reg32} (he : e.kind = 2)
    (hrefused : acceptData (ctlData :: body) (s.received72 r r.frames.length (ctlData :: body) rest) = .error .raised
      (State.raise e info { s.received72 r r.frames.length (ctlData :: body) rest with crc := packetCrc (ctlData :: body) })) :
    s.ReadFails r e.sub info :=
  h.readFails hwrites hgoes he fun _ =>
    readLoop_refused (h.receive_data (Nat.le_refl _) (h.answers_end.trans hrx) hbody) (by simp [hbody]) hrefused

theorem Serves.readFails_mismatch (hcrc : packetCrc (ctlData :: body) ≠ packetTrailer (ctlData :: body)) :
    s.ReadFails r 4 (packetCrc (ctlData :: body) ++ packetTrailer (ctlData :: body) : BitVec 32) :=
  h.readFails_data hwrites hgoes hbody hrx (e := .crcMismatch) rfl (acceptData_mismatch rfl rfl hcrc)

variable (hcrc : packetCrc (ctlData :: body) = packetTrailer (ctlData :: body))
include hcrc

theorem Serves.readFails_command
    (hcmd : packetCommand (ctlData :: body) ≠ cmdNormalData ∧ packetCommand (ctlData :: body) ≠ cmdLastData) :
    s.ReadFails r 8 ((packetCommand (ctlData :: body)).setWidth 32) :=
  h.readFails_data hwrites hgoes hbody hrx (e := .unexpectedCommand) rfl (acceptData_command rfl rfl hcrc hcmd)

variable (hcmd : packetCommand (ctlData :: body) = cmdNormalData ∨ packetCommand (ctlData :: body) = cmdLastData)
include hcmd

theorem Serves.readFails_sequence (hplace : packetIdx s.cfg.indexLayout (ctlData :: body) ≠ r.frames.length % 128 ∨
      pageIdx s.cfg.indexLayout (ctlData :: body) ≠ r.frames.length / 128) :
    s.ReadFails r 5 (BitVec.ofNat 32 (64 * r.frames.length)) := by
  obtain ⟨-, hposition⟩ := indexRoundTrip
  obtain ⟨hpacket, hpage⟩ := hposition r.frames.length
  rw [← hpacket, ← hpage, ← xcount_toNat h.room] at hplace
  exact h.readFails_data hwrites hgoes hbody hrx (e := .sequence) rfl (acceptData_sequence rfl rfl hcrc hcmd hplace)

theorem Serves.readFails_overrun (hplace : packetIdx s.cfg.indexLayout (ctlData :: body) = r.frames.length % 128 ∧
      pageIdx s.cfg.indexLayout (ctlData :: body) = r.frames.length / 128) (hfull : 64 * r.frames.length = r.len.toNat) :
    s.ReadFails r 9 (BitVec.ofNat 32 (64 * r.frames.length)) := by
  obtain ⟨-, hposition⟩ := indexRoundTrip
  obtain ⟨hpacket, hpage⟩ := hposition r.frames.length
  have hcount := xcount_toNat h.room
  rw [← hpacket, ← hpage, ← hcount] at hplace
  refine h.readFails_data hwrites hgoes hbody hrx (e := .overrun) rfl (acceptData_overrun rfl rfl hcrc hcmd hplace ?_)
  show r.len.toNat < (BitVec.ofNat 32 (64 * r.frames.length)).toNat + 64
  omega

end Data
end Read

/-- Settles O25: the loop packet by packet up to the last one, which completes the read, or to the END after it. -/
theorem gbReadRamCompletes : Obligations.GbReadRamCompletes := by
  intro s boff len frames last rxs hcalm hgb hsize hsmall hin hcount hframes
  obtain ⟨i, hi, hlen⟩ := transferLength_packets hsize
  let r : PagedRead := ⟨boff, len, last, frames⟩
  rw [hi] at hcount
  have hall : r.frames.length = r.len.toNat / 64 := hcount.trans hi.symm
  have hserves {writes : Nat} {more : List RxDraw} (hacc : Accepts writes 72 s.env.tx)
      (hrx : s.env.rx = packetReplies s.cfg.indexLayout last (i + 2) frames ++ more) : Serves s r writes more :=
    ⟨hcalm, hgb, hsize, hsmall, hin, hall.le, hframes, hacc, by rw [hrx, ← hcount]⟩
  have hstored (k : Nat) (hk : k < i + 2) (j : Nat) (hj : j < 64) :
      (s.dbuf.setBytes boff.toNat (frames.take (i + 2)).flatten).get (boff.toNat + 64 * k + j) = (frames.getD k [])[j]? := by
    rw [← hcount, List.take_length]
    exact Memory.get_setBytes_frames _ _ hframes (hcount ▸ hk) hj
  have hkept (a : Nat) (ha : a < boff.toNat ∨ boff.toNat + len.toNat ≤ a) :
      (s.dbuf.setBytes boff.toNat (frames.take (i + 2)).flatten).get a = s.dbuf.get a := by
    rw [← hcount, List.take_length]
    exact Memory.get_setBytes_frames_outside _ _ hframes (by omega)
  rw [hi]
  refine ⟨fun hlast hacc hrx => ?_, fun more hlast hacc hrx => ?_⟩
  · have h := hserves hacc hrx
    have hrest : s.env.rx.drop (2 * (i + 2)) = rxs := hcount ▸ h.answers_end
    have hexec := h.gbReadRam_last (k := i + 1) hcount.symm hall (by omega) hlast
    rw [State.storedPacket, hrest] at hexec
    exact ⟨_, hexec, rfl, hstored, hkept⟩
  · have h := hserves hacc hrx
    have hexec := h.gbReadRam_end (k := i + 1) hcount.symm hall (by omega) hlast rfl
    exact ⟨_, hexec, rfl, hstored, hkept⟩

end Sys2Proof.Machine
end

section
/-! SUPPORT. A paged write packet by packet (R189 to R193): what is sent, and what each reply makes of the transfer. -/

namespace Sys2Proof.Machine

/-- Pieces with one result go on alike. -/
theorem act_bind_congr {α β : Type} {m m' : Act α} {f : α → Act β} {s s' : State} (h : m s = m' s') : (m >>= f) s = (m' >>= f) s' := by
  rw [act_bind, act_bind, h]

/-! ### A packet with a frame from DBUF -/

/-- TXPKT and CRC with a DATA packet as it is sent (R26, R27, R153). -/
def State.loaded (q : List Byte) (s : State) : State :=
  { s with txpkt := s.txpkt.setBytes 0 q, txlen := 72, crc := packetCrc q }

theorem State.loaded_loaded (q : List Byte) (s : State) : (s.loaded q).loaded q = s.loaded q := by
  show { s with txpkt := (s.txpkt.setBytes 0 q).setBytes 0 q, txlen := 72, crc := packetCrc q } = s.loaded q
  rw [Memory.setBytes_over _ _ (Nat.le_refl _)]
  rfl

/-- Building and sealing a packet loads it as it is sent. -/
theorem sealPacket_buildPacket {p : List Byte} (hp : p.length = 72) (s : State) :
    sealPacket p (buildPacket p s) = s.loaded (withTrailer p) := by
  rw [buildPacket_data hp, State.loaded, ← Memory.setBytes_seal _ hp, packetCrc_withTrailer_eq hp]
  rfl

section Load

variable {s : State} {mk : List Byte → List Byte} {off : Nat} {frame : List Byte} (hz : s.hazard = [])
  (hread : s.dbuf.getBytes off 64 = some frame) (hmk : (mk frame).length = 72)
include hz hread hmk

theorem loadPacket_run : loadPacket mk off s = .ok (withTrailer (mk frame)) (s.loaded (withTrailer (mk frame))) := by
  rw [loadPacket, act_bind_ok (memRead_some hread hz), act_bind_ok (upd_run _ _), act_bind_ok (upd_run _ _), act_pure,
    sealPacket_buildPacket hmk]

/-- The packet with the next frame sent (R189). -/
theorem sendLoaded_gb {j : Nat} {rest : List TxDraw} (hv : s.env.visits = []) (ha : s.adapter = .gb)
    (ht : s.env.tx = .accepted j :: rest) (hj : 72 ≤ j) : sendLoaded mk off s = .ok () { s.loaded (withTrailer (mk frame)) with
      env := { s.env with tx := rest }
      txLog := s.txLog ++ withTrailer (mk frame) } := by
  have hlen : (withTrailer (mk frame)).length = 72 := (withTrailer_length _).trans hmk
  let t : State := { s.loaded (withTrailer (mk frame)) with env := { s.env with tx := rest } }
  have hagain : loadPacket mk off t = .ok (withTrailer (mk frame)) t := by
    have hload := loadPacket_run (s := t) hz hread hmk
    have hsame : t.loaded (withTrailer (mk frame)) = t :=
      congrArg (fun u : State => { u with env := { s.env with tx := rest } }) (State.loaded_loaded (withTrailer (mk frame)) s)
    rwa [hsame] at hload
  have hwire : wirePacket off (withTrailer (mk frame)) t = .ok (withTrailer (mk frame)) t := by
    have hwhole : (withTrailer (mk frame)).take 6 ++ packetFrame (withTrailer (mk frame)) ++ (withTrailer (mk frame)).drop 70 =
        withTrailer (mk frame) := by
      rw [packetFrame, ← List.take_add, List.take_append_drop]
    rw [wirePacket, act_bind_ok (maskHazard_none _ _ t hz), act_pure, hwhole]
  have hfirst : (do
      let p ← loadPacket mk off
      let sent ← wirePacket off p
      pure (sent.take 72) : Act (List Byte)) t = .ok (withTrailer (mk frame)) t := by
    rw [act_bind_ok hagain, act_bind_ok hwire, act_pure, List.take_of_length_le (by omega)]
  rw [sendLoaded, act_bind_ok (loadPacket_run hz hread hmk)]
  exact (txWriteOf_visited_all (s := s.loaded (withTrailer (mk frame))) (visit_none hv) ht hj hfirst).trans
    (congrArg _ (transmit_gb (s := t) ha _))

end Load

/-! ### Replies -/

/-- An ACK comes (R192). -/
theorem expectAck_ok {s : State} {rest : List RxDraw} (hv : s.env.visits = []) (ha : s.adapter = .gb)
    (hr : s.env.rx = .got [0xAA] :: rest) : expectAck s = .ok () { s with
      rxpkt := s.rxpkt.setBytes 0 [0xAA], rxlen := 1, env := { s.env with rx := rest } } := by
  rw [expectAck, act_bind_ok (receivePacket_control hv ha hr (by decide))]
  rfl

/-- Replies that begin with something that is no ACK: wherever they are read, UNEXPECTED_CONTROL is raised, and only what a receive
touches is touched besides (R192). -/
def RefusedAck (replies : List RxDraw) (info : Reg32) : Prop :=
  ∀ s : State, s.env.visits = [] → s.adapter = .gb → s.env.rx = replies → ∃ rxpkt rxlen env,
    expectAck s = .error .raised (State.raise .unexpectedControl info { s with rxpkt := rxpkt, rxlen := rxlen, env := env })

theorem expectAck_refuses {s t : State} {p : List Byte} (h : receivePacket s = .ok p t) (hp : p ≠ [ctlAck]) :
    expectAck s = .error .raised (t.raise .unexpectedControl ((packetByte p 0).setWidth 32)) := by
  rw [expectAck, act_bind_ok h, decide_eq_false hp, check_false, BitVec.ofNat_toNat]

theorem refusedAck_control {c : Byte} (hdata : c ≠ ctlData) (hack : c ≠ ctlAck) (more : List Byte) (rest : List RxDraw) :
    RefusedAck (.got (c :: more) :: rest) (c.setWidth 32) := fun s hv ha hr =>
  ⟨_, 1, _, expectAck_refuses (receivePacket_control hv ha hr hdata) (by simpa using hack)⟩

theorem refusedAck_data {body : List Byte} (hbody : body.length = 71) (more : List Byte) (rest : List RxDraw) :
    RefusedAck (.got (ctlData :: more) :: .got body :: rest) 0x55 := fun s hv ha hr =>
  ⟨_, 72, _, expectAck_refuses (receivePacket_gb hv ha hr hbody) fun heq => absurd (List.cons.inj heq).1 (by decide)⟩

/-! ### The states of a paged write -/

/-- A paged write and the bytes it takes from DBUF. -/
structure PagedWrite where
  boff : Reg32
  len : Reg32
  data : List Byte

/-- The frame of the k-th data packet. -/
def PagedWrite.frame (w : PagedWrite) (k : Nat) : List Byte := (w.data.drop (64 * k)).take 64

/-- The header of a paged write (R189). -/
def State.writeHeader (s : State) (w : PagedWrite) : List Byte := configWire s.cfg.subWram w.len.toNat

/-- The k-th data packet of a paged write (R190, R191). -/
def State.writePacket (s : State) (w : PagedWrite) (k : Nat) : List Byte :=
  transferPacket s.cfg.indexLayout (w.len.toNat / 64) k (w.frame k)

/-- What was sent last, k data packets having been sent. -/
def State.lastSent (s : State) (w : PagedWrite) : Nat → List Byte
  | 0 => s.writeHeader w
  | k + 1 => s.writePacket w k

/-- What was sent altogether. -/
def State.writeLog (s : State) (w : PagedWrite) (k : Nat) : List Byte :=
  s.txLog ++ s.writeHeader w ++ (List.range k).flatMap (s.writePacket w)

/-- A paged write whose header and first k data packets have been acknowledged. -/
def State.acknowledged (s : State) (w : PagedWrite) (k : Nat) : State :=
  { s.accept.loaded (s.lastSent w k) with
    rxpkt := s.rxpkt.setBytes 0 [0xAA]
    rxlen := 1
    xdir := 1
    xlen := w.len
    xcount := BitVec.ofNat 32 (64 * k)
    xboff := w.boff
    xstate := .awaitResponse
    env := { s.env with tx := s.env.tx.drop (k + 1), rx := s.env.rx.drop (k + 1) }
    txLog := s.writeLog w k }

/-- The header has been sent, and its reply is waited for. -/
def State.headed (s : State) (w : PagedWrite) : State :=
  { s.acknowledged w 0 with
    rxpkt := s.rxpkt
    rxlen := s.rxlen
    env := { s.env with tx := s.env.tx.drop 1 } }

/-- The k-th data packet has been sent, and its reply is waited for. -/
def State.sentPacket (s : State) (w : PagedWrite) (k : Nat) : State :=
  { s.acknowledged w k with
    txpkt := s.txpkt.setBytes 0 (s.writePacket w k)
    crc := packetCrc (s.writePacket w k)
    env := { s.env with tx := s.env.tx.drop (k + 2), rx := s.env.rx.drop (k + 1) }
    txLog := s.writeLog w (k + 1) }

/-- What a paged write meets: its arguments pass the checks, DBUF has the frames of so many packets, the transport takes these and the
header, and so many ACKs come before `rxs`. -/
structure Acknowledges (s : State) (w : PagedWrite) (packets acks : Nat) (rxs : List RxDraw) : Prop where
  calm : s.Calm
  adapter : s.adapter = .gb
  size : transferLength w.len.toNat
  inside : w.boff.toNat + w.len.toNat ≤ s.cfg.dbufSize
  room : packets ≤ w.len.toNat / 64
  source : s.dbuf.getBytes w.boff.toNat (64 * packets) = some w.data
  accepts : Accepts (packets + 1) 72 s.env.tx
  replies : s.env.rx = List.replicate acks (.got [0xAA]) ++ rxs

theorem configWire_length (sub : Byte) (n : Nat) : (configWire sub n).length = 72 := by
  rw [configWire, withTrailer_length, dataPacket_length, List.length_replicate]

theorem State.writeLog_succ (s : State) (w : PagedWrite) (k : Nat) : s.writeLog w (k + 1) = s.writeLog w k ++ s.writePacket w k := by
  rw [State.writeLog, List.range_succ, List.flatMap_append, ← List.append_assoc, List.flatMap_singleton]
  rfl

section Write

variable {s : State} {w : PagedWrite} {packets acks k : Nat} {rxs : List RxDraw} (h : Acknowledges s w packets acks rxs)
include h

theorem Acknowledges.answer (hk : k < acks) : s.env.rx.drop k = .got [0xAA] :: s.env.rx.drop (k + 1) := by
  rw [h.replies, List.drop_append_of_le_length (by rw [List.length_replicate]; omega),
    List.drop_append_of_le_length (by rw [List.length_replicate]; omega), List.drop_replicate, List.drop_replicate,
    show acks - k = acks - (k + 1) + 1 by omega]
  rfl

theorem Acknowledges.answers_end : s.env.rx.drop acks = rxs := by
  rw [h.replies, List.drop_left' List.length_replicate]

section Packet

variable (hk : k < packets)
include hk

theorem Acknowledges.read_frame : s.dbuf.getBytes (w.boff.toNat + 64 * k) 64 = some (w.frame k) :=
  Memory.getBytes_drop_take (by omega) h.source

theorem Acknowledges.frame_length : (w.frame k).length = 64 := Memory.run_length _ _ _ _ (h.read_frame hk)

omit hk in
/-- The k-th data packet is LAST_DATA where it is the last one (R190, R191). -/
theorem Acknowledges.writePacket_eq : withTrailer (dataPacket (if 64 * k + 64 = w.len.toNat then cmdLastData else cmdNormalData) 0
    (idxField s.cfg.indexLayout (expPage (64 * k)) (expPacket (64 * k))) (w.frame k) 0) = s.writePacket w k := by
  obtain ⟨-, hposition⟩ := indexRoundTrip
  obtain ⟨hpacket, hpage⟩ := hposition k
  obtain ⟨i, hi, hlen⟩ := transferLength_packets h.size
  have hlast : (64 * k + 64 = w.len.toNat) = (decide (k + 1 = w.len.toNat / 64) = true) := by
    rw [decide_eq_true_eq, eq_iff_iff]
    omega
  simp only [hpacket, hpage, hlast]
  rfl

end Packet

/-- A packet is loaded over the one sent before. -/
theorem Acknowledges.lastSent_over (hk : k ≤ packets) {p : List Byte} (hp : p.length = 72) :
    (s.txpkt.setBytes 0 (s.lastSent w k)).setBytes 0 p = s.txpkt.setBytes 0 p := by
  refine Memory.setBytes_over _ _ (le_of_eq ?_)
  rw [hp]
  cases k with
  | zero => exact configWire_length _ _
  | succ k => exact framePacket_length (h.frame_length hk)

section Packet

variable (hk : k < packets)
include hk

/-- A data packet is sent (R189, R190). -/
theorem Acknowledges.writeLoop_sent (left : Nat) : writeLoop (left + 1) (s.acknowledged w k) = (do
    expectAck
    countFrame
    writeLoop left : Act Unit) (s.sentPacket w k) := by
  obtain ⟨j, htx, hj⟩ := h.accepts.drop (k := k + 1) (by omega)
  have hcount : (BitVec.ofNat 32 (64 * k)).toNat = 64 * k := xcount_toNat (len := w.len) (Nat.le_trans (Nat.le_of_lt hk) h.room)
  let mk (frame : List Byte) : List Byte := dataPacket (if 64 * k + 64 = w.len.toNat then cmdLastData else cmdNormalData) 0
    (idxField s.cfg.indexLayout (expPage (64 * k)) (expPacket (64 * k))) frame 0
  let t : State := { s.acknowledged w k with xstate := .continuing }
  have hmk : (mk (w.frame k)).length = 72 := by rw [dataPacket_length, h.frame_length hk]
  have hover := h.lastSent_over (Nat.le_of_lt hk) (p := s.writePacket w k) (framePacket_length (h.frame_length hk))
  have hsend : sendLoaded mk (w.boff.toNat + 64 * k) t = .ok () { s.sentPacket w k with xstate := .continuing } :=
    calc sendLoaded mk (w.boff.toNat + 64 * k) t = .ok () { t.loaded (withTrailer (mk (w.frame k))) with
          env := { t.env with tx := s.env.tx.drop (k + 2) }
          txLog := s.writeLog w k ++ withTrailer (mk (w.frame k)) } :=
          sendLoaded_gb (s := t) (mk := mk) rfl (h.read_frame hk) hmk h.calm.2 h.adapter htx hj
      _ = .ok () { t.loaded (s.writePacket w k) with
          env := { t.env with tx := s.env.tx.drop (k + 2) }
          txLog := s.writeLog w (k + 1) } := by rw [h.writePacket_eq, State.writeLog_succ]
      _ = .ok () { t with
          txpkt := (s.txpkt.setBytes 0 (s.lastSent w k)).setBytes 0 (s.writePacket w k)
          txlen := 72
          crc := packetCrc (s.writePacket w k)
          env := { t.env with tx := s.env.tx.drop (k + 2) }
          txLog := s.writeLog w (k + 1) } := rfl
      _ = .ok () { s.sentPacket w k with xstate := .continuing } := by rw [hover]; rfl
  rw [writeLoop, setXState, act_bind_ok (upd_run _ _), act_bind_ok (look_run _ _), act_bind_ok (look_run _ _),
    act_bind_ok (look_run _ _), act_bind_ok (look_run _ _)]
  have hxcount : t.xcount.toNat = 64 * k := hcount
  have hsent : sendLoaded (fun frame => dataPacket (if t.xcount.toNat + 64 = t.xlen.toNat then cmdLastData else cmdNormalData) 0
      (idxField t.cfg.indexLayout (expPage t.xcount.toNat) (expPacket t.xcount.toNat)) frame 0) (t.xboff.toNat + t.xcount.toNat) t =
        .ok () { s.sentPacket w k with xstate := .continuing } := by
    rw [hxcount]
    exact hsend
  exact (act_bind_ok hsent).trans (act_bind_ok (upd_run _ _))

omit hk in
/-- Its ACK comes, and it is counted (R192). -/
theorem Acknowledges.ack_packet (hack : k + 1 < acks) (left : Nat) : (do
    expectAck
    countFrame
    writeLoop left : Act Unit) (s.sentPacket w k) = writeLoop left (s.acknowledged w (k + 1)) := by
  let t : State := { s.sentPacket w k with rxpkt := s.rxpkt.setBytes 0 [0xAA], env := (s.acknowledged w (k + 1)).env }
  have hexpect : expectAck (s.sentPacket w k) = .ok () t :=
    calc expectAck (s.sentPacket w k) = .ok () { t with rxpkt := (s.rxpkt.setBytes 0 [0xAA]).setBytes 0 [0xAA] } :=
          expectAck_ok (s := s.sentPacket w k) h.calm.2 h.adapter (h.answer hack)
      _ = .ok () t := by rw [Memory.setBytes_over _ _ (Nat.le_refl _)]
  have hcounted : { t with xcount := BitVec.ofNat 32 (64 * k) + 64 } = s.acknowledged w (k + 1) := by
    rw [xcount_add]
    rfl
  rw [act_bind_ok hexpect, countFrame, act_bind_ok (upd_run _ _), ← hcounted]
  rfl

end Packet

/-- Data packets are sent and acknowledged, one after the other. -/
theorem Acknowledges.writeLoop_packets (hk : k ≤ packets) (hack : k < acks) (left : Nat) :
    writeLoop (left + k) (s.acknowledged w 0) = writeLoop left (s.acknowledged w k) := by
  induction k generalizing left with
  | zero => rfl
  | succ k ih =>
    rw [show left + (k + 1) = left + 1 + k by omega, ih (by omega) (by omega), h.writeLoop_sent hk, h.ack_packet hack]

/-- The header is sent (R189). -/
theorem Acknowledges.gbWriteRamBody_run : gbWriteRamBody w.boff w.len s.accept = (do
    expectAck
    writeLoop (w.len.toNat / 64)
    finishTransfer : Act Reg32) (s.headed w) := by
  obtain ⟨j, htx, hj⟩ := h.accepts.drop (k := 0) (by omega)
  rw [List.drop_zero] at htx
  let t : State := { s.accept with xdir := 1, xlen := w.len, xcount := 0, xboff := w.boff, xstate := .sendHeader }
  have hsend := sendBuilt_gb (s := t) h.calm.2 h.adapter (p := configPacket s.cfg.subWram w.len.toNat)
    (dataPacket_length _ _ _ _ _) htx hj
  have hlog : s.txLog ++ s.writeHeader w = s.writeLog w 0 := (List.append_nil _).symm
  rw [gbWriteRamBody, act_bind_ok (checkTransfer_ok (s := s.accept) h.size h.inside), act_bind_ok (startTransfer_run _ _ _ _),
    act_bind_ok (look_run _ _)]
  refine (act_bind_ok hsend).trans ((act_bind_ok (upd_run _ _)).trans (congrArg _ ?_))
  rw [State.headed, State.acknowledged, ← hlog]
  rfl

theorem Acknowledges.exec_gbWriteRam : exec (.gbWriteRam w.boff w.len) s = settle ((do
    expectAck
    writeLoop (w.len.toNat / 64)
    finishTransfer : Act Reg32) (s.headed w)) := by
  rw [← h.gbWriteRamBody_run]
  exact request_ready h.calm.1

/-- A paged write up to the next data packet (R192). -/
theorem Acknowledges.exec_gbWriteRam_packets (hk : k ≤ packets) (hack : k < acks) :
    exec (.gbWriteRam w.boff w.len) s = settle ((do
      writeLoop (w.len.toNat / 64 - k)
      finishTransfer : Act Reg32) (s.acknowledged w k)) := by
  have hroom := h.room
  have hexpect : expectAck (s.headed w) = .ok () (s.acknowledged w 0) :=
    expectAck_ok (s := s.headed w) h.calm.2 h.adapter (h.answer (Nat.zero_lt_of_lt hack))
  have hloop := h.writeLoop_packets hk hack (w.len.toNat / 64 - k)
  rw [Nat.sub_add_cancel (by omega)] at hloop
  rw [h.exec_gbWriteRam, act_bind_ok hexpect]
  exact congrArg settle (act_bind_congr hloop)

end Write

end Sys2Proof.Machine
end

section
/-! SUPPORT. How a paged write ends (R192 to R194, R200): complete, and read back the same, or with UNEXPECTED_CONTROL. -/

namespace Sys2Proof.Machine

/-- Bytes cut into frames of 64. -/
def cutFrames (data : List Byte) (n : Nat) : List (List Byte) := (List.range n).map fun k => (data.drop (64 * k)).take 64

theorem cutFrames_flatten (data : List Byte) (n : Nat) : (cutFrames data n).flatten = data.take (64 * n) := by
  induction n with
  | zero => rfl
  | succ n ih =>
    calc (cutFrames data (n + 1)).flatten = (cutFrames data n).flatten ++ (data.drop (64 * n)).take 64 := by
          simp [cutFrames, List.range_succ]
      _ = data.take (64 * (n + 1)) := by rw [ih, Nat.mul_succ, List.take_add]

theorem cutFrames_getD {data : List Byte} {n k : Nat} (hk : k < n) : (cutFrames data n).getD k [] = (data.drop (64 * k)).take 64 := by
  simp [cutFrames, List.getD, hk]

theorem cutFrames_uniform {data : List Byte} {n : Nat} (hdata : data.length = 64 * n) : ∀ f ∈ cutFrames data n, f.length = 64 := by
  intro f hf
  obtain ⟨k, hk, rfl⟩ := List.mem_map.1 hf
  have := List.mem_range.1 hk
  simp
  omega

section Write

variable {s : State} {w : PagedWrite} {packets acks : Nat} {rxs : List RxDraw} (h : Acknowledges s w packets acks rxs)
include h

/-! ### Completion -/

/-- Every packet acknowledged, the write is complete (R193). -/
theorem Acknowledges.gbWriteRam_all (hall : packets = w.len.toNat / 64) (hacks : packets < acks) : exec (.gbWriteRam w.boff w.len) s =
    .next (State.completed w.len { s.acknowledged w packets with xcount := w.len }) := by
  have hfull : BitVec.ofNat 32 (64 * packets) = w.len := (xcount_eq_xlen_iff h.size h.room).2 hall
  rw [h.exec_gbWriteRam_packets (Nat.le_refl _) hacks, State.acknowledged, hfull, Nat.sub_eq_zero_of_le hall.ge]
  rfl

/-! ### Errors -/

theorem Acknowledges.writeLog_length {k : Nat} (hk : k ≤ packets) : (s.writeLog w k).length = s.txLog.length + 72 * (k + 1) := by
  induction k with
  | zero => simp [State.writeLog, State.writeHeader, configWire_length]
  | succ k ih =>
    have hpacket : (s.writePacket w k).length = 72 := framePacket_length (h.frame_length hk)
    rw [State.writeLog_succ, List.length_append, ih (by omega), hpacket]
    omega

/-- A write has ended in UNEXPECTED_CONTROL at the reply to the last of so many data packets, or to the header: the packets before it are
counted, and DBUF and RESULT are as they were. -/
def State.WriteFails (s : State) (w : PagedWrite) (packets : Nat) (info : Reg32) : Prop :=
  ∃ t, exec (.gbWriteRam w.boff w.len) s = .next t ∧ t.done = false ∧ t.err = true ∧ t.errKind = 2 ∧ t.errSub = 6 ∧
    t.errInfo = info ∧ t.xcount = BitVec.ofNat 32 (64 * (packets - 1)) ∧ t.result = s.result ∧ t.dbuf = s.dbuf ∧
    t.txLog.length = s.txLog.length + 72 * (packets + 1)

/-- A refused reply where an ACK was to come (R192). -/
theorem Acknowledges.writeFails {info : Reg32} (hacks : acks = packets) (hrefused : RefusedAck rxs info) : s.WriteFails w packets info := by
  subst hacks
  have hlog := h.writeLog_length (Nat.le_refl _)
  have hanswer := h.answers_end
  cases acks with
  | zero =>
    obtain ⟨rxpkt, rxlen, env, hraise⟩ := hrefused (s.headed w) h.calm.2 h.adapter hanswer
    exact ⟨_, h.exec_gbWriteRam.trans (congrArg settle (act_bind_error hraise)), rfl, rfl, rfl, rfl, rfl, rfl, rfl, rfl, hlog⟩
  | succ k =>
    have hroom := h.room
    obtain ⟨rxpkt, rxlen, env, hraise⟩ := hrefused (s.sentPacket w k) h.calm.2 h.adapter hanswer
    have hsent := h.writeLoop_sent (Nat.lt_succ_self k) (w.len.toNat / 64 - (k + 1))
    rw [act_bind_error hraise, show w.len.toNat / 64 - (k + 1) + 1 = w.len.toNat / 64 - k by omega] at hsent
    exact ⟨_, (h.exec_gbWriteRam_packets (by omega) (by omega)).trans (congrArg settle (act_bind_error hsent)), rfl, rfl, rfl, rfl,
      rfl, rfl, rfl, rfl, hlog⟩

end Write

/-- Settles O26: the loop packet by packet up to the last ACK; the packets sent are those that a paged read takes. -/
theorem gbWriteRamCompletes : Obligations.GbWriteRamCompletes := by
  intro s boff len data rxs hcalm hgb hsize hin hdata hacc hrx n frames packet t
  obtain ⟨i, hi, hlen⟩ := transferLength_packets hsize
  have hn : n = i + 2 := hi
  have hlength : data.length = 64 * n := by rw [Memory.run_length _ _ _ _ hdata]; omega
  let w : PagedWrite := ⟨boff, len, data⟩
  have h : Acknowledges s w n (n + 1) rxs :=
    ⟨hcalm, hgb, hsize, hin, Nat.le_refl _, by rw [← hdata]; congr 1; omega, hacc, hrx⟩
  have hpacket (k : Nat) (hk : k < n) : packet k = s.writePacket w k := congrArg (transferPacket _ n k) (cutFrames_getD hk)
  have hexec : exec (.gbWriteRam boff len) s = .next t := by
    have hlast : s.lastSent w n = packet (n - 1) := by
      rw [hn, hpacket _ (by omega)]
      rfl
    have hsent : s.writeLog w n = s.txLog ++ configWire s.cfg.subWram len.toNat ++ (List.range n).flatMap packet :=
      congrArg _ (List.flatMap_congr fun k hk => (hpacket k (List.mem_range.1 hk)).symm)
    have hall := h.gbWriteRam_all rfl (Nat.lt_succ_self n)
    rw [State.acknowledged, h.answers_end, hlast, hsent] at hall
    exact hall
  refine ⟨hexec, fun boff2 txs2 rxs2 hin2 hsmall hacc2 => ?_⟩
  let r : PagedRead := ⟨boff2, len, fun k => decide (k + 1 = n), frames⟩
  let t2 : State := { t with env := { t.env with tx := txs2, rx := dataReplies s.cfg.indexLayout n n frames ++ rxs2 } }
  have hcount : r.frames.length = n := by simp [r, frames]
  have hserves : Serves t2 r n rxs2 :=
    ⟨⟨rfl, hcalm.2⟩, hgb, hsize, hsmall, hin2, hcount.le, cutFrames_uniform hlength, hacc2, by rw [hcount]; rfl⟩
  have hread := hserves.gbReadRam_last (k := i + 1) (by omega) hcount (by omega) (by simp [r, hn])
  have hstored : (frames.take (i + 2)).flatten = data := by
    rw [List.take_of_length_le (hcount.trans hn).le]
    exact (cutFrames_flatten data n).trans (List.take_of_length_le hlength.le)
  refine ⟨_, hread, rfl, ?_⟩
  calc (s.dbuf.setBytes boff2.toNat (frames.take (i + 2)).flatten).getBytes boff2.toNat len.toNat
      = (s.dbuf.setBytes boff2.toNat data).getBytes boff2.toNat data.length := by rw [hstored, hlength, hn, hlen]
    _ = some data := Memory.getBytes_setBytes s.dbuf boff2.toNat

/-- Settles O28: the transfer packet by packet up to the reply that ends it. -/
theorem gbReplyErrors : Obligations.GbReplyErrors := by
  refine ⟨fun s boff len m frames last hcalm hgb hsize hsmall hin hm hgoes hcount hframes hacc => ?_,
    fun s boff len m data hcalm hgb hsize hin hm hdata hacc => ?_⟩
  · subst hcount
    let r : PagedRead := ⟨boff, len, last, frames⟩
    have hserves {rxs : List RxDraw} (hrx : s.env.rx = packetReplies s.cfg.indexLayout last frames.length frames ++ rxs) :
        Serves s r (frames.length + 1) rxs := ⟨hcalm, hgb, hsize, hsmall, hin, hm, hframes, hacc, hrx⟩
    have hwrites : r.frames.length < frames.length + 1 := Nat.lt_succ_self _
    refine ⟨fun c more rxs hc hend hrx => (hserves hrx).readFails_control hwrites hgoes hc hend rfl, fun more body rxs hbody hrx => ?_⟩
    have h := hserves hrx
    dsimp only
    split
    · next hcrc => exact h.readFails_mismatch hwrites hgoes hbody rfl hcrc
    next hcrc =>
    have hcrc := not_not.1 hcrc
    split
    · next hcmd => exact h.readFails_command hwrites hgoes hbody rfl hcrc hcmd
    next hcmd =>
    have hcmd := not_and_or.1 hcmd |>.imp not_not.1 not_not.1
    split
    · next hplace => exact h.readFails_sequence hwrites hgoes hbody rfl hcrc hcmd hplace
    next hplace =>
    have hplace := not_or.1 hplace |>.imp not_not.1 not_not.1
    split
    · next hfull => exact h.readFails_overrun hwrites hgoes hbody rfl hcrc hcmd hplace hfull
    · trivial
  · let w : PagedWrite := ⟨boff, len, data⟩
    have hsent {rxs : List RxDraw} (hrx : s.env.rx = List.replicate m (.got [0xAA]) ++ rxs) : Acknowledges s w m m rxs :=
      ⟨hcalm, hgb, hsize, hin, hm, hdata, hacc, hrx⟩
    exact ⟨fun c more rxs hc hack hrx => (hsent hrx).writeFails rfl (refusedAck_control hc hack more rxs),
      fun more body rxs hbody hrx => (hsent hrx).writeFails rfl (refusedAck_data hbody more rxs)⟩

end Sys2Proof.Machine
end

section
/-! SUPPORT. The MD requests that send and read nothing back (R225, R231 to R235, R275, R276). -/

namespace Sys2Proof.Machine

/-! ### How a request ends -/

theorem request_completes {m : Act Reg32} {s t : State} {r : Reg32} (hb : s.busy = false) (h : m s.accept = .ok r t) :
    request m s = .next (t.complete r) :=
  (request_ready hb).trans (runRequest_ok h)

theorem request_ends_raised {m : Act Reg32} {s t : State} (hb : s.busy = false) (h : m s.accept = .error .raised t) :
    request m s = .next t :=
  (request_ready hb).trans (runRequest_raised h)

/-! ### TxWrite by the MD unit -/

/-- A TxWrite taken whole, as the claims put it (R221). -/
theorem txWrite_sent {fam : Family} {bytes : List Byte} {s : State} {k : Nat} {rest : List TxDraw} (hv : s.env.visits = [])
    (ht : s.env.tx = .accepted k :: rest) (hk : bytes.length ≤ k) : txWrite fam bytes s = .ok () (s.sent bytes rest) :=
  (txWrite_accepted hv ht hk).trans (congrArg _ (transmit_eq_sent _ _ _))

theorem txWrite_md_fails {bytes : List Byte} {s : State} {d : TxDraw} {rest : List TxDraw} {e : Err} {k : Nat}
    (hv : s.env.visits = []) (ht : s.env.tx = d :: rest) (hd : writeError bytes.length d = some (e, k)) :
    txWrite .md bytes s =
      .error .raised (State.raised e.kind e.sub (BitVec.ofNat 32 k) (s.sent (bytes.take k) rest).mdLost) := by
  rw [← transmit_eq_sent]
  cases d with
  | accepted j =>
    obtain ⟨hj, heq⟩ := Option.ite_none_right_eq_some.1 hd
    cases heq
    exact txWrite_short hv ht hj
  | failed j =>
    cases hd
    exact txWrite_failed hv ht

/-! ### Word addresses -/

theorem wordAddress_ok {addr : Reg32} {s : State} (h : addr.toNat < 2 ^ 25) : wordAddress addr s = .ok (halved addr.toNat) s :=
  act_bind_ok (check_ok (decide_eq_true h))

theorem wordAddress_range {addr : Reg32} {s : State} (h : 2 ^ 25 ≤ addr.toNat) :
    wordAddress addr s = .error .raised (s.raise .addressRange addr) :=
  act_bind_error (check_raises (decide_eq_false (Nat.not_lt.2 h)))

/-- ADDRESS_RANGE comes before any I/O (R222). -/
theorem request_addressRange {f : WordAddr → Act Reg32} {addr : Reg32} {s : State} (hb : s.busy = false) (h : 2 ^ 25 ≤ addr.toNat) :
    request (wordAddress addr >>= f) s = .next (s.raised 3 4 addr) :=
  request_raises_first hb (wordAddress_range h)

/-! ### MD_SEEK -/

section Seek

variable {s : State} {addr : Reg32}

/-- A seek of WHENCE = 0 inside the cartridge space is its TxWrite and the cursor (R225). -/
theorem mdSeekBody_run (haddr : addr.toNat < 2 ^ 25) : mdSeekBody 0 addr s = (do
      txWrite .md (seekFrame (halved addr.toNat))
      upd (setCursor (halved addr.toNat))
      pure ((halved addr.toNat).setWidth 32) : Act Reg32) s := by
  rw [mdSeekBody, act_bind_ok (check_ok (by decide)), act_bind_ok (check_ok (by decide)), act_bind_ok (check_ok (by decide)),
    act_bind_ok (wordAddress_ok haddr)]

theorem mdSeek_range (hb : s.busy = false) (h : 2 ^ 25 ≤ addr.toNat) : exec (.mdSeek 0 addr) s = .next (s.raised 3 4 addr) := by
  have hbody : mdSeekBody 0 addr s.accept = .error .raised (s.accept.raise .addressRange addr) := by
    rw [mdSeekBody, act_bind_ok (check_ok (by decide)), act_bind_ok (check_ok (by decide)), act_bind_ok (check_ok (by decide)),
      act_bind_error (wordAddress_range h)]
  exact request_raises hb hbody

variable {d : TxDraw} {rest : List TxDraw} (hb : s.busy = false) (haddr : addr.toNat < 2 ^ 25) (hv : s.env.visits = [])
  (ht : s.env.tx = d :: rest)
include hb haddr hv ht

theorem mdSeek_completes {k : Nat} (hd : d = .accepted k) (hk : 6 ≤ k) : exec (.mdSeek 0 addr) s =
    .next (State.completed ((halved addr.toNat).setWidth 32)
      { s.sent (seekFrame (halved addr.toNat)) rest with curW := halved addr.toNat, cursorValid := true }) := by
  subst hd
  exact request_completes hb ((mdSeekBody_run haddr).trans
    (act_bind_ok (txWrite_sent (s := s.accept) (bytes := seekFrame (halved addr.toNat)) hv ht hk)))

theorem mdSeek_fails {e : Err} {k : Nat} (hd : writeError 6 d = some (e, k)) : exec (.mdSeek 0 addr) s =
    .next (State.raised e.kind e.sub (BitVec.ofNat 32 k) (s.sent ((seekFrame (halved addr.toNat)).take k) rest).mdLost) :=
  request_ends_raised hb ((mdSeekBody_run haddr).trans
    (act_bind_error (txWrite_md_fails (s := s.accept) (bytes := seekFrame (halved addr.toNat)) hv ht hd)))

end Seek

/-- Settles O30: the checks in their order, then the TxWrite by its answer. -/
theorem mdSeekMeaning : Obligations.MdSeekMeaning := by
  intro s whence addr hb
  split
  · next h => exact h ▸ request_raises (m := mdSeekBody 3 addr) (e := .rsvdBits) (info := 3) hb rfl
  next h3 =>
  split
  · next h => exact h ▸ request_raises (m := mdSeekBody 1 addr) (e := .seekCurrent) (info := 1) hb rfl
  next h1 =>
  split
  · next h => exact h ▸ request_raises (m := mdSeekBody 2 addr) (e := .seekEnd) (info := 2) hb rfl
  next h2 =>
  have h0 : whence = 0 := by revert whence; decide
  subst h0
  split
  · next hout => exact mdSeek_range hb hout
  next hin =>
  have haddr : addr.toNat < 2 ^ 25 := Nat.not_le.1 hin
  intro d rest hv ht
  cases d with
  | accepted k =>
    dsimp only
    split
    · next hk => exact mdSeek_completes hb haddr hv ht rfl hk
    · next hk => exact mdSeek_fails hb haddr hv ht (if_pos (Nat.not_le.1 hk))
  | failed k => exact mdSeek_fails hb haddr hv ht rfl

/-! ### Word writes -/

theorem wordWrite_completes {s : State} {addr : Reg32} {v : Word} {k : Nat} {rest : List TxDraw} (hb : s.busy = false)
    (haddr : addr.toNat < 2 ^ 25) (hv : s.env.visits = []) (ht : s.env.tx = .accepted k :: rest) (hk : 9 ≤ k) :
    request (wordWrite addr v) s = .next (State.completed 0
      { s.sent (seekFrame (halved addr.toNat) ++ wordWrFrame v) rest with curW := halved addr.toNat, cursorValid := true }) := by
  refine request_completes hb (t := setCursor (halved addr.toNat)
    (s.accept.sent (seekFrame (halved addr.toNat) ++ wordWrFrame v) rest)) ?_
  have hwrite : txWrite .md (seekFrame (halved addr.toNat) ++ wordWrFrame v) s.accept = _ := txWrite_sent hv ht hk
  rw [wordWrite, act_bind_ok (wordAddress_ok haddr), act_bind_ok hwrite]
  rfl

/-- The byte write sends 0x00 before the byte (R232). -/
theorem wordWrFrame_byte (b : Byte) : wordWrFrame (word16 0x00 b) = [0x43, 0x00, b] := by
  simp [wordWrFrame, hiByte_word16, loByte_word16]

/-- Settles O31: both requests are one word write (R231, R232). -/
theorem mdWordWrites : Obligations.MdWordWrites := by
  intro s addr v b hb
  split
  · next hout => exact ⟨request_addressRange hb hout, request_addressRange hb hout⟩
  next hin =>
  intro k rest hv ht hk
  have haddr : addr.toNat < 2 ^ 25 := Nat.not_le.1 hin
  have hbyte := wordWrite_completes (v := word16 0x00 b) hb haddr hv ht hk
  rw [wordWrFrame_byte] at hbyte
  exact ⟨wordWrite_completes hb haddr hv ht hk, hbyte⟩

/-! ### Fixed sequences -/

section Sequences

variable {s : State} {k : Nat} {rest : List TxDraw}

/-- The bytes of `RamCtl(v, d)` (R233). -/
def ramCtlFrames (v : Word) (d : Byte) : List Byte := seekFrame mapperWord ++ wordWrFrame v ++ delayFrame d

/-- The copies after `RamCtl(v, d)` taken whole (R32, R34, R233). -/
def State.ramControlled (v : Word) (d : Byte) (rest : List TxDraw) (s : State) : State :=
  setDelay d (setCursor mapperWord (s.sent (ramCtlFrames v d) rest))

theorem ramCtl_run (v : Word) (d : Byte) (hv : s.env.visits = []) (ht : s.env.tx = .accepted k :: rest) (hk : 11 ≤ k) :
    onRaise loseRamMode (ramCtl v d) s = .ok () (s.ramControlled v d rest) :=
  onRaise_ok (act_bind_ok (txWrite_sent (bytes := ramCtlFrames v d) hv ht hk))

theorem cmdWrites_eq_flatMap (seq : List (Nat × Word)) : cmdWrites seq = seq.flatMap fun c => cmdWrite c.1 c.2 := by
  induction seq with
  | nil => rfl
  | cons c seq ih => rw [cmdWrites, ih, List.flatMap_cons]

theorem cmdWrites_length (seq : List (Nat × Word)) : (cmdWrites seq).length = 9 * seq.length := by
  induction seq with
  | nil => rfl
  | cons c seq ih =>
    have hcmd : (cmdWrite c.1 c.2).length = 9 := rfl
    rw [cmdWrites, List.length_append, hcmd, ih, List.length_cons]
    omega

/-- A sequence with a last address taken whole (R275, R276). -/
theorem sendSequence_run {pre : List (Nat × Word)} {a : Nat} {v : Word} (hv : s.env.visits = [])
    (ht : s.env.tx = .accepted k :: rest) (hk : 9 * (pre.length + 1) ≤ k) : sendSequence (pre ++ [(a, v)]) s =
      .ok () (setCursor (halved a) (s.sent ((pre ++ [(a, v)]).flatMap fun c => cmdWrite c.1 c.2) rest)) := by
  have hlen : (cmdWrites (pre ++ [(a, v)])).length ≤ k := by simpa [cmdWrites_length] using hk
  rw [sendSequence, act_bind_ok (txWrite_sent hv ht hlen), List.getLast?_concat, cmdWrites_eq_flatMap]
  rfl

end Sequences

/-- Settles O32: one TxWrite each, and the copies it leaves. -/
theorem mdFixedSequences : Obligations.MdFixedSequences := by
  refine ⟨fun s k rest ⟨hb, hv⟩ ht hk => ?_, fun s k rest pre a v ⟨hb, hv⟩ ht => ?_⟩
  · have hrun (v : Word) (d : Byte) := ramCtl_run (s := s.accept) v d hv ht hk
    have henable : mdRamEnableBody s.accept =
        .ok 0 { s.accept.ramControlled s.cfg.ramEnableWord s.cfg.ramEnableDelay rest with ramEn := true } :=
      act_bind_ok (hrun _ _)
    have hdisable : mdRamDisableBody s.accept =
        .ok 0 { s.accept.ramControlled s.cfg.ramDisableWord s.cfg.ramDisableDelay rest with ramEn := false } :=
      act_bind_ok (hrun _ _)
    exact ⟨request_completes hb henable, request_completes hb hdisable⟩
  · intro bytes hk
    have hrun := sendSequence_run (s := s.accept) (a := a) (v := v) hv ht hk
    refine ⟨fun hseq => ?_, fun hseq => ?_⟩
    · rw [← hseq] at hrun
      have hbody : mdFlashUnlockBypassBody s.accept =
          .ok 0 { setCursor (halved a) (s.accept.sent (bytes s.cfg.unlockBypassSeq) rest) with bypass := true } :=
        act_bind_ok hrun
      exact request_completes hb hbody
    · rw [← hseq] at hrun
      have hbody : mdFlashResetBypassBody s.accept =
          .ok 0 { setCursor (halved a) (s.accept.sent (bytes s.cfg.resetBypassSeq) rest) with bypass := false } :=
        act_bind_ok hrun
      exact request_completes hb hbody

/-! ### Chunks (R227) -/

theorem chunks_pos {n c : Nat} (h : c ∈ chunks n) : 0 < c := by
  induction n using chunks_induction with
  | h0 => exact absurd h List.not_mem_nil
  | hlast n h0 hn =>
    rw [chunks_of_small h0 hn, List.mem_singleton] at h
    exact h ▸ h0
  | hmore n hn ih =>
    rw [chunks_of_large hn, List.mem_cons] at h
    rcases h with rfl | h
    · decide
    · exact ih h

/-- Settles O39: the sum and the bounds by going through the chunks one after another. -/
theorem chunkList : Obligations.ChunkList := by
  refine ⟨fun n heven => ⟨?_, chunks_sum n, fun c hc => ?_⟩, rfl, rfl⟩
  · rw [chunks, ite_not]
  · obtain ⟨hc2, hmax⟩ := chunkSize_of_mem heven hc
    exact ⟨hc2, chunks_pos hc, hmax⟩

end Sys2Proof.Machine
end

section
/-! SUPPORT. MD requests with a reply where the transport's answers are what comes back, as with a GB adapter attached (R14, R378). -/

namespace Sys2Proof.Machine

/-! ### Two-byte replies (R230, R236) -/

section Replies

variable {s : State} {k : Nat} {txs : List TxDraw} {b0 b1 : Byte} {more : List Byte} {rxs : List RxDraw}
  (hv : s.env.visits = []) (ha : s.adapter = .gb)
include hv ha

theorem rxFill_latch_gb (hr : s.env.rx = .got (b0 :: b1 :: more) :: rxs) : rxFill .latch 2 s = .ok [b0, b1] (s.received rxs) :=
  rxFill_one (d := .latch) (Nat.succ_pos 1) rfl (rxRead_got hv ha hr)

variable (ht : s.env.tx = .accepted k :: txs) (hr : s.env.rx = .got (b0 :: b1 :: more) :: rxs)
include ht hr

theorem getId_gb (hk : 1 ≤ k) : getId s = .ok (word16 b0 b1) ((s.received rxs).sent idRdFrame txs) := by
  rw [getId, act_bind_ok (txWrite_sent (bytes := idRdFrame) hv ht hk),
    act_bind_ok (rxFill_latch_gb (s := s.sent idRdFrame txs) hv ha hr)]
  rfl

theorem mdReadWordBody_gb {addr : Reg32} (haddr : addr.toNat < 2 ^ 25) (hk : 7 ≤ k) : mdReadWordBody addr s =
    .ok ((word16 b0 b1).setWidth 32)
      (setCursor (halved addr.toNat) ((s.received rxs).sent (seekFrame (halved addr.toNat) ++ wordRdFrame) txs)) := by
  have hwrite : txWrite .md (seekFrame (halved addr.toNat) ++ wordRdFrame) s = _ := txWrite_sent hv ht hk
  rw [mdReadWordBody, act_bind_ok (wordAddress_ok haddr), act_bind_ok hwrite, act_bind_ok (upd_run _ _),
    act_bind_ok (rxFill_latch_gb
      (s := setCursor (halved addr.toNat) (s.sent (seekFrame (halved addr.toNat) ++ wordRdFrame) txs)) hv ha hr)]
  rfl

end Replies

/-- Settles O33: the frames, then one read of two bytes. -/
theorem mdWordReplies : Obligations.MdWordReplies := by
  intro s k txs b0 b1 more rxs ⟨hb, hv⟩ ha ht hr
  refine ⟨fun hk => ?_, fun addr hout => request_addressRange hb hout, fun addr haddr hk => ?_⟩
  · have hbody : mdGetIdBody s.accept = .ok ((word16 b0 b1).setWidth 32) ((s.accept.received rxs).sent idRdFrame txs) :=
      act_bind_ok (getId_gb (s := s.accept) hv ha ht hr hk)
    exact request_completes hb hbody
  · exact request_completes hb (mdReadWordBody_gb (s := s.accept) hv ha ht hr haddr hk)

/-! ### The cursor of a transfer (R229) -/

theorem advanceCursor_eq (words : Nat) (s : State) : advanceCursor words s =
    { s with curW := if s.cursorValid then s.curW + BitVec.ofNat 24 words else s.curW } := by
  unfold advanceCursor
  split <;> rfl

/-- Words moved in two transfers. -/
theorem cursor_add (valid : Bool) (w : WordAddr) (m n : Nat) :
    (if valid then (if valid then w + BitVec.ofNat 24 m else w) + BitVec.ofNat 24 n else if valid then w + BitVec.ofNat 24 m else w) =
      if valid then w + BitVec.ofNat 24 (m + n) else w := by
  cases valid
  · rfl
  · simp only [if_true, BitVec.ofNat_add, BitVec.add_assoc]

/-! ### MD_READ in chunks (R226) -/

theorem lenFrame_words (n : Nat) :
    lenFrame (BitVec.ofNat 16 (n / 2)) = [0x01, BitVec.ofNat 8 (n / 512), 0x01, BitVec.ofNat 8 (n / 2)] :=
  (List.append_left_inj bulkWrFrame).1 (writeHeader_bytes n)

/-- What is sent for a chunk of MD_READ (R226). -/
def readFrames (c : Nat) : List Byte := lenFrame (BitVec.ofNat 16 (c / 2)) ++ bulkRdFrame

theorem readFrames_bytes (c : Nat) :
    readFrames c = [0x01, BitVec.ofNat 8 (c / 512), 0x01, BitVec.ofNat 8 (c / 2), 0x82] := by
  rw [readFrames, lenFrame_words]
  rfl

theorem readChunks_cons (c : Nat) (rest : List Nat) (off : Nat) : readChunks (c :: rest) off = (do
    txWrite .md (readFrames c)
    let _ ← rxFill (.dbuf off) c
    upd (advanceCursor (c / 2))
    readChunks rest (off + c)) := rfl

/-- Pieces stored one after the other. -/
theorem Memory.setBytes_next (m : Memory) (a : Nat) (x y : List Byte) :
    (m.setBytes a x).setBytes (a + x.length) y = m.setBytes a (x ++ y) := by
  by_cases hy : y = []
  · rw [hy, List.append_nil]
    rfl
  · exact Memory.setBytes_append m a hy

/-- MD_READ has sent its frames for some chunks and stored what came for them, with a GB adapter attached. -/
def State.chunksRead (parts : List (List Byte)) (off : Nat) (rxs : List RxDraw) (s : State) : State :=
  { s with
    dbuf := s.dbuf.setBytes off parts.flatten
    curW := if s.cursorValid then s.curW + BitVec.ofNat 24 (parts.flatten.length / 2) else s.curW
    env := { s.env with tx := s.env.tx.drop parts.length, rx := rxs }
    txLog := s.txLog ++ parts.flatMap fun part => readFrames part.length }

theorem State.chunksRead_cons {part : List Byte} (heven : part.length % 2 = 0) (parts : List (List Byte)) (off : Nat)
    (rxs' rxs : List RxDraw) (s : State) : s.chunksRead (part :: parts) off rxs =
      (s.chunksRead [part] off rxs').chunksRead parts (off + part.length) rxs := by
  have hwords : (part ++ parts.flatten).length / 2 = part.length / 2 + parts.flatten.length / 2 := by
    rw [List.length_append]
    omega
  simp only [State.chunksRead, List.flatten_cons, List.flatten_nil, List.append_nil, Memory.setBytes_next, cursor_add, hwords,
    List.flatMap_cons, List.flatMap_nil, List.append_assoc, List.length_cons, List.length_nil, Nat.zero_add, List.drop_drop,
    Nat.add_comm 1]

/-- A chunk that a transfer can have. -/
def ChunkPart (part : List Byte) : Prop := part.length % 2 = 0 ∧ 0 < part.length

theorem readChunks_gb {parts : List (List Byte)} (hparts : ∀ part ∈ parts, ChunkPart part) {off : Nat} {rxs : List RxDraw}
    {s : State} (hv : s.env.visits = []) (ha : s.adapter = .gb) (hz : s.hazard = []) (ht : Accepts parts.length 5 s.env.tx)
    (hr : s.env.rx = parts.map .got ++ rxs) :
    readChunks (parts.map List.length) off s = .ok () (s.chunksRead parts off rxs) := by
  induction parts generalizing off s with
  | nil =>
    have hnone : s.chunksRead [] off rxs = s := by
      simp only [List.map_nil, List.nil_append] at hr
      simp [State.chunksRead, ← hr, Memory.setBytes]
    rw [hnone]
    rfl
  | cons part parts ih =>
    obtain ⟨⟨heven, hpos⟩, hrest⟩ := List.forall_mem_cons.1 hparts
    obtain ⟨k, txs, htx, hk, hacc⟩ := ht.cons
    let u := s.sent (readFrames part.length) txs
    have hread : rxRead .md part.length u = .ok (.got (part.take part.length)) (u.received (parts.map .got ++ rxs)) :=
      rxRead_got (s := u) hv ha hr
    rw [List.take_length] at hread
    have hfill : rxFill (.dbuf off) part.length u = .ok part
        { u.received (parts.map .got ++ rxs) with dbuf := s.dbuf.setBytes off part } := by
      rw [rxFill_one hpos rfl hread]
      exact act_bind_ok (storeDbuf_none off part _ hz)
    have hone : advanceCursor (part.length / 2) { u.received (parts.map .got ++ rxs) with dbuf := s.dbuf.setBytes off part } =
        s.chunksRead [part] off (parts.map .got ++ rxs) := by
      rw [advanceCursor_eq]
      simp [u, State.chunksRead, State.sent, State.received, ha, htx]
    rw [State.chunksRead_cons heven parts off (parts.map .got ++ rxs), List.map_cons, readChunks_cons,
      act_bind_ok (txWrite_sent (bytes := readFrames part.length) hv htx hk), act_bind_ok hfill, act_bind_ok (upd_run _ _), hone]
    exact ih hrest hv ha hz (by simpa [State.chunksRead, htx] using hacc) rfl

/-- Settles O36: chunk by chunk; the chunks put together are the transfer. -/
theorem mdReadCompletes : Obligations.MdReadCompletes := by
  intro s boff len parts rxs ⟨hb, hv⟩ ha heven hin hchunks ht hr
  have hparts (part : List Byte) (h : part ∈ parts) : ChunkPart part := by
    have hmem : part.length ∈ chunks len.toNat := hchunks ▸ List.mem_map_of_mem h
    exact ⟨(chunkSize_of_mem heven hmem).1, chunks_pos hmem⟩
  have hlen : parts.flatten.length = len.toNat := by rw [List.length_flatten, hchunks, chunks_sum]
  have hbody : mdReadBody boff len s.accept = .ok len (s.accept.chunksRead parts boff.toNat rxs) := by
    rw [mdReadBody, act_bind_ok (checkBulk_ok heven (s := s.accept) hin), ← hchunks,
      act_bind_ok (readChunks_gb (s := s.accept) hparts hv ha rfl ht hr)]
    rfl
  refine ⟨_, request_completes hb hbody, ?_, fun j hj => ?_, fun a hout => ?_⟩
  · rw [State.chunksRead, hlen, funext fun part : List Byte => readFrames_bytes part.length]
    rfl
  · rw [State.complete_dbuf, State.chunksRead, Memory.get_setBytes, if_pos (by omega), Nat.add_sub_cancel_left]
  · rw [State.complete_dbuf, State.chunksRead, Memory.get_setBytes, if_neg (by omega)]
    rfl

/-! ### Partial reads (R224) -/

/-- The reads of an RxFill have brought some pieces, which are stored from an offset on. -/
def State.collected (pieces : List (List Byte)) (off : Nat) (rxs : List RxDraw) (s : State) : State :=
  { s.received rxs with dbuf := s.dbuf.setBytes off pieces.flatten }

/-- Partial reads are collected: after as many reads as there are pieces, the loop goes on where they end. -/
theorem rxFillLoop_pieces {pieces : List (List Byte)} (hne : ∀ p ∈ pieces, p ≠ []) {off n fuel : Nat} {got : List Byte}
    {rxs : List RxDraw} {s : State} (hv : s.env.visits = []) (ha : s.adapter = .gb) (hz : s.hazard = [])
    (hr : s.env.rx = pieces.map .got ++ rxs) (hn : got.length + pieces.flatten.length ≤ n) :
    rxFillLoop (.dbuf off) n (pieces.length + fuel) got s =
      rxFillLoop (.dbuf off) n fuel (got ++ pieces.flatten) (s.collected pieces (off + got.length) rxs) := by
  induction pieces generalizing got s with
  | nil =>
    have hnone : s.collected [] (off + got.length) rxs = s := by
      simp only [List.map_nil, List.nil_append] at hr
      simp [State.collected, State.received, ← hr, Memory.setBytes]
    rw [hnone, List.flatten_nil, List.append_nil, List.length_nil, Nat.zero_add]
  | cons p pieces ih =>
    obtain ⟨hp, hrest⟩ := List.forall_mem_cons.1 hne
    have hpos := List.length_pos_iff.2 hp
    rw [List.flatten_cons, List.length_append] at hn
    have hread := rxRead_got (fam := .md) (n := n - got.length) hv ha hr
    rw [List.take_of_length_le (by omega)] at hread
    have hstore := storeDbuf_none (off + got.length) p (s.received (pieces.map .got ++ rxs)) hz
    have hnext := ih hrest (got := got ++ p)
      (s := { s.received (pieces.map .got ++ rxs) with dbuf := s.dbuf.setBytes (off + got.length) p })
      hv ha hz rfl (by rw [List.length_append]; omega)
    rw [List.length_cons, Nat.add_right_comm, rxFillLoop, if_neg (by omega), act_bind_ok hread]
    dsimp only
    rw [if_neg hp]
    refine (act_bind_ok hstore).trans (hnext.trans ?_)
    rw [List.append_assoc, State.collected, State.collected, List.length_append, ← Nat.add_assoc]
    dsimp only
    rw [Memory.setBytes_next]
    rfl

theorem length_le_length_flatten {pieces : List (List Byte)} (hne : ∀ p ∈ pieces, p ≠ []) :
    pieces.length ≤ pieces.flatten.length := by
  induction pieces with
  | nil => exact Nat.le_refl _
  | cons p pieces ih =>
    obtain ⟨hp, hrest⟩ := List.forall_mem_cons.1 hne
    have hpos := List.length_pos_iff.2 hp
    have hle := ih hrest
    rw [List.flatten_cons, List.length_append, List.length_cons]
    omega

section Partial

variable {pieces : List (List Byte)} {off n : Nat} {rxs : List RxDraw} {s : State} (hne : ∀ p ∈ pieces, p ≠ [])
  (hv : s.env.visits = []) (ha : s.adapter = .gb) (hz : s.hazard = []) (hr : s.env.rx = pieces.map .got ++ rxs)
include hne hv ha hz hr

theorem rxFill_pieces (hn : pieces.flatten.length ≤ n) : rxFill (.dbuf off) n s =
    rxFillLoop (.dbuf off) n (n - pieces.length) pieces.flatten (s.collected pieces off rxs) := by
  have hloop := rxFillLoop_pieces hne (off := off) (n := n) (fuel := n - pieces.length) (got := []) hv ha hz hr
    (by rwa [List.length_nil, Nat.zero_add])
  rwa [Nat.add_sub_cancel' ((length_le_length_flatten hne).trans hn)] at hloop

theorem rxFill_full (hn : pieces.flatten.length = n) :
    rxFill (.dbuf off) n s = .ok pieces.flatten (s.collected pieces off rxs) := by
  rw [rxFill_pieces hne hv ha hz hr hn.le]
  cases n - pieces.length with
  | zero => rfl
  | succ fuel =>
    rw [rxFillLoop, if_pos hn.ge]
    rfl

end Partial

/-- The error that an answer is to RxFill where it brings no byte (R224). -/
def emptyReadError : RxDraw → Err
  | .got _ => .shortRead
  | .timedOut _ => .timeout
  | .failed _ => .ioFailure

theorem rxRead_empty {d : RxDraw} {n : Nat} {rest : List RxDraw} {s : State} (hd : rxBytes d = []) (hv : s.env.visits = [])
    (ha : s.adapter = .gb) (hr : s.env.rx = d :: rest) : rxRead .md n s = .ok d (s.received rest) := by
  have hsame : rxWithBytes [] d = d := by cases d <;> exact congrArg _ hd.symm
  rw [rxRead_gb hv ha hr, hd, List.take_nil, hsame]
  rfl

/-- After some pieces an answer without a byte ends the request, what came before being stored (R76, R224). -/
theorem rxFill_ends {pieces : List (List Byte)} {off n : Nat} {d : RxDraw} {rxs : List RxDraw} {s : State}
    (hne : ∀ p ∈ pieces, p ≠ []) (hv : s.env.visits = []) (ha : s.adapter = .gb) (hz : s.hazard = [])
    (hr : s.env.rx = pieces.map .got ++ d :: rxs) (hd : rxBytes d = []) (hn : pieces.flatten.length < n) :
    rxFill (.dbuf off) n s =
      .error .raised ((s.collected pieces off rxs).raiseTransport .md (emptyReadError d) pieces.flatten.length) := by
  obtain ⟨fuel, hfuel⟩ : ∃ fuel, n - pieces.length = fuel + 1 :=
    ⟨n - pieces.length - 1, by have := length_le_length_flatten hne; omega⟩
  have hread : rxRead .md (n - pieces.flatten.length) (s.collected pieces off (d :: rxs)) = .ok d (s.collected pieces off rxs) :=
    rxRead_empty hd hv ha rfl
  have hnil := storeDbuf_none (off + pieces.flatten.length) [] (s.collected pieces off rxs) hz
  rw [rxFill_pieces hne hv ha hz hr hn.le, hfuel, rxFillLoop, if_neg (Nat.not_le.2 hn), act_bind_ok hread]
  cases d with
  | got b => cases (show b = [] from hd); rfl
  | timedOut b => cases (show b = [] from hd); exact act_bind_ok hnil
  | failed b => cases (show b = [] from hd); exact act_bind_ok hnil

/-- MD_READ of one chunk is its frames, then one RxFill (R226). -/
theorem mdReadBody_chunk {s : State} {boff len : Reg32} {k : Nat} {txs : List TxDraw} (heven : len.toNat % 2 = 0)
    (h0 : 0 < len.toNat) (hmax : len.toNat ≤ 65536) (hin : boff.toNat + len.toNat ≤ s.cfg.dbufSize) (hv : s.env.visits = [])
    (ht : s.env.tx = .accepted k :: txs) (hk : 5 ≤ k) : mdReadBody boff len s = (do
      let _ ← rxFill (.dbuf boff.toNat) len.toNat
      upd (advanceCursor (len.toNat / 2))
      pure len : Act Reg32) (s.sent (readFrames len.toNat) txs) := by
  rw [mdReadBody, act_bind_ok (checkBulk_ok heven hin), chunks_single h0 hmax, readChunks_cons, act_bind,
    act_bind_ok (txWrite_sent (bytes := readFrames len.toNat) hv ht hk), act_bind, act_bind]
  cases rxFill (.dbuf boff.toNat) len.toNat (s.sent (readFrames len.toNat) txs) <;> rfl

/-- Settles O41: the reads one after another; the piece that fills the chunk completes, an answer without a byte raises. -/
theorem partialReads : Obligations.PartialReads := by
  intro s boff len pieces k txs rxs ⟨hb, hv⟩ ha heven h0 hmax hin ht hk hne
  have hbody := mdReadBody_chunk (s := s.accept) heven h0 hmax hin hv ht hk
  refine ⟨fun hfull hr => ?_, fun hpart d hd hr => ?_⟩
  · have hfill := rxFill_full (s := s.accept.sent (readFrames len.toNat) txs) (off := boff.toNat) hne hv ha rfl hr hfull
    refine ⟨_, request_completes hb (hbody.trans (act_bind_ok hfill)), rfl, rfl, ?_, fun j hj => ?_⟩
    · simp [State.collected, State.received]
    · simp only [State.complete_dbuf, advanceCursor_dbuf, State.collected]
      rw [Memory.get_setBytes, if_pos (by omega), Nat.add_sub_cancel_left]
  · obtain ⟨hempty, hkind, hsub⟩ : rxBytes d.1 = [] ∧ (emptyReadError d.1).kind = 1 ∧ (emptyReadError d.1).sub = d.2 := by
      simp only [List.mem_cons, List.not_mem_nil, or_false] at hd
      rcases hd with rfl | rfl | rfl <;> exact ⟨rfl, rfl, rfl⟩
    have hfill := rxFill_ends (s := s.accept.sent (readFrames len.toNat) txs) (off := boff.toNat) hne hv ha rfl hr hempty hpart
    refine ⟨_, request_ends_raised hb (hbody.trans (act_bind_error hfill)), rfl, hkind, hsub, rfl, rfl, rfl, rfl, rfl,
      fun j hj => ?_, fun a hout => ?_⟩
    · exact (Memory.get_setBytes s.dbuf boff.toNat pieces.flatten _).trans (by rw [if_pos (by omega), Nat.add_sub_cancel_left])
    · exact (Memory.get_setBytes s.dbuf boff.toNat pieces.flatten a).trans (if_neg (by omega))

end Sys2Proof.Machine
end

section
/-! SUPPORT. MD_WRITE whole (R228): the stream that goes out in its one TxWrite, with either adapter. -/

namespace Sys2Proof.Machine

/-! ### A stream with regions of DBUF -/

theorem streamBytes_length {m : Memory} {parts : List TxPart} {bytes : List Byte} (h : streamBytes m parts = some bytes) :
    bytes.length = txLength parts := by
  induction parts generalizing bytes with
  | nil => cases h; rfl
  | cons part rest ih =>
    cases part with
    | bytes b =>
      obtain ⟨more, hmore, rfl⟩ := Option.map_eq_some_iff.1 h
      rw [List.length_append, ih hmore, txLength_bytes]
    | dbuf off n =>
      rw [streamBytes] at h
      split at h
      · next b more hb hmore =>
        cases h
        rw [List.length_append, Memory.run_length _ _ _ _ hb, ih hmore, txLength_dbuf]
      · cases h

/-- A stream taken whole in its one TxWrite (R221). -/
theorem txWriteParts_sent {fam : Family} {parts : List TxPart} {bytes : List Byte} {k : Nat} {rest : List TxDraw} {s : State}
    (hne : parts ≠ []) (hv : s.env.visits = []) (hz : s.hazard = []) (ht : s.env.tx = .accepted k :: rest)
    (h : streamBytes s.dbuf parts = some bytes) (hk : bytes.length ≤ k) : txWriteParts fam parts s = .ok () (s.sent bytes rest) := by
  have hlen := streamBytes_length h
  have haccepted : acceptedOf (.accepted k) (txLength parts) = txLength parts := Nat.min_eq_right (hlen ▸ hk)
  have hbytes := txBytes_eq (s := { s with env := { s.env with tx := rest } }) (txLength parts) hz h
  rw [List.take_of_length_le hlen.le] at hbytes
  rw [txWriteParts, if_neg hne, txWriteOf_calm hv ht (haccepted.symm ▸ hbytes)]
  dsimp only
  rw [haccepted, if_neg (Nat.lt_irrefl _), ← transmit_eq_sent]
  rfl

/-! ### The stream of MD_WRITE -/

/-- What is sent for a chunk of MD_WRITE (R228). -/
def writeChunk (part : List Byte) : List Byte := lenFrame (BitVec.ofNat 16 (part.length / 2)) ++ bulkWrFrame ++ part

theorem writeChunk_bytes (part : List Byte) : writeChunk part =
    [0x01, BitVec.ofNat 8 (part.length / 512), 0x01, BitVec.ofNat 8 (part.length / 2), 0x83] ++ part := by
  rw [writeChunk, writeHeader_bytes]

/-- The first n pieces of c bytes each, the last one shorter where the data ends in it. -/
def cutPieces (c : Nat) (data : List Byte) (n : Nat) : List (List Byte) :=
  (List.range n).map fun j => (data.drop (c * j)).take c

theorem flatMap_cutPieces_succ (f : List Byte → List Byte) (c : Nat) (data : List Byte) (n : Nat) :
    (cutPieces c data (n + 1)).flatMap f = f (data.take c) ++ (cutPieces c (data.drop c) n).flatMap f := by
  have hdrop (j : Nat) : data.drop (c * (j + 1)) = (data.drop c).drop (c * j) := by
    rw [List.drop_drop, Nat.mul_succ, Nat.add_comm]
  simp only [cutPieces, List.range_succ_eq_map, List.map_cons, List.map_map, Function.comp_def, Nat.mul_zero, List.drop_zero,
    hdrop, List.flatMap_cons]

/-- Data as MD_WRITE sends it, in n chunks of up to 65536 bytes (R227, R228). -/
def writeChunks (data : List Byte) (n : Nat) : List Byte := (cutPieces 65536 data n).flatMap writeChunk

theorem writeChunks_succ (data : List Byte) (n : Nat) :
    writeChunks data (n + 1) = writeChunk (data.take 65536) ++ writeChunks (data.drop 65536) n :=
  flatMap_cutPieces_succ writeChunk 65536 data n

/-- The stream of MD_WRITE, its first chunk there. -/
theorem streamBytes_writeStream_cons {m : Memory} {c off : Nat} {rest : List Nat} {part more : List Byte}
    (h : m.getBytes off c = some part) (hrest : streamBytes m (writeStream rest (off + c)) = some more) :
    streamBytes m (writeStream (c :: rest) off) = some (writeChunk part ++ more) := by
  obtain rfl : part.length = c := Memory.run_length _ _ _ _ h
  rw [writeStream, streamBytes, streamBytes, h, hrest, writeChunk, List.append_assoc (lenFrame _ ++ bulkWrFrame)]
  rfl

/-- The stream of MD_WRITE, its data there. -/
theorem streamBytes_writeStream {m : Memory} {n off : Nat} {data : List Byte} (h : m.getBytes off n = some data) :
    streamBytes m (writeStream (chunks n) off) = some (writeChunks data ((n + 65535) / 65536)) := by
  induction n using chunks_induction generalizing off data with
  | h0 => rfl
  | hlast n h0 hn =>
    have hlen : data.length = n := Memory.run_length _ _ _ _ h
    have hcount : (n + 65535) / 65536 = 0 + 1 := by omega
    rw [chunks_of_small h0 hn, hcount, writeChunks_succ, List.take_of_length_le (by omega)]
    exact streamBytes_writeStream_cons h rfl
  | hmore n hn ih =>
    have hlen : data.length = n := Memory.run_length _ _ _ _ h
    have hcount : (n + 65535) / 65536 = (n - 65536 + 65535) / 65536 + 1 := by omega
    have hfirst : m.getBytes off 65536 = some (data.take 65536) := Memory.getBytes_drop_take (i := 0) (by omega) h
    have hrest : m.getBytes (off + 65536) (n - 65536) = some (data.drop 65536) := by
      have hpart := Memory.getBytes_drop_take (i := 65536) (len := n - 65536) (by omega) h
      rwa [List.take_of_length_le (by rw [List.length_drop, hlen])] at hpart
    rw [chunks_of_large hn, hcount, writeChunks_succ]
    exact streamBytes_writeStream_cons hfirst (ih hrest)

theorem sent_nothing (s : State) : s.sent [] s.env.tx = s := by
  rw [← transmit_eq_sent]
  unfold State.transmit
  split <;> simp only [List.append_nil]

/-- Settles O37: the stream is one TxWrite, none where there is no chunk. -/
theorem mdWriteCompletes : Obligations.MdWriteCompletes := by
  intro s boff len data ⟨hb, hv⟩ heven hin hdata stream ht
  have hstream : stream = writeChunks data ((len.toNat + 65535) / 65536) :=
    (List.flatMap_congr fun j _ => (writeChunk_bytes _).symm).trans (List.flatMap_map ..).symm
  have hwrite : txWriteParts .md (writeStream (chunks len.toNat) boff.toNat) s.accept =
      .ok () (s.accept.sent stream (s.env.tx.drop (if len = 0 then 0 else 1))) := by
    split
    · next h0 =>
      subst h0
      exact congrArg (EStateM.Result.ok ()) (hstream ▸ (sent_nothing s.accept).symm)
    · next h0 =>
      have hpos : 0 < len.toNat := Nat.pos_of_ne_zero fun h => h0 (BitVec.eq_of_toNat_eq h)
      obtain ⟨k, rest, htx, hk, -⟩ := (ht h0).cons
      rw [htx]
      exact txWriteParts_sent (s := s.accept) (writeStream_ne_nil hpos) hv rfl htx
        ((streamBytes_writeStream hdata).trans (congrArg some hstream.symm)) hk
  have hbody : mdWriteBody boff len s.accept = .ok len (advanceCursor (len.toNat / 2)
      (s.accept.sent stream (s.env.tx.drop (if len = 0 then 0 else 1)))) := by
    rw [mdWriteBody, act_bind_ok (checkBulk_ok heven (s := s.accept) hin), act_bind_ok hwrite]
    rfl
  rw [advanceCursor_eq] at hbody
  exact request_completes hb hbody

end Sys2Proof.Machine
end

section
/-! SUPPORT. MD requests with a reply where the MD adapter is in step with the block: what the peer takes is what was sent, what it
replies is what is read (R290, R295 to R301, R379). -/

namespace Sys2Proof.Machine

/-! ### Frames at the peer -/

theorem peerFeed_seekFrame (w : WordAddr) {s : State} (h : s.peer.ps = .op) :
    peerFeed (seekFrame w) s = { s with peer := { s.peer with devAddr := w, ps := .op } } := by
  have hpairs : seekFrame w = [0x00, w.extractLsb' 16 8] ++ ([0x00, w.extractLsb' 8 8] ++ [0x00, w.extractLsb' 0 8]) := rfl
  rw [hpairs, peerFeed_append, peerFeed_append, peerFeed_addr _ _ h, peerFeed_addr _ _ rfl, peerFeed_addr _ _ rfl]
  simp only [peerAddr, shift_bytes24]

theorem peerFeed_lenFrame (c : Word) {s : State} (h : s.peer.ps = .op) :
    peerFeed (lenFrame c) s = { s with peer := { s.peer with devLen := c, ps := .op } } := by
  have hpairs : lenFrame c = [0x01, hiByte c] ++ [0x01, loByte c] := rfl
  rw [hpairs, peerFeed_append, peerFeed_len _ _ h, peerFeed_len _ _ rfl]
  simp only [peerLen, shift_bytes16]

theorem peerFeed_rd {x : Byte} {s : State} (hx : mdKind x = .rd) (h : s.peer.ps = .op) :
    peerFeed [x] s = peerRd (mdFlags (x.extractLsb' 4 4)) s := by
  simp only [peerFeed_cons, peerFeed_nil, peerByte, h, peerCommand, hx]

/-- A word that is known is read as it is (R306). -/
theorem cartRead_known {w : WordAddr} {s : State} {h l : Byte} (hk : s.cart.known w.toNat = (some h, some l)) :
    cartRead w s = (word16 h l, { s with cart := s.cart.afterRead s.cfg }) := by
  rw [cartRead, hk]

/-- A seek and a single read of a known word (R297). -/
theorem peerFeed_readWord {w : WordAddr} {s : State} {h l : Byte} (hps : s.peer.ps = .op)
    (hk : s.cart.known w.toNat = (some h, some l)) : peerFeed (seekFrame w ++ wordRdFrame) s = { s with
      cart := s.cart.afterRead s.cfg
      peer := { s.peer with devAddr := w, ps := .op, rxLine := s.peer.rxLine ++ [h, l] } } := by
  have hread := cartRead_known (s := { s with peer := { s.peer with devAddr := w, ps := .op } }) hk
  have hunits : rdUnits ⟨false, false, true, false⟩ 1 w { s with peer := { s.peer with devAddr := w, ps := .op } } =
      ([h, l], { s with cart := s.cart.afterRead s.cfg, peer := { s.peer with devAddr := w, ps := .op } }) := by
    simp [rdUnits, hread]
  have hframe : peerFeed wordRdFrame { s with peer := { s.peer with devAddr := w, ps := .op } } =
      peerRd ⟨false, false, true, false⟩ { s with peer := { s.peer with devAddr := w, ps := .op } } := peerFeed_rd rfl rfl
  rw [peerFeed_append, peerFeed_seekFrame w hps, hframe]
  simp only [peerRd, mdUnits, if_true, hunits]
  rfl

/-- The bytes of n words, high byte first (R68). -/
def wordBytes (h l : Nat → Byte) (n : Nat) : List Byte := (List.range n).flatMap fun i => [h i, l i]

theorem wordBytes_succ (h l : Nat → Byte) (n : Nat) :
    wordBytes h l (n + 1) = h 0 :: l 0 :: wordBytes (fun i => h (i + 1)) (fun i => l (i + 1)) n := by
  simp [wordBytes, List.range_succ_eq_map, List.flatMap_map]

theorem wordBytes_length (h l : Nat → Byte) (n : Nat) : (wordBytes h l n).length = 2 * n := by
  simp [wordBytes, Nat.mul_comm]

theorem wordBytes_get {h l : Nat → Byte} {n i : Nat} (hi : i < n) :
    (wordBytes h l n)[2 * i]? = some (h i) ∧ (wordBytes h l n)[2 * i + 1]? = some (l i) := by
  have hpieces : ∀ p ∈ (List.range n).map fun i => [h i, l i], p.length = 2 := by simp
  have hget (j : Nat) (hj : j < 2) : (wordBytes h l n)[2 * i + j]? = [h i, l i][j]? := by
    have hflat := getElem?_flatten_uniform hpieces (k := i) hj
    rw [← List.flatMap_def] at hflat
    rw [wordBytes, hflat]
    simp [List.getD, hi]
  exact ⟨hget 0 (by decide), hget 1 (by decide)⟩

/-- Words stored read back byte by byte. -/
theorem Memory.get_setBytes_words (m : Memory) (a : Nat) {h l : Nat → Byte} {n i : Nat} (hi : i < n) :
    (m.setBytes a (wordBytes h l n)).get (a + 2 * i) = some (h i) ∧
      (m.setBytes a (wordBytes h l n)).get (a + 2 * i + 1) = some (l i) := by
  obtain ⟨hhigh, hlow⟩ := wordBytes_get (h := h) (l := l) hi
  rw [Memory.get_setBytes, Memory.get_setBytes, wordBytes_length, if_pos (by omega), if_pos (by omega), Nat.add_assoc,
    Nat.add_sub_cancel_left, Nat.add_sub_cancel_left]
  exact ⟨hhigh, hlow⟩

/-- Known words are read one after another, where reads leave the cartridge alone (R298, I9). -/
theorem rdUnits_known {n : Nat} {h l : Nat → Byte} {w : WordAddr} {s : State} (heff : s.cfg.readSideEffects = .none)
    (hk : ∀ i < n, s.cart.known (w + BitVec.ofNat 24 i).toNat = (some (h i), some (l i))) :
    rdUnits ⟨false, false, false, true⟩ n w s = (wordBytes h l n, s) := by
  induction n generalizing w h l with
  | zero => rfl
  | succ n ih =>
    have hfirst : cartRead w s = (word16 (h 0) (l 0), s) := by
      have hk0 : s.cart.known w.toNat = (some (h 0), some (l 0)) := by simpa using hk 0 (Nat.succ_pos n)
      rw [cartRead_known hk0, Cart.afterRead, heff]
    have hrest := ih (w := w + 1) (h := fun i => h (i + 1)) (l := fun i => l (i + 1)) fun i hi => by
      have hki := hk (i + 1) (Nat.succ_lt_succ hi)
      rwa [Nat.add_comm i 1, BitVec.ofNat_add, ← BitVec.add_assoc, Nat.add_comm 1 i] at hki
    simp only [rdUnits, Bool.false_eq_true, if_false, hfirst, show rdMoves ⟨false, false, false, true⟩ = true from rfl, if_true,
      hrest, hiByte_word16, loByte_word16, wordBytes_succ]

/-- DEV_LEN set and a bulk read of known words (R296, R298). -/
theorem peerFeed_bulkRead {c : Word} {h l : Nat → Byte} {s : State} (hps : s.peer.ps = .op)
    (heff : s.cfg.readSideEffects = .none)
    (hk : ∀ i < c.toNat, s.cart.known (s.peer.devAddr + BitVec.ofNat 24 i).toNat = (some (h i), some (l i))) :
    peerFeed (lenFrame c ++ bulkRdFrame) s = { s with peer := { s.peer with
      devLen := c
      devAddr := s.peer.devAddr + BitVec.ofNat 24 c.toNat
      ps := .op
      rxLine := s.peer.rxLine ++ wordBytes h l c.toNat } } := by
  have hunits := rdUnits_known (s := { s with peer := { s.peer with devLen := c, ps := .op } }) (w := s.peer.devAddr) heff hk
  have hframe : peerFeed bulkRdFrame { s with peer := { s.peer with devLen := c, ps := .op } } =
      peerRd ⟨false, false, false, true⟩ { s with peer := { s.peer with devLen := c, ps := .op } } := peerFeed_rd rfl rfl
  rw [peerFeed_append, peerFeed_lenFrame c hps, hframe]
  simp only [peerRd, mdUnits, Bool.false_eq_true, if_false, hunits]
  rfl

/-! ### The identity reply (R301, R307) -/

/-- The peer has given an identity reply, `env` being the draws left after it. -/
def State.identified (env : Env) (s : State) : State := { s with env := env, peer := { s.peer with idReply := .settled } }

theorem identityWord_firstId {s : State} {id : Word} {free : List Word} (h : s.FirstId id free) :
    identityWord idRdFlags s = (id, s.identified { s.env with free := free }) := by
  unfold State.FirstId at h
  unfold identityWord State.identified
  rw [if_pos rfl]
  cases hid : s.peer.idReply with
  | settled =>
    rw [hid] at h
    obtain ⟨rfl, rfl⟩ := h
    simp only [← hid]
  | afterOpen =>
    rw [hid] at h
    simp only [takeFree, show s.env.free = id :: free from h]
  | afterReopen =>
    rw [hid] at h
    obtain ⟨v, hfree, rfl⟩ := h
    simp only [takeFree, hfree]

/-- An identity reply is what R301 and R307 allow, whatever the draws are. -/
theorem identityWord_cases (s : State) : ∃ id env, identityWord idRdFlags s = (id, s.identified env) ∧ env.rx = s.env.rx ∧
    (s.peer.idReply = .settled → id = s.peer.identity) ∧
    (s.peer.idReply = .afterReopen → id = s.peer.identity ∨ anomaly id = true) := by
  obtain ⟨env, henv⟩ := takeFree_env s
  have hrx : env.rx = s.env.rx := by
    have hdraw : (takeFree s).2.env.rx = s.env.rx := by unfold takeFree; split <;> rfl
    rwa [henv] at hdraw
  unfold identityWord State.identified
  rw [if_pos rfl]
  cases hid : s.peer.idReply with
  | settled => exact ⟨s.peer.identity, s.env, by simp only [← hid], rfl, fun _ => rfl, nofun⟩
  | afterOpen => exact ⟨(takeFree s).1, env, by simp only [henv], hrx, nofun, nofun⟩
  | afterReopen =>
    refine ⟨if anomaly (takeFree s).1 then (takeFree s).1 else s.peer.identity, env, by simp only [henv], hrx, nofun, fun _ => ?_⟩
    split
    · next h => exact .inr h
    · exact .inl rfl

/-- The identity frame (R301). -/
theorem peerFeed_idRdFrame {s t : State} {id : Word} (hps : s.peer.ps = .op) (h : identityWord idRdFlags s = (id, t)) :
    peerFeed idRdFrame s = { t with peer := { t.peer with
      devAddr := s.peer.devAddr
      ps := .op
      rxLine := t.peer.rxLine ++ [hiByte id, loByte id] } } := by
  have hunits : rdUnits idRdFlags 1 s.peer.devAddr s = ([hiByte id, loByte id], t) := by
    simp only [rdUnits, show idRdFlags.devId = true from rfl, show idRdFlags.mode8 = false from rfl, if_true, h,
      Bool.false_eq_true, if_false]
  have hframe : peerFeed idRdFrame s = peerRd idRdFlags s := peerFeed_rd rfl hps
  rw [hframe]
  simp only [peerRd, mdUnits, show idRdFlags.single = true from rfl, if_true, hunits]
  rfl

/-! ### Sending to a peer in step and reading its replies -/

/-- A peer that waits for nothing has nothing to take. -/
theorem State.InStep.settlePeer {s : State} (h : s.InStep) : settlePeer s = s := by
  obtain ⟨hmd, -, -, -, hinbox, -⟩ := h
  unfold Machine.settlePeer drain
  simp only [hmd, hinbox, peerFeed_nil]
  simp only [← hmd, ← hinbox]

/-- Bytes have been sent and are no longer on the line to the peer, which is about to execute them. -/
def State.heard (bytes : List Byte) (rest : List TxDraw) (s : State) : State :=
  { s with env := { s.env with tx := rest }, txLog := s.txLog ++ bytes }

theorem State.InStep.settlePeer_sent {s : State} (h : s.InStep) (bytes : List Byte) (rest : List TxDraw) :
    Machine.settlePeer (s.sent bytes rest) = peerFeed bytes (s.heard bytes rest) := by
  obtain ⟨hmd, -, -, -, hinbox, -⟩ := h
  unfold Machine.settlePeer drain State.sent State.heard
  simp only [hmd, hinbox, List.nil_append]
  simp only [← hmd, ← hinbox]

/-- The block has read every reply on the line; `rest` are the transport's answers to come. -/
def State.answered (rest : List RxDraw) (s : State) : State :=
  { s.received rest with peer := { s.peer with rxLine := [] } }

/-- A read of as many bytes as the peer has replied (R14, R290). -/
theorem rxRead_replies {s t : State} {n : Nat} {offered : List Byte} {rest : List RxDraw} (hv : s.env.visits = [])
    (hsettle : settlePeer s = t) (hbound : t.repliesBound .md = true) (hline : t.peer.rxLine.length = n)
    (hr : t.env.rx = .got offered :: rest) (hoffered : n ≤ offered.length) :
    rxRead .md n s = .ok (.got t.peer.rxLine) (t.answered rest) := by
  have hmin : min offered.length n = t.peer.rxLine.length := by omega
  have hbytes : takeReplies .md n offered (t.received rest) = (t.peer.rxLine, t.answered rest) := by
    have hb : (t.received rest).repliesBound .md = true := hbound
    simp only [takeReplies, hb, if_true, hmin]
    simp [State.answered, State.received]
  rw [rxRead_calm hv, hsettle, takeRx_cons hr]
  exact congrArg (fun b : List Byte × State => EStateM.Result.ok (RxDraw.got b.1) b.2) hbytes

end Sys2Proof.Machine
end

section
/-! SUPPORT. MD_READ_WORD, MD_READ and MD_GET_ID with the MD adapter in step with the block (R226, R230, R236, R306). -/

namespace Sys2Proof.Machine

theorem anomaly_iff (id : Word) : anomaly id = true ↔ id.extractLsb' 8 8 = id.extractLsb' 0 8 ∧ id ≠ 0x0000 := by
  rw [anomaly, Bool.and_eq_true, decide_eq_true_iff, decide_eq_true_iff]
  rfl

/-- What has been sent is executed, and as many bytes as asked for are read of what the peer replies to it. -/
theorem rxRead_inStep {s t : State} {bytes reply offered : List Byte} {txs : List TxDraw} {rxs : List RxDraw}
    (hv : s.env.visits = []) (h : s.InStep) (htakes : peerFeed bytes (s.heard bytes txs) = t) (hps : t.peer.ps = .op)
    (hkept : t.adapter = s.adapter ∧ t.syncLost = s.syncLost ∧ t.peer.stale = s.peer.stale) (hline : t.peer.rxLine = reply)
    (hr : t.env.rx = .got offered :: rxs) (ho : reply.length ≤ offered.length) :
    rxRead .md reply.length (s.sent bytes txs) = .ok (.got reply) (t.answered rxs) := by
  obtain ⟨hmd, hsync, hstale, -, -, -⟩ := id h
  obtain ⟨kmd, ksync, kstale⟩ := hkept
  have hbound : t.repliesBound .md = true := by simp [State.repliesBound, kmd, hmd, ksync, hsync, kstale, hstale, hps]
  subst hline
  exact rxRead_replies hv ((h.settlePeer_sent bytes txs).trans htakes) hbound rfl hr ho

theorem rxFill_latch {s t : State} {reply : List Byte} (hl : reply.length = 2) (hr : rxRead .md reply.length s = .ok (.got reply) t) :
    rxFill .latch 2 s = .ok reply t := by
  rw [hl] at hr
  exact rxFill_one (d := .latch) Nat.two_pos hl hr

section InStep

variable {s : State} {k : Nat} {txs : List TxDraw} {offered : List Byte} {rxs : List RxDraw}
  (hv : s.env.visits = []) (h : s.InStep) (ht : s.env.tx = .accepted k :: txs)
include hv h ht

/-- MD_GET_ID's exchange with a peer in step (R236, R301). -/
theorem getId_inStep {v : Word} {env : Env} (hk : 1 ≤ k)
    (hid : identityWord idRdFlags (s.heard idRdFrame txs) = (v, (s.heard idRdFrame txs).identified env))
    (hr : env.rx = .got offered :: rxs) (ho : 2 ≤ offered.length) : getId s = .ok v
      { s with
        env := { env with rx := rxs }
        peer := { s.peer with idReply := .settled }
        txLog := s.txLog ++ idRdFrame } := by
  obtain ⟨-, -, -, hps, -, hline⟩ := id h
  have hread := rxRead_inStep (reply := [hiByte v, loByte v]) hv h (peerFeed_idRdFrame (s := s.heard idRdFrame txs) hps hid)
    rfl ⟨rfl, rfl, rfl⟩ (by simp [State.identified, State.heard, hline]) hr ho
  rw [getId, act_bind_ok (txWrite_sent (bytes := idRdFrame) hv ht hk),
    act_bind_ok (rxFill_latch rfl hread), act_pure]
  have hword : replyWord [hiByte v, loByte v] = v := word16_hiByte_loByte v
  rw [hword, State.answered]
  simp only [State.received, State.identified, State.heard, ← hps, ← hline]

/-- A transport answer is there for the first id of a peer in step (R301, R307). -/
theorem getId_firstId {v : Word} {free : List Word} (hid : s.FirstId v free) (hk : 1 ≤ k) (hr : s.env.rx = .got offered :: rxs)
    (ho : 2 ≤ offered.length) : getId s = .ok v
      { s with
        env := { s.env with tx := txs, rx := rxs, free := free }
        peer := { s.peer with idReply := .settled }
        txLog := s.txLog ++ idRdFrame } :=
  getId_inStep hv h ht hk (identityWord_firstId (s := s.heard idRdFrame txs) hid) hr ho

/-- MD_READ_WORD of a known word from a peer in step (R230, R297). -/
theorem mdReadWordBody_inStep {addr : Reg32} {hi lo : Byte} (haddr : addr.toNat < 2 ^ 25) (hk : 7 ≤ k)
    (hr : s.env.rx = .got offered :: rxs) (ho : 2 ≤ offered.length)
    (hknown : s.cart.known (addr.toNat / 2) = (some hi, some lo)) : mdReadWordBody addr s = .ok ((word16 hi lo).setWidth 32)
      { setCursor (halved addr.toNat) s with
        cart := s.cart.afterRead s.cfg
        env := { s.env with tx := txs, rx := rxs }
        peer := { s.peer with devAddr := halved addr.toNat, ps := .op, rxLine := [] }
        txLog := s.txLog ++ (seekFrame (halved addr.toNat) ++ wordRdFrame) } := by
  obtain ⟨-, -, -, hps, -, hline⟩ := id h
  have hword : (halved addr.toNat).toNat = addr.toNat / 2 := by
    rw [halved, BitVec.toNat_ofNat, Nat.mod_eq_of_lt (by omega)]
  let u := setCursor (halved addr.toNat) s
  have htakes := peerFeed_readWord (w := halved addr.toNat) (s := u.heard (seekFrame (halved addr.toNat) ++ wordRdFrame) txs) hps
    (hword ▸ hknown)
  have hread := rxRead_inStep (s := u) (reply := [hi, lo]) hv h htakes rfl ⟨rfl, rfl, rfl⟩ (by simp [u, State.heard, hline]) hr ho
  have hwrite : txWrite .md (seekFrame (halved addr.toNat) ++ wordRdFrame) s = _ := txWrite_sent hv ht hk
  have hfill : rxFill .latch 2 (setCursor (halved addr.toNat) (s.sent (seekFrame (halved addr.toNat) ++ wordRdFrame) txs)) = _ :=
    rxFill_latch rfl hread
  rw [mdReadWordBody, act_bind_ok (wordAddress_ok haddr), act_bind_ok hwrite, act_bind_ok (upd_run _ _), act_bind_ok hfill]
  rfl

/-- MD_READ of one chunk of known words from a peer in step (R226, R298). -/
theorem mdReadBody_inStep {boff len : Reg32} {hi lo : Nat → Byte} (hz : s.hazard = []) (hk : 5 ≤ k) (heven : len.toNat % 2 = 0)
    (h0 : 0 < len.toNat) (hmax : len.toNat ≤ 65536) (hin : boff.toNat + len.toNat ≤ s.cfg.dbufSize)
    (hr : s.env.rx = .got offered :: rxs) (ho : len.toNat ≤ offered.length) (heff : s.cfg.readSideEffects = .none)
    (hknown : ∀ i < len.toNat / 2, s.cart.known (s.peer.devAddr + BitVec.ofNat 24 i).toNat = (some (hi i), some (lo i))) :
    mdReadBody boff len s = .ok len (advanceCursor (len.toNat / 2)
      { s with
        dbuf := s.dbuf.setBytes boff.toNat (wordBytes hi lo (len.toNat / 2))
        env := { s.env with tx := txs, rx := rxs }
        peer := { s.peer with
          devLen := BitVec.ofNat 16 (len.toNat / 2)
          devAddr := s.peer.devAddr + BitVec.ofNat 24 (len.toNat / 2)
          ps := .op
          rxLine := [] }
        txLog := s.txLog ++ readFrames len.toNat }) := by
  obtain ⟨-, -, -, hps, -, hline⟩ := id h
  have hwords : (BitVec.ofNat 16 (len.toNat / 2)).toNat = len.toNat / 2 := ChunkSize.words ⟨heven, hmax⟩
  have hlen : (wordBytes hi lo (len.toNat / 2)).length = len.toNat := by rw [wordBytes_length]; omega
  have htakes := peerFeed_bulkRead (c := BitVec.ofNat 16 (len.toNat / 2)) (h := hi) (l := lo)
    (s := s.heard (readFrames len.toNat) txs) hps heff (by rw [hwords]; exact hknown)
  rw [hwords] at htakes
  have hread := rxRead_inStep (reply := wordBytes hi lo (len.toNat / 2)) hv h htakes rfl ⟨rfl, rfl, rfl⟩
    (by simp [State.heard, hline]) hr (hlen.le.trans ho)
  rw [hlen] at hread
  have hfill : rxFill (.dbuf boff.toNat) len.toNat (s.sent (readFrames len.toNat) txs) = _ :=
    (rxFill_one (d := .dbuf boff.toNat) h0 hlen hread).trans (act_bind_ok (storeDbuf_none boff.toNat _ _ hz))
  rw [mdReadBody_chunk heven h0 hmax hin hv ht hk, act_bind_ok hfill]
  rfl

end InStep

/-- Settles O34: each frame executed by the peer, and its reply read. -/
theorem peerReplies : Obligations.PeerReplies := by
  intro s k txs offered rxs ⟨hb, hv⟩ h ht hr
  refine ⟨fun addr hi lo haddr hk ho hknown => ?_, fun boff len hi lo hk heven h0 hmax ho hin heff hknown => ?_, fun hk ho => ?_⟩
  · have hbody := mdReadWordBody_inStep (s := s.accept) hv h ht haddr hk hr ho hknown
    exact ⟨_, request_completes hb hbody, rfl, rfl, rfl, rfl, rfl, rfl⟩
  · have hbody := mdReadBody_inStep (s := s.accept) (boff := boff) hv h ht rfl hk heven h0 hmax hin hr ho heff hknown
    rw [advanceCursor_eq] at hbody
    have hother := Memory.get_setBytes s.dbuf boff.toNat (wordBytes hi lo (len.toNat / 2))
    rw [wordBytes_length] at hother
    exact ⟨_, request_completes hb hbody, rfl, rfl, fun i hlt => Memory.get_setBytes_words s.dbuf boff.toNat hlt,
      fun a hout => (hother a).trans (if_neg (by omega)), rfl, rfl, rfl⟩
  · obtain ⟨v, env, hid, henv, hsettled, hreopened⟩ := identityWord_cases (s.accept.heard idRdFrame txs)
    have hbody : mdGetIdBody s.accept = .ok (v.setWidth 32) _ :=
      act_bind_ok (getId_inStep (s := s.accept) hv h ht hk hid (henv.trans hr) ho)
    refine ⟨_, request_completes hb hbody, rfl, rfl, rfl, fun hs => ?_, fun hs => ?_⟩
    · exact congrArg (BitVec.setWidth 32) (hsettled hs)
    · refine (hreopened hs).imp (congrArg (BitVec.setWidth 32)) fun han => ?_
      obtain ⟨heq, hne⟩ := (anomaly_iff v).1 han
      exact ⟨v, rfl, hne, heq⟩

end Sys2Proof.Machine
end

section
/-! SUPPORT. MD_HANDSHAKE by the ids it is given (R237, R238), whichever adapter gives them. -/

namespace Sys2Proof.Machine

/-! ### The paths of MD_HANDSHAKE -/

/-- MD_HANDSHAKE after the first id was anomalous: Reopen, and the second id (R238). -/
def secondId (timeout : Nat) : Act Word := do
  reopen timeout
  getId

/-- MD_HANDSHAKE after its second id (R238). -/
def secondAttempt (id : Word) : Act Reg32 := do
  setAttempt 2
  if anomaly id then
    setAttempt 0
    raise .secondEcho id.toNat
  else
    txWrite .md (delayFrame 0x00)
    upd (setDelay 0x00)
    setAttempt 0
    pure (id.setWidth 32)

theorem setAttempt_run (n : BitVec 2) (s : State) : setAttempt n s = .ok () { s with hsAttempt := n } := rfl

theorem secondAttempt_echo {id : Word} (hid : anomaly id = true) (s : State) : secondAttempt id s =
    .error .raised (State.raise .secondEcho (id.setWidth 32) { s with hsAttempt := 0 }) := by
  rw [secondAttempt, act_bind_ok (setAttempt_run _ _), hid, if_pos rfl, act_bind_ok (setAttempt_run _ _), raise_run,
    BitVec.ofNat_toNat]

/-- The recovery: DELAY 0 is sent, and the second id is the result. -/
theorem secondAttempt_recovers {id : Word} {s : State} {k : Nat} {txs : List TxDraw} (hid : anomaly id = false)
    (hv : s.env.visits = []) (ht : s.env.tx = .accepted k :: txs) (hk : 2 ≤ k) : secondAttempt id s =
      .ok (id.setWidth 32) { setDelay 0x00 (s.sent (delayFrame 0x00) txs) with hsAttempt := 0 } := by
  have hdelay : txWrite .md (delayFrame 0x00) { s with hsAttempt := 2 } = _ := txWrite_sent hv ht hk
  rw [secondAttempt, act_bind_ok (setAttempt_run _ _), hid, if_neg Bool.false_ne_true, act_bind_ok hdelay,
    act_bind_ok (upd_run _ _)]
  rfl

section Paths

variable {s t u : State} {id id2 : Word} (hb : s.busy = false) (hfirst : getId { s.accept with hsAttempt := 0 } = .ok id t)
include hb hfirst

theorem mdHandshake_accepts (hid : anomaly id = false) :
    exec .mdHandshake s = .next (State.complete (id.setWidth 32) { t with hsAttempt := 0 }) := by
  have hbody : mdHandshakeBody s.accept = .ok (id.setWidth 32) { t with hsAttempt := 0 } := by
    rw [mdHandshakeBody, act_bind_ok (setAttempt_run _ _), act_bind_ok hfirst, act_bind_ok (setAttempt_run _ _), hid]
    rfl
  exact request_completes hb hbody

variable (hid : anomaly id = true)
include hid

omit hb in
theorem mdHandshakeBody_retries :
    mdHandshakeBody s.accept = (secondId t.cfg.tReopen >>= secondAttempt : Act Reg32) { t with hsAttempt := 1 } := by
  rw [mdHandshakeBody, act_bind_ok (setAttempt_run _ _), act_bind_ok hfirst, act_bind_ok (setAttempt_run _ _), hid, if_pos rfl,
    act_bind_ok (look_run _ _), secondId, bind_assoc]
  rfl

theorem mdHandshake_reopenFails (hopen : reopen t.cfg.tReopen { t with hsAttempt := 1 } = .error .raised u) :
    exec .mdHandshake s = .next u :=
  request_ends_raised hb ((mdHandshakeBody_retries hfirst hid).trans (act_bind_error (act_bind_error hopen)))

variable (hsecond : secondId t.cfg.tReopen { t with hsAttempt := 1 } = .ok id2 u)
include hsecond

theorem mdHandshake_secondEcho (hid2 : anomaly id2 = true) :
    exec .mdHandshake s = .next (State.raise .secondEcho (id2.setWidth 32) { u with hsAttempt := 0 }) :=
  request_ends_raised hb
    ((mdHandshakeBody_retries hfirst hid).trans ((act_bind_ok hsecond).trans (secondAttempt_echo hid2 u)))

theorem mdHandshake_recovers {k : Nat} {txs : List TxDraw} (hid2 : anomaly id2 = false) (hv : u.env.visits = [])
    (ht : u.env.tx = .accepted k :: txs) (hk : 2 ≤ k) : exec .mdHandshake s =
      .next (State.complete (id2.setWidth 32) { setDelay 0x00 (u.sent (delayFrame 0x00) txs) with hsAttempt := 0 }) :=
  request_completes hb
    ((mdHandshakeBody_retries hfirst hid).trans ((act_bind_ok hsecond).trans (secondAttempt_recovers hid2 hv ht hk)))

end Paths

/-! ### Reopen and the second id -/

/-- The line after a Reopen, `ros` being the answers to the next ones (R238). -/
def State.reopening (timeout : Nat) (ros : List Bool) (s : State) : State :=
  reopened timeout { s with env := { s.env with reopen := ros } }

/-- An id was taken, the answers `txs`, `rxs` and `free` being left (R236, R307). -/
def State.idTaken (txs : List TxDraw) (rxs : List RxDraw) (free : List Word) (s : State) : State :=
  { s with
    env := { s.env with tx := txs, rx := rxs, free := free }
    peer := { s.peer with idReply := .settled }
    txLog := s.txLog ++ idRdFrame }

theorem State.InStep.reopening {s : State} (h : s.InStep) (timeout : Nat) (ros : List Bool) : (s.reopening timeout ros).InStep := by
  obtain ⟨hmd, hsync, -, hps, hinbox, -⟩ := h
  exact ⟨hmd, hsync, hsync, hps, hinbox, rfl⟩

theorem State.sent_inbox_md {s : State} (h : s.adapter = .md) (bytes : List Byte) (rest : List TxDraw) :
    (s.sent bytes rest).peer.inbox = s.peer.inbox ++ bytes := by
  simp [State.sent, h]

section Reopen

variable {s : State} {timeout : Nat} {ros : List Bool} (hv : s.env.visits = [])
include hv

/-- Reopen without a requester's action, the peer having taken everything (R14, R238). -/
theorem reopen_run {ok : Bool} (hsettle : settlePeer s = s) (hr : s.env.reopen = ok :: ros) : reopen timeout s =
    (if ok then pure () else raiseTransport .md .ioFailure 0 : Act Unit) (s.reopening timeout ros) := by
  rw [reopen, act_bind_ok (meet_calm hv), act_bind_ok (upd_run _ _), hsettle, act_bind_ok (draw_run _ _), takeReopen_cons hr,
    act_bind_ok (upd_run _ _)]
  rfl

theorem secondId_gb {k : Nat} {txs : List TxDraw} {c0 c1 : Byte} {more : List Byte} {rxs : List RxDraw} (ha : s.adapter = .gb)
    (hro : s.env.reopen = true :: ros) (ht : s.env.tx = .accepted k :: txs) (hk : 1 ≤ k)
    (hr : s.env.rx = .got (c0 :: c1 :: more) :: rxs) : secondId timeout s =
      .ok (word16 c0 c1) (State.sent idRdFrame txs ((s.reopening timeout ros).received rxs)) :=
  (act_bind_ok (reopen_run hv (settlePeer_gb ha) hro)).trans (getId_gb (s := s.reopening timeout ros) hv ha ht hr hk)

/-- The second id of a peer in step is the identity value or an anomaly (R301, R307). -/
theorem secondId_inStep {k : Nat} {txs : List TxDraw} {offered : List Byte} {rxs : List RxDraw} {v : Word} {free : List Word}
    (h : s.InStep) (hro : s.env.reopen = true :: ros) (ht : s.env.tx = .accepted k :: txs) (hk : 1 ≤ k)
    (hr : s.env.rx = .got offered :: rxs) (ho : 2 ≤ offered.length) (hfree : s.env.free = v :: free) :
    secondId timeout s = .ok (if anomaly v then v else s.peer.identity) ((s.reopening timeout ros).idTaken txs rxs free) :=
  (act_bind_ok (reopen_run hv h.settlePeer hro)).trans
    (getId_firstId (s := s.reopening timeout ros) hv (h.reopening timeout ros) ht ⟨v, hfree, rfl⟩ hk hr ho)

end Reopen

/-- Settles O35: the exchanges of two bytes, and the Reopen between them. -/
theorem mdHandshakePaths : Obligations.MdHandshakePaths := by
  unfold Obligations.MdHandshakePaths
  intro anomalous
  have hnot (id : Word) (h : ¬anomalous id) : anomaly id = false := Bool.eq_false_iff.2 fun ha => h ((anomaly_iff id).1 ha)
  have hyes (id : Word) (h : anomalous id) : anomaly id = true := (anomaly_iff id).2 h
  refine ⟨?_, ?_, ?_, ?_⟩
  · intro s k txs b0 b1 more rxs ⟨hb, hv⟩ ha ht hk hr hid
    exact mdHandshake_accepts hb (getId_gb (s := { s.accept with hsAttempt := 0 }) hv ha ht hr hk) (hnot _ hid)
  · intro s k txs b0 b1 more rxs ros ⟨hb, hv⟩ ha ht hk hr hid hro
    have hfirst := getId_gb (s := { s.accept with hsAttempt := 0 }) hv ha ht hr hk
    let t : State := { State.sent idRdFrame txs (s.accept.received rxs) with hsAttempt := 1 }
    have hopen := reopen_run (timeout := s.cfg.tReopen) (s := t) hv (settlePeer_gb ha) hro
    exact ⟨_, mdHandshake_reopenFails hb hfirst (hyes _ hid) hopen, rfl, rfl, rfl, rfl, rfl, rfl, rfl, rfl, rfl, rfl⟩
  · intro s k1 k2 k3 txs b0 b1 more1 c0 c1 more2 rxs ros ⟨hb, hv⟩ ha ht hk1 hk2 hk3 hr hro hid
    have hfirst := getId_gb (s := { s.accept with hsAttempt := 0 }) hv ha ht hr hk1
    let t : State := { State.sent idRdFrame (.accepted k2 :: .accepted k3 :: txs)
      (s.accept.received (.got (c0 :: c1 :: more2) :: rxs)) with hsAttempt := 1 }
    have hsecond := secondId_gb (timeout := s.cfg.tReopen) (s := t) hv ha hro rfl hk2 rfl
    by_cases hid2 : anomalous (c0 ++ c1)
    · exact ⟨_, mdHandshake_secondEcho hb hfirst (hyes _ hid) hsecond (hyes _ hid2), rfl, rfl, rfl, rfl, rfl, rfl,
        fun h => absurd hid2 h, fun _ => ⟨rfl, rfl, rfl, rfl, rfl, rfl, rfl, List.append_assoc _ _ _⟩⟩
    · exact ⟨_, mdHandshake_recovers hb hfirst (hyes _ hid) hsecond (hnot _ hid2) hv rfl hk3, rfl, rfl, rfl, rfl, rfl, rfl,
        fun _ => ⟨rfl, rfl, rfl, rfl, (List.append_assoc _ _ _).trans (List.append_assoc _ _ _)⟩, fun h => absurd h hid2⟩
  · intro s k txs offered rxs v1 free ⟨hb, hv⟩ h hfree ht hk hr ho
    have hfirst := getId_firstId (s := { s.accept with hsAttempt := 0 }) hv h ht hfree hk hr ho
    let t : State := { s.accept.idTaken txs rxs free with hsAttempt := 1 }
    have hstep : t.InStep := h
    refine ⟨fun hid => mdHandshake_accepts hb hfirst (hnot _ hid), fun ros hid hro => ?_,
      fun ros k2 k3 txs2 offered2 rxs2 v free2 hid hro htxs hk2 hk3 hrxs ho2 hfree2 => ?_⟩
    · have hopen := reopen_run (timeout := s.cfg.tReopen) (s := t) hv hstep.settlePeer hro
      exact ⟨_, mdHandshake_reopenFails hb hfirst (hyes _ hid) hopen, rfl, rfl, rfl, rfl, rfl⟩
    · have hsecond := secondId_inStep (timeout := s.cfg.tReopen) (s := t) hv hstep hro htxs hk2 hrxs ho2 hfree2
      have hend : (t.reopening s.cfg.tReopen ros).InStep := hstep.reopening _ _
      obtain ⟨hmd, hsync, -, -, hempty, -⟩ := id hend
      intro id2
      by_cases hid2 : anomalous id2
      · exact ⟨_, mdHandshake_secondEcho hb hfirst (hyes _ hid) hsecond (hyes _ hid2), rfl, rfl, rfl, rfl, hsync, rfl, rfl,
          fun h => absurd hid2 h, fun _ => ⟨hend, rfl, rfl, rfl, rfl, rfl, rfl, rfl, List.append_assoc _ _ _⟩⟩
      · refine ⟨_, mdHandshake_recovers hb hfirst (hyes _ hid) hsecond (hnot _ hid2) hv rfl hk3, rfl, rfl, rfl, rfl, hsync, rfl, rfl,
          fun _ => ⟨rfl, rfl, rfl, rfl, ?_, (List.append_assoc _ _ _).trans (List.append_assoc _ _ _)⟩, fun h => absurd h hid2⟩
        let u := (t.reopening s.cfg.tReopen ros).idTaken (.accepted k3 :: txs2) rxs2 free2
        exact (State.sent_inbox_md (s := u) hmd (delayFrame 0x00) txs2).trans (congrArg (· ++ delayFrame 0x00) hempty)

end Sys2Proof.Machine
end

section
/-! SUPPORT. What the flash command streams do at the peer (R270 to R273, R277, R290): their word writes reach the cartridge, and the
ready-poll ends with two reply bytes on the line. -/

namespace Sys2Proof.Machine

/-! ### Word writes -/

/-- A single-word write (R299). -/
theorem peerFeed_wordWrFrame (v : Word) {s : State} (h : s.peer.ps = .op) : peerFeed (wordWrFrame v) s = { s with
    cart := s.cart.write s.cfg s.peer.devAddr.toNat (some (hiByte v)) (loByte v)
    peer := { s.peer with ps := .op } } := by
  have hcommand : peerByte 0x43 s = setPs (.wrData 2 ⟨false, false, true, false⟩ []) s := by
    simp only [peerByte, h, peerCommand]
    rfl
  rw [wordWrFrame, peerFeed_cons, hcommand]
  rfl

/-- A bulk write of one word (R300). -/
theorem peerFeed_incWrFrame (v : Word) {s : State} (h : s.peer.ps = .op) (hlen : s.peer.devLen = 1) :
    peerFeed (incWrFrame v) s = { s with
      cart := s.cart.write s.cfg s.peer.devAddr.toNat (some (hiByte v)) (loByte v)
      peer := { s.peer with devAddr := s.peer.devAddr + 1, ps := .op } } := by
  have hcommand : peerByte 0x83 s = setPs (.wrData 2 ⟨false, false, false, true⟩ []) s := by
    simp only [peerByte, h, peerCommand, hlen]
    rfl
  have hword : peerFeed [hiByte v, loByte v] (setPs (.wrData 2 ⟨false, false, false, true⟩ []) s) =
      peerWr ⟨false, false, false, true⟩ [hiByte v, loByte v] (setPs (.wrData 1 ⟨false, false, false, true⟩ [hiByte v]) s) := rfl
  have hunits : BitVec.ofNat 24 s.peer.devLen.toNat = 1 := by rw [hlen]; rfl
  rw [incWrFrame, peerFeed_cons, hcommand, hword]
  simp only [peerWr, mdUnits, setPs_peer, hunits, Bool.false_eq_true, if_false]
  rfl

/-- The cartridge after one command write (R270). -/
def Cart.command (cfg : Params) (c : Cart) (x : Nat × Word) : Cart :=
  c.write cfg (halved x.1).toNat (some (hiByte x.2)) (loByte x.2)

/-- The cartridge after a sequence of command writes. -/
def Cart.commands (cfg : Params) (c : Cart) (seq : List (Nat × Word)) : Cart := seq.foldl (Cart.command cfg) c

theorem peerFeed_cmdWrite (x : Nat × Word) {s : State} (h : s.peer.ps = .op) : peerFeed (cmdWrite x.1 x.2) s = { s with
    cart := s.cart.command s.cfg x
    peer := { s.peer with devAddr := halved x.1, ps := .op } } := by
  rw [cmdWrite, peerFeed_append, peerFeed_seekFrame _ h, peerFeed_wordWrFrame _ rfl]
  rfl

theorem peerFeed_cmdWrites (seq : List (Nat × Word)) {s : State} (h : s.peer.ps = .op) : peerFeed (cmdWrites seq) s = { s with
    cart := s.cart.commands s.cfg seq
    peer := { s.peer with devAddr := lastAddress seq s.peer.devAddr, ps := .op } } := by
  induction seq generalizing s with
  | nil =>
    have hsame : ({ s with peer := { s.peer with ps := .op } } : State) = s := by rw [← h]
    exact hsame.symm
  | cons x rest ih =>
    rw [cmdWrites, peerFeed_append, peerFeed_cmdWrite x h, ih rfl, lastAddress_cons]
    rfl

/-! ### The ready-poll (R271) -/

/-- The cartridge after RY and a single read. -/
def Cart.polled (cfg : Params) (c : Cart) : Cart := c.ready.afterRead cfg

/-- The peer has executed a stream that ends with a ready-poll: it has given two bytes, the free words left being `fs`. -/
def State.polled (a : WordAddr) (l : Word) (c : Cart) (fs : List Word) (count : Nat) (reply : List Byte) (s : State) : State :=
  { s with
    cart := c
    env := { s.env with free := fs, count := count }
    peer := { s.peer with devAddr := a, devLen := l, ps := .op, rxLine := s.peer.rxLine ++ reply } }

theorem takeFree_eq (s : State) : ∃ fs count, (takeFree s).2 = { s with env := { s.env with free := fs, count := count } } := by
  unfold takeFree
  split
  · exact ⟨_, _, rfl⟩
  · exact ⟨_, _, rfl⟩

/-- Everything a read does beside its word: it may take a free word, and what I9 lets it do to the cartridge. -/
theorem cartRead_eq (w : WordAddr) (s : State) : ∃ fs count, (cartRead w s).2 =
    { s with cart := s.cart.afterRead s.cfg, env := { s.env with free := fs, count := count } } := by
  obtain ⟨fs, count, hfree⟩ := takeFree_eq s
  unfold cartRead
  split
  · exact ⟨s.env.free, s.env.count, rfl⟩
  all_goals exact ⟨fs, count, by simp only [hfree]⟩

theorem peerFeed_readyPoll {s : State} (h : s.peer.ps = .op) : ∃ fs count reply, reply.length = 2 ∧
    peerFeed (readyPollTx .ryThenRdSingle) s =
      s.polled s.peer.devAddr s.peer.devLen (s.cart.polled s.cfg) fs count reply := by
  obtain ⟨fs, count, hread⟩ := cartRead_eq (peerRy s).peer.devAddr (peerRy s)
  let v := (cartRead (peerRy s).peer.devAddr (peerRy s)).1
  have hunits : rdUnits ⟨false, false, true, false⟩ 1 (peerRy s).peer.devAddr (peerRy s) = ([hiByte v, loByte v],
      { peerRy s with
        cart := s.cart.polled s.cfg
        env := { s.env with free := fs, count := count } }) := by
    simp only [rdUnits, Bool.false_eq_true, if_false, hread]
    rfl
  have hframe : peerFeed wordRdFrame (peerRy s) = peerRd ⟨false, false, true, false⟩ (peerRy s) := peerFeed_rd rfl rfl
  refine ⟨fs, count, [hiByte v, loByte v], rfl, ?_⟩
  rw [readyPollTx, peerFeed_append, ryFrame, peerFeed_ry s h, hframe]
  simp only [peerRd, mdUnits, if_true, hunits]
  rfl

end Sys2Proof.Machine
end

section
/-! SUPPORT. MD_FLASH_ERASE (R271 to R274): its checks, its stream, and its poll with either adapter. -/

namespace Sys2Proof.Machine

/-! ### A poll of a peer in step -/

/-- The peer has executed what was sent to it, and the block has read its reply; `env` are the draws left. -/
def State.executed (bytes : List Byte) (a : WordAddr) (l : Word) (c : Cart) (env : Env) (s : State) : State :=
  { s with cart := c, env := env, peer := { s.peer with devAddr := a, devLen := l }, txLog := s.txLog ++ bytes }

/-- What has been sent is executed, and the two reply bytes of its poll are read (R271, R290). -/
theorem rxFill_polled {s : State} {bytes reply offered : List Byte} {a : WordAddr} {l : Word} {c : Cart} {fs : List Word}
    {count : Nat} {txs : List TxDraw} {rxs : List RxDraw} (hv : s.env.visits = []) (h : s.InStep)
    (htakes : peerFeed bytes (s.heard bytes txs) = (s.heard bytes txs).polled a l c fs count reply) (hreply : reply.length = 2)
    (hr : s.env.rx = .got offered :: rxs) (ho : 2 ≤ offered.length) : rxFill .latch 2 (s.sent bytes txs) =
      .ok reply (s.executed bytes a l c { s.env with tx := txs, rx := rxs, free := fs, count := count }) := by
  obtain ⟨-, -, -, hps, -, hline⟩ := id h
  have hread := rxRead_inStep (reply := reply) hv h htakes rfl ⟨rfl, rfl, rfl⟩ (by simp [State.polled, State.heard, hline]) hr
    (hreply.le.trans ho)
  rw [rxFill_latch hreply hread]
  simp only [State.answered, State.received, State.polled, State.heard, State.executed, ← hps, ← hline]

/-! ### The erase stream (R273) -/

theorem eraseStream_length (cfg : Params) (x : Nat) : (eraseStream cfg x).length = 117 + (readyPollTx cfg.readyPoll).length := by
  simp [eraseStream, cmdWrites_length, unlock5, sectorErases, ← Nat.add_assoc]

/-- The command writes of an erase, one after another. -/
def eraseCommands (cfg : Params) (x : Nat) : List (Nat × Word) := unlock5 ++ sectorErases x cfg.eraseStep

theorem eraseStream_eq (cfg : Params) (x : Nat) :
    eraseStream cfg x = cmdWrites (eraseCommands cfg x) ++ readyPollTx cfg.readyPoll := by
  simp only [eraseStream, eraseCommands, cmdWrites_eq_flatMap, List.flatMap_append]

/-- An erase leaves the cursor at the last sector written. -/
theorem lastAddress_eraseCommands (cfg : Params) (x : Nat) (a : WordAddr) :
    lastAddress (eraseCommands cfg x) a = halved (x + 7 * cfg.eraseStep) := rfl

/-- The peer takes a whole erase, its reply being that of the poll. -/
theorem peerFeed_eraseStream (x : Nat) {s : State} {cfg : Params} (hcfg : s.cfg = cfg) (hps : s.peer.ps = .op)
    (hpoll : cfg.readyPoll = .ryThenRdSingle) : ∃ fs count reply, reply.length = 2 ∧ peerFeed (eraseStream cfg x) s =
      s.polled (halved (x + 7 * cfg.eraseStep)) s.peer.devLen ((s.cart.commands cfg (eraseCommands cfg x)).polled cfg)
        fs count reply := by
  subst hcfg
  obtain ⟨fs, count, reply, hreply, hfeed⟩ := peerFeed_readyPoll (s := peerFeed (cmdWrites (eraseCommands s.cfg x)) s)
    (by rw [peerFeed_cmdWrites _ hps])
  refine ⟨fs, count, reply, hreply, ?_⟩
  rw [eraseStream_eq, peerFeed_append, hpoll, hfeed, peerFeed_cmdWrites _ hps, lastAddress_eraseCommands]
  rfl

/-! ### The request -/

section Erase

variable {s t u : State} {addr : Reg32}

theorem checkErase_ok (haddr : addr.toNat < 2 ^ 25) (halign : addr.toNat % 65536 = 0) : checkErase addr s = .ok () s :=
  (act_bind_ok (check_ok (decide_eq_true haddr))).trans (check_ok (decide_eq_true halign))

theorem checkErase_range (haddr : 2 ^ 25 ≤ addr.toNat) : checkErase addr s = .error .raised (s.raise .addressRange addr) :=
  act_bind_error (check_raises (decide_eq_false (Nat.not_lt.2 haddr)))

theorem checkErase_align (haddr : addr.toNat < 2 ^ 25) (halign : addr.toNat % 65536 ≠ 0) :
    checkErase addr s = .error .raised (s.raise .eraseAlign addr) :=
  (act_bind_ok (check_ok (decide_eq_true haddr))).trans (check_raises (decide_eq_false halign))

/-- An erase whose checks pass is its stream, its poll and the cursor (R273). -/
theorem mdFlashErase_completes {n : Nat} {reply : List Byte} (hb : s.busy = false) (haddr : addr.toNat < 2 ^ 25)
    (halign : addr.toNat % 65536 = 0) (hn : readyPollReplies s.cfg.readyPoll = n)
    (hwrite : txWrite .md (eraseStream s.cfg addr.toNat) s.accept = .ok () t) (hfill : rxFill .latch n t = .ok reply u) :
    exec (.mdFlashErase addr) s = .next (State.complete 0 (setCursor (halved (addr.toNat + 7 * s.cfg.eraseStep)) u)) := by
  subst hn
  have hio : eraseIo addr s.accept = .ok () (setCursor (halved (addr.toNat + 7 * s.cfg.eraseStep)) u) := by
    rw [eraseIo, act_bind_ok (look_run _ _)]
    exact (act_bind_ok hwrite).trans (act_bind_ok hfill)
  have hbody : mdFlashEraseBody addr s.accept = .ok 0 _ :=
    (act_bind_ok (checkErase_ok haddr halign)).trans (act_bind_ok (onRaise_ok hio))
  exact request_completes hb hbody

end Erase

/-- Settles O45: the checks in their order, then the stream in one TxWrite and its poll by form and adapter. -/
theorem flashEraseRequest : Obligations.FlashEraseRequest := by
  intro s addr hb
  split
  · next hout => exact request_raises_first hb (checkErase_range hout)
  next hin =>
  have haddr : addr.toNat < 2 ^ 25 := Nat.not_le.1 hin
  split
  · next hodd => exact request_raises_first hb (checkErase_align haddr hodd)
  next heven =>
  have halign : addr.toNat % 65536 = 0 := Decidable.not_not.1 heven
  intro k txs hv ht write erase
  have hsectors : cmdWrites (sectorErases addr.toNat s.cfg.eraseStep) =
      (List.range 8).flatMap fun i => write (addr.toNat + i * s.cfg.eraseStep) 0x0030 := by
    rw [cmdWrites_eq_flatMap, sectorErases, List.flatMap_map]
    rfl
  have hstream : eraseStream s.cfg addr.toNat = erase ++ readyPollTx s.cfg.readyPoll := by
    rw [eraseStream, hsectors]
    rfl
  have hwrite {form : ReadyPollForm} (hpoll : s.cfg.readyPoll = form) (hk : 117 + (readyPollTx form).length ≤ k) :
      txWrite .md (eraseStream s.cfg addr.toNat) s.accept = .ok () (s.accept.sent (erase ++ readyPollTx form) txs) := by
    have hlen := eraseStream_length s.cfg addr.toNat
    rw [hstream, hpoll] at hlen ⊢
    exact txWrite_sent hv ht (hlen.le.trans hk)
  refine ⟨fun b0 b1 more rxs hgb hpoll hk hr => ?_, fun offered rxs h hpoll hk hr ho => ?_, fun hpoll hk => ?_⟩
  · have hfill := rxFill_latch_gb (s := s.accept.sent (erase ++ [0x04, 0x42]) txs) hv hgb hr
    exact mdFlashErase_completes hb haddr halign (congrArg readyPollReplies hpoll) (hwrite hpoll hk) hfill
  · obtain ⟨-, -, -, hps, -, -⟩ := id h
    obtain ⟨fs, count, reply, hreply, hfeed⟩ :=
      peerFeed_eraseStream addr.toNat (s := s.accept.heard (eraseStream s.cfg addr.toNat) txs) (cfg := s.cfg) rfl hps hpoll
    obtain ⟨fs', count', reply', -, hcart⟩ := peerFeed_eraseStream addr.toNat (s := s) (cfg := s.cfg) rfl hps hpoll
    have hfill := rxFill_polled (s := s.accept) hv h hfeed hreply hr ho
    rw [hstream, hpoll] at hfill hcart
    have hcart : (peerFeed (erase ++ [0x04, 0x42]) s).cart = _ := congrArg State.cart hcart
    refine ⟨fs, count,
      (mdFlashErase_completes hb haddr halign (congrArg readyPollReplies hpoll) (hwrite hpoll hk) hfill).trans ?_⟩
    rw [hcart, List.append_assoc s.txLog]
    rfl
  · exact mdFlashErase_completes hb haddr halign (congrArg readyPollReplies hpoll) (hwrite hpoll hk) (rxFill_zero _ _)

end Sys2Proof.Machine
end

section
/-! SUPPORT. MD_FLASH_WRITE (R277 to R279): the words of its data, what the peer makes of them, and the request in both poll forms. -/

namespace Sys2Proof.Machine

/-! ### The words of the data -/

/-- The words of a byte sequence, high byte first (R66). -/
def wordsOf : List Byte → List Word
  | hi :: lo :: rest => word16 hi lo :: wordsOf rest
  | _ => []

/-- The words stand one after another in DBUF. -/
def Memory.HoldsWords (m : Memory) : Nat → List Word → Prop
  | _, [] => True
  | off, v :: rest => m.getBytes off 2 = some [hiByte v, loByte v] ∧ m.HoldsWords (off + 2) rest

theorem exists_pair_of_length {data : List Byte} {n : Nat} (h : data.length = 2 * (n + 1)) :
    ∃ hi lo rest, data = hi :: lo :: rest ∧ rest.length = 2 * n := by
  match data, h with
  | hi :: lo :: rest, h => exact ⟨hi, lo, rest, rfl, Nat.add_right_cancel (m := 2) h⟩

theorem wordsOf_length {n : Nat} {data : List Byte} (h : data.length = 2 * n) : (wordsOf data).length = n := by
  induction n generalizing data with
  | zero => rw [List.eq_nil_of_length_eq_zero h]; rfl
  | succ n ih =>
    obtain ⟨hi, lo, rest, rfl, hrest⟩ := exists_pair_of_length h
    rw [wordsOf, List.length_cons, ih hrest]

theorem holdsWords_wordsOf {m : Memory} {off n : Nat} {data : List Byte} (h : m.getBytes off (2 * n) = some data) :
    m.HoldsWords off (wordsOf data) := by
  have hlen : data.length = 2 * n := Memory.run_length _ _ _ _ h
  induction n generalizing off data with
  | zero => rw [List.eq_nil_of_length_eq_zero hlen]; trivial
  | succ n ih =>
    obtain ⟨hi, lo, rest, rfl, hrest⟩ := exists_pair_of_length hlen
    have hfirst := Memory.getBytes_drop_take (i := 0) (len := 2) (by omega) h
    have hmore := Memory.getBytes_drop_take (i := 2) (len := 2 * n) (by omega) h
    rw [List.drop_succ_cons, List.drop_succ_cons, List.drop_zero, List.take_of_length_le hrest.le] at hmore
    refine ⟨?_, ih hmore hrest⟩
    rw [hiByte_word16, loByte_word16]
    exact hfirst

/-- What is sent for each of n words of a byte sequence, as it is sent for each word. -/
theorem flatMap_range_eq_flatMap_wordsOf (f : Byte → Byte → List Byte) {n : Nat} {data : List Byte} (h : data.length = 2 * n) :
    ((List.range n).flatMap fun i => f (data.getD (2 * i) 0) (data.getD (2 * i + 1) 0)) =
      (wordsOf data).flatMap fun v => f (hiByte v) (loByte v) := by
  induction n generalizing data with
  | zero => rw [List.eq_nil_of_length_eq_zero h]; rfl
  | succ n ih =>
    obtain ⟨hi, lo, rest, rfl, hrest⟩ := exists_pair_of_length h
    rw [wordsOf, List.flatMap_cons, hiByte_word16, loByte_word16, ← ih hrest, List.range_succ_eq_map, List.flatMap_cons, List.flatMap_map]
    rfl

/-! ### The program stream (R277) -/

/-- The TX bytes of one programmed word. -/
def programBytes (form : ReadyPollForm) (v : Word) : List Byte :=
  lenFrame 1 ++ wordWrFrame 0x00A0 ++ incWrFrame v ++ readyPollTx form

theorem streamBytes_programStream {m : Memory} {cfg : Params} {off : Nat} {v : Word}
    (h : m.getBytes off 2 = some [hiByte v, loByte v]) :
    streamBytes m (programStream cfg off) = some (programBytes cfg.readyPoll v) := by
  rw [programStream, streamBytes, streamBytes, h]
  simp [streamBytes, programBytes, bulkWrFrame, incWrFrame]

theorem streamBytes_append {m : Memory} {p q : List TxPart} {x y : List Byte} (hp : streamBytes m p = some x)
    (hq : streamBytes m q = some y) : streamBytes m (p ++ q) = some (x ++ y) := by
  induction p generalizing x with
  | nil => cases hp; exact hq
  | cons part rest ih =>
    cases part with
    | bytes b =>
      obtain ⟨more, hmore, rfl⟩ := Option.map_eq_some_iff.1 hp
      rw [List.cons_append, streamBytes, ih hmore, List.append_assoc]
      rfl
    | dbuf off n =>
      rw [streamBytes] at hp
      split at hp
      · next b more hb hmore =>
        cases hp
        rw [List.cons_append, streamBytes, hb, ih hmore, List.append_assoc]
      · cases hp

theorem runStream_cons (cfg : Params) (words off : Nat) :
    runStream cfg (words + 1) off = programStream cfg off ++ runStream cfg words (off + 2) := by
  rw [runStream, List.range_succ_eq_map, List.flatMap_cons, List.flatMap_map, runStream]
  simp only [Nat.succ_eq_add_one, Nat.mul_succ, Nat.mul_zero, Nat.add_zero, Nat.add_assoc, Nat.add_comm 2]

theorem streamBytes_runStream {m : Memory} {cfg : Params} {off : Nat} {words : List Word} (h : m.HoldsWords off words) :
    streamBytes m (runStream cfg words.length off) = some (words.flatMap (programBytes cfg.readyPoll)) := by
  induction words generalizing off with
  | nil => rfl
  | cons v rest ih =>
    obtain ⟨hfirst, hrest⟩ := h
    rw [List.length_cons, runStream_cons, List.flatMap_cons]
    exact streamBytes_append (streamBytes_programStream hfirst) (ih hrest)

/-! ### What the peer makes of it -/

/-- The cartridge after the program command, a data word and their poll (R277). -/
def Cart.programmed (cfg : Params) (w : WordAddr) (v : Word) (c : Cart) : Cart :=
  ((c.write cfg w.toNat (some 0x00) 0xA0).write cfg w.toNat (some (hiByte v)) (loByte v)).polled cfg

/-- The cartridge after a run of words, from a cursor on. -/
def Cart.programs (cfg : Params) : WordAddr → List Word → Cart → Cart
  | _, [], c => c
  | w, v :: rest, c => Cart.programs cfg (w + 1) rest (c.programmed cfg w v)

theorem peerFeed_programBytes (v : Word) {s : State} (hps : s.peer.ps = .op) : ∃ fs count reply, reply.length = 2 ∧
    peerFeed (programBytes .ryThenRdSingle v) s =
      s.polled (s.peer.devAddr + 1) 1 (s.cart.programmed s.cfg s.peer.devAddr v) fs count reply := by
  let written : State := { s with
    cart := (s.cart.write s.cfg s.peer.devAddr.toNat (some 0x00) 0xA0).write s.cfg s.peer.devAddr.toNat (some (hiByte v)) (loByte v)
    peer := { s.peer with devAddr := s.peer.devAddr + 1, devLen := 1, ps := .op } }
  have hwritten : peerFeed (lenFrame 1 ++ wordWrFrame 0x00A0 ++ incWrFrame v) s = written := by
    rw [peerFeed_append, peerFeed_append, peerFeed_lenFrame _ hps, peerFeed_wordWrFrame _ rfl, peerFeed_incWrFrame _ rfl rfl]
    rfl
  obtain ⟨fs, count, reply, hreply, hpoll⟩ := peerFeed_readyPoll (s := written) rfl
  refine ⟨fs, count, reply, hreply, ?_⟩
  rw [programBytes, peerFeed_append, hwritten, hpoll]
  rfl

/-- What a run of words leaves in the cartridge does not rest on the peer's replies. -/
theorem cart_peerFeed_programBytes (words : List Word) {s : State} (hps : s.peer.ps = .op) :
    (peerFeed (words.flatMap (programBytes .ryThenRdSingle)) s).cart = s.cart.programs s.cfg s.peer.devAddr words := by
  induction words generalizing s with
  | nil => rfl
  | cons v rest ih =>
    obtain ⟨fs, count, reply, -, hfeed⟩ := peerFeed_programBytes v hps
    rw [List.flatMap_cons, peerFeed_append, hfeed, ih rfl]
    rfl

end Sys2Proof.Machine
end

section
/-! SUPPORT. MD_FLASH_WRITE word by word with either adapter, and in one run of TX bytes. -/

namespace Sys2Proof.Machine

theorem programWords_succ (cfg : Params) (words off : Nat) : programWords cfg (words + 1) off = (do
    txWriteParts .md (programStream cfg off)
    let _ ← rxFill .latch (readyPollReplies cfg.readyPoll)
    upd (advanceCursor 1)
    programWords cfg words (off + 2)) := rfl

/-- Words have been sent, each with its poll, and the replies have been read. -/
def State.wordsSent (words : List Word) (rxs : List RxDraw) (s : State) : State :=
  { s with
    curW := if s.cursorValid then s.curW + BitVec.ofNat 24 words.length else s.curW
    env := { s.env with tx := s.env.tx.drop words.length, rx := rxs }
    txLog := s.txLog ++ words.flatMap (programBytes .ryThenRdSingle) }

/-- The peer has taken them, the free words left being `fs`. -/
def State.wordsTaken (words : List Word) (fs : List Word) (count : Nat) (s : State) : State :=
  { s with
    cart := s.cart.programs s.cfg s.peer.devAddr words
    env := { s.env with free := fs, count := count }
    peer := { s.peer with
      devAddr := s.peer.devAddr + BitVec.ofNat 24 words.length
      devLen := if words = [] then s.peer.devLen else 1 } }

theorem State.sent_gb {s : State} (h : s.adapter = .gb) (bytes : List Byte) (rest : List TxDraw) :
    s.sent bytes rest = s.heard bytes rest := by
  simp only [State.sent, h]
  rw [State.heard, h]

theorem State.wordsSent_cons (v : Word) (words : List Word) (rxs' rxs : List RxDraw) (s : State) :
    s.wordsSent (v :: words) rxs = (s.wordsSent [v] rxs').wordsSent words rxs := by
  simp only [State.wordsSent, List.length_cons, List.length_nil, Nat.zero_add, cursor_add, Nat.add_comm words.length, List.drop_drop,
    List.flatMap_cons, List.flatMap_nil, List.append_nil, List.append_assoc]

theorem State.wordsTaken_cons (v : Word) (words : List Word) (fs' fs : List Word) (count' count : Nat) (s : State) :
    s.wordsTaken (v :: words) fs count = (s.wordsTaken [v] fs' count').wordsTaken words fs count := by
  have hmoved : s.peer.devAddr + BitVec.ofNat 24 (words.length + 1) =
      s.peer.devAddr + BitVec.ofNat 24 1 + BitVec.ofNat 24 words.length := by
    rw [Nat.add_comm, BitVec.ofNat_add, BitVec.add_assoc]
  simp only [State.wordsTaken, List.length_cons, List.length_nil, Nat.zero_add, hmoved, reduceCtorEq, if_false, ite_self]
  rfl

section Words

variable {words : List Word} {replies : List (List Byte)} {off : Nat} {rxs : List RxDraw} {s : State}

/-- A word sent and its poll answered by a GB adapter (R378). -/
theorem programWord_gb {v : Word} {reply : List Byte} {k : Nat} {txs : List TxDraw} (hv : s.env.visits = []) (hz : s.hazard = [])
    (hgb : s.adapter = .gb) (hpoll : s.cfg.readyPoll = .ryThenRdSingle) (ht : s.env.tx = .accepted k :: txs) (hk : 12 ≤ k)
    (hr : s.env.rx = .got reply :: rxs) (hreply : reply.length = 2) (hword : s.dbuf.getBytes off 2 = some [hiByte v, loByte v])
    (rest : Nat) : programWords s.cfg (rest + 1) off s = programWords s.cfg rest (off + 2) (s.wordsSent [v] rxs) := by
  have hstream := streamBytes_programStream (cfg := s.cfg) hword
  rw [hpoll] at hstream
  have hwrite : txWriteParts .md (programStream s.cfg off) s = .ok () (s.sent (programBytes .ryThenRdSingle v) txs) :=
    txWriteParts_sent (programStream_ne_nil _ _) hv hz ht hstream hk
  have hread : rxFill .latch 2 (s.sent (programBytes .ryThenRdSingle v) txs) =
      .ok reply ((s.sent (programBytes .ryThenRdSingle v) txs).received rxs) := by
    obtain ⟨b0, b1, rfl⟩ := List.length_eq_two.1 hreply
    exact rxFill_latch_gb hv hgb hr
  rw [programWords_succ, hpoll, act_bind_ok hwrite]
  refine (act_bind_ok hread).trans ((act_bind_ok (upd_run _ _)).trans (congrArg _ ?_))
  simp [advanceCursor_eq, State.wordsSent, State.sent, State.received, hgb, ht]

theorem programWords_gb (hv : s.env.visits = []) (hz : s.hazard = []) (hgb : s.adapter = .gb)
    (hpoll : s.cfg.readyPoll = .ryThenRdSingle) (ht : Accepts words.length 12 s.env.tx) (hcount : replies.length = words.length)
    (hreplies : ∀ r ∈ replies, r.length = 2) (hr : s.env.rx = replies.map .got ++ rxs) (hwords : s.dbuf.HoldsWords off words) :
    programWords s.cfg words.length off s = .ok () (s.wordsSent words rxs) := by
  induction words generalizing replies off s with
  | nil =>
    obtain rfl := List.eq_nil_of_length_eq_zero hcount
    have hnone : s.wordsSent [] rxs = s := by
      rw [List.map_nil, List.nil_append] at hr
      simp [State.wordsSent, ← hr]
    rw [hnone]
    rfl
  | cons v words ih =>
    obtain ⟨reply, replies, rfl⟩ := List.exists_cons_of_length_eq_add_one hcount
    obtain ⟨hreply, hreplies⟩ := List.forall_mem_cons.1 hreplies
    obtain ⟨k, txs, htx, hk, hacc⟩ := ht.cons
    obtain ⟨hword, hwords⟩ := hwords
    rw [List.length_cons, programWord_gb hv hz hgb hpoll htx hk hr hreply hword, State.wordsSent_cons v words (replies.map .got ++ rxs)]
    exact ih (s := s.wordsSent [v] (replies.map .got ++ rxs)) hv hz hgb hpoll (by simpa [State.wordsSent, htx] using hacc)
      (Nat.succ.inj hcount) hreplies rfl hwords

/-- A word sent and its poll answered by the peer, which has taken the word (R271, R290). -/
theorem programWord_inStep {v : Word} {offered : List Byte} {k : Nat} {txs : List TxDraw} (hv : s.env.visits = []) (hz : s.hazard = [])
    (h : s.InStep) (hpoll : s.cfg.readyPoll = .ryThenRdSingle) (ht : s.env.tx = .accepted k :: txs) (hk : 12 ≤ k)
    (hr : s.env.rx = .got offered :: rxs) (ho : 2 ≤ offered.length) (hword : s.dbuf.getBytes off 2 = some [hiByte v, loByte v])
    (rest : Nat) : ∃ fs count, programWords s.cfg (rest + 1) off s =
      programWords s.cfg rest (off + 2) ((s.wordsSent [v] rxs).wordsTaken [v] fs count) := by
  have hstream := streamBytes_programStream (cfg := s.cfg) hword
  rw [hpoll] at hstream
  have hwrite : txWriteParts .md (programStream s.cfg off) s = .ok () (s.sent (programBytes .ryThenRdSingle v) txs) :=
    txWriteParts_sent (programStream_ne_nil _ _) hv hz ht hstream hk
  obtain ⟨-, -, -, hps, -, -⟩ := id h
  obtain ⟨fs, count, reply, hreply, hfeed⟩ := peerFeed_programBytes v (s := s.heard (programBytes .ryThenRdSingle v) txs) hps
  have hread := rxFill_polled hv h hfeed hreply hr ho
  refine ⟨fs, count, ?_⟩
  rw [programWords_succ, hpoll, act_bind_ok hwrite]
  refine (act_bind_ok hread).trans ((act_bind_ok (upd_run _ _)).trans (congrArg _ ?_))
  simp [advanceCursor_eq, State.wordsSent, State.wordsTaken, State.executed, State.heard, Cart.programs, ht]

theorem programWords_inStep (hv : s.env.visits = []) (hz : s.hazard = []) (h : s.InStep)
    (hpoll : s.cfg.readyPoll = .ryThenRdSingle) (ht : Accepts words.length 12 s.env.tx) (hcount : replies.length = words.length)
    (hreplies : ∀ r ∈ replies, 2 ≤ r.length) (hr : s.env.rx = replies.map .got ++ rxs) (hwords : s.dbuf.HoldsWords off words) :
    ∃ fs count, programWords s.cfg words.length off s = .ok () ((s.wordsSent words rxs).wordsTaken words fs count) := by
  induction words generalizing replies off s with
  | nil =>
    obtain rfl := List.eq_nil_of_length_eq_zero hcount
    have hnone : (s.wordsSent [] rxs).wordsTaken [] s.env.free s.env.count = s := by
      rw [List.map_nil, List.nil_append] at hr
      simp [State.wordsSent, State.wordsTaken, Cart.programs, ← hr]
    exact ⟨s.env.free, s.env.count, congrArg (EStateM.Result.ok ()) hnone.symm⟩
  | cons v words ih =>
    obtain ⟨offered, replies, rfl⟩ := List.exists_cons_of_length_eq_add_one hcount
    obtain ⟨ho, hreplies⟩ := List.forall_mem_cons.1 hreplies
    obtain ⟨k, txs, htx, hk, hacc⟩ := ht.cons
    obtain ⟨hword, hwords⟩ := hwords
    obtain ⟨fs', count', hone⟩ := programWord_inStep hv hz h hpoll htx hk hr ho hword words.length
    obtain ⟨fs, count, hmore⟩ := ih (s := (s.wordsSent [v] (replies.map .got ++ rxs)).wordsTaken [v] fs' count') hv hz h hpoll
      (by simpa [State.wordsSent, State.wordsTaken, htx] using hacc) (Nat.succ.inj hcount) hreplies rfl hwords
    refine ⟨fs, count, hone.trans (hmore.trans ?_)⟩
    rw [State.wordsSent_cons v words (replies.map .got ++ rxs), State.wordsTaken_cons v words fs' fs count' count]
    rfl

/-- All words in one TxWrite, none where there is no word (R221, R271). -/
theorem programRun_sent (hv : s.env.visits = []) (hz : s.hazard = []) (hpoll : s.cfg.readyPoll = .ryOnly)
    (ht : words ≠ [] → Accepts 1 (11 * words.length) s.env.tx) (hwords : s.dbuf.HoldsWords off words) :
    programRun s.cfg words.length off s = .ok () (advanceCursor words.length
      (s.sent (words.flatMap (programBytes .ryOnly)) (s.env.tx.drop (if words = [] then 0 else 1)))) := by
  have hstream := streamBytes_runStream (cfg := s.cfg) hwords
  have hlen := streamBytes_length hstream
  rw [txLength_runStream hpoll] at hlen
  rw [hpoll] at hstream hlen
  have hwrite : txWriteParts .md (runStream s.cfg words.length off) s =
      .ok () (s.sent (words.flatMap (programBytes .ryOnly)) (s.env.tx.drop (if words = [] then 0 else 1))) := by
    split
    · next hnil =>
      subst hnil
      exact congrArg (EStateM.Result.ok ()) (sent_nothing s).symm
    · next hne =>
      obtain ⟨k, rest, htx, hk, -⟩ := (ht hne).cons
      rw [htx]
      exact txWriteParts_sent (runStream_ne_nil hpoll (List.length_pos_iff.2 hne)) hv hz htx hstream (hlen.le.trans hk)
  rw [programRun_eq, act_bind_ok hwrite]
  rfl

end Words

/-! ### The request -/

theorem programIo_words {s : State} (h : s.cfg.readyPoll = .ryThenRdSingle) (words off : Nat) :
    programIo words off s = programWords s.cfg words off s := by
  rw [programIo, act_bind_ok (look_run _ _), h]

theorem programIo_run {s : State} (h : s.cfg.readyPoll = .ryOnly) (words off : Nat) :
    programIo words off s = programRun s.cfg words off s := by
  rw [programIo, act_bind_ok (look_run _ _), h]

/-- A write whose checks pass is its I/O (R277). -/
theorem mdFlashWrite_completes {s t : State} {boff len : Reg32} (hb : s.busy = false) (heven : len.toNat % 2 = 0)
    (hin : boff.toNat + len.toNat ≤ s.cfg.dbufSize) (hio : programIo (len.toNat / 2) boff.toNat s.accept = .ok () t) :
    exec (.mdFlashWrite boff len) s = .next (t.complete len) := by
  have hbody : mdFlashWriteBody boff len s.accept = .ok len t := by
    rw [mdFlashWriteBody, act_bind_ok (checkBulk_ok heven (s := s.accept) hin), act_bind_ok (look_run _ _)]
    exact act_bind_ok (onRaise_ok hio)
  exact request_completes hb hbody

/-- Settles O46: word by word where a poll reply comes after each, in one run where none does. -/
theorem flashWriteCompletes : Obligations.FlashWriteCompletes := by
  intro s boff len data ⟨hb, hv⟩ heven hin hdata moved stream
  have heven2 : len.toNat = 2 * (len.toNat / 2) := (Nat.mul_div_cancel' (Nat.dvd_of_mod_eq_zero heven)).symm
  have hdlen : data.length = 2 * (len.toNat / 2) := (Memory.run_length _ _ _ _ hdata).trans heven2
  have hwords : s.dbuf.HoldsWords boff.toNat (wordsOf data) := holdsWords_wordsOf (heven2 ▸ hdata)
  have hcount : (wordsOf data).length = len.toNat / 2 := wordsOf_length hdlen
  have hnil : wordsOf data = [] ↔ len = 0 := by
    rw [← List.length_eq_zero_iff, hcount, ← BitVec.toNat_inj]
    change len.toNat / 2 = 0 ↔ len.toNat = 0
    omega
  have hstream (form : ReadyPollForm) : stream (readyPollTx form) = (wordsOf data).flatMap (programBytes form) :=
    flatMap_range_eq_flatMap_wordsOf
      (fun hi lo => [0x01, 0x00, 0x01, 0x01, 0x43, 0x00, 0xA0, 0x83, hi, lo] ++ readyPollTx form) hdlen
  have hcomplete {t : State} (hio : programIo (wordsOf data).length boff.toNat s.accept = .ok () t) :
      exec (.mdFlashWrite boff len) s = .next (t.complete len) := mdFlashWrite_completes hb heven hin (hcount ▸ hio)
  have hpolled : stream [0x04, 0x42] = _ := hstream .ryThenRdSingle
  have hready : stream [0x04] = _ := hstream .ryOnly
  have hmoved : moved = if s.cursorValid then s.curW + BitVec.ofNat 24 (wordsOf data).length else s.curW := by rw [hcount]
  rw [← hcount, hmoved, hpolled, hready]
  refine ⟨fun replies rxs hgb hpoll ht hn hreplies hr => ?_, fun replies rxs h hpoll ht hn hreplies hr => ?_, fun hpoll ht => ?_⟩
  · have hio := programWords_gb (s := s.accept) hv rfl hgb hpoll ht hn hreplies hr hwords
    rw [hcomplete ((programIo_words (s := s.accept) hpoll _ _).trans hio)]
    rw [State.sent_gb (s := s.received rxs) hgb]
    rfl
  · obtain ⟨fs, count, hio⟩ := programWords_inStep (s := s.accept) hv rfl h hpoll ht hn hreplies hr hwords
    refine ⟨fs, count, (hcomplete ((programIo_words (s := s.accept) hpoll _ _).trans hio)).trans ?_⟩
    obtain ⟨-, -, -, hps, -, -⟩ := id h
    rw [cart_peerFeed_programBytes _ hps]
    simp only [← hnil]
    rfl
  · have hio := programRun_sent (s := s.accept) hv rfl hpoll (fun hne => ht fun h0 => hne (hnil.2 h0)) hwords
    rw [advanceCursor_eq] at hio
    rw [hcomplete ((programIo_run (s := s.accept) hpoll _ _).trans hio)]
    simp only [← hnil]
    rfl

end Sys2Proof.Machine
end

section
/-! SUPPORT. What the flash chip of the reference cartridge makes of the command streams (R272 to R274, R276 to R278): the erase, the
program command in and outside bypass mode, the reset sequence. -/

namespace Sys2Proof.Machine

/-! ### Sectors filled one after another -/

/-- The entries below `e` already make every offset from `a` up to it read as b. A fill at `e` keeps these entries, in any store. -/
def Memory.FilledTo (m : Memory) (b : Byte) (a e : Nat) : Prop :=
  ∀ x, a ≤ x → x < e → Memory.get (m.takeWhile fun c => c.1 < e) x = some b

theorem Memory.filledTo_start (m : Memory) (b : Byte) (a : Nat) : m.FilledTo b a a := fun _ hx hlt =>
  absurd hlt (Nat.not_lt.2 hx)

theorem Memory.FilledTo.get {m : Memory} {b : Byte} {a e x : Nat} (h : m.FilledTo b a e) (hx : a ≤ x) (hlt : x < e) :
    m.get x = some b := by
  rw [← List.takeWhile_append_dropWhile (p := fun c : Host.Cell => decide (c.1 < e)) (l := m), Memory.get_append, h x hx hlt]
  rfl

/-- Where the filter picks every offset, a fill begins with the filled entries. -/
theorem Memory.fillFrom_of_all {p : Nat → Bool} (b : Byte) {n a : Nat} (hp : ∀ x, a ≤ x → x < a + n → p x = true) (m : Memory) :
    ∃ rest, Memory.fillFrom p b n a m = Memory.cells a (List.replicate n b) ++ rest := by
  induction n generalizing a m with
  | zero => exact ⟨m, rfl⟩
  | succ n ih =>
    have hfirst : p a = true := hp a (Nat.le_refl a) (by omega)
    have hrest (m : Memory) := ih (a := a + 1) (fun x hx hlt => hp x (by omega) (by omega)) m
    cases m with
    | nil =>
      obtain ⟨rest, h⟩ := hrest []
      exact ⟨rest, by rw [Memory.fillFrom, if_pos hfirst, h]; rfl⟩
    | cons c m =>
      obtain ⟨k, v⟩ := c
      rw [Memory.fillFrom, if_pos hfirst, if_pos hfirst]
      split
      · obtain ⟨rest, h⟩ := hrest m
        exact ⟨rest, by rw [h]; rfl⟩
      · obtain ⟨rest, h⟩ := hrest ((k, v) :: m)
        exact ⟨rest, by rw [h]; rfl⟩

theorem Memory.FilledTo.fill {m : Memory} {b : Byte} {a e : Nat} (h : m.FilledTo b a e) {p : Nat → Bool} {n : Nat}
    (hp : ∀ x, e ≤ x → x < e + n → p x = true) : (m.fill p b e n).FilledTo b a (e + n) := by
  obtain ⟨rest, hfill⟩ := Memory.fillFrom_of_all b hp (m.dropWhile fun c => c.1 < e)
  have hbefore : ∀ c ∈ m.takeWhile (fun c => c.1 < e), decide (c.1 < e + n) = true := fun c hc =>
    decide_eq_true (Nat.lt_add_right n (of_decide_eq_true (List.mem_takeWhile_imp (p := fun c : Host.Cell => decide (c.1 < e)) hc)))
  have hfilled : ∀ c ∈ Memory.cells e (List.replicate n b), decide (c.1 < e + n) = true := fun c hc =>
    decide_eq_true (by simpa using (Memory.mem_cells _ _ c hc).2)
  intro x hx hlt
  rw [Memory.fill, hfill, List.takeWhile_append_of_pos hbefore, List.takeWhile_append_of_pos hfilled, Memory.get_append]
  by_cases hxe : x < e
  · rw [h x hx hxe]
    rfl
  · have hin : x - e < n := by omega
    rw [Memory.get_takeWhile_lt m e x (Nat.not_lt.1 hxe), Memory.get_append, Memory.get_cells, if_pos (Nat.not_lt.1 hxe),
      List.getElem?_replicate, if_pos hin]
    rfl

/-! ### Writes that reach the chip -/

section Chip

variable {cfg : Params} {c : Cart} {w : Nat}

theorem Cart.isFlash_of_region (h : regionAt c.map w = some .flash) : c.isFlash w = true := by simp [Cart.isFlash, h]

/-- With RAM banked out, the chip sees what is written to its words (R77). -/
theorem Cart.write_flash (hmode : c.ramMode = .unbanked) (hw : w ≠ mapperWord.toNat) (hflash : c.isFlash w = true) (hi : Option Byte)
    (lo : Byte) : c.write cfg w hi lo = c.flashWrite cfg w hi lo := by
  obtain ⟨hram, hrom⟩ : regionAt c.map w ≠ some .ram ∧ regionAt c.map w ≠ some .rom := by simpa [Cart.isFlash] using hflash
  rw [Cart.write, if_neg hw, hmode]
  split <;> simp_all

theorem Cart.command_flash {a : Nat} (v : Word) (hmode : c.ramMode = .unbanked) (hw : (halved a).toNat ≠ mapperWord.toNat)
    (hflash : c.isFlash (halved a).toNat = true) :
    c.command cfg (a, v) = c.flashWrite cfg (halved a).toNat (some (hiByte v)) (loByte v) :=
  Cart.write_flash hmode hw hflash _ _

theorem Cart.polled_of_no_effects (h : cfg.readSideEffects = .none) : c.polled cfg = c.ready := by
  rw [Cart.polled, Cart.afterRead, h]

/-- Outside the erase sequence, RY ends the busy time only (R303). -/
theorem Cart.ready_of_ne (h : c.flash ≠ .eraseReady) : c.ready = { c with flashBusy := false } := by
  rw [Cart.ready, if_neg (fun ⟨herase, _⟩ => h herase)]

/-- A flash word is read while RAM is banked out and the chip is ready in read mode (R280, R372). -/
theorem Cart.known_flash (hregion : regionAt c.map w = some .flash) (hmode : c.ramMode = .unbanked) (hread : c.flash = .read)
    (hready : c.flashBusy = false) : c.known w = (c.cells.get (2 * w), c.cells.get (2 * w + 1)) := by
  rw [Cart.known, hregion, hmode]
  exact if_pos ⟨hread, hready⟩

/-- What is known of a word rests on the modes and on its own two bytes. -/
theorem Cart.known_congr {d : Cart} (hmap : d.map = c.map) (hmode : d.ramMode = c.ramMode) (hflash : d.flash = c.flash)
    (hbusy : d.flashBusy = c.flashBusy) (hhigh : d.cells.get (2 * w) = c.cells.get (2 * w))
    (hlow : d.cells.get (2 * w + 1) = c.cells.get (2 * w + 1)) : d.known w = c.known w := by
  simp only [Cart.known, hmap, hmode, hflash, hbusy, hhigh, hlow]

/-! ### The erase (R272 to R274) -/

/-- The five unlock writes take a chip in read mode to where it takes a sector erase, and do nothing else (R272). -/
theorem Cart.commands_unlock5 (hmode : c.ramMode = .unbanked) (hread : c.flash = .read) (h555 : c.isFlash 0x555 = true)
    (h2AA : c.isFlash 0x2AA = true) : c.commands cfg unlock5 = { c with flash := .eraseReady } := by
  have first {d : Cart} (hd : d = { c with flash := d.flash }) (v : Word) :
      d.command cfg (0xAAA, v) = d.flashWrite cfg 0x555 (some (hiByte v)) (loByte v) := by
    rw [hd]
    exact Cart.command_flash v hmode (by decide) h555
  have second {d : Cart} (hd : d = { c with flash := d.flash }) (v : Word) :
      d.command cfg (0x554, v) = d.flashWrite cfg 0x2AA (some (hiByte v)) (loByte v) := by
    rw [hd]
    exact Cart.command_flash v hmode (by decide) h2AA
  have h1 : c.command cfg (0xAAA, 0x00AA) = { c with flash := .unlock1 } := by
    rw [first rfl, Cart.flashWrite, hread]
    rfl
  have h2 : Cart.command cfg { c with flash := .unlock1 } (0x554, 0x0055) = { c with flash := .unlock2 } := second rfl _
  have h3 : Cart.command cfg { c with flash := .unlock2 } (0xAAA, 0x0080) = { c with flash := .erase1 } := first rfl _
  have h4 : Cart.command cfg { c with flash := .erase1 } (0xAAA, 0x00AA) = { c with flash := .erase2 } := first rfl _
  have h5 : Cart.command cfg { c with flash := .erase2 } (0x554, 0x0055) = { c with flash := .eraseReady } := second rfl _
  simp only [Cart.commands, unlock5, List.foldl_cons, List.foldl_nil, h1, h2, h3, h4, h5]

/-- Sectors of a block have been erased up to byte address `e`, and the chip takes the next sector. -/
structure Cart.ErasedTo (c₀ : Cart) (a e : Nat) (c : Cart) : Prop where
  map : c.map = c₀.map
  mode : c.ramMode = .unbanked
  chip : c.flash = .eraseReady
  busy : a < e → c.flashBusy = true
  cells : c.cells.FilledTo 0xFF a e

/-- Sector addresses are even and are none of the mapper's. -/
theorem halved_sector {e : Nat} (he : e % 8192 = 0) (hlt : e < 2 ^ 25) :
    2 * (halved e).toNat = e ∧ (halved e).toNat ≠ mapperWord.toNat := by
  have hmapper : mapperWord.toNat = 0x509800 := rfl
  rw [halved, BitVec.toNat_ofNat, Nat.mod_eq_of_lt (by omega), hmapper]
  omega

/-- A sector write erases the next sector (R273). -/
theorem Cart.ErasedTo.command {c₀ : Cart} {a e : Nat} (h : c₀.ErasedTo a e c) (hstep : cfg.eraseStep = 0x2000)
    (he : e % 8192 = 0) (hlt : e < 2 ^ 25) (hblock : ∀ x, e ≤ x → x < e + 0x2000 → regionAt c₀.map (x / 2) = some .flash) :
    c₀.ErasedTo a (e + 0x2000) (c.command cfg (e, 0x0030)) := by
  obtain ⟨hword, hmapper⟩ := halved_sector he hlt
  have hsize : sectorBytes cfg e = 0x2000 := by
    rw [sectorBytes, hstep, addressLimit]
    omega
  have hflash (x : Nat) (hx : e ≤ x) (hxlt : x < e + 0x2000) : c.isFlash (x / 2) = true :=
    Cart.isFlash_of_region (h.map ▸ hblock x hx hxlt)
  have hfirst : c.isFlash (halved e).toNat = true := by
    have hat := hflash e (Nat.le_refl e) (by omega)
    rwa [show e / 2 = (halved e).toNat by omega] at hat
  have hcommand : c.command cfg (e, 0x0030) = c.eraseSector cfg (halved e).toNat := by
    rw [Cart.command_flash _ h.mode hmapper hfirst, Cart.flashWrite, h.chip]
    rfl
  rw [hcommand]
  refine ⟨h.map, h.mode, h.chip, fun _ => rfl, ?_⟩
  rw [Cart.eraseSector, hword, hsize]
  exact h.cells.fill hflash

theorem Cart.ErasedTo.sectors {c₀ : Cart} {a : Nat} (h : c₀.ErasedTo a a c) (hstep : cfg.eraseStep = 0x2000) (ha : a % 65536 = 0)
    (hlt : a < 2 ^ 25) (hblock : ∀ x, a ≤ x → x < a + 65536 → regionAt c₀.map (x / 2) = some .flash) {n : Nat} (hn : n ≤ 8) :
    c₀.ErasedTo a (a + n * 0x2000) (c.commands cfg ((List.range n).map fun i => (a + i * 0x2000, 0x0030))) := by
  induction n with
  | zero => exact h
  | succ n ih =>
    rw [List.range_succ, List.map_append, Cart.commands, List.foldl_append, Nat.succ_mul, ← Nat.add_assoc]
    exact (ih (by omega)).command hstep (by omega) (by omega) fun x hx hxlt => hblock x (by omega) (by omega)

/-- The whole erase leaves the chip ready in read mode, the block erased (R274, R280). -/
theorem Cart.commands_eraseCommands {a : Nat} (hstep : cfg.eraseStep = 0x2000) (hmode : c.ramMode = .unbanked) (hread : c.flash = .read)
    (ha : a % 65536 = 0) (hlt : a < 2 ^ 25) (hblock : ∀ x, a ≤ x → x < a + 65536 → regionAt c.map (x / 2) = some .flash)
    (h555 : c.isFlash 0x555 = true) (h2AA : c.isFlash 0x2AA = true) :
    c.ErasedTo a (a + 65536) (c.commands cfg (eraseCommands cfg a)) := by
  have hunlocked : c.ErasedTo a a (c.commands cfg unlock5) := by
    rw [Cart.commands_unlock5 hmode hread h555 h2AA]
    exact ⟨rfl, hmode, rfl, fun h => absurd h (Nat.lt_irrefl a), Memory.filledTo_start _ _ _⟩
  rw [eraseCommands, Cart.commands, List.foldl_append, sectorErases, hstep]
  exact hunlocked.sectors hstep ha hlt hblock (Nat.le_refl 8)

theorem Cart.ErasedTo.known_polled {c₀ : Cart} {a e : Nat} (h : c₀.ErasedTo a e c) (hreads : cfg.readSideEffects = .none)
    (hregion : regionAt c₀.map w = some .flash) (hw : a ≤ 2 * w) (hwlt : 2 * w + 1 < e) :
    (c.polled cfg).known w = (some 0xFF, some 0xFF) := by
  have hready : c.polled cfg = { c with flash := .read, flashBusy := false } := by
    rw [Cart.polled_of_no_effects hreads, Cart.ready, if_pos ⟨h.chip, h.busy (by omega)⟩]
  have hknown : Cart.known { c with flash := .read, flashBusy := false } w = _ := Cart.known_flash (h.map ▸ hregion) h.mode rfl rfl
  rw [hready, hknown]
  exact Prod.ext (h.cells.get hw (by omega)) (h.cells.get (by omega) hwlt)

/-! ### The program command (R277, R278) -/

section Program

variable {w : WordAddr} (hmode : c.ramMode = .unbanked) (hw : w ≠ mapperWord) (hregion : regionAt c.map w.toNat = some .flash)
  (hreads : cfg.readSideEffects = .none)
include hmode hw hregion hreads

/-- In bypass mode the program command programs its word, and the chip stays in bypass mode (R277). -/
theorem Cart.programmed_bypass (hchip : c.flash = .bypass) (v : Word) : c.programmed cfg w v =
    { c.program w.toNat (some (hiByte v)) (loByte v) with flash := .bypass, flashBusy := false } := by
  have hmapper : w.toNat ≠ mapperWord.toNat := fun h => hw (BitVec.eq_of_toNat_eq h)
  have hflash := Cart.isFlash_of_region hregion
  have hcommand : c.write cfg w.toNat (some 0x00) 0xA0 = { c with flash := .bypassProgram } := by
    rw [Cart.write_flash hmode hmapper hflash, Cart.flashWrite, hchip]
    rfl
  have hdata : Cart.write cfg { c with flash := .bypassProgram } w.toNat (some (hiByte v)) (loByte v) =
      { c.program w.toNat (some (hiByte v)) (loByte v) with flash := .bypass } := by
    rw [Cart.write_flash (c := { c with flash := .bypassProgram }) hmode hmapper hflash, Cart.flashWrite]
    unfold Cart.program
    dsimp only
    split <;> rfl
  rw [Cart.programmed, hcommand, hdata, Cart.polled_of_no_effects hreads,
    Cart.ready_of_ne (show FlashState.bypass ≠ .eraseReady by decide)]

/-- From read mode the program command and its data word open their word, and the chip is in read mode after them (R278, I7). -/
theorem Cart.programmed_read (hchip : c.flash = .read) (v : Word) :
    c.programmed cfg w v = { (c.forgetWord w.toNat).forgetWord w.toNat with flash := .read, flashBusy := false } := by
  have hmapper : w.toNat ≠ mapperWord.toNat := fun h => hw (BitVec.eq_of_toNat_eq h)
  have hflash := Cart.isFlash_of_region hregion
  have hcommand : c.write cfg w.toNat (some 0x00) 0xA0 = c.strayProgram w.toNat .readProgram := by
    rw [Cart.write_flash hmode hmapper hflash, Cart.flashWrite, hchip]
    dsimp only
    rw [if_neg (fun h => absurd h.2 (by decide))]
    rfl
  have hdata : (c.strayProgram w.toNat .readProgram).write cfg w.toNat (some (hiByte v)) (loByte v) =
      (c.strayProgram w.toNat .readProgram).strayProgram w.toNat .read :=
    Cart.write_flash (c := c.strayProgram w.toNat .readProgram) hmode hmapper hflash _ _
  rw [Cart.programmed, hcommand, hdata, Cart.polled_of_no_effects hreads,
    Cart.ready_of_ne (show FlashState.read ≠ .eraseReady by decide)]
  rfl

end Program

/-! ### The reset sequence (R276) -/

/-- The two writes of the reset sequence bring the chip from bypass mode into read mode and do nothing else. -/
theorem Cart.commands_reset (hmode : c.ramMode = .unbanked) (hchip : c.flash = .bypass) (hflash : c.isFlash 0 = true) :
    c.commands cfg [(0x000, 0x0090), (0x000, 0x0000)] = { c with flash := .read } := by
  have hleaving : c.command cfg (0x000, 0x0090) = { c with flash := .leaving } := by
    rw [Cart.command_flash (a := 0x000) _ hmode (by decide) hflash, Cart.flashWrite, hchip]
    rfl
  have hread : Cart.command cfg { c with flash := .leaving } (0x000, 0x0000) = { c with flash := .read } :=
    Cart.command_flash (c := { c with flash := .leaving }) (a := 0x000) _ hmode (by decide) hflash
  rw [Cart.commands, List.foldl_cons, hleaving, List.foldl_cons, hread, List.foldl_nil]

end Chip

end Sys2Proof.Machine
end

section
/-! SUPPORT. What is read of the flash after its command streams. -/

namespace Sys2Proof.Machine

@[simp] theorem Cart.program_ramMode (c : Cart) (w : Nat) (hi : Option Byte) (lo : Byte) : (c.program w hi lo).ramMode = c.ramMode := by
  unfold Cart.program
  dsimp only
  split <;> rfl

/-- What the peer and the cartridge are after the program stream. -/
theorem programBytes_at_peer (v : Word) {s t : State} (hps : s.peer.ps = .op) (hpoll : s.cfg.readyPoll = .ryThenRdSingle)
    (ht : peerFeed (lenFrame 1 ++ wordWrFrame 0x00A0 ++ incWrFrame v ++ readyPollTx s.cfg.readyPoll) s = t) :
    t.cart = s.cart.programmed s.cfg s.peer.devAddr v ∧ t.peer.ps = .op ∧ t.peer.devAddr = s.peer.devAddr + 1 := by
  obtain ⟨fs, count, reply, -, hfeed⟩ := peerFeed_programBytes v hps
  rw [← hpoll, programBytes, ht] at hfeed
  rw [hfeed]
  exact ⟨rfl, rfl, rfl⟩

/-- The two bytes of a word are no other word's. -/
theorem Cart.get_forgetWord_twice (c : Cart) (w x : Nat) :
    ((c.forgetWord w).forgetWord w).cells.get x = if 2 * w ≤ x ∧ x < 2 * w + 2 then none else c.cells.get x := by
  rw [Cart.get_forgetWord, Cart.get_forgetWord]
  split <;> rfl

/-- Settles O47: each stream is what it makes of the chip, read back. -/
theorem flashReadsBack : Obligations.FlashReadsBack := by
  refine ⟨?erase, ?bypass, ?outside, ?reset⟩
  case erase =>
    intro s a hps hreads hpoll hstep hmode hread ha hlt hblock hunlock w hw hwlt
    obtain ⟨fs, count, reply, -, hfeed⟩ := peerFeed_eraseStream a rfl hps hpoll
    have hchip {x : Nat} (hx : x ∈ [0x555, 0x2AA]) : s.cart.isFlash x = true := by
      obtain ⟨hram, hrom⟩ := hunlock x hx
      simp [Cart.isFlash, hram, hrom]
    have herased := Cart.commands_eraseCommands (c := s.cart) hstep hmode hread ha hlt
      (fun x hx hxlt => hblock (x / 2) (by omega) (by omega)) (hchip (by simp)) (hchip (by simp))
    rw [hfeed]
    exact herased.known_polled hreads (hblock w hw hwlt) (by omega) (by omega)
  case bypass =>
    intro s v hps hreads hpoll hmode hchip hw hregion hhigh hlow t
    obtain ⟨hcart, htps, htaddr⟩ := programBytes_at_peer v hps hpoll (t := t) rfl
    rw [Cart.programmed_bypass hmode hw hregion hreads hchip] at hcart
    have hget (x : Nat) := Cart.get_program s.cart s.peer.devAddr.toNat x (some (hiByte v)) (loByte v) hhigh hlow
    rw [hcart]
    refine ⟨?_, ?_, fun b hb hb' => ?_, rfl, (Cart.program_ramMode _ _ _ _).trans hmode, htps, htaddr⟩
    · rw [hget, if_neg (by omega), if_pos rfl]
      rfl
    · rw [hget, if_pos rfl]
      rfl
    · rw [hget, if_neg hb', if_neg hb]
  case outside =>
    intro s v hps hreads hpoll hmode hchip hbusy hw hregion t
    obtain ⟨hcart, htps, htaddr⟩ := programBytes_at_peer v hps hpoll (t := t) rfl
    rw [Cart.programmed_read hmode hw hregion hreads hchip] at hcart
    have hget := Cart.get_forgetWord_twice s.cart s.peer.devAddr.toNat
    have hhigh : t.cart.cells.get (2 * s.peer.devAddr.toNat) = none := by
      rw [hcart, hget, if_pos (by omega)]
    have hlow : t.cart.cells.get (2 * s.peer.devAddr.toNat + 1) = none := by
      rw [hcart, hget, if_pos (by omega)]
    have hkeep {x : Nat} (hx : x / 2 ≠ s.peer.devAddr.toNat) : t.cart.cells.get x = s.cart.cells.get x := by
      rw [hcart, hget, if_neg (by omega)]
    have hmap : t.cart.map = s.cart.map := by rw [hcart]; rfl
    have htmode : t.cart.ramMode = .unbanked := by rw [hcart]; exact hmode
    have htchip : t.cart.flash = .read := by rw [hcart]
    have htbusy : t.cart.flashBusy = false := by rw [hcart]
    refine ⟨?_, hhigh, hlow, fun w hne => ?_, htchip, htmode, htps, htaddr⟩
    · rw [Cart.known_flash (hmap ▸ hregion) htmode htchip htbusy, hhigh, hlow]
    · exact Cart.known_congr hmap (htmode.trans hmode.symm) (htchip.trans hchip.symm) (htbusy.trans hbusy.symm)
        (hkeep (by omega)) (hkeep (by omega))
  case reset =>
    intro s hps hmode hchip hbusy hzero w hregion
    rw [peerFeed_cmdWrites _ hps]
    dsimp only
    rw [Cart.commands_reset hmode hchip (Cart.isFlash_of_region hzero)]
    exact Cart.known_flash (c := { s.cart with flash := .read }) hregion hmode rfl hbusy

end Sys2Proof.Machine
end

section
/-! SUPPORT. A running request has ERR clear until it raises: what an error's effect has done is there at every end with ERR set (R281,
R320, R361, R373). -/

namespace Sys2Proof.Machine

/-- How a piece may end a request: a block reset leaves ERR clear (R361), an error leaves C. -/
def Ended.Leaves (C : State → Prop) : Ended → State → Prop
  | .raised, t => C t
  | .reset, t => t.err = false
  | .fault _, _ => True

/-- A piece that leaves ERR clear unless it raises. -/
abbrev ErrClear {α : Type} (m : Act α) : Prop :=
  Triple (fun s => s.err = false) m (fun _ s => s.err = false) (Ended.Leaves fun _ => True)

section Pieces

variable {α β : Type}

theorem errClear_bind {m : Act β} {f : β → Act α} (hm : ErrClear m) (hf : ∀ b, ErrClear (f b)) : ErrClear (m >>= f) :=
  triple_bind hm hf

theorem errClear_pure (a : α) : ErrClear (pure a : Act α) := triple_pure fun _ => id

theorem errClear_upd {f : State → State} (h : ∀ s, (f s).err = s.err) : ErrClear (upd f) := triple_upd fun s hs => (h s).trans hs

theorem errClear_look (f : State → α) : ErrClear (look f) := triple_look fun _ => id

theorem errClear_draw {take : State → α × State} (h : ∀ s, (take s).2.err = s.err) : ErrClear (draw take) :=
  triple_draw fun s hs => (h s).trans hs

theorem errClear_raiseTransport (fam : Family) (e : Err) (info : Nat) : ErrClear (raiseTransport fam e info : Act α) :=
  fun _ _ => trivial

/-! ### Draws and the peer -/

theorem takeTx_err (s : State) : (takeTx s).2.err = s.err := by
  unfold takeTx
  split <;> rfl

theorem takeRx_err (s : State) : (takeRx s).2.err = s.err := by
  unfold takeRx
  split <;> rfl

theorem takeReplies_err (fam : Family) (n : Nat) (offered : List Byte) (s : State) : (takeReplies fam n offered s).2.err = s.err := by
  unfold takeReplies
  split <;> rfl

theorem settlePeer_err (s : State) : (settlePeer s).err = s.err := by
  obtain ⟨env, cart, peer, hframe⟩ := settlePeer_frame s
  rw [hframe]

/-! ### The requester's visits -/

theorem errClear_visit : ErrClear visit := by
  intro s hs
  cases hv : s.env.visits with
  | nil => rw [visit_none hv]; exact hs
  | cons actions rest =>
    rw [visit_cons hv]
    have hacts := visitActions_err (actions := actions) { s with env := { s.env with visits := rest } } hs
    cases hr : visitActions actions { s with env := { s.env with visits := rest } } with
    | ok v t => rwa [hr] at hacts
    | error e t => rw [visitActions_error hr]; trivial

theorem errClear_endVisit (v : Option (List PortAction)) : ErrClear (endVisit v) := by
  cases v with
  | none => exact errClear_pure ()
  | some rest => exact fun _ _ => rfl

theorem errClear_meet : ErrClear meet := errClear_bind errClear_visit errClear_endVisit

/-! ### The transport and DBUF -/

theorem errClear_txWriteOf (fam : Family) (n : Nat) {first : Nat → Act (List Byte)} (hf : ∀ k, ErrClear (first k)) :
    ErrClear (txWriteOf fam n first) :=
  triple_txWriteOf (V := fun _ => True) (R := fun _ s => s.err = false) (errClear_visit.post fun _ _ hs => ⟨hs, trivial⟩)
    (fun s hs => (takeTx_err s).trans hs) (fun k _ => (hf k).post fun bytes s hs => (State.transmit_err bytes s).trans hs)
    (fun v _ _ => errClear_endVisit v) fun _ _ _ _ => trivial

theorem errClear_txWrite (fam : Family) (bytes : List Byte) : ErrClear (txWrite fam bytes) :=
  errClear_txWriteOf fam _ fun _ => errClear_pure _

theorem errClear_memRead (off n : Nat) : ErrClear (memRead off n) := by
  refine errClear_bind ((triple_orStop fun _ _ _ => trivial).post fun _ _ hs => hs.1) fun bytes s hs => ?_
  obtain ⟨out, t, hout, ht, -, -⟩ := maskHazard_cases off bytes s
  rw [hout]
  exact (congrArg State.err ht).trans hs

theorem errClear_txBytes (parts : List TxPart) (k : Nat) : ErrClear (txBytes parts k) := by
  induction parts generalizing k with
  | nil => exact errClear_pure _
  | cons part rest ih =>
    cases part with
    | bytes b => exact errClear_bind (ih _) fun _ => errClear_pure _
    | dbuf off n => exact errClear_bind (errClear_memRead off _) fun _ => errClear_bind (ih _) fun _ => errClear_pure _

theorem errClear_txWriteParts (fam : Family) (parts : List TxPart) : ErrClear (txWriteParts fam parts) := by
  unfold txWriteParts
  split
  · exact errClear_pure _
  · exact errClear_txWriteOf fam _ (errClear_txBytes parts)

theorem errClear_rxRead (fam : Family) (n : Nat) : ErrClear (rxRead fam n) :=
  errClear_bind errClear_meet fun _ => errClear_bind (errClear_upd settlePeer_err) fun _ =>
    errClear_bind (errClear_draw takeRx_err) fun _ => errClear_bind (errClear_draw (takeReplies_err fam n _)) fun _ => errClear_pure _

theorem errClear_rxFill_latch (n : Nat) : ErrClear (rxFill .latch n) := by
  have hloop (fuel : Nat) (got : List Byte) : ErrClear (rxFillLoop .latch n fuel got) := by
    induction fuel generalizing got with
    | zero => exact errClear_pure _
    | succ fuel ih =>
      unfold rxFillLoop
      split
      · exact errClear_pure _
      · refine errClear_bind (errClear_rxRead _ _) fun answer => ?_
        cases answer with
        | timedOut t => exact errClear_bind (errClear_pure _) fun _ => errClear_raiseTransport _ _ _
        | failed t => exact errClear_bind (errClear_pure _) fun _ => errClear_raiseTransport _ _ _
        | got t =>
          dsimp only
          split
          · exact errClear_raiseTransport _ _ _
          · exact errClear_bind (errClear_pure _) fun _ => ih _
  exact hloop n []

/-! ### The I/O of the requests -/

theorem errClear_eraseIo (addr : Reg32) : ErrClear (eraseIo addr) :=
  errClear_bind (errClear_look _) fun _ => errClear_bind (errClear_txWrite _ _) fun _ => errClear_bind (errClear_rxFill_latch _) fun _ =>
    errClear_upd (setCursor_err _)

theorem errClear_programWords (cfg : Params) (words off : Nat) : ErrClear (programWords cfg words off) := by
  induction words generalizing off with
  | zero => exact errClear_pure _
  | succ words ih =>
    exact errClear_bind (errClear_txWriteParts _ _) fun _ => errClear_bind (errClear_rxFill_latch _) fun _ =>
      errClear_bind (errClear_upd (advanceCursor_err 1)) fun _ => ih _

theorem errClear_programIo (words off : Nat) : ErrClear (programIo words off) := by
  refine errClear_bind (errClear_look _) fun cfg => ?_
  cases cfg.readyPoll with
  | ryThenRdSingle => exact errClear_programWords cfg words off
  | ryOnly => exact errClear_bind (errClear_txWriteParts _ _) fun _ => errClear_upd (advanceCursor_err words)

theorem errClear_ramCtl (v : Word) (d : Byte) : ErrClear (ramCtl v d) :=
  errClear_bind (errClear_txWrite _ _) fun _ => errClear_bind (errClear_upd (setCursor_err _)) fun _ => errClear_upd (setDelay_err d)

/-! ### What an error leaves -/

/-- An error's effect is there wherever the piece ends with an error. -/
theorem ErrClear.onRaise {m : Act α} (hm : ErrClear m) {f : State → State} {C : State → Prop} (hf : ∀ s, C (f s)) :
    Triple (fun s => s.err = false) (onRaise f m) (fun _ s => s.err = false) (Ended.Leaves C) := by
  intro s hs
  have hk := hm s hs
  unfold Machine.onRaise
  cases hr : m s with
  | ok a t => rw [hr] at hk; exact hk
  | error e t =>
    rw [hr] at hk
    cases e with
    | raised => exact hf t
    | reset => exact hk
    | fault g => trivial

end Pieces

/-- A request that has ended with ERR set has raised. -/
theorem Triple.request_leaves {P C : State → Prop} {m : Act Reg32} {s t : State}
    (hm : Triple P m (fun _ s => s.err = false) (Ended.Leaves C)) (hs : P s.accept) (hb : s.busy = false) (h : request m s = .next t)
    (herr : t.err = true) : C t := by
  rcases hm.request_next hs hb h with ⟨r, u, hu, rfl⟩ | hraised | hreset
  · rw [State.complete_err, hu] at herr
    cases herr
  · exact hraised
  · have hclear : t.err = false := hreset
    rw [hclear] at herr
    cases herr

/-! ### The target of a failed erase or write (R281) -/

/-- If an error of the transport has ended the request, no byte of the range is known. -/
def State.Forgotten (a n : Nat) (t : State) : Prop :=
  t.errKind = 1 → ∀ b, a ≤ b → b < a + n → t.cart.cells.get b = none

theorem State.forgotten_loseFlash (a n : Nat) (s : State) : (loseFlash a n s).Forgotten a n := by
  intro _ b hb hlt
  have hforgotten : ((settlePeer s).cart.forgetRange a n).cells.get b = none := by rw [Cart.get_forgetRange, if_pos ⟨hb, hlt⟩]
  rw [loseFlash, Cart.get_forgetRange, hforgotten, ite_self]

/-- An error of another kind has not touched the flash. -/
theorem State.forgotten_raise {e : Err} (he : e.kind ≠ 1) (a n : Nat) (r : Reg32) (s : State) : (s.raise e r).Forgotten a n :=
  fun h => absurd h he

theorem triple_check_forgotten {P : State → Prop} {ok : Bool} {e : Err} {info : Nat} (he : e.kind ≠ 1) (a n : Nat) :
    Triple P (check ok e info) (fun _ => P) (Ended.Leaves (State.Forgotten a n)) :=
  (triple_check fun s r _ => State.forgotten_raise he a n r s).post fun _ _ hs => hs.1

theorem triple_checkErase (P : State → Prop) (addr : Reg32) (a n : Nat) :
    Triple P (checkErase addr) (fun _ => P) (Ended.Leaves (State.Forgotten a n)) :=
  triple_bind (triple_check_forgotten (by decide) a n) fun _ => triple_check_forgotten (by decide) a n

theorem triple_checkBulk (P : State → Prop) (boff len : Reg32) (a n : Nat) :
    Triple P (checkBulk boff len) (fun _ => P) (Ended.Leaves (State.Forgotten a n)) :=
  triple_bind (triple_check_forgotten (by decide) a n) fun _ => triple_bind (R := fun _ => P) (triple_look fun _ => id) fun _ =>
    triple_check_forgotten (by decide) a n

theorem leaves_mdFlashEraseBody (addr : Reg32) : Triple (fun s => s.err = false) (mdFlashEraseBody addr) (fun _ s => s.err = false)
    (Ended.Leaves (State.Forgotten addr.toNat 65536)) :=
  triple_bind (triple_checkErase _ addr _ _) fun _ =>
    triple_bind ((errClear_eraseIo addr).onRaise (State.forgotten_loseFlash _ _)) fun _ => triple_pure fun _ => id

theorem leaves_mdFlashWriteBody (boff len : Reg32) (a : Nat) : Triple (fun s => s.err = false ∧ flashTarget s = a)
    (mdFlashWriteBody boff len) (fun _ s => s.err = false) (Ended.Leaves (State.Forgotten a len.toNat)) :=
  triple_bind (triple_checkBulk _ boff len _ _) fun _ => triple_look_known (fun _ hs => hs.2) <|
    triple_bind (((errClear_programIo _ _).onRaise (State.forgotten_loseFlash _ _)).pre fun _ hs => hs.1) fun _ => triple_pure fun _ => id

/-- With nothing waiting for the peer, the target begins at its cursor (R279). -/
theorem flashTarget_accept {s : State} (h : s.peer.inbox = []) : flashTarget s.accept = 2 * s.peer.devAddr.toNat := by
  unfold flashTarget settlePeer
  split
  · rw [drain, State.accept_peer, h]
    rfl
  · rfl

/-! ### The mode after a failed RAM enable or disable (R373) -/

theorem leaves_ramBody {v : Params → Word} {d : Params → Byte} {f : State → State} (hf : ∀ s, (f s).err = s.err) :
    Triple (fun s => s.err = false)
      (do
        let cfg ← look (·.cfg)
        onRaise loseRamMode (ramCtl (v cfg) (d cfg))
        upd f
        pure (0 : Reg32))
      (fun _ s => s.err = false) (Ended.Leaves fun t => t.cart.ramMode = .unknown) :=
  triple_bind (R := fun _ s => s.err = false) (triple_look fun _ => id) fun _ =>
    triple_bind ((errClear_ramCtl _ _).onRaise fun _ => rfl) fun _ =>
      triple_bind (R := fun _ s => s.err = false) (triple_upd fun s hs => (hf s).trans hs) fun _ => triple_pure fun _ => id

theorem leaves_mdRamEnableBody : Triple (fun s => s.err = false) mdRamEnableBody (fun _ s => s.err = false)
    (Ended.Leaves fun t => t.cart.ramMode = .unknown) := leaves_ramBody (f := fun s => { s with ramEn := true }) fun _ => rfl

theorem leaves_mdRamDisableBody : Triple (fun s => s.err = false) mdRamDisableBody (fun _ s => s.err = false)
    (Ended.Leaves fun t => t.cart.ramMode = .unknown) := leaves_ramBody (f := fun s => { s with ramEn := false }) fun _ => rfl

/-- Settles O48: with ERR set the request has raised, in its checks with another kind or in its I/O, whose effect then holds. -/
theorem failedFlashForgets : Obligations.FailedFlashForgets := by
  refine ⟨fun s t addr hb h herr => ?_, fun s t boff len hb hinbox h herr => ?_, fun i s t hi hb h herr => ?_⟩
  · exact (leaves_mdFlashEraseBody addr).request_leaves rfl hb h herr
  · exact (leaves_mdFlashWriteBody boff len _).request_leaves ⟨rfl, flashTarget_accept hinbox⟩ hb h herr
  · simp only [List.mem_cons, List.not_mem_nil, or_false] at hi
    rcases hi with rfl | rfl
    · exact leaves_mdRamEnableBody.request_leaves rfl hb h herr
    · exact leaves_mdRamDisableBody.request_leaves rfl hb h herr

end Sys2Proof.Machine
end

section
/-! SUPPORT. The RD, WR and reserved frames as instructions (R297 to R302, R305): the frames of a class share one effect, by their flags. -/

namespace Sys2Proof.Machine

/-- An RD frame in state OP is RD with its flags (R297, R298, R301, R302). -/
theorem exec_rdInstr (flags : BitVec 4) {s : State} (h : s.peer.ps = .op) :
    exec (rdInstr flags) s = .next (peerRd (mdFlags flags) s) := by
  have hframe : exec (rdInstr flags) s = mdFrame (rdInstr flags) (peerRd (mdFlags flags)) s := by
    induction flags using bitVec_cases with
    | ofNat n hn => interval_cases n <;> rfl
  rw [hframe, mdFrame_op h]

/-- A WR frame in state OP with all its data bytes is WR with its flags (R299, R300, R302). -/
theorem exec_wrInstr (flags : BitVec 4) {data : List Byte} {s : State} (h : s.peer.ps = .op)
    (hl : data.length = wrDataLength (mdFlags flags) s.peer.devLen) :
    exec (wrInstr flags data) s = .next (peerWr (mdFlags flags) data s) := by
  have hframe : exec (wrInstr flags data) s = wrFrame (wrInstr flags data) (mdFlags flags) data s := by
    induction flags using bitVec_cases with
    | ofNat n hn => interval_cases n <;> rfl
  rw [hframe, wrFrame_op h hl]

/-- A frame of a reserved class in state OP leads to UNDEF (R305). -/
theorem exec_reservedInstr (b : Byte) {s : State} (h : s.peer.ps = .op) :
    exec (reservedInstr b) s = .next (peerUndef s) := by
  unfold reservedInstr
  dsimp only
  split <;> exact mdFrame_op h

end Sys2Proof.Machine
end

section
/-! SUPPORT. WR and its data bytes (R299, R300, R302): the writes one after another, whether the frame comes whole or byte by byte. -/

namespace Sys2Proof.Machine

/-! ### The words of a transfer -/

/-- The word of the i-th unit of a transfer (R298, R300). -/
def unitWord (moves : Bool) (w : WordAddr) (i : Nat) : WordAddr := if moves then w + BitVec.ofNat 24 i else w

theorem unitWord_zero (moves : Bool) (w : WordAddr) : unitWord moves w 0 = w := by
  cases moves <;> simp [unitWord]

theorem unitWord_succ (moves : Bool) (w : WordAddr) (i : Nat) :
    unitWord moves (if moves then w + 1 else w) i = unitWord moves w (i + 1) := by
  cases moves
  · rfl
  · simp only [unitWord, if_true, Nat.add_comm i, BitVec.ofNat_add, ← BitVec.add_assoc]
    rfl

/-! ### The writes -/

/-- The cartridge after n writes, one after another: the i-th writes the bytes `hi i`, if any, and `lo i` to the i-th word. -/
def Cart.writeUnits (cfg : Params) (moves : Bool) (w : WordAddr) (hi : Nat → Option Byte) (lo : Nat → Byte) (n : Nat)
    (c : Cart) : Cart :=
  (List.range n).foldl (fun c i => c.write cfg (unitWord moves w i).toNat (hi i) (lo i)) c

theorem Cart.writeUnits_succ (cfg : Params) (moves : Bool) (w : WordAddr) (hi : Nat → Option Byte) (lo : Nat → Byte) (n : Nat)
    (c : Cart) : c.writeUnits cfg moves w hi lo (n + 1) = (c.write cfg w.toNat (hi 0) (lo 0)).writeUnits cfg moves
      (if moves then w + 1 else w) (fun i => hi (i + 1)) (fun i => lo (i + 1)) n := by
  simp only [Cart.writeUnits, List.range_succ_eq_map, List.foldl_cons, List.foldl_map, unitWord_zero, unitWord_succ]

theorem wrWords_eq (moves : Bool) {n : Nat} {data : List Byte} (hl : data.length = 2 * n) (w : WordAddr) (s : State) :
    wrWords moves data w s = { s with
      cart :=
        s.cart.writeUnits s.cfg moves w (fun i => some (data.getD (2 * i) 0)) (fun i => data.getD (2 * i + 1) 0) n } := by
  induction n generalizing data w s with
  | zero => rw [List.eq_nil_of_length_eq_zero hl]; rfl
  | succ n ih =>
    obtain ⟨h, l, rest, rfl, hrest⟩ := exists_pair_of_length hl
    rw [wrWords, ih hrest, Cart.writeUnits_succ]
    rfl

theorem wrLowBytes_eq (moves : Bool) (data : List Byte) (w : WordAddr) (s : State) :
    wrLowBytes moves data w s = { s with
      cart := s.cart.writeUnits s.cfg moves w (fun _ => none) (fun i => data.getD i 0) data.length } := by
  induction data generalizing w s with
  | nil => rfl
  | cons l rest ih =>
    rw [wrLowBytes, ih, List.length_cons, Cart.writeUnits_succ]
    rfl

/-- Everything WR does with all its data bytes, in any parse state: its words are written in order, and the cursor moves by them. -/
theorem peerWr_eq {f : MdFlags} {data : List Byte} {s : State} (hl : data.length = wrDataLength f s.peer.devLen) :
    peerWr f data s = { s with
      cart :=
        s.cart.writeUnits s.cfg (wrMoves f) s.peer.devAddr (fun i => if f.mode8 then none else some (data.getD (2 * i) 0))
          (fun i => data.getD (if f.mode8 then i else 2 * i + 1) 0) (mdUnits f s.peer.devLen)
      peer := { s.peer with devAddr := unitWord (wrMoves f) s.peer.devAddr (mdUnits f s.peer.devLen), ps := .op } } := by
  unfold wrDataLength mdUnitBytes at hl
  unfold peerWr
  cases hm : f.mode8 with
  | true =>
    rw [hm, if_pos rfl, Nat.mul_one] at hl
    simp only [if_true, wrLowBytes_eq, hl]
    rfl
  | false =>
    rw [hm, if_neg Bool.false_ne_true, Nat.mul_comm] at hl
    simp only [Bool.false_eq_true, if_false, wrWords_eq _ hl]
    rfl

/-! ### The data bytes -/

/-- WR does not go by the parse state. -/
theorem peerWr_setPs {f : MdFlags} {data : List Byte} {s : State} (hl : data.length = wrDataLength f s.peer.devLen) (ps : DevPs) :
    peerWr f data (setPs ps s) = peerWr f data s := by
  rw [peerWr_eq hl, peerWr_eq (s := setPs ps s) hl]
  rfl

/-- The data bytes of a WR frame under way: the last one executes it with all of them (R290, R294). -/
theorem peerFeed_wrData {f : MdFlags} {data taken : List Byte} {s : State} (hne : data ≠ [])
    (hl : (taken.reverse ++ data).length = wrDataLength f s.peer.devLen) :
    peerFeed data (setPs (.wrData data.length f taken) s) = peerWr f (taken.reverse ++ data) s := by
  induction data generalizing taken with
  | nil => exact absurd rfl hne
  | cons x rest ih =>
    have hsplit : taken.reverse ++ x :: rest = (x :: taken).reverse ++ rest := by simp
    rw [hsplit] at hl ⊢
    cases rest with
    | nil =>
      rw [List.append_nil] at hl ⊢
      exact peerWr_setPs hl _
    | cons y more => exact ih (List.cons_ne_nil y more) hl

/-- A WR frame with all its data bytes, taken byte by byte (R98, R299, R300). -/
theorem peerFeed_wr {b : Byte} {data : List Byte} {s : State} (hb : mdKind b = .wr) (h : s.peer.ps = .op)
    (hl : data.length = wrDataLength (mdFlags (b.extractLsb' 4 4)) s.peer.devLen) :
    peerFeed (b :: data) s = peerWr (mdFlags (b.extractLsb' 4 4)) data s := by
  rw [peerFeed_cons, peerByte, h]
  simp only [peerCommand, hb, ← hl]
  split
  · next h0 => rw [List.eq_nil_of_length_eq_zero h0, peerFeed_nil]
  · next h0 => exact peerFeed_wrData (taken := []) (fun hnil => h0 (List.length_eq_zero_iff.2 hnil)) hl

/-- Settles O51: the writes of the data are one after another, and each is the cartridge's. -/
theorem wrFrames : Obligations.WrFrames := by
  intro s flags data hps f n moves wordAt hl
  rw [exec_wrInstr flags hps hl, peerWr_eq hl, ← hps]
  rfl

end Sys2Proof.Machine
end

section
/-! SUPPORT. A frame executed is its bytes taken one after another (R290, R294): the decoder and the parser agree. -/

namespace Sys2Proof.Machine

/-- A frame that has been decoded is executed by its bytes: the parser goes through them by the same cases as the decoder. -/
theorem exec_of_decodeFrame {i : Instr} {bytes : List Byte} {s : State} (h : s.peer.ps = .op)
    (hi : decodeFrame s.peer.devLen bytes = .ok (i, [])) : exec i s = .next (peerFeed bytes s) := by
  cases bytes with
  | nil => cases hi
  | cons b rest =>
    have hcommand : peerByte b s = peerCommand b s := by rw [peerByte, h]
    unfold decodeFrame at hi
    unfold peerCommand at hcommand
    cases hk : mdKind b <;> simp only [hk] at hi hcommand
    case addr | len | delay =>
      split at hi <;> cases hi
      rw [peerFeed_cons, hcommand]
      exact mdFrame_op h
    case ry =>
      cases hi
      rw [peerFeed_cons, hcommand]
      exact mdFrame_op h
    case rd =>
      cases hi
      rw [peerFeed_cons, hcommand]
      exact exec_rdInstr _ h
    case wr =>
      split at hi
      · cases hi
      next hlen =>
      obtain ⟨rfl, hdrop⟩ := Prod.mk.inj (Except.ok.inj hi)
      have hl : rest.length = wrDataLength (mdFlags (b.extractLsb' 4 4)) s.peer.devLen :=
        Nat.le_antisymm (List.drop_eq_nil_iff.1 hdrop) (Nat.not_lt.1 hlen)
      rw [List.take_of_length_le hl.le, exec_wrInstr _ h hl, peerFeed_wr hk h hl]
    case reserved =>
      cases hi
      rw [peerFeed_cons, hcommand]
      exact exec_reservedInstr b h

/-- Settles O53: a well-formed frame is decoded from its bytes. -/
theorem framesAreStreams : Obligations.FramesAreStreams := by
  intro i s hne hwf hann hps
  refine exec_of_decodeFrame hps ?_
  cases henc : encode i with
  | frame bytes =>
    have hbytes : frameBytes i = bytes := by rw [frameBytes, henc]
    rw [hbytes, ← List.append_nil bytes]
    exact decodeFrame_encode henc hwf hann []
  | request w => exact absurd (by rw [frameBytes, henc]) hne
  | packet p => exact absurd (by rw [frameBytes, henc]) hne

end Sys2Proof.Machine
end

section
/-! SUPPORT. RD (R297, R298, R301, R302): its reply unit by unit, and what it leaves of the cartridge. -/

namespace Sys2Proof.Machine

/-- The reply bytes of a unit: two, high byte first, or the low byte with MODE8 (R298, R302). -/
def unitBytes (f : MdFlags) (h l : Byte) : List Byte := if f.mode8 then [l] else [h, l]

/-- One unit of RD: a word of the cartridge, or the identity word (R301). -/
def rdUnit (f : MdFlags) (w : WordAddr) (s : State) : Word × State := if f.devId then identityWord f s else cartRead w s

theorem rdUnits_succ (f : MdFlags) (n : Nat) (w : WordAddr) (s : State) : rdUnits f (n + 1) w s =
    (unitBytes f (hiByte (rdUnit f w s).1) (loByte (rdUnit f w s).1) ++
        (rdUnits f n (if rdMoves f then w + 1 else w) (rdUnit f w s).2).1,
      (rdUnits f n (if rdMoves f then w + 1 else w) (rdUnit f w s).2).2) := by
  rw [rdUnits, unitBytes, rdUnit]
  cases f.mode8 <;> rfl

/-- Once the first replies are over, a reply with DEV_ID is the identity value (R301, R307). -/
theorem identityWord_settled (f : MdFlags) {s : State} (h : s.peer.idReply = .settled) :
    identityWord f s = (s.peer.identity, s) := by
  unfold identityWord
  split
  · dsimp only
    rw [h]
  · rfl

theorem identityWord_cart (f : MdFlags) (s : State) : (identityWord f s).2.cart = s.cart := by
  obtain ⟨env, hfree⟩ := takeFree_env s
  unfold identityWord
  split
  · dsimp only
    split <;> simp only [hfree]
  · rfl

/-- Units that all read without changing the state. -/
theorem rdUnits_fixed {f : MdFlags} {n : Nat} {w : WordAddr} {v : Nat → Word} {s : State}
    (h : ∀ i < n, rdUnit f (unitWord (rdMoves f) w i) s = (v i, s)) :
    rdUnits f n w s = ((List.range n).flatMap fun i => unitBytes f (hiByte (v i)) (loByte (v i)), s) := by
  induction n generalizing w v with
  | zero => rfl
  | succ n ih =>
    have hfirst : rdUnit f w s = (v 0, s) := by simpa only [unitWord_zero] using h 0 (Nat.succ_pos n)
    have hrest := ih (w := if rdMoves f then w + 1 else w) (v := fun i => v (i + 1)) fun i hi => by
      rw [unitWord_succ]
      exact h (i + 1) (Nat.succ_lt_succ hi)
    rw [rdUnits_succ, hfirst, hrest, List.range_succ_eq_map, List.flatMap_cons, List.flatMap_map]

/-- A read leaves the cartridge alone where it has no side effects (I9), and does not touch it with DEV_ID (R301). -/
theorem rdUnits_cart {f : MdFlags} {s : State} (h : s.cfg.readSideEffects = .none ∨ f.devId = true) (n : Nat) (w : WordAddr) :
    (rdUnits f n w s).2.cart = s.cart := by
  induction n generalizing w s with
  | zero => rfl
  | succ n ih =>
    obtain ⟨env, cart, idr, hunit⟩ := rdUnit_frame f w s
    have hcart : (rdUnit f w s).2.cart = s.cart := by
      unfold rdUnit
      split
      · next hid => exact identityWord_cart f s
      · next hid =>
        obtain ⟨fs, count, hread⟩ := cartRead_eq w s
        rw [hread, Cart.afterRead, h.resolve_right hid]
    have hcfg : (rdUnit f w s).2.cfg = s.cfg := by rw [rdUnit, hunit]
    rw [rdUnits_succ, ih (by rwa [hcfg]), hcart]

/-- Settles O50: the units one after another; where each is known, it does not change the state. -/
theorem rdFrames : Obligations.RdFrames := by
  intro s flags hps f n moves wordAt unit
  obtain ⟨env, cart, idr, hrd⟩ := peerRd_frame f s
  have hbytes {v : Nat → Word} (h : ∀ i < n, rdUnit f (wordAt i) s = (v i, s)) :
      (rdUnits f n s.peer.devAddr s).1 = (List.range n).flatMap fun i => unit (hiByte (v i)) (loByte (v i)) :=
    congrArg Prod.fst (rdUnits_fixed h)
  refine ⟨env, cart, idr, _, (exec_rdInstr flags hps).trans (congrArg _ (hrd.trans (by rw [← hps]; rfl))),
    rdUnits_length f n _ s, fun h => ?_, fun hi lo hid heff hk => ?_, fun hid hsettled => ?_⟩
  · have hcart : (peerRd f s).cart = cart := by rw [hrd]
    exact hcart.symm.trans (rdUnits_cart h n _)
  · have hunit (i : Nat) (hlt : i < n) : rdUnit f (wordAt i) s = (word16 (hi i) (lo i), s) := by
      rw [rdUnit, hid, if_neg Bool.false_ne_true, cartRead_known (hk i hlt), Cart.afterRead, heff]
    simpa only [hiByte_word16, loByte_word16] using hbytes hunit
  · exact hbytes fun i _ => by rw [rdUnit, if_pos hid, identityWord_settled f hsettled]

end Sys2Proof.Machine
end

section
/-! SUPPORT. ADDR, LEN, RY and DELAY (R295, R296, R303, R304). -/

namespace Sys2Proof.Machine

/-- A byte shifted into a register is put below what it keeps of it (R295, R296). -/
theorem shift_byte {w : Nat} (a : BitVec (w + 8)) (b : Byte) :
    a <<< 8 ||| b.setWidth (w + 8) = (a.extractLsb' 0 w ++ b : BitVec (w + 8)) := by
  ext i hi
  by_cases h : i < 8
  · simp [BitVec.getElem_append, BitVec.getLsbD_eq_getElem, h]
  · have hbit : i - 8 < w + 8 := by omega
    simp [BitVec.getElem_append, h, BitVec.getLsbD_of_ge b i (Nat.not_lt.1 h), BitVec.getLsbD_eq_getElem hbit]

theorem peerAddr_eq (b : Byte) (s : State) : peerAddr b s =
    { s with peer := { s.peer with devAddr := (s.peer.devAddr.extractLsb' 0 16 ++ b : BitVec 24), ps := .op } } := by
  rw [peerAddr, shift_byte (w := 16)]

theorem peerLen_eq (b : Byte) (s : State) : peerLen b s =
    { s with peer := { s.peer with devLen := (s.peer.devLen.extractLsb' 0 8 ++ b : BitVec 16), ps := .op } } := by
  rw [peerLen, shift_byte (w := 8)]

/-- Settles O49: the effects of the four rules, and the pairs of the block put together. -/
theorem parameterFrames : Obligations.ParameterFrames := by
  intro s hps
  have hcommand (b : Byte) : peerByte b s = peerCommand b s := by rw [peerByte, hps]
  refine ⟨hcommand 0x00, hcommand 0x01, hcommand 0x05, fun b => ?_, fun b => ?_, fun d => ?_, fun b => ?_,
    fun b => ?_, fun d => ?_, ?_, fun w => ?_, fun c => ?_⟩
  · exact (peerAddr_eq b _).trans (by rw [← hps])
  · exact (peerLen_eq b _).trans (by rw [← hps])
  · exact (rfl : _ = peerDelay d s).trans (by rw [peerDelay, ← hps])
  · exact (mdFrame_op hps).trans (by rw [peerAddr_eq, ← hps])
  · exact (mdFrame_op hps).trans (by rw [peerLen_eq, ← hps])
  · exact (mdFrame_op hps).trans (by rw [peerDelay, ← hps])
  · exact (mdFrame_op hps).trans (by rw [peerRy, ← hps])
  · rw [peerFeed_seekFrame w hps, ← hps]
  · rw [peerFeed_lenFrame c hps, ← hps]

end Sys2Proof.Machine
end

section
/-! SUPPORT. Cartridge RAM (R306): while it is banked in its words keep what is written to them, while it is banked out no write reaches
them. -/

namespace Sys2Proof.Machine

/-! ### RAM banked out -/

/-- What a cartridge operation leaves of the RAM bytes: all of them. -/
def Cart.KeepsRam (c d : Cart) : Prop :=
  ∀ x, regionAt c.map x = some .ram → d.cells.get (2 * x + 1) = c.cells.get (2 * x + 1)

theorem Cart.KeepsRam.ite {c d e : Cart} {p : Prop} [Decidable p] (hd : c.KeepsRam d) (he : c.KeepsRam e) :
    c.KeepsRam (if p then d else e) := by
  split
  · exact hd
  · exact he

section Chip

variable {c : Cart} {w : Nat} (cfg : Params) (hw : regionAt c.map w ≠ some .ram)

/-- A byte of RAM is none of the chip's. -/
theorem Cart.not_isFlash_of_ram {x : Nat} (h : regionAt c.map x = some .ram) : c.isFlash ((2 * x + 1) / 2) = false := by
  rw [show (2 * x + 1) / 2 = x by omega, Cart.isFlash, h]
  rfl

theorem Cart.keepsRam_eraseSector (hc : c.cells.wf = true) : c.KeepsRam (c.eraseSector cfg w) := by
  intro x hx
  rw [Cart.get_eraseSector cfg c w _ hc, if_neg]
  rw [Cart.not_isFlash_of_ram hx]
  exact nofun

theorem Cart.keepsRam_forgetSector : c.KeepsRam (c.forgetSector cfg w) := by
  intro x hx
  rw [Cart.get_forgetSector, if_neg]
  rw [Cart.not_isFlash_of_ram hx]
  exact nofun

include hw

/-- A word that is no RAM shares no byte with one that is. -/
theorem Cart.ne_of_ram {x : Nat} (h : regionAt c.map x = some .ram) : x ≠ w := fun heq => hw (heq ▸ h)

theorem Cart.keepsRam_forgetWord : c.KeepsRam (c.forgetWord w) := by
  intro x hx
  have hne := Cart.ne_of_ram hw hx
  rw [Cart.get_forgetWord, if_neg (by omega)]

theorem Cart.keepsRam_program (hi : Option Byte) (lo : Byte) : c.KeepsRam (c.program w hi lo) := by
  intro x hx
  have hne := Cart.ne_of_ram hw hx
  by_cases herased : c.cells.get (2 * w) = some 0xFF ∧ c.cells.get (2 * w + 1) = some 0xFF
  · obtain ⟨hhigh, hlow⟩ := herased
    rw [Cart.get_program c w _ hi lo hhigh hlow, if_neg (by omega), if_neg (by omega)]
  · have hforgets : c.program w hi lo = Cart.forgetWord { c with flashBusy := true } w := if_neg herased
    rw [hforgets]
    exact Cart.keepsRam_forgetWord (c := { c with flashBusy := true }) hw x hx

theorem Cart.keepsRam_strayWrite (lo : Byte) : c.KeepsRam (c.strayWrite cfg w lo) := by
  intro x hx
  have hword := Cart.keepsRam_forgetWord hw x hx
  unfold Cart.strayWrite
  dsimp only
  split
  · exact (Cart.keepsRam_forgetSector (c := { c.forgetWord w with flash := .unknown }) cfg x hx).trans hword
  · exact hword

/-- No command and no data word that the chip takes changes a byte of RAM (R306). -/
theorem Cart.keepsRam_flashWrite (hc : c.cells.wf = true) (hi : Option Byte) (lo : Byte) :
    c.KeepsRam (c.flashWrite cfg w hi lo) := by
  have hsame (f : FlashState) : c.KeepsRam { c with flash := f } := fun _ _ => rfl
  have hword (f : FlashState) : c.KeepsRam { c.forgetWord w with flash := f } := Cart.keepsRam_forgetWord hw
  have hstray := Cart.keepsRam_strayWrite cfg hw lo
  unfold Cart.flashWrite
  cases c.flash with
  | unknown => exact (hword _).ite ((hword _).ite hstray)
  | read | unlock2 => exact (hsame _).ite ((hsame _).ite ((hword _).ite hstray))
  | unlock1 | erase1 | erase2 | leaving => exact (hsame _).ite ((hword _).ite hstray)
  | eraseReady => exact (Cart.keepsRam_eraseSector cfg hc).ite ((hword _).ite hstray)
  | bypass => exact (hsame _).ite ((hsame _).ite hstray)
  | bypassProgram => exact Cart.keepsRam_program hw hi lo
  | readProgram | unknownProgram => exact hword _

end Chip

/-- While RAM is banked out, no write but one to the mapper register changes a byte of RAM (R306; log entry 19). -/
theorem Cart.keepsRam_write (cfg : Params) {c : Cart} {w : Nat} (hmode : c.ramMode = .unbanked) (hw : w ≠ mapperWord.toNat)
    (hc : c.cells.wf = true) (hi : Option Byte) (lo : Byte) : c.KeepsRam (c.write cfg w hi lo) := by
  rw [Cart.write, if_neg hw, hmode]
  cases hregion : regionAt c.map w with
  | none => exact Cart.keepsRam_flashWrite cfg (by simp [hregion]) hc hi lo
  | some kind =>
    cases kind with
    | ram => exact fun _ _ => rfl
    | rom => exact Cart.keepsRam_forgetWord (by simp [hregion])
    | flash => exact Cart.keepsRam_flashWrite cfg (by simp [hregion]) hc hi lo

/-! ### RAM banked in -/

theorem Cart.write_ram (cfg : Params) {c : Cart} {w : Nat} (hmode : c.ramMode = .banked) (hw : w ≠ mapperWord.toNat)
    (hregion : regionAt c.map w = some .ram) (hi : Option Byte) (lo : Byte) :
    c.write cfg w hi lo = { c with cells := c.cells.set (2 * w + 1) lo } := by
  rw [Cart.write, if_neg hw, hmode, hregion]

theorem Cart.known_ram {c : Cart} {w : Nat} (hmode : c.ramMode = .banked) (hregion : regionAt c.map w = some .ram) :
    c.known w = (none, c.cells.get (2 * w + 1)) := by
  rw [Cart.known, hmode, hregion]

/-- The n words from a word on are RAM, and none is the mapper register. -/
def Cart.RamFrom (c : Cart) (w : WordAddr) (n : Nat) : Prop :=
  ∀ i < n, (w + BitVec.ofNat 24 i).toNat ≠ mapperWord.toNat ∧ regionAt c.map (w + BitVec.ofNat 24 i).toNat = some .ram

/-- Words of one transfer that is not longer than the cartridge space are different words. -/
theorem wordAddr_add_ne (w : WordAddr) {i n : Nat} (hi : i < n) (hn : n < 2 ^ 24) :
    (w + BitVec.ofNat 24 i).toNat ≠ (w + BitVec.ofNat 24 n).toNat := by
  intro h
  have heq : BitVec.ofNat 24 i = BitVec.ofNat 24 n := (BitVec.add_right_inj w).1 (BitVec.eq_of_toNat_eq h)
  have hnat := congrArg BitVec.toNat heq
  rw [BitVec.toNat_ofNat, BitVec.toNat_ofNat, Nat.mod_eq_of_lt (hi.trans hn), Nat.mod_eq_of_lt hn] at hnat
  omega

/-- A bulk write to RAM changes known bytes only, and leaves the low byte of each of its words as written (R300, R306). -/
theorem Cart.writeUnits_ram (cfg : Params) {c : Cart} {w : WordAddr} {n : Nat} (hmode : c.ramMode = .banked) (hn : n ≤ 2 ^ 24)
    (hram : c.RamFrom w n) (hi : Nat → Option Byte) (lo : Nat → Byte) :
    ∃ m, c.writeUnits cfg true w hi lo n = { c with cells := m } ∧
      ∀ i < n, m.get (2 * (w + BitVec.ofNat 24 i).toNat + 1) = some (lo i) := by
  induction n with
  | zero => exact ⟨c.cells, rfl, nofun⟩
  | succ n ih =>
    obtain ⟨m, hm, hget⟩ := ih (Nat.le_of_succ_le hn) fun i hlt => hram i (Nat.lt_succ_of_lt hlt)
    obtain ⟨hmapper, hregion⟩ := hram n (Nat.lt_succ_self n)
    refine ⟨m.set (2 * (w + BitVec.ofNat 24 n).toNat + 1) (lo n), ?_, fun i hlt => ?_⟩
    · have hstep : c.writeUnits cfg true w hi lo (n + 1) =
          (c.writeUnits cfg true w hi lo n).write cfg (w + BitVec.ofNat 24 n).toNat (hi n) (lo n) := by
        rw [Cart.writeUnits, List.range_succ, List.foldl_append]
        rfl
      rw [hstep, hm, Cart.write_ram (c := { c with cells := m }) cfg hmode hmapper hregion]
    · rw [Memory.get_set]
      split
      · next heq =>
        have hin : ¬i < n := fun hin => wordAddr_add_ne w hin hn (by omega)
        rw [show i = n by omega]
      · next hne =>
        exact hget i (Nat.lt_of_le_of_ne (Nat.le_of_lt_succ hlt) fun heq => hne (by rw [heq]))

/-! ### Words whose low bytes are known -/

/-- A word whose low byte alone is known: the other one is free. -/
theorem cartRead_low {w : WordAddr} {s : State} {l : Byte} (hk : s.cart.known w.toNat = (none, some l)) :
    ∃ h fs count, cartRead w s =
      (word16 h l, { s with cart := s.cart.afterRead s.cfg, env := { s.env with free := fs, count := count } }) := by
  obtain ⟨fs, count, hread⟩ := cartRead_eq w s
  refine ⟨hiByte (takeFree s).1, fs, count, Prod.ext ?_ hread⟩
  rw [cartRead, hk]

/-- Words whose low bytes are known, read one after another (R297, R298). -/
theorem rdUnits_low {f : MdFlags} (hid : f.devId = false) (h8 : f.mode8 = false) {n : Nat} {w : WordAddr} {lo : Nat → Byte} {s : State}
    (heff : s.cfg.readSideEffects = .none) (hk : ∀ i < n, s.cart.known (unitWord (rdMoves f) w i).toNat = (none, some (lo i))) :
    ∃ hi fs count, rdUnits f n w s = (wordBytes hi lo n, { s with env := { s.env with free := fs, count := count } }) := by
  induction n generalizing w lo s with
  | zero => exact ⟨fun _ => 0, s.env.free, s.env.count, rfl⟩
  | succ n ih =>
    have hk0 : s.cart.known w.toNat = (none, some (lo 0)) := by simpa only [unitWord_zero] using hk 0 (Nat.succ_pos n)
    obtain ⟨h0, fs0, count0, hread⟩ := cartRead_low hk0
    have hunit : rdUnit f w s = (word16 h0 (lo 0), { s with env := { s.env with free := fs0, count := count0 } }) := by
      rw [rdUnit, hid, if_neg Bool.false_ne_true, hread, Cart.afterRead, heff]
    obtain ⟨hi, fs, count, hrest⟩ := ih (w := if rdMoves f then w + 1 else w) (lo := fun i => lo (i + 1))
      (s := { s with env := { s.env with free := fs0, count := count0 } }) heff fun i hlt => by
        rw [unitWord_succ]
        exact hk (i + 1) (Nat.succ_lt_succ hlt)
    refine ⟨fun i => Nat.casesOn i h0 hi, fs, count, ?_⟩
    rw [rdUnits_succ, hunit, hrest, wordBytes_succ, unitBytes, h8, hiByte_word16, loByte_word16]
    rfl

/-- An RD frame without DEV_ID and MODE8 over words whose low bytes are known. -/
theorem peerFeed_rdLow {x : Byte} {f : MdFlags} (hx : mdKind x = .rd) (hf : mdFlags (x.extractLsb' 4 4) = f) (hid : f.devId = false)
    (h8 : f.mode8 = false) {lo : Nat → Byte} {s : State} (hps : s.peer.ps = .op) (heff : s.cfg.readSideEffects = .none)
    (hk : ∀ i < mdUnits f s.peer.devLen, s.cart.known (unitWord (rdMoves f) s.peer.devAddr i).toNat = (none, some (lo i))) :
    ∃ hi fs count, peerFeed [x] s = s.polled (unitWord (rdMoves f) s.peer.devAddr (mdUnits f s.peer.devLen)) s.peer.devLen s.cart fs count
      (wordBytes hi lo (mdUnits f s.peer.devLen)) := by
  obtain ⟨hi, fs, count, hunits⟩ := rdUnits_low hid h8 heff hk
  refine ⟨hi, fs, count, ?_⟩
  rw [peerFeed_rd hx hps, hf, peerRd, hunits]
  rfl

end Sys2Proof.Machine
end

section
/-! SUPPORT. Words written to RAM and read back through the stream of the block (R226, R228, R230, R232, R306), the peer executing all
of it when the block first reads a reply. -/

namespace Sys2Proof.Machine

/-! ### At the peer -/

/-- The peer executes a stream, standing between two frames after it, and replies some bytes; what else it may change are DEV_ADDR,
DEV_LEN, the cartridge and the free words. -/
def State.Replies (stream reply : List Byte) (s : State) : Prop :=
  ∃ a l c fs count, peerFeed stream s = s.polled a l c fs count reply

/-- A word seeked and written to RAM, then seeked and read: its low byte is as written (R231, R230, R306). -/
theorem peerFeed_ramWord {w : WordAddr} (v : Word) {s : State} (hps : s.peer.ps = .op) (heff : s.cfg.readSideEffects = .none)
    (hmode : s.cart.ramMode = .banked) (hw : w.toNat ≠ mapperWord.toNat) (hregion : regionAt s.cart.map w.toNat = some .ram) :
    ∃ hi, s.Replies (seekFrame w ++ wordWrFrame v ++ (seekFrame w ++ wordRdFrame)) (wordBytes hi (fun _ => loByte v) 1) := by
  let t : State := { s with
    cart := { s.cart with cells := s.cart.cells.set (2 * w.toNat + 1) (loByte v) }
    peer := { s.peer with devAddr := w, ps := .op } }
  have hwritten : peerFeed (seekFrame w ++ wordWrFrame v ++ seekFrame w) s = t := by
    rw [peerFeed_append, peerFeed_append, peerFeed_seekFrame w hps, peerFeed_wordWrFrame v rfl, peerFeed_seekFrame w rfl]
    simp only [Cart.write_ram s.cfg hmode hw hregion]
    rfl
  have hknown : t.cart.known w.toNat = (none, some (loByte v)) := by
    rw [Cart.known_ram (c := t.cart) hmode hregion, Memory.get_set, if_pos rfl]
  obtain ⟨hi, fs, count, hread⟩ := peerFeed_rdLow (x := 0x42) (f := ⟨false, false, true, false⟩) (lo := fun _ => loByte v) (s := t)
    rfl rfl rfl rfl rfl heff fun _ _ => hknown
  refine ⟨hi, w, s.peer.devLen, t.cart, fs, count, ?_⟩
  rw [← List.append_assoc, peerFeed_append, hwritten]
  exact hread

/-- A chunk of MD_WRITE is a write of its words (R228, R300). -/
theorem peerFeed_writeChunk {data : List Byte} {n : Nat} {s : State} (hps : s.peer.ps = .op) (hl : data.length = 2 * n)
    (hn : n < 2 ^ 16) : peerFeed (writeChunk data) s = { s with
      cart :=
        s.cart.writeUnits s.cfg true s.peer.devAddr (fun i => some (data.getD (2 * i) 0)) (fun i => data.getD (2 * i + 1) 0) n
      peer := { s.peer with devAddr := s.peer.devAddr + BitVec.ofNat 24 n, devLen := BitVec.ofNat 16 n, ps := .op } } := by
  have hd : (BitVec.ofNat 16 n).toNat = n := by rw [BitVec.toNat_ofNat, Nat.mod_eq_of_lt hn]
  have hhalf : 2 * n / 2 = n := by omega
  have hdata : data.length = wrDataLength ⟨false, false, false, true⟩ (BitVec.ofNat 16 n) := by
    simp [wrDataLength, mdUnits, mdUnitBytes, hd, hl, Nat.mul_comm]
  have hbulk {u : State} (hu : u.peer.ps = .op) (hdev : u.peer.devLen = BitVec.ofNat 16 n) :
      peerFeed (bulkWrFrame ++ data) u = peerWr ⟨false, false, false, true⟩ data u :=
    peerFeed_wr (b := 0x83) rfl hu (by rw [hdev]; exact hdata)
  rw [writeChunk, hl, hhalf, List.append_assoc, peerFeed_append, peerFeed_lenFrame _ hps, hbulk rfl rfl, peerWr_eq hdata]
  simp only [mdUnits, Bool.false_eq_true, if_false, hd]
  rfl

/-- A chunk seeked and written to RAM, then seeked and read: the low bytes of its words are as written (R226, R228, R306). -/
theorem peerFeed_ramChunk {w : WordAddr} {data : List Byte} {n : Nat} {s : State} (hps : s.peer.ps = .op)
    (hl : data.length = 2 * n) (hn : n < 2 ^ 16) (heff : s.cfg.readSideEffects = .none) (hmode : s.cart.ramMode = .banked)
    (hram : s.cart.RamFrom w n) :
    ∃ hi, s.Replies (seekFrame w ++ writeChunk data ++ seekFrame w ++ readFrames (2 * n))
      (wordBytes hi (fun i => data.getD (2 * i + 1) 0) n) := by
  obtain ⟨m, hm, hget⟩ := Cart.writeUnits_ram s.cfg (w := w) hmode (by omega) hram (fun i => some (data.getD (2 * i) 0))
    fun i => data.getD (2 * i + 1) 0
  let t : State := { s with
    cart := { s.cart with cells := m }
    peer := { s.peer with devAddr := w, devLen := BitVec.ofNat 16 n, ps := .op } }
  have hwritten : peerFeed (seekFrame w ++ writeChunk data ++ seekFrame w) s = t := by
    rw [peerFeed_append, peerFeed_append, peerFeed_seekFrame w hps, peerFeed_writeChunk rfl hl hn, peerFeed_seekFrame w rfl]
    exact congrArg (fun c => { t with cart := c }) hm
  have hknown (i : Nat) (hlt : i < n) :
      t.cart.known (w + BitVec.ofNat 24 i).toNat = (none, some (data.getD (2 * i + 1) 0)) := by
    obtain ⟨-, hregion⟩ := hram i hlt
    rw [Cart.known_ram (c := t.cart) hmode hregion, hget i hlt]
  have hhalf : 2 * n / 2 = n := by omega
  have hunits : mdUnits ⟨false, false, false, true⟩ t.peer.devLen = n :=
    (BitVec.toNat_ofNat n 16).trans (Nat.mod_eq_of_lt hn)
  obtain ⟨hi, fs, count, hread⟩ := peerFeed_rdLow (x := 0x82) (f := ⟨false, false, false, true⟩)
    (lo := fun i => data.getD (2 * i + 1) 0) (s := t) rfl rfl rfl rfl rfl heff fun i hlt => hknown i (hunits ▸ hlt)
  rw [hunits] at hread
  refine ⟨hi, w + BitVec.ofNat 24 n, BitVec.ofNat 16 n, t.cart, fs, count, ?_⟩
  rw [readFrames, hhalf, peerFeed_append, hwritten, peerFeed_append, peerFeed_lenFrame _ rfl]
  exact hread

/-! ### At the block -/

/-- The block has sent bytes to a peer that stood between two frames with no reply on the line; the peer has executed none of them. -/
def State.Waiting (bytes : List Byte) (s : State) : Prop :=
  s.adapter = .md ∧ s.syncLost = false ∧ s.peer.stale = false ∧ s.peer.ps = .op ∧ s.peer.inbox = bytes ∧ s.peer.rxLine = []

theorem State.InStep.waiting {s : State} (h : s.InStep) : s.Waiting [] := h

theorem State.Waiting.sent {x : List Byte} {s : State} (h : s.Waiting x) (y : List Byte) (rest : List TxDraw) :
    (s.sent y rest).Waiting (x ++ y) := by
  obtain ⟨hmd, hsync, hstale, hps, hinbox, hline⟩ := h
  simp [State.Waiting, State.sent, hmd, hsync, hstale, hps, hinbox, hline]

/-- The state in which the peer begins with the bytes that wait for it. -/
def State.draining (s : State) : State := { s with peer := { s.peer with inbox := [] } }

/-- The peer executes what waits for it, and its replies to that are read. -/
theorem State.Waiting.rxRead {s : State} {bytes reply offered : List Byte} {rxs : List RxDraw} (h : s.Waiting bytes)
    (hv : s.env.visits = []) (hreplies : s.draining.Replies bytes reply) (hr : s.env.rx = .got offered :: rxs)
    (ho : reply.length ≤ offered.length) : ∃ a l c fs count, Machine.rxRead .md reply.length s =
      .ok (.got reply) ((s.draining.polled a l c fs count reply).answered rxs) := by
  obtain ⟨hmd, hsync, hstale, -, hinbox, hline⟩ := h
  obtain ⟨a, l, c, fs, count, hfeed⟩ := hreplies
  have hsettle : Machine.settlePeer s = s.draining.polled a l c fs count reply := by
    rw [Machine.settlePeer, hmd, ← hfeed, ← hinbox]
    rfl
  have hreply : (s.draining.polled a l c fs count reply).peer.rxLine = reply := by
    simp [State.draining, State.polled, hline]
  have hbound : (s.draining.polled a l c fs count reply).repliesBound .md = true := by
    simp [State.repliesBound, State.draining, State.polled, hmd, hsync, hstale]
  have hread := rxRead_replies (rest := rxs) hv hsettle hbound (by rw [hreply]) hr ho
  rw [hreply] at hread
  exact ⟨a, l, c, fs, count, hread⟩

/-- MD_SEEK has completed (R225). -/
def State.sought (w : WordAddr) (rest : List TxDraw) (s : State) : State :=
  State.completed (w.setWidth 32) { s.sent (seekFrame w) rest with curW := w, cursorValid := true }

/-- A word write has completed (R231, R232). -/
def State.wordWritten (w : WordAddr) (v : Word) (rest : List TxDraw) (s : State) : State :=
  State.completed 0 { s.sent (seekFrame w ++ wordWrFrame v) rest with curW := w, cursorValid := true }

/-- MD_WRITE of one chunk has completed (R228, R229). -/
def State.chunkWritten (len : Reg32) (data : List Byte) (rest : List TxDraw) (s : State) : State :=
  State.completed len { s.sent (writeChunk data) rest with
    curW := if s.cursorValid then s.curW + BitVec.ofNat 24 (len.toNat / 2) else s.curW }

section Writes

variable {x : List Byte} {s : State} (h : s.Waiting x)
include h

theorem State.Waiting.sought (w : WordAddr) (rest : List TxDraw) : (s.sought w rest).Waiting (x ++ seekFrame w) :=
  h.sent (seekFrame w) rest

theorem State.Waiting.wordWritten (w : WordAddr) (v : Word) (rest : List TxDraw) :
    (s.wordWritten w v rest).Waiting (x ++ (seekFrame w ++ wordWrFrame v)) :=
  h.sent (seekFrame w ++ wordWrFrame v) rest

theorem State.Waiting.chunkWritten (len : Reg32) (data : List Byte) (rest : List TxDraw) :
    (s.chunkWritten len data rest).Waiting (x ++ writeChunk data) :=
  h.sent (writeChunk data) rest

end Writes

theorem mdWrite_chunk {s : State} {boff len : Reg32} {data : List Byte} {k : Nat} {txs : List TxDraw} (hb : s.busy = false)
    (hv : s.env.visits = []) (heven : len.toNat % 2 = 0) (h0 : 0 < len.toNat) (hmax : len.toNat ≤ 65536)
    (hin : boff.toNat + len.toNat ≤ s.cfg.dbufSize) (hdata : s.dbuf.getBytes boff.toNat len.toNat = some data)
    (ht : s.env.tx = .accepted k :: txs) (hk : 5 + len.toNat ≤ k) : exec (.mdWrite boff len) s = .next (s.chunkWritten len data txs) := by
  have hlen : data.length = len.toNat := Memory.run_length _ _ _ _ hdata
  have hstream : streamBytes s.dbuf (writeStream (chunks len.toNat) boff.toNat) = some (writeChunk data) := by
    rw [chunks_single h0 hmax, streamBytes_writeStream_cons (more := []) hdata rfl, List.append_nil]
  have hwrite : txWriteParts .md (writeStream (chunks len.toNat) boff.toNat) s.accept = .ok () (s.accept.sent (writeChunk data) txs) :=
    txWriteParts_sent (writeStream_ne_nil h0) hv rfl ht hstream (by rw [writeChunk_bytes]; simp; omega)
  have hbody : mdWriteBody boff len s.accept = .ok len (advanceCursor (len.toNat / 2) (s.accept.sent (writeChunk data) txs)) := by
    rw [mdWriteBody, act_bind_ok (checkBulk_ok heven (s := s.accept) hin), act_bind_ok hwrite]
    rfl
  rw [advanceCursor_eq] at hbody
  exact request_completes hb hbody

section Read

variable {s : State} {k : Nat} {txs : List TxDraw} {offered : List Byte} {rxs : List RxDraw} (hb : s.busy = false)
  (hv : s.env.visits = []) (ht : s.env.tx = .accepted k :: txs) (hr : s.env.rx = .got offered :: rxs)
  (heff : s.cfg.readSideEffects = .none) (hmode : s.cart.ramMode = .banked)
include hb hv ht hr heff hmode

/-- MD_READ_WORD of a word of RAM that a write of it waits for (R230, R306). -/
theorem mdReadWord_ram {addr : Reg32} {v : Word} (h : s.Waiting (seekFrame (halved addr.toNat) ++ wordWrFrame v))
    (haddr : addr.toNat < 2 ^ 25) (hk : 7 ≤ k) (ho : 2 ≤ offered.length)
    (hw : (halved addr.toNat).toNat ≠ mapperWord.toNat) (hregion : regionAt s.cart.map (halved addr.toNat).toNat = some .ram) :
    ∃ u hi, exec (.mdReadWord addr) s = .next u ∧ u.done = true ∧ u.result = (word16 hi (loByte v)).setWidth 32 := by
  let bytes := seekFrame (halved addr.toNat) ++ wordRdFrame
  let t := setCursor (halved addr.toNat) (s.accept.sent bytes txs)
  have hwaits : t.Waiting (seekFrame (halved addr.toNat) ++ wordWrFrame v ++ bytes) := State.Waiting.sent (s := s.accept) h bytes txs
  obtain ⟨-, -, -, hps, -, -⟩ := id hwaits
  obtain ⟨hi, hreplies⟩ := peerFeed_ramWord v (s := t.draining) hps heff hmode hw hregion
  obtain ⟨a, l, c, fs, count, hread⟩ := hwaits.rxRead hv hreplies hr ho
  have hwrite : txWrite .md bytes s.accept = _ := txWrite_sent (s := s.accept) hv ht hk
  have hbody : mdReadWordBody addr s.accept = .ok ((word16 (hi 0) (loByte v)).setWidth 32)
      ((t.draining.polled a l c fs count (wordBytes hi (fun _ => loByte v) 1)).answered rxs) := by
    rw [mdReadWordBody, act_bind_ok (wordAddress_ok haddr), act_bind_ok hwrite, act_bind_ok (upd_run _ _),
      act_bind_ok (rxFill_latch rfl hread)]
    rfl
  exact ⟨_, hi 0, request_completes hb hbody, rfl, rfl⟩

/-- MD_READ of words of RAM that a write of them waits for (R226, R306). -/
theorem mdRead_ram {w : WordAddr} {boff len : Reg32} {data : List Byte} (h : s.Waiting (seekFrame w ++ writeChunk data ++ seekFrame w))
    (hl : data.length = len.toNat) (heven : len.toNat % 2 = 0) (h0 : 0 < len.toNat) (hmax : len.toNat ≤ 65536)
    (hin : boff.toNat + len.toNat ≤ s.cfg.dbufSize) (hk : 5 ≤ k) (ho : len.toNat ≤ offered.length)
    (hram : s.cart.RamFrom w (len.toNat / 2)) :
    ∃ u, exec (.mdRead boff len) s = .next u ∧ u.done = true ∧
      ∀ i < len.toNat / 2, u.dbuf.get (boff.toNat + 2 * i + 1) = some (data.getD (2 * i + 1) 0) := by
  have hwords : 2 * (len.toNat / 2) = len.toNat := by omega
  let t := s.accept.sent (readFrames len.toNat) txs
  have hwaits : t.Waiting (seekFrame w ++ writeChunk data ++ seekFrame w ++ readFrames len.toNat) :=
    State.Waiting.sent (s := s.accept) h _ txs
  obtain ⟨-, -, -, hps, -, -⟩ := id hwaits
  obtain ⟨hi, hreplies⟩ := peerFeed_ramChunk (data := data) (s := t.draining) (n := len.toNat / 2) hps (by omega) (by omega) heff
    hmode hram
  rw [hwords] at hreplies
  let reply := wordBytes hi (fun i => data.getD (2 * i + 1) 0) (len.toNat / 2)
  have hreply : reply.length = len.toNat := (wordBytes_length _ _ _).trans hwords
  obtain ⟨a, l, c, fs, count, hread⟩ := hwaits.rxRead hv hreplies hr (hreply.le.trans ho)
  rw [hreply] at hread
  let r := (t.draining.polled a l c fs count reply).answered rxs
  have hfill : rxFill (.dbuf boff.toNat) len.toNat t = .ok reply { r with dbuf := s.dbuf.setBytes boff.toNat reply } :=
    (rxFill_one (d := .dbuf boff.toNat) h0 hreply hread).trans (act_bind_ok (storeDbuf_none boff.toNat reply r rfl))
  have hbody : mdReadBody boff len s.accept =
      .ok len (advanceCursor (len.toNat / 2) { r with dbuf := s.dbuf.setBytes boff.toNat reply }) := by
    rw [mdReadBody_chunk (s := s.accept) heven h0 hmax hin hv ht hk, act_bind_ok hfill]
    rfl
  rw [advanceCursor_eq] at hbody
  refine ⟨_, request_completes hb hbody, rfl, fun i hlt => ?_⟩
  obtain ⟨-, hlow⟩ := Memory.get_setBytes_words s.dbuf boff.toNat (h := hi) (l := fun i => data.getD (2 * i + 1) 0) hlt
  exact hlow

end Read

/-- Settles O54: RAM banked out is out of reach of every write; RAM banked in keeps what is written, which the peer executes before it
replies to the read. -/
theorem ramByteReadsBack : Obligations.RamByteReadsBack := by
  refine ⟨fun s w hi lo hmode hw hwf x hx => ?_, fun s addr ⟨hb, hv⟩ h heff hmode haddr => ⟨?_, ?_⟩⟩
  · exact Cart.keepsRam_write s.cfg hmode (fun heq => hw (BitVec.eq_of_toNat_eq heq)) hwf hi lo x hx
  · intro b k1 k2 txs offered rxs hw hregion ht hk1 hk2 hr ho
    have hword : (halved addr.toNat).toNat = addr.toNat / 2 := by
      rw [halved, BitVec.toNat_ofNat, Nat.mod_eq_of_lt (by omega)]
    let t := s.wordWritten (halved addr.toNat) (word16 0x00 b) (.accepted k2 :: txs)
    obtain ⟨u, hi, hread, hdone, hresult⟩ := mdReadWord_ram (s := t) rfl hv rfl hr heff hmode (h.waiting.wordWritten _ _ _) haddr
      hk2 ho (hword ▸ hw) (hword ▸ hregion)
    refine ⟨t, u, wordWrite_completes hb haddr hv ht hk1, rfl, hread, hdone, ?_⟩
    rw [hresult, loByte_word16]
    exact (BitVec.extractLsb'_setWidth_of_le (by decide)).trans (loByte_word16 hi b)
  · intro boff boff2 len data offered rxs heven h0 hmax hin hin2 hdata hram hacc hr ho
    have hlen : data.length = len.toNat := Memory.run_length _ _ _ _ hdata
    obtain ⟨k1, txs1, ht1, hk1, hacc⟩ := hacc.cons
    obtain ⟨k2, txs2, rfl, hk2, hacc⟩ := hacc.cons
    obtain ⟨k3, txs3, rfl, hk3, hacc⟩ := hacc.cons
    obtain ⟨k4, txs4, rfl, hk4, -⟩ := hacc.cons
    let t := s.sought (halved addr.toNat) (.accepted k2 :: .accepted k3 :: .accepted k4 :: txs4)
    let u := t.chunkWritten len data (.accepted k3 :: .accepted k4 :: txs4)
    let v := u.sought (halved addr.toNat) (.accepted k4 :: txs4)
    have hwaits : v.Waiting _ := ((h.waiting.sought _ _).chunkWritten _ _ _).sought _ _
    obtain ⟨w, hread, hdone, hget⟩ := mdRead_ram (s := v) rfl hv rfl hr heff hmode hwaits hlen heven h0 hmax hin2 (by omega) ho hram
    refine ⟨t, u, v, w, mdSeek_completes hb haddr hv ht1 rfl (by omega), mdWrite_chunk rfl hv heven h0 hmax hin hdata rfl hk2, rfl,
      mdSeek_completes rfl haddr hv rfl rfl (by omega), hread, hdone, fun i hlt => ?_⟩
    have hbound : 2 * i + 1 < data.length := by omega
    rw [hget i hlt, List.getD_eq_getElem data 0 hbound, List.getElem?_eq_getElem hbound]

end Sys2Proof.Machine
end

section
/-! SUPPORT. What the peer goes by when it takes its TX stream, and that it leaves everything else as it is (R290). -/

namespace Sys2Proof.Machine

/-- The parameters, the peer, its cartridge and the free values of p, with everything else, and the record of a lost line, of b. -/
def State.withPeerOf (b p : State) : State :=
  { b with
    cfg := p.cfg
    peer := { p.peer with stale := b.peer.stale }
    cart := p.cart
    env := { b.env with free := p.env.free, count := p.env.count } }

/-- A function that goes by the peer's part of the state alone, and changes nothing else. -/
def AtPeer (f : State → State) : Prop := ∀ b p : State, f (b.withPeerOf p) = b.withPeerOf (f p)

/-- A draw that goes by the peer's part of the state alone, and changes nothing else. -/
def AtPeerDraw {α : Type} (take : State → α × State) : Prop :=
  ∀ b p : State, take (b.withPeerOf p) = ((take p).1, b.withPeerOf (take p).2)

theorem AtPeer.comp {f g : State → State} (hf : AtPeer f) (hg : AtPeer g) : AtPeer fun s => f (g s) :=
  fun b p => (congrArg f (hg b p)).trans (hf b (g p))

/-! ### The cartridge -/

theorem atPeerDraw_takeFree : AtPeerDraw takeFree := by
  intro b p
  cases h : p.env.free <;> simp [takeFree, State.withPeerOf, State.countDraw, h]

theorem atPeerDraw_cartRead (w : WordAddr) : AtPeerDraw (cartRead w) := by
  intro b p
  unfold cartRead
  rw [atPeerDraw_takeFree b p, show (b.withPeerOf p).cart = p.cart from rfl]
  dsimp only
  split <;> rfl

theorem atPeer_cartWrite (w : WordAddr) (hi : Option Byte) (lo : Byte) : AtPeer (cartWrite w hi lo) := fun _ _ => rfl

/-! ### The frames -/

theorem atPeerDraw_identityWord (f : MdFlags) : AtPeerDraw (identityWord f) := by
  intro b p
  unfold identityWord
  rw [atPeerDraw_takeFree b p, show (b.withPeerOf p).peer.idReply = p.peer.idReply from rfl]
  split
  · dsimp only
    split <;> rfl
  · rfl

theorem atPeerDraw_rdUnits (f : MdFlags) (n : Nat) (w : WordAddr) : AtPeerDraw (rdUnits f n w) := by
  induction n generalizing w with
  | zero => exact fun _ _ => rfl
  | succ n ih =>
    intro b p
    have hunit : (if f.devId then identityWord f (b.withPeerOf p) else cartRead w (b.withPeerOf p)) =
        ((if f.devId then identityWord f p else cartRead w p).1,
          b.withPeerOf (if f.devId then identityWord f p else cartRead w p).2) := by
      split
      · exact atPeerDraw_identityWord f b p
      · exact atPeerDraw_cartRead w b p
    rw [rdUnits, hunit]
    dsimp only
    rw [ih]
    rfl

theorem atPeer_peerRd (f : MdFlags) : AtPeer (peerRd f) := by
  intro b p
  have hunits := atPeerDraw_rdUnits f (mdUnits f p.peer.devLen) p.peer.devAddr b p
  unfold peerRd
  dsimp only
  rw [show (b.withPeerOf p).peer.devLen = p.peer.devLen from rfl, show (b.withPeerOf p).peer.devAddr = p.peer.devAddr from rfl, hunits]
  rfl

theorem atPeer_wrWords (moves : Bool) : ∀ (data : List Byte) (w : WordAddr), AtPeer (wrWords moves data w)
  | h :: l :: rest, w => (atPeer_wrWords moves rest _).comp (atPeer_cartWrite w (some h) l)
  | [], _ => fun _ _ => rfl
  | [_], _ => fun _ _ => rfl

theorem atPeer_wrLowBytes (moves : Bool) (data : List Byte) (w : WordAddr) : AtPeer (wrLowBytes moves data w) := by
  induction data generalizing w with
  | nil => exact fun _ _ => rfl
  | cons l rest ih => exact (ih _).comp (atPeer_cartWrite w none l)

theorem atPeer_peerWr (f : MdFlags) (data : List Byte) : AtPeer (peerWr f data) := by
  intro b p
  unfold peerWr
  dsimp only
  rw [show (b.withPeerOf p).peer.devAddr = p.peer.devAddr from rfl, atPeer_wrWords, atPeer_wrLowBytes]
  split <;> rfl

/-! ### The stream -/

theorem atPeer_peerCommand (x : Byte) : AtPeer (peerCommand x) := by
  intro b p
  unfold peerCommand
  cases mdKind x with
  | rd => exact atPeer_peerRd _ b p
  | wr =>
    dsimp only
    rw [show (b.withPeerOf p).peer.devLen = p.peer.devLen from rfl]
    split
    · exact atPeer_peerWr _ _ b p
    · rfl
  | addr | len | delay | ry | reserved => rfl

theorem atPeer_peerByte (x : Byte) : AtPeer (peerByte x) := by
  intro b p
  unfold peerByte
  rw [show (b.withPeerOf p).peer.ps = p.peer.ps from rfl]
  cases p.peer.ps with
  | op => exact atPeer_peerCommand x b p
  | wrData n f taken =>
    dsimp only
    split
    · exact atPeer_peerWr _ _ b p
    · rfl
  | addrB | lenB | delayB | undef => rfl

theorem atPeer_peerFeed (bytes : List Byte) : AtPeer (peerFeed bytes) := by
  induction bytes with
  | nil => exact fun _ _ => rfl
  | cons x rest ih => exact ih.comp (atPeer_peerByte x)

theorem atPeer_drain : AtPeer drain := fun b p =>
  atPeer_peerFeed p.peer.inbox b { p with peer := { p.peer with inbox := [] } }

/-- What the adapter can touch when it executes what has reached it is the peer's part of the state. -/
theorem settlePeer_eq (s : State) : settlePeer s = s.withPeerOf (settlePeer s) := by
  unfold settlePeer
  split
  · exact atPeer_drain s s
  · rfl

end Sys2Proof.Machine
end

section
/-! SUPPORT. What a running request leaves to its end, and how its I/O may end it (R320, R325, R329, R330, R361). -/

namespace Sys2Proof.Machine

/-! ### What a running request leaves to its end -/

/-- The flags of R23 that only the end of a request writes, SYNC_LOST, the error registers and RESULT. -/
structure State.Ledger where
  done : Bool
  err : Bool
  stickyErr : Bool
  syncLost : Bool
  errKind : Byte
  errSub : Byte
  errInfo : Reg32
  result : Reg32

def State.ledger (s : State) : State.Ledger where
  done := s.done
  err := s.err
  stickyErr := s.stickyErr
  syncLost := s.syncLost
  errKind := s.errKind
  errSub := s.errSub
  errInfo := s.errInfo
  result := s.result

/-- What comes on the line is free (R379; log entry 35). -/
def State.Free (s : State) : Prop := s.syncLost = true ∨ s.peer.stale = true

/-- A request accepted in s₀ has come to s without ending; where `line` holds it does not reopen the line (R379). -/
structure Underway (s₀ : State) (line : Prop) (s : State) : Prop where
  ledger : s.ledger = s₀.ledger
  noReset : s₀.NoReset → s.NoReset
  stale : line → s.peer.stale = s₀.peer.stale

/-- Everything that Underway looks at. -/
def State.account (s : State) : State.Ledger × Bool × List (List PortAction) := (s.ledger, s.peer.stale, s.env.visits)

/-! ### How it ends -/

/-- What a TransportError leaves (R325, R329). -/
def State.LineLost (fam : Family) (t : State) : Prop :=
  t.syncLost = true ∧ t.peer.stale = true ∧ (fam = .md → t.cursorValid = false ∧ t.delayValid = false)

/-- The request's I/O has raised (R330): a TransportError, a ProtocolError of a packet or the second echo. -/
structure RaisedInIo (fam : Family) (s₀ : State) (line : Prop) (t : State) : Prop where
  busy : t.busy = false
  xstate : t.xstate = .idle
  done : t.done = false
  err : t.err = true
  stickyErr : t.stickyErr = true
  result : t.result = s₀.result
  kind : (t.errKind = 1 ∧ t.LineLost fam) ∨ ((t.errKind = 2 ∨ t.errKind = 5) ∧ (line → s₀.Free → t.Free))

/-- A request accepted in s₀ ends otherwise than by completing: an error leaves C, and a reset leaves ERR clear (R361). -/
def Ended.Orderly (s₀ : State) (C : State → Prop) : Ended → State → Prop
  | .raised, t => C t
  | .reset, t => t.err = false ∧ ¬s₀.NoReset
  | .fault _, _ => True

theorem Underway.refl (s₀ : State) (line : Prop) : Underway s₀ line s₀ := ⟨rfl, id, fun _ => rfl⟩

section Pieces

variable {α β : Type} {s₀ : State} {line : Prop} {fam : Family} {C D : State → Prop}

theorem Underway.change {s t : State} (h : Underway s₀ line s) (ht : t.account = s.account) : Underway s₀ line t := by
  simp only [State.account, Prod.mk.injEq] at ht
  obtain ⟨hledger, hstale, hvisits⟩ := ht
  exact ⟨hledger.trans h.ledger, fun hn => by rw [State.NoReset, hvisits]; exact h.noReset hn, fun hl => hstale.trans (h.stale hl)⟩

theorem Underway.err {s : State} (h : Underway s₀ line s) : s.err = s₀.err := congrArg State.Ledger.err h.ledger

theorem Underway.result {s : State} (h : Underway s₀ line s) : s.result = s₀.result := congrArg State.Ledger.result h.ledger

/-- What is free stays so where the line is not reopened. -/
theorem Underway.free {s : State} (h : Underway s₀ line s) (hl : line) (hf : s₀.Free) : s.Free := by
  have hsync : s.syncLost = s₀.syncLost := congrArg State.Ledger.syncLost h.ledger
  rwa [State.Free, hsync, h.stale hl]

theorem Ended.Orderly.mono {e : Ended} {t : State} (hC : ∀ t, C t → D t)
    (h : Ended.Orderly s₀ C e t) : Ended.Orderly s₀ D e t := by
  cases e with
  | raised => exact hC t h
  | reset => exact h
  | fault f => trivial

theorem Ended.Orderly.leaves {e : Ended} {t : State} (h : Ended.Orderly s₀ C e t) : Ended.Leaves C e t := by
  cases e with
  | raised => exact h
  | reset => exact h.1
  | fault f => trivial

/-- A piece of the I/O: it leaves the registers to the request's end, or ends it. -/
abbrev UnderwayAct (s₀ : State) (line : Prop) (C : State → Prop) (m : Act α) : Prop :=
  Triple (Underway s₀ line) m (fun _ => Underway s₀ line) (Ended.Orderly s₀ C)

theorem underway_pure (a : α) : UnderwayAct s₀ line C (pure a) := triple_pure fun _ => id

theorem underway_look (f : State → α) : UnderwayAct s₀ line C (look f) := triple_look fun _ => id

theorem underway_upd {f : State → State} (h : ∀ s, (f s).account = s.account) : UnderwayAct s₀ line C (upd f) :=
  triple_upd fun s hs => hs.change (h s)

theorem underway_draw {take : State → α × State} (h : ∀ s, (take s).2.account = s.account) : UnderwayAct s₀ line C (draw take) :=
  triple_draw fun s hs => hs.change (h s)

theorem underway_orStop (f : State → Option α) : UnderwayAct s₀ line C (orStop f) :=
  (triple_orStop fun _ _ _ => trivial).post fun _ _ hs => hs.1

theorem underway_raise {e : Err} (he : e.kind = 2 ∨ e.kind = 5) (info : Nat) :
    UnderwayAct s₀ line (RaisedInIo fam s₀ line) (raise e info : Act α) :=
  triple_raise fun _ _ hs => ⟨rfl, rfl, rfl, rfl, rfl, hs.result, .inr ⟨he, fun hl hf => hs.free hl hf⟩⟩

theorem underway_check (ok : Bool) {e : Err} (he : e.kind = 2 ∨ e.kind = 5) (info : Nat) :
    UnderwayAct s₀ line (RaisedInIo fam s₀ line) (check ok e info) := by
  cases ok with
  | true => exact underway_pure ()
  | false => exact underway_raise he info

theorem State.lineLost_raiseTransport (fam : Family) (e : Err) (info : Nat) (s : State) : (s.raiseTransport fam e info).LineLost fam := by
  cases fam with
  | gb => exact ⟨rfl, rfl, nofun⟩
  | md => exact ⟨rfl, rfl, fun _ => ⟨rfl, rfl⟩⟩

theorem underway_raiseTransport {e : Err} (he : e.kind = 1) (info : Nat) :
    UnderwayAct s₀ line (RaisedInIo fam s₀ line) (raiseTransport fam e info : Act α) := by
  intro s hs
  have hresult : (s.loseSync fam).result = s.result := by cases fam <;> rfl
  exact ⟨rfl, rfl, rfl, rfl, rfl, hresult.trans hs.result, .inl ⟨he, s.lineLost_raiseTransport fam e info⟩⟩

/-! ### Draws and the peer -/

theorem takeTx_account (s : State) : (takeTx s).2.account = s.account := by
  unfold takeTx
  split <;> rfl

theorem takeRx_account (s : State) : (takeRx s).2.account = s.account := by
  unfold takeRx
  split <;> rfl

theorem takeReopen_account (s : State) : (takeReopen s).2.account = s.account := by
  unfold takeReopen
  split <;> rfl

theorem takeFreeByte_account (s : State) : (takeFreeByte s).2.account = s.account := by
  rw [show (takeFreeByte s).2 = (takeFree s).2 from rfl]
  unfold takeFree
  split <;> rfl

theorem takeReplies_account (n : Nat) (offered : List Byte) (s : State) : (takeReplies fam n offered s).2.account = s.account := by
  unfold takeReplies
  split <;> rfl

theorem settlePeer_account (s : State) : (settlePeer s).account = s.account := by
  rw [settlePeer_eq]
  rfl

theorem transmit_account (bytes : List Byte) (s : State) : (s.transmit bytes).account = s.account := by
  unfold State.transmit
  split <;> rfl

/-! ### The requester's visits -/

theorem underway_visitAction (a : PortAction) : UnderwayAct s₀ line C (visitAction a) := by
  cases a with
  | readReg r => exact triple_bind (underway_orStop _) fun _ => underway_upd fun _ => rfl
  | readDbuf off => exact underway_upd fun s => takeFreeByte_account s
  | writeDbuf off b =>
    refine underway_upd fun s => ?_
    unfold busyWriteDbuf
    split
    · exact takeFreeByte_account s
    · rfl
  | writeReq | reset => exact underway_pure ()

theorem underway_visitActions (actions : List PortAction) : UnderwayAct s₀ line C (visitActions actions) := by
  induction actions with
  | nil => exact underway_pure none
  | cons a rest ih =>
    by_cases ha : a = .reset
    · subst ha
      exact underway_pure (some rest)
    · rw [visitActions_cons rest ha]
      exact triple_bind (underway_visitAction a) fun _ => ih

theorem Underway.nextVisit {s : State} (h : Underway s₀ line s) {actions : List PortAction} {rest : List (List PortAction)}
    (hv : s.env.visits = actions :: rest) : Underway s₀ line { s with env := { s.env with visits := rest } } :=
  { h with noReset := fun hn a ha => h.noReset hn a (hv ▸ List.mem_cons_of_mem _ ha) }

/-- A visit sees a reset only where one was to come. -/
theorem underway_visit : Triple (Underway s₀ line) visit (fun v s => Underway s₀ line s ∧ (s₀.NoReset → v = none))
    (Ended.Orderly s₀ C) := by
  have hkeeps : UnderwayAct s₀ line C visit := by
    intro s hs
    cases hv : s.env.visits with
    | nil => rw [visit_none hv]; exact hs
    | cons actions rest =>
      rw [visit_cons hv]
      exact underway_visitActions actions _ (hs.nextVisit hv)
  intro s hs
  have hk := hkeeps s hs
  cases hr : visit s with
  | ok v t => rw [hr] at hk; exact ⟨hk, fun hn => visit_ok_none (hs.noReset hn) hr⟩
  | error e t => rwa [hr] at hk

theorem underway_endVisit {v : Option (List PortAction)} (h : s₀.NoReset → v = none) : UnderwayAct s₀ line C (endVisit v) := by
  cases v with
  | none => exact underway_pure ()
  | some rest => exact fun _ _ => ⟨rfl, fun hn => nomatch h hn⟩

theorem underway_meet : UnderwayAct s₀ line C meet :=
  triple_bind underway_visit fun _ => triple_of underway_endVisit

/-! ### The transport and DBUF -/

theorem underway_txWriteOf (n : Nat) {first : Nat → Act (List Byte)}
    (hf : ∀ k, UnderwayAct s₀ line (RaisedInIo fam s₀ line) (first k)) :
    UnderwayAct s₀ line (RaisedInIo fam s₀ line) (txWriteOf fam n first) := by
  refine triple_bind underway_visit fun v => triple_of fun hv => triple_bind (underway_draw takeTx_account) fun d =>
    triple_bind (hf _) fun bytes => triple_bind (underway_upd (transmit_account bytes)) fun _ =>
    triple_bind (underway_endVisit hv) fun _ => ?_
  cases d with
  | accepted k =>
    dsimp only
    split
    · exact underway_raiseTransport rfl _
    · exact underway_pure ()
  | failed k => exact underway_raiseTransport rfl _

theorem underway_txWrite (bytes : List Byte) : UnderwayAct s₀ line (RaisedInIo fam s₀ line) (txWrite fam bytes) :=
  underway_txWriteOf _ fun _ => underway_pure _

theorem underway_rxRead (n : Nat) : UnderwayAct s₀ line C (rxRead fam n) :=
  triple_bind underway_meet fun _ => triple_bind (underway_upd settlePeer_account) fun _ =>
    triple_bind (underway_draw takeRx_account) fun _ => triple_bind (underway_draw (takeReplies_account n _)) fun _ => underway_pure _

theorem underway_maskHazard (off : Nat) (bytes : List Byte) : UnderwayAct s₀ line C (maskHazard off bytes) := by
  induction bytes generalizing off with
  | nil => exact underway_pure []
  | cons b rest ih =>
    have hbyte : UnderwayAct s₀ line C (maskByte off b) := by
      intro s hs
      by_cases hm : off ∈ s.hazard
      · rw [show maskByte off b s = .ok (takeFreeByte s).1 (takeFreeByte s).2 by simp [maskByte, hm]]
        exact hs.change (takeFreeByte_account s)
      · rw [show maskByte off b s = .ok b s by simp [maskByte, hm]]
        exact hs
    exact triple_bind hbyte fun _ => triple_bind (ih _) fun _ => underway_pure _

theorem underway_memRead (off n : Nat) : UnderwayAct s₀ line C (memRead off n) :=
  triple_bind (underway_orStop _) fun _ => underway_maskHazard _ _

theorem underway_txBytes (parts : List TxPart) (k : Nat) : UnderwayAct s₀ line C (txBytes parts k) := by
  induction parts generalizing k with
  | nil => exact underway_pure _
  | cons part rest ih =>
    cases part with
    | bytes b => exact triple_bind (ih _) fun _ => underway_pure _
    | dbuf off n => exact triple_bind (underway_memRead off _) fun _ => triple_bind (ih _) fun _ => underway_pure _

theorem underway_txWriteParts (parts : List TxPart) : UnderwayAct s₀ line (RaisedInIo fam s₀ line) (txWriteParts fam parts) := by
  unfold txWriteParts
  split
  · exact underway_pure _
  · exact underway_txWriteOf _ (underway_txBytes parts)

theorem underway_storeDbuf (off : Nat) (bytes : List Byte) : UnderwayAct s₀ line C (storeDbuf off bytes) :=
  triple_bind (underway_maskHazard _ _) fun _ => underway_upd fun _ => rfl

theorem underway_storeAt (d : Destination) (got : Nat) (bytes : List Byte) : UnderwayAct s₀ line C (storeAt d got bytes) := by
  cases d with
  | dbuf off => exact underway_storeDbuf _ bytes
  | latch => exact underway_pure ()

theorem underway_rxFill (d : Destination) (n : Nat) : UnderwayAct s₀ line (RaisedInIo .md s₀ line) (rxFill d n) := by
  have hloop (fuel : Nat) (got : List Byte) : UnderwayAct s₀ line (RaisedInIo .md s₀ line) (rxFillLoop d n fuel got) := by
    induction fuel generalizing got with
    | zero => exact underway_pure _
    | succ fuel ih =>
      unfold rxFillLoop
      split
      · exact underway_pure _
      · refine triple_bind (underway_rxRead _) fun answer => ?_
        cases answer with
        | timedOut t => exact triple_bind (underway_storeAt d _ t) fun _ => underway_raiseTransport rfl _
        | failed t => exact triple_bind (underway_storeAt d _ t) fun _ => underway_raiseTransport rfl _
        | got t =>
          dsimp only
          split
          · exact underway_raiseTransport rfl _
          · exact triple_bind (underway_storeAt d _ t) fun _ => ih _
  exact hloop n []

/-- The line is a new one after a Reopen (R379). -/
theorem underway_reopen (hline : ¬line) (t : Nat) : UnderwayAct s₀ line (RaisedInIo .md s₀ line) (reopen t) := by
  refine triple_bind underway_meet fun _ => triple_bind (underway_upd settlePeer_account) fun _ =>
    triple_bind (underway_draw takeReopen_account) fun ok =>
    triple_upd_bind (R := Underway s₀ line) (fun s hs => ⟨hs.ledger, hs.noReset, fun hl => absurd hl hline⟩) ?_
  cases ok with
  | true => exact underway_pure ()
  | false => exact underway_raiseTransport rfl _

/-! ### The MD unit -/

theorem underway_advanceCursor (words : Nat) : UnderwayAct s₀ line C (upd (advanceCursor words)) :=
  underway_upd fun s => by rw [advanceCursor_eq]; rfl

theorem underway_readChunks (sizes : List Nat) (off : Nat) :
    UnderwayAct s₀ line (RaisedInIo .md s₀ line) (readChunks sizes off) := by
  induction sizes generalizing off with
  | nil => exact underway_pure _
  | cons c rest ih =>
    exact triple_bind (underway_txWrite _) fun _ => triple_bind (underway_rxFill _ c) fun _ =>
      triple_bind (underway_advanceCursor _) fun _ => ih _

theorem underway_ramCtl (v : Word) (d : Byte) : UnderwayAct s₀ line (RaisedInIo .md s₀ line) (ramCtl v d) :=
  triple_bind (underway_txWrite _) fun _ => triple_bind (underway_upd fun _ => rfl) fun _ => underway_upd fun _ => rfl

theorem underway_getId : UnderwayAct s₀ line (RaisedInIo .md s₀ line) getId :=
  triple_bind (underway_txWrite _) fun _ => triple_bind (underway_rxFill _ 2) fun _ => underway_pure _

theorem underway_eraseIo (addr : Reg32) : UnderwayAct s₀ line (RaisedInIo .md s₀ line) (eraseIo addr) :=
  triple_bind (underway_look _) fun _ => triple_bind (underway_txWrite _) fun _ => triple_bind (underway_rxFill _ _) fun _ =>
    underway_upd fun _ => rfl

theorem underway_sendSequence (seq : List (Nat × Word)) : UnderwayAct s₀ line (RaisedInIo .md s₀ line) (sendSequence seq) := by
  refine triple_bind (underway_txWrite _) fun _ => ?_
  split
  · exact underway_upd fun _ => rfl
  · exact underway_pure _

theorem underway_programWords (cfg : Params) (words off : Nat) :
    UnderwayAct s₀ line (RaisedInIo .md s₀ line) (programWords cfg words off) := by
  induction words generalizing off with
  | zero => exact underway_pure _
  | succ words ih =>
    exact triple_bind (underway_txWriteParts _) fun _ => triple_bind (underway_rxFill _ _) fun _ =>
      triple_bind (underway_advanceCursor 1) fun _ => ih _

theorem underway_programIo (words off : Nat) : UnderwayAct s₀ line (RaisedInIo .md s₀ line) (programIo words off) := by
  refine triple_bind (underway_look _) fun cfg => ?_
  cases cfg.readyPoll with
  | ryThenRdSingle => exact underway_programWords cfg words off
  | ryOnly => exact triple_bind (underway_txWriteParts _) fun _ => underway_advanceCursor words

/-- What an error does to the cartridge beside the error itself leaves the error as it is (R281, R373). -/
theorem RaisedInIo.withCart {t : State} (h : RaisedInIo fam s₀ line t) (c : State → Cart) :
    RaisedInIo fam s₀ line { settlePeer t with cart := c (settlePeer t) } := by
  rw [settlePeer_eq]
  exact { h with }

theorem RaisedInIo.loseRamMode {t : State} (h : RaisedInIo fam s₀ line t) : RaisedInIo fam s₀ line (loseRamMode t) :=
  h.withCart fun s => { s.cart with ramMode := .unknown }

theorem RaisedInIo.loseFlash {t : State} (h : RaisedInIo fam s₀ line t) (a n : Nat) : RaisedInIo fam s₀ line (loseFlash a n t) :=
  h.withCart fun s => (s.cart.forgetRange a n).forgetRange 0 (a + n - addressLimit)

/-! ### The GB unit -/

theorem underway_buildPacket (p : List Byte) : UnderwayAct s₀ line C (upd (buildPacket p)) :=
  underway_upd fun s => by unfold buildPacket; split <;> rfl

theorem underway_sendPacket (p : List Byte) : UnderwayAct s₀ line (RaisedInIo .gb s₀ line) (sendPacket p) := by
  unfold sendPacket
  split
  · exact triple_bind (underway_upd fun _ => rfl) fun _ => triple_bind (underway_txWrite _) fun _ => underway_pure _
  · exact triple_bind (underway_txWrite _) fun _ => underway_pure _

theorem underway_sendBuilt (p : List Byte) : UnderwayAct s₀ line (RaisedInIo .gb s₀ line) (sendBuilt p) :=
  triple_bind (underway_buildPacket p) fun _ => underway_sendPacket p

theorem underway_storeRx (off : Nat) (bytes : List Byte) : UnderwayAct s₀ line C (upd (storeRx off bytes)) := underway_upd fun _ => rfl

theorem underway_receivePacket : UnderwayAct s₀ line (RaisedInIo .gb s₀ line) receivePacket := by
  refine triple_bind (underway_upd fun _ => rfl) fun _ => triple_bind (underway_rxRead _) fun first => ?_
  split
  · exact triple_bind (underway_storeRx _ _) fun _ => underway_raiseTransport rfl _
  · exact triple_bind (underway_storeRx _ _) fun _ => underway_raiseTransport rfl _
  · exact underway_raiseTransport rfl _
  · refine triple_bind (underway_storeRx _ _) fun _ => ?_
    split
    · exact triple_bind (underway_upd fun _ => rfl) fun _ => underway_pure _
    · refine triple_bind (underway_rxRead _) fun rest => ?_
      cases rest with
      | timedOut t => exact triple_bind (underway_storeRx _ _) fun _ => underway_raiseTransport rfl _
      | failed t => exact triple_bind (underway_storeRx _ _) fun _ => underway_raiseTransport rfl _
      | got t =>
        refine triple_bind (underway_storeRx _ _) fun _ => ?_
        split
        · exact underway_raiseTransport rfl _
        · exact triple_bind (underway_upd fun _ => rfl) fun _ => underway_pure _

theorem underway_checkPacket (p : List Byte) : UnderwayAct s₀ line (RaisedInIo fam s₀ line) (checkPacket p) := by
  refine triple_bind (underway_look _) fun n => ?_
  split
  · exact underway_raise (.inl rfl) _
  · exact triple_bind (underway_upd fun _ => rfl) fun _ => triple_bind (underway_check _ (.inl rfl) _) fun _ => underway_pure _

theorem underway_setXState (x : XState) : UnderwayAct s₀ line C (setXState x) := underway_upd fun _ => rfl

theorem underway_startTransfer (dir : BitVec 2) (n : Nat) (boff : Reg32) : UnderwayAct s₀ line C (startTransfer dir n boff) :=
  underway_upd fun _ => rfl

theorem underway_finishTransfer : UnderwayAct s₀ line C finishTransfer :=
  triple_bind (underway_setXState .done) fun _ => underway_look _

theorem underway_storeFrame (p : List Byte) : UnderwayAct s₀ line C (storeFrame p) :=
  triple_bind (underway_look _) fun _ => triple_bind (underway_look _) fun _ => triple_bind (underway_storeDbuf _ _) fun _ =>
    underway_upd fun _ => rfl

theorem underway_acceptData (p : List Byte) : UnderwayAct s₀ line (RaisedInIo fam s₀ line) (acceptData p) :=
  triple_bind (underway_checkPacket p) fun _ => triple_bind (underway_check _ (.inl rfl) _) fun _ =>
    triple_bind (underway_look _) fun _ => triple_bind (underway_look _) fun _ => triple_bind (underway_look _) fun _ =>
    triple_bind (underway_check _ (.inl rfl) _) fun _ => underway_check _ (.inl rfl) _

theorem underway_readLoop (fuel : Nat) : UnderwayAct s₀ line (RaisedInIo .gb s₀ line) (readLoop fuel) := by
  induction fuel with
  | zero => exact underway_look _
  | succ fuel ih =>
    refine triple_bind underway_receivePacket fun p => ?_
    split
    · refine triple_bind (underway_look _) fun _ => triple_bind (underway_look _) fun _ => ?_
      split
      · exact underway_finishTransfer
      · exact underway_raise (.inl rfl) _
    · refine triple_bind (underway_acceptData p) fun _ => triple_bind (underway_storeFrame p) fun _ =>
        triple_bind (underway_look _) fun _ => triple_bind (underway_look _) fun _ => ?_
      split
      · exact underway_finishTransfer
      · exact triple_bind (underway_setXState .continuing) fun _ => triple_bind (underway_sendBuilt _) fun _ =>
          triple_bind (underway_setXState .awaitResponse) fun _ => ih

theorem underway_expectAck : UnderwayAct s₀ line (RaisedInIo .gb s₀ line) expectAck :=
  triple_bind underway_receivePacket fun _ => underway_check _ (.inl rfl) _

theorem underway_loadPacket (mk : List Byte → List Byte) (off : Nat) : UnderwayAct s₀ line C (loadPacket mk off) :=
  triple_bind (underway_memRead off 64) fun _ => triple_bind (underway_buildPacket _) fun _ =>
    triple_bind (underway_upd fun _ => rfl) fun _ => underway_pure _

theorem underway_sendLoaded (mk : List Byte → List Byte) (off : Nat) :
    UnderwayAct s₀ line (RaisedInIo .gb s₀ line) (sendLoaded mk off) :=
  triple_bind (underway_loadPacket mk off) fun _ => underway_txWriteOf _ fun _ => triple_bind (underway_loadPacket mk off) fun _ =>
    triple_bind (triple_bind (underway_maskHazard off _) fun _ => underway_pure _) fun _ => underway_pure _

theorem underway_writeLoop (packets : Nat) : UnderwayAct s₀ line (RaisedInIo .gb s₀ line) (writeLoop packets) := by
  induction packets with
  | zero => exact underway_pure _
  | succ packets ih =>
    exact triple_bind (underway_setXState .continuing) fun _ => triple_bind (underway_look _) fun _ =>
      triple_bind (underway_look _) fun _ => triple_bind (underway_look _) fun _ => triple_bind (underway_look _) fun _ =>
      triple_bind (underway_sendLoaded _ _) fun _ => triple_bind (underway_setXState .awaitResponse) fun _ =>
      triple_bind underway_expectAck fun _ => triple_bind (underway_upd fun _ => rfl) fun _ => ih

end Pieces

end Sys2Proof.Machine
end

section
/-! SUPPORT. Every request ends by completing, by an error of its argument checks, by an error in its I/O, or by a reset (R320, R322,
R330, R361). -/

namespace Sys2Proof.Machine

section Requests

variable {α β : Type} {s₀ : State} {line : Prop} {fam : Family} {C : State → Prop}

/-! ### Argument checks -/

/-- A check refuses the request, everything else being as it was (R322, R323). -/
def RefusedAt (s₀ t : State) : Prop := ∃ (e : Err) (info : Reg32), e.kind ≠ 1 ∧ t = s₀.raise e info

/-- How a request may raise: refused by a check, or in its I/O. -/
def RaisedFrom (fam : Family) (s₀ : State) (line : Prop) (t : State) : Prop := RefusedAt s₀ t ∨ RaisedInIo fam s₀ line t

/-- Argument checks: they change nothing, or refuse the request. -/
abbrev ChecksAct (s₀ : State) (m : Act α) : Prop :=
  Triple (fun s => s = s₀) m (fun _ s => s = s₀) (Ended.Orderly s₀ (RefusedAt s₀))

/-- A request from its acceptance on: it may also raise C. -/
abbrev RequestAct (s₀ : State) (line : Prop) (C : State → Prop) (m : Act α) : Prop :=
  Triple (fun s => s = s₀) m (fun _ => Underway s₀ line) (Ended.Orderly s₀ C)

theorem checks_raise {e : Err} (he : e.kind ≠ 1) (info : Nat) : RequestAct s₀ line (RefusedAt s₀) (raise e info : Act α) :=
  triple_raise fun s r hs => by subst hs; exact ⟨e, r, he, rfl⟩

theorem checks_check (ok : Bool) {e : Err} (he : e.kind ≠ 1) (info : Nat) : ChecksAct s₀ (check ok e info) :=
  (triple_check fun s r hs => by subst hs; exact ⟨e, r, he, rfl⟩).post fun _ _ hs => hs.1

theorem checks_look (f : State → α) : ChecksAct s₀ (look f) := triple_look fun _ => id

theorem checks_checkDbuf (boff : Reg32) (n : Nat) : ChecksAct s₀ (checkDbuf boff n) :=
  triple_bind (checks_look _) fun _ => checks_check _ (by decide) _

theorem checks_wordAddress (addr : Reg32) : ChecksAct s₀ (wordAddress addr) :=
  triple_bind (checks_check _ (by decide) _) fun _ => triple_pure fun _ => id

theorem checks_checkBulk (boff len : Reg32) : ChecksAct s₀ (checkBulk boff len) :=
  triple_bind (checks_check _ (by decide) _) fun _ => checks_checkDbuf boff _

theorem checks_checkErase (addr : Reg32) : ChecksAct s₀ (checkErase addr) :=
  triple_bind (checks_check _ (by decide) _) fun _ => checks_check _ (by decide) _

theorem checks_checkTransfer (boff len : Reg32) : ChecksAct s₀ (checkTransfer boff len) :=
  triple_bind (checks_check _ (by decide) _) fun _ => checks_checkDbuf boff _

/-- I/O without argument checks. -/
theorem Triple.fromAccepted {Q : α → State → Prop} {E : Ended → State → Prop} {m : Act α}
    (hm : Triple (Underway s₀ line) m Q E) :
    Triple (fun s => s = s₀) m Q E :=
  hm.pre fun _ hs => hs ▸ Underway.refl s₀ line

theorem request_io {m : Act α} (hm : UnderwayAct s₀ line (RaisedInIo fam s₀ line) m) :
    RequestAct s₀ line (RaisedFrom fam s₀ line) m :=
  hm.fromAccepted.weaken (fun _ => id) (fun _ _ => id) fun _ _ => Ended.Orderly.mono fun _ => .inr

/-- A request that raises in its checks only. -/
theorem request_checks {m : Act α} (hm : RequestAct s₀ line (RefusedAt s₀) m) : RequestAct s₀ line (RaisedFrom fam s₀ line) m :=
  hm.weaken (fun _ => id) (fun _ _ => id) fun _ _ => Ended.Orderly.mono fun _ => .inl

/-- Argument checks, then the rest of the request. -/
theorem request_checked {m : Act β} {f : β → Act α} (hm : ChecksAct s₀ m)
    (hf : ∀ b, RequestAct s₀ line (RaisedFrom fam s₀ line) (f b)) : RequestAct s₀ line (RaisedFrom fam s₀ line) (m >>= f) :=
  triple_bind (hm.weaken (fun _ => id) (fun _ _ => id) fun _ _ => Ended.Orderly.mono fun _ => .inl) hf

/-! ### The requests -/

theorem request_crcContinue (bytes : List Byte) : RequestAct s₀ line (RaisedFrom fam s₀ line) (crcContinue bytes) :=
  request_io (triple_bind (underway_upd fun _ => rfl) fun _ => underway_look _)

theorem request_crcClearBody : RequestAct s₀ line (RaisedFrom fam s₀ line) crcClearBody :=
  request_io (triple_bind (underway_upd fun _ => rfl) fun _ => underway_pure _)

theorem request_crcBlockBody (boff len : Reg32) : RequestAct s₀ line (RaisedFrom fam s₀ line) (crcBlockBody boff len) :=
  request_checked (checks_checkDbuf boff _) fun _ => request_io <| triple_bind underway_meet fun _ =>
    triple_bind (underway_memRead _ _) fun _ => triple_bind (underway_upd fun _ => rfl) fun _ => underway_look _

theorem validatePacket_kind {c m sub : Byte} {e : Err} {info : Nat} (h : validatePacket c m sub = some (e, info)) : e.kind ≠ 1 := by
  unfold validatePacket at h
  split_ifs at h <;> cases h <;> decide

/-- Every error of PKT_BUILD is one of its checks' (R151, R152, R323). -/
theorem checks_pktBuildBody (c m sub : Byte) (index : BitVec 24) (boff : Reg32) :
    RequestAct s₀ line (RefusedAt s₀) (pktBuildBody c m sub index boff) := by
  unfold pktBuildBody
  split
  · next e info h => exact checks_raise (validatePacket_kind h) _
  · split
    · exact (triple_bind (underway_buildPacket _) fun _ => underway_pure _).fromAccepted
    · exact triple_bind (checks_checkDbuf boff 64) fun _ => Triple.fromAccepted <| triple_bind underway_meet fun _ =>
        triple_bind (underway_memRead _ _) fun _ => triple_bind (underway_buildPacket _) fun _ => underway_pure _

theorem request_pktSendBody : RequestAct s₀ line (RaisedFrom .gb s₀ line) pktSendBody :=
  request_checked (checks_look _) fun _ => request_checked (checks_check _ (by decide) _) fun _ => request_io <|
    triple_bind (underway_orStop _) fun p => triple_bind (underway_sendPacket p) fun _ => underway_pure _

theorem request_pktReceiveBody : RequestAct s₀ line (RaisedFrom .gb s₀ line) pktReceiveBody :=
  request_io (triple_bind underway_receivePacket fun _ => underway_pure _)

theorem request_pktCheckBody : RequestAct s₀ line (RaisedFrom .gb s₀ line) pktCheckBody :=
  request_io (triple_bind (underway_orStop _) fun p => triple_bind (underway_checkPacket p) fun _ => underway_pure _)

theorem request_gbReadRamBody (boff len : Reg32) : RequestAct s₀ line (RaisedFrom .gb s₀ line) (gbReadRamBody boff len) :=
  request_checked (checks_checkTransfer boff len) fun _ => request_io <| triple_bind (underway_startTransfer _ _ _) fun _ =>
    triple_bind (underway_look _) fun _ => triple_bind (underway_sendBuilt _) fun _ => triple_bind (underway_setXState _) fun _ =>
    underway_readLoop _

theorem request_gbWriteRamBody (boff len : Reg32) : RequestAct s₀ line (RaisedFrom .gb s₀ line) (gbWriteRamBody boff len) :=
  request_checked (checks_checkTransfer boff len) fun _ => request_io <| triple_bind (underway_startTransfer _ _ _) fun _ =>
    triple_bind (underway_look _) fun _ => triple_bind (underway_sendBuilt _) fun _ => triple_bind (underway_setXState _) fun _ =>
    triple_bind underway_expectAck fun _ => triple_bind (underway_writeLoop _) fun _ => underway_finishTransfer

theorem request_statusQuery (sub : Byte) (boff : Reg32) : RequestAct s₀ line (RaisedFrom .gb s₀ line) (statusQuery sub boff) :=
  request_checked (checks_checkDbuf boff 64) fun _ => request_io <| triple_bind (underway_startTransfer _ _ _) fun _ =>
    triple_bind (underway_sendBuilt _) fun _ => triple_bind (underway_setXState _) fun _ =>
    triple_bind underway_receivePacket fun p => triple_bind (underway_checkPacket p) fun _ =>
    triple_bind (underway_storeFrame p) fun _ => underway_finishTransfer

theorem request_mdSeekBody (whence : BitVec 2) (addr : Reg32) :
    RequestAct s₀ line (RaisedFrom .md s₀ line) (mdSeekBody whence addr) :=
  request_checked (checks_check _ (by decide) _) fun _ => request_checked (checks_check _ (by decide) _) fun _ =>
    request_checked (checks_check _ (by decide) _) fun _ => request_checked (checks_wordAddress addr) fun _ => request_io <|
    triple_bind (underway_txWrite _) fun _ => triple_bind (underway_upd fun _ => rfl) fun _ => underway_pure _

theorem request_mdReadBody (boff len : Reg32) : RequestAct s₀ line (RaisedFrom .md s₀ line) (mdReadBody boff len) :=
  request_checked (checks_checkBulk boff len) fun _ => request_io (triple_bind (underway_readChunks _ _) fun _ => underway_pure _)

theorem request_mdWriteBody (boff len : Reg32) : RequestAct s₀ line (RaisedFrom .md s₀ line) (mdWriteBody boff len) :=
  request_checked (checks_checkBulk boff len) fun _ => request_io <| triple_bind (underway_txWriteParts _) fun _ =>
    triple_bind (underway_advanceCursor _) fun _ => underway_pure _

theorem request_mdReadWordBody (addr : Reg32) : RequestAct s₀ line (RaisedFrom .md s₀ line) (mdReadWordBody addr) :=
  request_checked (checks_wordAddress addr) fun _ => request_io <| triple_bind (underway_txWrite _) fun _ =>
    triple_bind (underway_upd fun _ => rfl) fun _ => triple_bind (underway_rxFill _ 2) fun _ => underway_pure _

theorem request_wordWrite (addr : Reg32) (v : Word) : RequestAct s₀ line (RaisedFrom .md s₀ line) (wordWrite addr v) :=
  request_checked (checks_wordAddress addr) fun _ => request_io <| triple_bind (underway_txWrite _) fun _ =>
    triple_bind (underway_upd fun _ => rfl) fun _ => underway_pure _

theorem request_mdRamEnableBody : RequestAct s₀ line (RaisedFrom .md s₀ line) mdRamEnableBody :=
  request_io <| triple_bind (underway_look _) fun _ =>
    triple_bind (triple_onRaise (fun _ => RaisedInIo.loseRamMode) (underway_ramCtl _ _)) fun _ =>
    triple_bind (underway_upd fun _ => rfl) fun _ => underway_pure _

theorem request_mdRamDisableBody : RequestAct s₀ line (RaisedFrom .md s₀ line) mdRamDisableBody :=
  request_io <| triple_bind (underway_look _) fun _ =>
    triple_bind (triple_onRaise (fun _ => RaisedInIo.loseRamMode) (underway_ramCtl _ _)) fun _ =>
    triple_bind (underway_upd fun _ => rfl) fun _ => underway_pure _

theorem request_mdGetIdBody : RequestAct s₀ line (RaisedFrom .md s₀ line) mdGetIdBody :=
  request_io (triple_bind underway_getId fun _ => underway_pure _)

theorem underway_setAttempt (n : BitVec 2) : UnderwayAct s₀ line C (setAttempt n) := underway_upd fun _ => rfl

/-- MD_HANDSHAKE may reopen the line. -/
theorem request_mdHandshakeBody (hline : ¬line) : RequestAct s₀ line (RaisedFrom .md s₀ line) mdHandshakeBody := by
  refine request_io <| triple_bind (underway_setAttempt 0) fun _ => triple_bind underway_getId fun id =>
    triple_bind (underway_setAttempt 1) fun _ => ?_
  split
  · refine triple_bind (underway_look _) fun _ => triple_bind (underway_reopen hline _) fun _ => triple_bind underway_getId fun id =>
      triple_bind (underway_setAttempt 2) fun _ => ?_
    split
    · exact triple_bind (underway_setAttempt 0) fun _ => underway_raise (.inr rfl) _
    · exact triple_bind (underway_txWrite _) fun _ => triple_bind (underway_upd fun _ => rfl) fun _ =>
        triple_bind (underway_setAttempt 0) fun _ => underway_pure _
  · exact triple_bind (underway_setAttempt 0) fun _ => underway_pure _

theorem request_mdFlashEraseBody (addr : Reg32) : RequestAct s₀ line (RaisedFrom .md s₀ line) (mdFlashEraseBody addr) :=
  request_checked (checks_checkErase addr) fun _ => request_io <|
    triple_bind (triple_onRaise (fun _ ht => RaisedInIo.loseFlash ht _ _) (underway_eraseIo addr)) fun _ => underway_pure _

theorem request_mdFlashUnlockBypassBody : RequestAct s₀ line (RaisedFrom .md s₀ line) mdFlashUnlockBypassBody :=
  request_io <| triple_bind (underway_look _) fun _ => triple_bind (underway_sendSequence _) fun _ =>
    triple_bind (underway_upd fun _ => rfl) fun _ => underway_pure _

theorem request_mdFlashResetBypassBody : RequestAct s₀ line (RaisedFrom .md s₀ line) mdFlashResetBypassBody :=
  request_io <| triple_bind (underway_look _) fun _ => triple_bind (underway_sendSequence _) fun _ =>
    triple_bind (underway_upd fun _ => rfl) fun _ => underway_pure _

theorem request_mdFlashWriteBody (boff len : Reg32) : RequestAct s₀ line (RaisedFrom .md s₀ line) (mdFlashWriteBody boff len) :=
  request_checked (checks_checkBulk boff len) fun _ => request_io <| triple_bind (underway_look _) fun _ =>
    triple_bind (triple_onRaise (fun _ ht => RaisedInIo.loseFlash ht _ _) (underway_programIo _ _)) fun _ => underway_pure _

/-- A request that has ended with ERR set has raised. -/
theorem RequestAct.raised {m : Act Reg32} {s t : State} (hm : RequestAct s.accept line C m) (hb : s.busy = false)
    (h : request m s = .next t) (herr : t.err = true) : C t :=
  (hm.weaken (fun _ => id) (fun _ _ hu => hu.err) fun _ _ => Ended.Orderly.leaves).request_leaves rfl hb h herr

end Requests

/-! ### Every request -/

/-- Whose transport calls a request makes. -/
def requestFamily (i : Instr) : Family := if isMdRequest i then .md else .gb

/-- Every request but MD_HANDSHAKE leaves the line as it is. -/
theorem request_of_isRequest {i : Instr} (h : isRequest i = true) : ∃ m, exec i = request m ∧
    ∀ s₀, RequestAct s₀ (i ≠ .mdHandshake) (RaisedFrom (requestFamily i) s₀ (i ≠ .mdHandshake)) m := by
  cases i with
  | crcClear => exact ⟨_, rfl, fun _ => request_crcClearBody⟩
  | crcByte b => exact ⟨_, rfl, fun _ => request_crcContinue [b]⟩
  | crcBlock boff len => exact ⟨_, rfl, fun _ => request_crcBlockBody boff len⟩
  | pktBuild c m sub index boff => exact ⟨_, rfl, fun _ => request_checks (checks_pktBuildBody c m sub index boff)⟩
  | pktSend => exact ⟨_, rfl, fun _ => request_pktSendBody⟩
  | pktReceive => exact ⟨_, rfl, fun _ => request_pktReceiveBody⟩
  | pktCheck => exact ⟨_, rfl, fun _ => request_pktCheckBody⟩
  | gbReadRam boff len => exact ⟨_, rfl, fun _ => request_gbReadRamBody boff len⟩
  | gbWriteRam boff len => exact ⟨_, rfl, fun _ => request_gbWriteRamBody boff len⟩
  | gbReadDeviceStatus boff => exact ⟨_, rfl, fun _ => request_statusQuery subNreadId boff⟩
  | gbReadStatus boff => exact ⟨_, rfl, fun _ => request_statusQuery subReadId boff⟩
  | mdSeek whence addr => exact ⟨_, rfl, fun _ => request_mdSeekBody whence addr⟩
  | mdRead boff len => exact ⟨_, rfl, fun _ => request_mdReadBody boff len⟩
  | mdWrite boff len => exact ⟨_, rfl, fun _ => request_mdWriteBody boff len⟩
  | mdReadWord addr => exact ⟨_, rfl, fun _ => request_mdReadWordBody addr⟩
  | mdWriteWord addr v => exact ⟨_, rfl, fun _ => request_wordWrite addr v⟩
  | mdWriteByte addr b => exact ⟨_, rfl, fun _ => request_wordWrite addr (word16 0x00 b)⟩
  | mdRamEnable => exact ⟨_, rfl, fun _ => request_mdRamEnableBody⟩
  | mdRamDisable => exact ⟨_, rfl, fun _ => request_mdRamDisableBody⟩
  | mdGetId => exact ⟨_, rfl, fun _ => request_mdGetIdBody⟩
  | mdHandshake => exact ⟨_, rfl, fun _ => request_mdHandshakeBody fun h => h rfl⟩
  | mdFlashErase addr => exact ⟨_, rfl, fun _ => request_mdFlashEraseBody addr⟩
  | mdFlashUnlockBypass => exact ⟨_, rfl, fun _ => request_mdFlashUnlockBypassBody⟩
  | mdFlashResetBypass => exact ⟨_, rfl, fun _ => request_mdFlashResetBypassBody⟩
  | mdFlashWrite boff len => exact ⟨_, rfl, fun _ => request_mdFlashWriteBody boff len⟩
  | _ => exact absurd h Bool.false_ne_true

/-- Everything an accepted request can lead to: its completion, an error, or the state after a reset that the requester was to make. -/
theorem exec_request_cases {i : Instr} {s t : State} (hi : isRequest i = true) (hb : s.busy = false) (h : exec i s = .next t) :
    (∃ r u, Underway s.accept (i ≠ .mdHandshake) u ∧ t = u.complete r) ∨
      RaisedFrom (requestFamily i) s.accept (i ≠ .mdHandshake) t ∨ (t.err = false ∧ ¬s.NoReset) := by
  obtain ⟨m, hm, hends⟩ := request_of_isRequest hi
  rw [hm] at h
  exact (hends s.accept).request_next rfl hb h

/-- A request that has ended with ERR set has raised. -/
theorem exec_request_raised {i : Instr} {s t : State} (hi : isRequest i = true) (hb : s.busy = false) (h : exec i s = .next t)
    (herr : t.err = true) : RaisedFrom (requestFamily i) s.accept (i ≠ .mdHandshake) t := by
  obtain ⟨m, hm, hends⟩ := request_of_isRequest hi
  rw [hm] at h
  exact (hends s.accept).raised hb h herr

/-- Settles O43: a request that has completed has left its registers to the completion, and one that has raised has not completed. -/
theorem requestsEnd : Obligations.RequestsEnd := by
  intro i s t hi hb hfree h
  rcases exec_request_cases hi hb h with ⟨r, u, hu, rfl⟩ | (⟨e, info, -, rfl⟩ | hio) | ⟨-, hreset⟩
  · have hledger := hu.ledger
    simp only [State.ledger, State.Ledger.mk.injEq] at hledger
    obtain ⟨-, herr, hsticky, -, hkind, hsub, hinfo, -⟩ := hledger
    exact ⟨rfl, rfl, .inl ⟨rfl, herr, hkind, hsub, hinfo, hsticky⟩⟩
  · exact ⟨rfl, rfl, .inr ⟨rfl, rfl, rfl, rfl⟩⟩
  · exact ⟨hio.busy, hio.xstate, .inr ⟨hio.done, hio.err, hio.stickyErr, hio.result⟩⟩
  · exact absurd hfree.2 hreset

end Sys2Proof.Machine
end

section
/-! SUPPORT. An error of the argument checks changes the error registers and STATUS alone (R323). -/

namespace Sys2Proof.Machine

/-- An error raised at acceptance, from a state between requests, changes the error registers and STATUS alone. -/
theorem State.Ready.raise_accept {s : State} (h : s.Ready) (e : Err) (info : Reg32) : s.accept.raise e info = { s with
    errKind := e.kind
    errSub := e.sub
    errInfo := info
    err := true
    stickyErr := true
    done := false } := by
  cases s
  simp only [State.Ready] at h
  obtain ⟨rfl, rfl, rfl, rfl⟩ := h
  rfl

theorem exec_pktBuild_raised {c m sub : Byte} {index : BitVec 24} {boff : Reg32} {s t : State} (hb : s.busy = false)
    (h : exec (.pktBuild c m sub index boff) s = .next t) (herr : t.err = true) : RefusedAt s.accept t :=
  (checks_pktBuildBody (line := True) c m sub index boff).raised hb h herr

/-- Errors of these kinds are the checks' alone. -/
theorem RaisedInIo.kind_ne {fam : Family} {s₀ t : State} {line : Prop} (h : RaisedInIo fam s₀ line t) :
    t.errKind ≠ 3 ∧ t.errKind ≠ 6 ∧ t.errKind ≠ 7 := by
  rcases h.kind with ⟨hk, -⟩ | ⟨hk | hk, -⟩ <;> rw [hk] <;> decide

/-- A word that is no request raises IllegalRequest. -/
theorem rejectRequest_raises (e : DecodeError) {s : State} (hb : s.busy = false) :
    ∃ (e' : Err) (info : Reg32), e'.kind = 7 ∧ rejectRequest e s = .next (s.accept.raise e' info) := by
  unfold rejectRequest
  split
  · exact ⟨.rsvdBits, _, rfl, request_ends_raised hb (raise_run _ _ _)⟩
  · exact ⟨.badCode, _, rfl, request_ends_raised hb (raise_run _ _ _)⟩

/-- Settles O44: these errors are the checks', which come before anything else is done. -/
theorem checksChangeNothing : Obligations.ChecksChangeNothing := by
  refine ⟨fun i s t hi hready h herr hkind => ?_, fun s w rest e hready hpeer hpkt hport he => ?_⟩
  · have hrefused : RefusedAt s.accept t := by
      rcases exec_request_raised hi hready.1 h herr with hrefused | hio
      · exact hrefused
      · obtain ⟨h3, h6, h7⟩ := hio.kind_ne
        rcases hkind with hk | hk | hk | ⟨c, m, sub, index, boff, rfl⟩
        · exact absurd hk h3
        · exact absurd hk h6
        · exact absurd hk h7
        · exact exec_pktBuild_raised hready.1 h herr
    obtain ⟨e, info, -, rfl⟩ := hrefused
    rw [hready.raise_accept]
  · have hlatched : State.Ready { s with port := rest, req := w } := hready
    obtain ⟨e', info, hseven, hreject⟩ := rejectRequest_raises e hlatched.1
    refine ⟨_, (step_rejects hpeer hpkt hport hready.1 he).trans hreject, ?_⟩
    rw [hlatched.raise_accept, hseven]

end Sys2Proof.Machine
end

section
/-! SUPPORT. Reads while the line is lost: MD_GET_ID and MD_HANDSHAKE return what the draws bring (R236, R238, R379). -/

namespace Sys2Proof.Machine

/-! ### A free exchange of two bytes -/

theorem State.Free.not_bound {s : State} (h : s.Free) (fam : Family) : s.repliesBound fam = false := by
  rcases h with h | h <;> simp [State.repliesBound, h]

/-- A read while the line is lost brings the draw's own bytes, and leaves the peer's replies on the line (R379; log entry 40). -/
theorem rxRead_free {s : State} (h : s.Free) {fam : Family} {n : Nat} {offered : List Byte} {rest : List RxDraw}
    (hv : s.env.visits = []) (hr : s.env.rx = .got offered :: rest) :
    rxRead fam n s = .ok (.got (offered.take n)) ((settlePeer s).received rest) := by
  have hsettled : (settlePeer s).env.rx = .got offered :: rest := by
    rw [settlePeer_eq]
    exact hr
  have hfree : State.Free ((settlePeer s).received rest) := by
    rw [settlePeer_eq]
    exact h
  rw [rxRead_calm hv, takeRx_cons hsettled]
  exact congrArg (fun b : List Byte × State => EStateM.Result.ok (RxDraw.got b.1) b.2)
    (takeReplies_free (offered := offered) (hfree.not_bound fam))

theorem State.sent_stale (bytes : List Byte) (rest : List TxDraw) (s : State) : (s.sent bytes rest).peer.stale = s.peer.stale := by
  unfold State.sent
  dsimp only
  cases s.adapter <;> rfl

theorem State.Free.sent {s : State} (h : s.Free) (bytes : List Byte) (rest : List TxDraw) : (s.sent bytes rest).Free := by
  rw [State.Free, State.sent_stale]
  exact h

/-- MD_GET_ID's exchange while the line is lost (R236, R379). -/
theorem getId_free {s : State} (h : s.Free) {k : Nat} {txs : List TxDraw} {b0 b1 : Byte} {more : List Byte} {rxs : List RxDraw}
    (hv : s.env.visits = []) (ht : s.env.tx = .accepted k :: txs) (hk : 1 ≤ k) (hr : s.env.rx = .got (b0 :: b1 :: more) :: rxs) :
    getId s = .ok (word16 b0 b1) ((settlePeer (s.sent idRdFrame txs)).received rxs) := by
  have hread := rxRead_free (h.sent idRdFrame txs) (fam := .md) (n := 2) hv hr
  rw [getId, act_bind_ok (txWrite_sent (bytes := idRdFrame) hv ht hk), act_bind_ok (rxFill_latch (reply := [b0, b1]) rfl hread)]
  rfl

/-! ### MD_GET_ID -/

/-- What the peer replies does not depend on the block's request. -/
theorem rxLine_after_idRdFrame {s : State} (ha : s.adapter = .md) (txs : List TxDraw) :
    (settlePeer (s.accept.sent idRdFrame txs)).peer.rxLine =
      (drain { s with peer := { s.peer with inbox := s.peer.inbox ++ [0x62] } }).peer.rxLine := by
  let asked : State := { s with peer := { s.peer with inbox := s.peer.inbox ++ [0x62] } }
  have hsent : s.accept.sent idRdFrame txs = (s.accept.sent idRdFrame txs).withPeerOf asked := by
    simp [State.sent, State.withPeerOf, asked, ha, idRdFrame]
  have hsettle : settlePeer (s.accept.sent idRdFrame txs) = drain (s.accept.sent idRdFrame txs) := by
    unfold settlePeer
    rw [show (s.accept.sent idRdFrame txs).adapter = .md from ha]
  rw [hsettle, hsent, atPeer_drain]
  rfl

/-! ### MD_HANDSHAKE -/

theorem settlePeer_of_empty {s : State} (h : s.peer.inbox = []) : settlePeer s = s := by
  unfold settlePeer drain
  split
  · simp only [h, peerFeed_nil]
    simp only [← h]
  · rfl

/-- An id was taken from the draws `rxs` follow, and the peer's own reply to the same frame waits on the line (R301, R379). -/
def State.idMissed (txs : List TxDraw) (rxs : List RxDraw) (s : State) : State :=
  { s with
    env := { s.env with tx := txs, rx := rxs }
    peer := { s.peer with rxLine := s.peer.rxLine ++ [hiByte s.peer.identity, loByte s.peer.identity] }
    txLog := s.txLog ++ idRdFrame }

/-- The first exchange of MD_HANDSHAKE while the line is lost, with a peer between two frames that has given its first identity reply:
the block reads the draw, and the peer's own reply waits on the line (R238, R301, R379). -/
theorem getId_free_settled {s : State} (h : s.Free) {k : Nat} {txs : List TxDraw} {b0 b1 : Byte} {more : List Byte}
    {rxs : List RxDraw} (hv : s.env.visits = []) (ha : s.adapter = .md) (hps : s.peer.ps = .op) (hinbox : s.peer.inbox = [])
    (hid : s.peer.idReply = .settled) (ht : s.env.tx = .accepted k :: txs) (hk : 1 ≤ k)
    (hr : s.env.rx = .got (b0 :: b1 :: more) :: rxs) : getId s = .ok (word16 b0 b1) (s.idMissed txs rxs) := by
  have hword : identityWord idRdFlags (s.heard idRdFrame txs) = (s.peer.identity, s.heard idRdFrame txs) := by
    have hsettled : (s.heard idRdFrame txs).peer.idReply = .settled := hid
    rw [identityWord, if_pos rfl, hsettled]
    rfl
  have hsettle : settlePeer (s.sent idRdFrame txs) = peerFeed idRdFrame (s.heard idRdFrame txs) := by
    unfold settlePeer drain State.sent State.heard
    simp only [ha, hinbox, List.nil_append]
    simp only [← ha, ← hinbox]
  rw [getId_free h hv ht hk hr, hsettle, peerFeed_idRdFrame (s := s.heard idRdFrame txs) hps hword]
  simp only [State.received, State.heard, State.idMissed, ← hps]

/-- The second exchange of MD_HANDSHAKE, over a line that was reopened: the draw's id where SYNC_LOST stays 1, the peer's otherwise
(R238, R307, R379). -/
theorem secondId_reopened {s : State} {timeout k : Nat} {ros : List Bool} {txs : List TxDraw} {c0 c1 : Byte} {more : List Byte}
    {rxs : List RxDraw} {v : Word} {fs : List Word} (hv : s.env.visits = []) (ha : s.adapter = .md) (hps : s.peer.ps = .op)
    (hinbox : s.peer.inbox = []) (hro : s.env.reopen = true :: ros) (ht : s.env.tx = .accepted k :: txs) (hk : 1 ≤ k)
    (hr : s.env.rx = .got (c0 :: c1 :: more) :: rxs) (hfree : s.env.free = v :: fs) :
    ∃ u, secondId timeout s = .ok (if s.syncLost then word16 c0 c1 else if anomaly v then v else s.peer.identity) u ∧
      u.env.visits = [] ∧ u.env.tx = txs ∧ u.syncLost = s.syncLost ∧ u.peer.stale = s.syncLost := by
  have hopen := reopen_run (timeout := timeout) hv (settlePeer_of_empty hinbox) hro
  cases hlost : s.syncLost with
  | true =>
    have hget := getId_free (s := s.reopening timeout ros) (.inl hlost) hv ht hk hr
    refine ⟨_, (act_bind_ok hopen).trans hget, ?_⟩
    rw [settlePeer_eq]
    exact ⟨hv, rfl, hlost, (State.sent_stale _ _ _).trans hlost⟩
  | false =>
    have hstep : (s.reopening timeout ros).InStep := ⟨ha, hlost, hlost, hps, hinbox, rfl⟩
    have hget := getId_firstId (s := s.reopening timeout ros) hv hstep ht ⟨v, hfree, rfl⟩ hk hr (by simp)
    exact ⟨_, (act_bind_ok hopen).trans hget, hv, rfl, hlost, hlost⟩

/-- A word of two equal bytes that are not zero is an anomaly (R237). -/
theorem anomaly_word16_self {b : Byte} (h : b ≠ 0x00) : anomaly (word16 b b) = true := by
  have hne : word16 b b ≠ 0 := fun h0 => h (by rw [← loByte_word16 b b, h0]; rfl)
  exact (anomaly_iff _).2 ⟨(hiByte_word16 b b).trans (loByte_word16 b b).symm, hne⟩

end Sys2Proof.Machine
end

section
/-! SUPPORT. What a TransportError leaves, and what ends the free replies (R325, R329, R379). -/

namespace Sys2Proof.Machine

/-- A TransportError is raised in the I/O of a request, and the line is lost. -/
theorem lineLost_of_exec {i : Instr} {s t : State} (hi : isRequest i = true) (hb : s.busy = false) (h : exec i s = .next t)
    (herr : t.err = true) (hkind : t.errKind = 1) : t.LineLost (requestFamily i) := by
  rcases exec_request_raised hi hb h herr with ⟨e, info, he, rfl⟩ | hio
  · exact absurd hkind he
  · rcases hio.kind with ⟨-, hlost⟩ | ⟨hk, -⟩
    · exact hlost
    · rw [hkind] at hk
      exact absurd hk (by decide)

/-- Only MD_HANDSHAKE can end the free replies. -/
theorem free_of_exec {i : Instr} {s t : State} (hi : isRequest i = true) (hcalm : s.Calm) (hne : i ≠ .mdHandshake) (hs : s.Free)
    (h : exec i s = .next t) : t.Free := by
  rcases exec_request_cases hi hcalm.1 h with ⟨r, u, hu, rfl⟩ | (⟨e, info, -, rfl⟩ | hio) | ⟨-, hreset⟩
  · exact hu.free hne hs
  · exact hs
  · rcases hio.kind with ⟨-, hsync, -⟩ | ⟨-, hfree⟩
    · exact .inl hsync
    · exact hfree hne hs
  · exact absurd (fun actions ha => by rw [hcalm.2] at ha; cases ha) hreset

/-- Settles O42: how every request ends, then the exchanges of MD_GET_ID and MD_HANDSHAKE over a lost line and a reopened one. -/
theorem transportErrorEffects : Obligations.TransportErrorEffects := by
  refine ⟨fun i s t hi hb h herr hkind => ?_, fun i s t hi hcalm hne hs h => free_of_exec hi hcalm hne hs h,
    fun s fam n offered hs => ?_, ?_, ?_⟩
  · obtain ⟨hsync, hstale, hmd⟩ := lineLost_of_exec hi hb h herr hkind
    exact ⟨hsync, hstale, fun hreq => hmd (if_pos hreq)⟩
  · have hbound := State.Free.not_bound hs fam
    exact ⟨hbound, takeReplies_free hbound⟩
  · intro s k txs b0 b1 more rxs ⟨hb, hv⟩ ha hs ht hk hr
    have hget := getId_free (s := s.accept) hs hv ht hk hr
    exact ⟨_, request_completes (m := mdGetIdBody) hb (act_bind_ok hget), rfl, rfl, rxLine_after_idRdFrame ha txs⟩
  · intro s k1 k2 k3 txs b more1 c0 c1 more2 rxs ros v fs ⟨hb, hv⟩ ha hs hps hinbox hsettled ht hk1 hk2 hk3 hne hr hro hfree id
    have hfirst := getId_free_settled (s := { s.accept with hsAttempt := 0 }) hs hv ha hps hinbox hsettled ht hk1 hr
    have hanomaly := anomaly_word16_self hne
    obtain ⟨u, hsecond, huv, hutx, hsync, hstale⟩ := secondId_reopened (timeout := s.cfg.tReopen)
      (s := { s.accept.idMissed (.accepted k2 :: .accepted k3 :: txs) (.got (c0 :: c1 :: more2) :: rxs) with hsAttempt := 1 })
      hv ha hps hinbox hro rfl hk2 rfl hfree
    by_cases hid : anomaly id = true
    · refine ⟨_, mdHandshake_secondEcho hb hfirst hanomaly hsecond hid, hstale, hsync, ?_⟩
      rw [if_pos hid]
      exact ⟨rfl, rfl, rfl⟩
    · refine ⟨_, mdHandshake_recovers hb hfirst hanomaly hsecond (eq_false_of_ne_true hid) huv hutx hk3,
        (State.sent_stale (delayFrame 0x00) txs u).trans hstale, hsync, ?_⟩
      rw [if_neg hid]
      exact ⟨rfl, rfl⟩

end Sys2Proof.Machine
end


section
/-! SUPPORT. A block reset, between requests and while one runs (R360, R361, R362). -/

namespace Sys2Proof.Machine

/-- What a block reset keeps, everything else being as State.reset has it (R360, R362). -/
theorem State.blockReset_eq (s : State) : s.blockReset = { State.reset with
    cfg := s.cfg
    tCur := s.cfg.tChar
    adapter := s.adapter
    peer := s.peer
    cart := s.cart
    env := s.env
    pktPort := s.pktPort
    port := s.port
    reads := s.reads
    txLog := s.txLog } := rfl

/-- Settles O2: the requester's action is a block reset, which keeps what is not a register of the block. -/
theorem blockResetStep : Obligations.BlockResetStep := by
  intro s rest hpeer hpkt hport
  have hstep : step s = .next ({ s with port := rest } : State).blockReset := by
    rw [step, fetch_port hpeer hpkt hport, portAction]
  refine ⟨0, hstep.trans (congrArg _ ?_)⟩
  rw [State.blockReset_eq]
  dsimp only
  rw [hpkt]
  rfl

/-! ### A request ended by a reset -/

/-- A reset has ended the request that was running; `post` is what the requester does after it (R361). -/
def State.cutShort (post : List PortAction) (s : State) : State := { s.blockReset with port := post ++ s.port }

/-- The request accepted in s was stopped by a reset, and the block is as after reset in t (R361, R362). -/
def Stopped (s t : State) (post : List PortAction) : Prop :=
  t = { State.reset with
    cfg := s.cfg
    tCur := s.cfg.tChar
    curW := t.curW
    adapter := s.adapter
    peer := t.peer
    cart := t.cart
    env := t.env
    pktPort := s.pktPort
    port := post ++ s.port
    reads := t.reads
    txLog := t.txLog } ∧ t.status = 0x0000 ∧ s.txLog <+: t.txLog ∧ s.reads <+: t.reads

/-- STATUS is as after reset (R23, R41). -/
theorem State.cutShort_status (post : List PortAction) (s : State) : (s.cutShort post).status = 0x0000 :=
  calc (s.cutShort post).status = State.reset.status := rfl
    _ = 0x0000 := by decide

/-- A request that a reset has cut short is stopped: no request touches what the session keeps. -/
theorem stopped_of_cutShort {i : Instr} {s u : State} {post : List PortAction} (hport : u.port = s.port)
    (hpkt : u.pktPort = s.pktPort) (h : exec i s = .next (u.cutShort post)) : Stopped s (u.cutShort post) post := by
  have hsession := State.Continues.of_exec h
  have hcfg : u.cfg = s.cfg := hsession.cfg
  have hadapter : u.adapter = s.adapter := hsession.adapter
  refine ⟨?_, u.cutShort_status post, hsession.txLog, hsession.reads⟩
  rw [← hcfg, ← hadapter, ← hport, ← hpkt]
  rfl

theorem request_cutShort {m : Act Reg32} {s u : State} {post : List PortAction} (hb : s.busy = false)
    (h : m s.accept = .error .reset (u.cutShort post)) : request m s = .next (u.cutShort post) :=
  (request_ready hb).trans (runRequest_reset h)

/-! ### The requester's actions up to a reset -/

/-- The requester has acted while a request runs: DBUF, the draws and what it has read may have changed (R338, R371). -/
def Visited (s u : State) : Prop := ∃ (dbuf : Memory) (hazard : List Nat) (env : Env) (reads : List Reg32),
  u = { s with dbuf := dbuf, hazard := hazard, env := env, reads := reads } ∧ env.visits = s.env.visits

/-- The requester has read a packet byte without a value (R27, R28, I4). -/
def Ended.Missed (s : State) (actions : List PortAction) (e : Ended) (_ : State) : Prop :=
  e = .fault .unwrittenByte ∧ ∃ r, PortAction.readReg r ∈ actions ∧ readRegister r s = none

section Visit

variable {s u : State} {actions rest tail post : List PortAction} {more : List (List PortAction)}

theorem Visited.refl (s : State) : Visited s s := ⟨s.dbuf, s.hazard, s.env, s.reads, rfl, rfl⟩

theorem Visited.readRegister (h : Visited s u) (r : ReadableReg) : readRegister r u = Machine.readRegister r s := by
  obtain ⟨dbuf, hazard, env, reads, rfl, -⟩ := h
  cases r <;> rfl

theorem Visited.takeFreeByte (h : Visited s u) : Visited s (takeFreeByte u).2 := by
  obtain ⟨dbuf, hazard, env, reads, rfl, hv⟩ := h
  have hvisits := congrArg State.Session.visits (takeFree_session { s with dbuf := dbuf, hazard := hazard, env := env, reads := reads })
  exact ⟨_, _, _, _, takeFree_frame _, hvisits.trans hv⟩

/-- A change of DBUF and of what was read. -/
theorem Visited.change (h : Visited s u) (dbuf : Memory) (hazard : List Nat) (reads : List Reg32) :
    Visited s { u with dbuf := dbuf, hazard := hazard, reads := reads } := by
  obtain ⟨-, -, env, -, rfl, hv⟩ := h
  exact ⟨dbuf, hazard, env, reads, rfl, hv⟩

theorem visited_visitAction {a : PortAction} (ha : a ∈ actions) :
    Triple (Visited s) (visitAction a) (fun _ => Visited s) (Ended.Missed s actions) := by
  cases a with
  | readReg r =>
    refine triple_bind (R := fun _ => Visited s) ((triple_orStop fun u hu hnone => ?_).post fun _ _ hu => hu.1) fun v =>
      triple_upd fun u hu => hu.change u.dbuf u.hazard _
    exact ⟨rfl, r, ha, (hu.readRegister r).symm.trans hnone⟩
  | readDbuf off => exact triple_upd fun u hu => hu.takeFreeByte.change _ _ _
  | writeDbuf off b =>
    refine triple_upd fun u hu => ?_
    unfold busyWriteDbuf
    split
    · exact hu.takeFreeByte.change _ _ _
    · exact hu
  | writeReq | reset => exact triple_pure fun _ => id

/-- The requester's actions up to a reset or to their end, `tail` being what comes then. -/
theorem visited_visitActions {r : Option (List PortAction)} (hrest : rest ⊆ actions) (hreset : PortAction.reset ∉ rest)
    (htail : ∀ u, visitActions tail u = .ok r u) :
    Triple (Visited s) (visitActions (rest ++ tail)) (fun v u => v = r ∧ Visited s u) (Ended.Missed s actions) := by
  induction rest with
  | nil =>
    intro u hu
    rw [List.nil_append, htail]
    exact ⟨rfl, hu⟩
  | cons a rest ih =>
    rw [List.cons_append, visitActions_cons _ (Ne.symm (List.ne_of_not_mem_cons hreset))]
    exact triple_bind (visited_visitAction (hrest List.mem_cons_self)) fun _ =>
      ih (fun b hb => hrest (List.mem_cons_of_mem _ hb)) (List.not_mem_of_not_mem_cons hreset)

/-- A moment at which the requester acts up to a reset or to the moment's end. -/
theorem visited_visit {r : Option (List PortAction)} (hv : s.env.visits = (actions ++ tail) :: more)
    (hreset : PortAction.reset ∉ actions) (htail : ∀ u, visitActions tail u = .ok r u) :
    Triple (· = s) visit (fun v u => v = r ∧ Visited (s.withVisits more) u) (Ended.Missed (s.withVisits more) actions) := by
  rintro t rfl
  rw [visit_cons hv]
  exact visited_visitActions (List.Subset.refl _) hreset htail (t.withVisits more) (Visited.refl _)

/-- A requester that misses nothing acts up to its reset. -/
theorem visit_reset (hv : s.env.visits = (actions ++ .reset :: post) :: more) (hreset : PortAction.reset ∉ actions)
    (hread : ∀ r, PortAction.readReg r ∈ actions → readRegister r s ≠ none) :
    ∃ u, visit s = .ok (some post) u ∧ Visited (s.withVisits more) u := by
  have htriple := visited_visit hv hreset (visitActions_reset post)
  cases hr : visit s with
  | ok v u =>
    obtain ⟨rfl, hu⟩ := htriple.ok rfl hr
    exact ⟨u, rfl, hu⟩
  | error e u =>
    obtain ⟨-, r, hmem, hnone⟩ := htriple.error rfl hr
    exact absurd ((readRegister_withVisits r more s).symm.trans hnone) (hread r hmem)

end Visit

/-! ### A reset during a TxWrite -/

/-- A reset during a TxWrite leaves as many of its bytes sent as the transport says, and nothing else is touched (R361, I16). -/
theorem txWrite_reset {fam : Family} {bytes : List Byte} {s u : State} {post : List PortAction}
    (hv : visit s = .ok (some post) u) : ∃ n w, txWrite fam bytes s = .error .reset (State.cutShort post w) ∧
      w.txLog = u.txLog ++ bytes.take n ∧ w.port = u.port ∧ (∃ inbox, w.peer = { u.peer with inbox := inbox }) ∧ w.cart = u.cart := by
  have htake : (takeTx u).2 = { u with env := (takeTx u).2.env } := by
    unfold takeTx
    split <;> rfl
  refine ⟨acceptedOf (takeTx u).1 bytes.length, (takeTx u).2.transmit (bytes.take (acceptedOf (takeTx u).1 bytes.length)), ?_, ?_⟩
  · rw [txWrite, txWriteOf, act_bind_ok hv, act_bind_ok (draw_run _ _), act_bind_ok (act_pure _ _), act_bind_ok (upd_run _ _),
      act_bind_error (endVisit_some _ _)]
    rfl
  · rw [htake, State.transmit_txLog, State.transmit_port, State.transmit_cart]
    refine ⟨rfl, rfl, ?_, rfl⟩
    unfold State.transmit
    split <;> exact ⟨_, rfl⟩

/-- Settles O3: the requester's actions during the TxWrite leave the wire, the peer and the cartridge, and its reset leaves a prefix of
the frame sent. -/
theorem resetStopsSeek : Obligations.ResetStopsSeek := by
  intro s pre post more addr hb hv hreset hread haddr
  have hreadable (r : ReadableReg) (hr : PortAction.readReg r ∈ pre) : readRegister r s.accept ≠ none :=
    readRegister_ne_none (s := s) (t := s.accept) (fun _ => id) (fun _ => id) (hread r hr)
  obtain ⟨u, hvisit, dbuf, hazard, env, reads, rfl, -⟩ := visit_reset (s := s.accept) hv hreset hreadable
  obtain ⟨n, w, hwrite, hlog, hport, ⟨inbox, hpeer⟩, hcart⟩ := txWrite_reset (fam := .md) (bytes := seekFrame (halved addr.toNat)) hvisit
  have hbody : mdSeekBody 0 addr s.accept = .error .reset (w.cutShort post) := by
    rw [mdSeekBody, act_bind_ok (check_ok (by decide)), act_bind_ok (check_ok (by decide)), act_bind_ok (check_ok (by decide)),
      act_bind_ok (wordAddress_ok haddr), act_bind_error hwrite]
  exact ⟨_, n, request_cutShort hb hbody, w.cutShort_status post, rfl, rfl, rfl, rfl, hlog, congrArg (post ++ ·) hport,
    (congrArg Peer.devAddr hpeer :), (congrArg Peer.ps hpeer :), hcart⟩

end Sys2Proof.Machine
end

section
/-! SUPPORT. A reset to come at the last of the requester's moments: no piece of a request gets past it (R361). -/

namespace Sys2Proof.Machine

/-! ### Pieces that the requester has no part in -/

/-- What is still to come of the requester and at the packet port. -/
def State.agenda (s : State) : List (List PortAction) × List PortAction × List (List Byte) := (s.env.visits, s.port, s.pktPort)

/-- A piece that leaves the agenda, and ends the request only where the model stops. -/
abbrev Aside {α : Type} (m : Act α) : Prop := ∀ a, Triple (·.agenda = a) m (fun _ s => s.agenda = a) Ended.OnlyStops

theorem takeTx_agenda (s : State) : (takeTx s).2.agenda = s.agenda := by
  unfold takeTx
  split <;> rfl

theorem takeRx_agenda (s : State) : (takeRx s).2.agenda = s.agenda := by
  unfold takeRx
  split <;> rfl

theorem takeReopen_agenda (s : State) : (takeReopen s).2.agenda = s.agenda := by
  unfold takeReopen
  split <;> rfl

theorem takeFreeByte_agenda (s : State) : (takeFreeByte s).2.agenda = s.agenda := by
  rw [show (takeFreeByte s).2 = (takeFree s).2 from rfl]
  unfold takeFree
  split <;> rfl

theorem takeReplies_agenda (fam : Family) (n : Nat) (offered : List Byte) (s : State) :
    (takeReplies fam n offered s).2.agenda = s.agenda := by
  unfold takeReplies
  split <;> rfl

theorem settlePeer_agenda (s : State) : (settlePeer s).agenda = s.agenda := by
  rw [settlePeer_eq]
  rfl

theorem transmit_agenda (bytes : List Byte) (s : State) : (s.transmit bytes).agenda = s.agenda := by
  unfold State.transmit
  split <;> rfl

theorem buildPacket_agenda (p : List Byte) (s : State) : (buildPacket p s).agenda = s.agenda := by
  unfold buildPacket
  split <;> rfl

theorem advanceCursor_agenda (words : Nat) (s : State) : (advanceCursor words s).agenda = s.agenda := by
  unfold advanceCursor
  split <;> rfl

theorem raiseTransport_agenda (fam : Family) (e : Err) (info : Nat) (s : State) : (s.raiseTransport fam e info).agenda = s.agenda := by
  cases fam <;> rfl

section Aside

variable {α β : Type}

theorem aside_pure (a : α) : Aside (pure a : Act α) := fun _ => triple_pure fun _ => id

theorem aside_upd {f : State → State} (h : ∀ s, (f s).agenda = s.agenda) : Aside (upd f) :=
  fun _ => triple_upd fun s hs => (h s).trans hs

theorem aside_bind {m : Act β} {f : β → Act α} (hm : Aside m) (hf : ∀ b, Aside (f b)) : Aside (m >>= f) :=
  fun a => triple_bind (hm a) fun b => hf b a

theorem aside_orStop (f : State → Option α) : Aside (orStop f) := fun _ => (triple_orStop fun _ _ _ => rfl).post fun _ _ hs => hs.1

theorem aside_maskHazard (off : Nat) (bytes : List Byte) : Aside (maskHazard off bytes) := by
  induction bytes generalizing off with
  | nil => exact aside_pure []
  | cons b rest ih =>
    have hbyte : Aside (maskByte off b) := by
      intro a s hs
      by_cases hm : off ∈ s.hazard
      · rw [show maskByte off b s = .ok (takeFreeByte s).1 (takeFreeByte s).2 by simp [maskByte, hm]]
        exact (takeFreeByte_agenda s).trans hs
      · rw [show maskByte off b s = .ok b s by simp [maskByte, hm]]
        exact hs
    exact aside_bind hbyte fun _ => aside_bind (ih _) fun _ => aside_pure _

theorem aside_memRead (off n : Nat) : Aside (memRead off n) := aside_bind (aside_orStop _) fun _ => aside_maskHazard _ _

theorem aside_txBytes (parts : List TxPart) (k : Nat) : Aside (txBytes parts k) := by
  induction parts generalizing k with
  | nil => exact aside_pure []
  | cons part rest ih =>
    cases part with
    | bytes b => exact aside_bind (ih _) fun _ => aside_pure _
    | dbuf off n => exact aside_bind (aside_memRead _ _) fun _ => aside_bind (ih _) fun _ => aside_pure _

theorem aside_storeDbuf (off : Nat) (bytes : List Byte) : Aside (storeDbuf off bytes) :=
  aside_bind (aside_maskHazard _ _) fun _ => aside_upd fun _ => rfl

theorem aside_storeAt (d : Destination) (got : Nat) (bytes : List Byte) : Aside (storeAt d got bytes) := by
  cases d with
  | dbuf off => exact aside_storeDbuf _ bytes
  | latch => exact aside_pure ()

theorem aside_loadPacket (mk : List Byte → List Byte) (off : Nat) : Aside (loadPacket mk off) :=
  aside_bind (aside_memRead _ _) fun _ => aside_bind (aside_upd (buildPacket_agenda _)) fun _ =>
    aside_bind (aside_upd fun _ => rfl) fun _ => aside_pure _

theorem aside_wirePacket (off : Nat) (p : List Byte) : Aside (wirePacket off p) :=
  aside_bind (aside_maskHazard _ _) fun _ => aside_pure _

end Aside

/-! ### The requester's moments -/

/-- The requester's last moment is to bring its first reset; a request accepted in s₀ runs in s. -/
structure ResetAhead (s₀ : State) (pre post : List PortAction) (s : State) : Prop where
  port : s.port = s₀.port
  pktPort : s.pktPort = s₀.pktPort
  first : PortAction.reset ∉ pre
  visits : ∃ before, s.env.visits = before ++ [pre ++ .reset :: post] ∧ ∀ actions ∈ before, PortAction.reset ∉ actions

/-- After a moment of the requester: the reset is still ahead, or this moment has brought it. -/
def AfterVisit (s₀ : State) (pre post : List PortAction) : Option (List PortAction) → State → Prop
  | none, s => ResetAhead s₀ pre post s
  | some rest, s => rest = post ∧ s.port = s₀.port ∧ s.pktPort = s₀.pktPort

/-- A request ends otherwise than by completing: by an error before the reset, or by the reset. -/
def Ended.ByReset (s₀ : State) (pre post : List PortAction) : Ended → State → Prop
  | .raised, t => ResetAhead s₀ pre post t
  | .reset, t => ∃ u : State, u.port = s₀.port ∧ u.pktPort = s₀.pktPort ∧ t = u.cutShort post
  | .fault _, _ => True

section Ahead

variable {α β : Type} {s₀ : State} {pre post : List PortAction}

theorem AfterVisit.change {v : Option (List PortAction)} {s t : State} (h : AfterVisit s₀ pre post v s) (ht : t.agenda = s.agenda) :
    AfterVisit s₀ pre post v t := by
  simp only [State.agenda, Prod.mk.injEq] at ht
  obtain ⟨hvisits, hport, hpkt⟩ := ht
  cases v with
  | none => exact ⟨hport.trans h.port, hpkt.trans h.pktPort, h.first, hvisits ▸ h.visits⟩
  | some rest =>
    obtain ⟨hrest, hp, hk⟩ := h
    exact ⟨hrest, hport.trans hp, hpkt.trans hk⟩

theorem ResetAhead.change {s t : State} (h : ResetAhead s₀ pre post s) (ht : t.agenda = s.agenda) : ResetAhead s₀ pre post t :=
  AfterVisit.change (v := none) h ht

/-- A request cannot have come past the reset. -/
theorem ResetAhead.visits_ne_nil {s : State} (h : ResetAhead s₀ pre post s) : s.env.visits ≠ [] := by
  obtain ⟨before, hv, -⟩ := h.visits
  rw [hv]
  exact List.append_ne_nil_of_right_ne_nil _ (List.cons_ne_nil _ _)

/-- A piece that goes on before the reset, or ends the request by it. -/
abbrev AheadAct (s₀ : State) (pre post : List PortAction) (m : Act α) : Prop :=
  Triple (ResetAhead s₀ pre post) m (fun _ => ResetAhead s₀ pre post) (Ended.ByReset s₀ pre post)

/-- What the requester has no part in may come between its moment and the end that this moment brings. -/
theorem Aside.afterVisit {m : Act α} (h : Aside m) (v : Option (List PortAction)) :
    Triple (AfterVisit s₀ pre post v) m (fun _ => AfterVisit s₀ pre post v) (Ended.ByReset s₀ pre post) := by
  intro s hs
  have hk := h s.agenda s rfl
  cases hm : m s with
  | ok a t => rw [hm] at hk; exact hs.change hk
  | error e t => rw [hm] at hk; cases hk; trivial

theorem Aside.ahead {m : Act α} (h : Aside m) : AheadAct s₀ pre post m := h.afterVisit none

theorem ahead_pure (a : α) : AheadAct s₀ pre post (pure a) := triple_pure fun _ => id

theorem ahead_look (f : State → α) : AheadAct s₀ pre post (look f) := triple_look fun _ => id

theorem ahead_upd {f : State → State} (h : ∀ s, (f s).agenda = s.agenda) : AheadAct s₀ pre post (upd f) :=
  triple_upd fun s hs => hs.change (h s)

theorem ahead_draw {take : State → α × State} (h : ∀ s, (take s).2.agenda = s.agenda) : AheadAct s₀ pre post (draw take) :=
  triple_draw fun s hs => hs.change (h s)

theorem ahead_raise (e : Err) (info : Nat) : AheadAct s₀ pre post (raise e info : Act α) := triple_raise fun _ _ hs => hs.change rfl

theorem ahead_check (ok : Bool) (e : Err) (info : Nat) : AheadAct s₀ pre post (check ok e info) :=
  (triple_check fun _ _ hs => hs.change rfl).post fun _ _ hs => hs.1

theorem ahead_raiseTransport (fam : Family) (e : Err) (info : Nat) : AheadAct s₀ pre post (raiseTransport fam e info : Act α) :=
  fun s hs => hs.change (raiseTransport_agenda fam e info s)

theorem ahead_onRaise {f : State → State} {m : Act α} (hf : ∀ s, (f s).agenda = s.agenda) (hm : AheadAct s₀ pre post m) :
    AheadAct s₀ pre post (onRaise f m) :=
  triple_onRaise (fun s hs => ResetAhead.change hs (hf s)) hm

/-- A moment of the requester: an earlier one brings no reset, the last one does. -/
theorem ahead_visit : Triple (ResetAhead s₀ pre post) visit (AfterVisit s₀ pre post) (Ended.ByReset s₀ pre post) := by
  intro s hs
  obtain ⟨before, hv, hbefore⟩ := hs.visits
  cases before with
  | nil =>
    have htriple := visited_visit (s := s) (more := []) hv hs.first (visitActions_reset post)
    refine htriple.weaken (P' := (· = s)) (fun _ => id) ?_ ?_ s rfl
    · rintro v u ⟨rfl, dbuf, hazard, env, reads, rfl, -⟩
      exact ⟨rfl, hs.port, hs.pktPort⟩
    · rintro e u ⟨rfl, -⟩
      trivial
  | cons actions more =>
    have hactions : s.env.visits = (actions ++ []) :: (more ++ [pre ++ .reset :: post]) := by rw [hv, List.append_nil]; rfl
    have htriple := visited_visit hactions (hbefore actions List.mem_cons_self) (tail := []) fun _ => rfl
    refine htriple.weaken (P' := (· = s)) (fun _ => id) ?_ ?_ s rfl
    · rintro v u ⟨rfl, dbuf, hazard, env, reads, rfl, henv⟩
      exact ⟨hs.port, hs.pktPort, hs.first, more, henv, fun a ha => hbefore a (List.mem_cons_of_mem _ ha)⟩
    · rintro e u ⟨rfl, -⟩
      trivial

theorem ahead_endVisit (v : Option (List PortAction)) :
    Triple (AfterVisit s₀ pre post v) (endVisit v) (fun _ => ResetAhead s₀ pre post) (Ended.ByReset s₀ pre post) := by
  cases v with
  | none => exact triple_pure fun _ => id
  | some rest =>
    rintro s ⟨rfl, hport, hpkt⟩
    exact ⟨s, hport, hpkt, rfl⟩

theorem ahead_meet : AheadAct s₀ pre post meet := triple_bind ahead_visit ahead_endVisit

/-! ### The transport -/

theorem ahead_txWriteOf (fam : Family) (n : Nat) {first : Nat → Act (List Byte)} (hf : ∀ k, Aside (first k)) :
    AheadAct s₀ pre post (txWriteOf fam n first) := by
  refine triple_bind ahead_visit fun v => triple_bind (R := fun _ => AfterVisit s₀ pre post v)
    (triple_draw fun s hs => hs.change (takeTx_agenda s)) fun d => triple_bind ((hf _).afterVisit v) fun bytes =>
    triple_bind ((aside_upd (transmit_agenda bytes)).afterVisit v) fun _ => triple_bind (ahead_endVisit v) fun _ => ?_
  cases d with
  | accepted k =>
    dsimp only
    split
    · exact ahead_raiseTransport _ _ _
    · exact ahead_pure ()
  | failed k => exact ahead_raiseTransport _ _ _

theorem ahead_txWrite (fam : Family) (bytes : List Byte) : AheadAct s₀ pre post (txWrite fam bytes) :=
  ahead_txWriteOf fam _ fun _ => aside_pure _

theorem ahead_txWriteParts (fam : Family) (parts : List TxPart) : AheadAct s₀ pre post (txWriteParts fam parts) := by
  unfold txWriteParts
  split
  · exact ahead_pure ()
  · exact ahead_txWriteOf fam _ (aside_txBytes parts)

theorem ahead_rxRead (fam : Family) (n : Nat) : AheadAct s₀ pre post (rxRead fam n) :=
  triple_bind ahead_meet fun _ => triple_bind (ahead_upd settlePeer_agenda) fun _ => triple_bind (ahead_draw takeRx_agenda) fun _ =>
    triple_bind (ahead_draw (takeReplies_agenda fam n _)) fun _ => ahead_pure _

theorem ahead_reopen (t : Nat) : AheadAct s₀ pre post (reopen t) := by
  refine triple_bind ahead_meet fun _ => triple_bind (ahead_upd settlePeer_agenda) fun _ =>
    triple_bind (ahead_draw takeReopen_agenda) fun ok => triple_bind (ahead_upd fun _ => rfl) fun _ => ?_
  split
  · exact ahead_pure ()
  · exact ahead_raiseTransport _ _ _

theorem ahead_rxFill (d : Destination) (n : Nat) : AheadAct s₀ pre post (rxFill d n) := by
  have hloop (fuel : Nat) (got : List Byte) : AheadAct s₀ pre post (rxFillLoop d n fuel got) := by
    induction fuel generalizing got with
    | zero => exact ahead_pure _
    | succ fuel ih =>
      unfold rxFillLoop
      split
      · exact ahead_pure _
      · refine triple_bind (ahead_rxRead _ _) fun answer => ?_
        cases answer with
        | timedOut t => exact triple_bind (aside_storeAt d _ t).ahead fun _ => ahead_raiseTransport _ _ _
        | failed t => exact triple_bind (aside_storeAt d _ t).ahead fun _ => ahead_raiseTransport _ _ _
        | got t =>
          dsimp only
          split
          · exact ahead_raiseTransport _ _ _
          · exact triple_bind (aside_storeAt d _ t).ahead fun _ => ih _
  exact hloop n []

end Ahead
end Sys2Proof.Machine
end

section
/-! SUPPORT. Every request comes to the reset that is ahead of it, or ends before it (R361). -/

namespace Sys2Proof.Machine

section Requests

variable {s₀ : State} {pre post : List PortAction}

theorem ahead_checkDbuf (boff : Reg32) (n : Nat) : AheadAct s₀ pre post (checkDbuf boff n) :=
  triple_bind (ahead_look _) fun _ => ahead_check _ _ _

/-! ### The CRC requests -/

theorem ahead_crcContinue (bytes : List Byte) : AheadAct s₀ pre post (crcContinue bytes) :=
  triple_bind (ahead_upd fun _ => rfl) fun _ => ahead_look _

theorem ahead_crcClearBody : AheadAct s₀ pre post crcClearBody := triple_bind (ahead_upd fun _ => rfl) fun _ => ahead_pure _

theorem ahead_crcBlockBody (boff len : Reg32) : AheadAct s₀ pre post (crcBlockBody boff len) :=
  triple_bind (ahead_checkDbuf _ _) fun _ => triple_bind ahead_meet fun _ => triple_bind (aside_memRead _ _).ahead fun _ =>
    ahead_crcContinue _

/-! ### The MD requests -/

theorem ahead_wordAddress (addr : Reg32) : AheadAct s₀ pre post (wordAddress addr) :=
  triple_bind (ahead_check _ _ _) fun _ => ahead_pure _

theorem ahead_setCursor (w : WordAddr) : AheadAct s₀ pre post (upd (setCursor w)) := ahead_upd fun _ => rfl

theorem ahead_advanceCursor (words : Nat) : AheadAct s₀ pre post (upd (advanceCursor words)) := ahead_upd (advanceCursor_agenda words)

theorem ahead_mdSeekBody (whence : BitVec 2) (addr : Reg32) : AheadAct s₀ pre post (mdSeekBody whence addr) :=
  triple_bind (ahead_check _ _ _) fun _ => triple_bind (ahead_check _ _ _) fun _ => triple_bind (ahead_check _ _ _) fun _ =>
    triple_bind (ahead_wordAddress addr) fun w => triple_bind (ahead_txWrite _ _) fun _ => triple_bind (ahead_setCursor w) fun _ =>
    ahead_pure _

theorem ahead_checkBulk (boff len : Reg32) : AheadAct s₀ pre post (checkBulk boff len) :=
  triple_bind (ahead_check _ _ _) fun _ => ahead_checkDbuf _ _

theorem ahead_readChunks (sizes : List Nat) (off : Nat) : AheadAct s₀ pre post (readChunks sizes off) := by
  induction sizes generalizing off with
  | nil => exact ahead_pure ()
  | cons c rest ih =>
    exact triple_bind (ahead_txWrite _ _) fun _ => triple_bind (ahead_rxFill _ _) fun _ => triple_bind (ahead_advanceCursor _)
      fun _ => ih _

theorem ahead_mdReadBody (boff len : Reg32) : AheadAct s₀ pre post (mdReadBody boff len) :=
  triple_bind (ahead_checkBulk _ _) fun _ => triple_bind (ahead_readChunks _ _) fun _ => ahead_pure _

theorem ahead_mdWriteBody (boff len : Reg32) : AheadAct s₀ pre post (mdWriteBody boff len) :=
  triple_bind (ahead_checkBulk _ _) fun _ => triple_bind (ahead_txWriteParts _ _) fun _ => triple_bind (ahead_advanceCursor _)
    fun _ => ahead_pure _

theorem ahead_mdReadWordBody (addr : Reg32) : AheadAct s₀ pre post (mdReadWordBody addr) :=
  triple_bind (ahead_wordAddress addr) fun w => triple_bind (ahead_txWrite _ _) fun _ => triple_bind (ahead_setCursor w) fun _ =>
    triple_bind (ahead_rxFill _ _) fun _ => ahead_pure _

theorem ahead_wordWrite (addr : Reg32) (v : Word) : AheadAct s₀ pre post (wordWrite addr v) :=
  triple_bind (ahead_wordAddress addr) fun w => triple_bind (ahead_txWrite _ _) fun _ => triple_bind (ahead_setCursor w) fun _ =>
    ahead_pure _

/-- RAM_EN set or cleared after its frames (R233 to R235). -/
theorem ahead_ramSwitch (v : Params → Word) (d : Params → Byte) (on : Bool) : AheadAct s₀ pre post (do
    let cfg ← look (·.cfg)
    onRaise loseRamMode (ramCtl (v cfg) (d cfg))
    upd fun s => { s with ramEn := on }
    pure (0 : Reg32)) :=
  triple_bind (ahead_look _) fun _ => triple_bind (ahead_onRaise settlePeer_agenda <| triple_bind (ahead_txWrite _ _) fun _ =>
    triple_bind (ahead_setCursor _) fun _ => ahead_upd fun _ => rfl) fun _ => triple_bind (ahead_upd fun _ => rfl) fun _ => ahead_pure _

theorem ahead_getId : AheadAct s₀ pre post getId :=
  triple_bind (ahead_txWrite _ _) fun _ => triple_bind (ahead_rxFill _ _) fun _ => ahead_pure _

theorem ahead_setAttempt (n : BitVec 2) : AheadAct s₀ pre post (setAttempt n) := ahead_upd fun _ => rfl

theorem ahead_mdHandshakeBody : AheadAct s₀ pre post mdHandshakeBody := by
  refine triple_bind (ahead_setAttempt 0) fun _ => triple_bind ahead_getId fun id => triple_bind (ahead_setAttempt 1) fun _ => ?_
  split
  · refine triple_bind (ahead_look _) fun _ => triple_bind (ahead_reopen _) fun _ => triple_bind ahead_getId fun id =>
      triple_bind (ahead_setAttempt 2) fun _ => ?_
    split
    · exact triple_bind (ahead_setAttempt 0) fun _ => ahead_raise _ _
    · exact triple_bind (ahead_txWrite _ _) fun _ => triple_bind (ahead_upd fun _ => rfl) fun _ =>
        triple_bind (ahead_setAttempt 0) fun _ => ahead_pure _
  · exact triple_bind (ahead_setAttempt 0) fun _ => ahead_pure _

theorem ahead_eraseIo (addr : Reg32) : AheadAct s₀ pre post (eraseIo addr) :=
  triple_bind (ahead_look _) fun _ => triple_bind (ahead_txWrite _ _) fun _ => triple_bind (ahead_rxFill _ _) fun _ =>
    ahead_setCursor _

theorem ahead_mdFlashEraseBody (addr : Reg32) : AheadAct s₀ pre post (mdFlashEraseBody addr) :=
  triple_bind (triple_bind (ahead_check _ _ _) fun _ => ahead_check _ _ _) fun _ =>
    triple_bind (ahead_onRaise settlePeer_agenda (ahead_eraseIo addr)) fun _ => ahead_pure _

/-- BYPASS set or cleared after its sequence (R275, R276). -/
theorem ahead_bypassSwitch (seq : Params → List (Nat × Word)) (on : Bool) : AheadAct s₀ pre post (do
    let cfg ← look (·.cfg)
    sendSequence (seq cfg)
    upd fun s => { s with bypass := on }
    pure (0 : Reg32)) := by
  refine triple_bind (ahead_look _) fun cfg => triple_bind ?_ fun _ => triple_bind (ahead_upd fun _ => rfl) fun _ => ahead_pure _
  refine triple_bind (ahead_txWrite _ _) fun _ => ?_
  split
  · exact ahead_setCursor _
  · exact ahead_pure ()

theorem ahead_programWords (cfg : Params) (words off : Nat) : AheadAct s₀ pre post (programWords cfg words off) := by
  induction words generalizing off with
  | zero => exact ahead_pure ()
  | succ words ih =>
    exact triple_bind (ahead_txWriteParts _ _) fun _ => triple_bind (ahead_rxFill _ _) fun _ =>
      triple_bind (ahead_advanceCursor 1) fun _ => ih _

theorem ahead_programIo (words off : Nat) : AheadAct s₀ pre post (programIo words off) := by
  refine triple_bind (ahead_look _) fun cfg => ?_
  split
  · exact ahead_programWords cfg words off
  · exact triple_bind (ahead_txWriteParts _ _) fun _ => ahead_advanceCursor words

theorem ahead_mdFlashWriteBody (boff len : Reg32) : AheadAct s₀ pre post (mdFlashWriteBody boff len) :=
  triple_bind (ahead_checkBulk _ _) fun _ => triple_bind (ahead_look _) fun _ =>
    triple_bind (ahead_onRaise settlePeer_agenda (ahead_programIo _ _)) fun _ => ahead_pure _

/-! ### The packet framer -/

theorem ahead_sendPacket (p : List Byte) : AheadAct s₀ pre post (sendPacket p) := by
  unfold sendPacket
  split
  · exact triple_bind (ahead_upd fun _ => rfl) fun _ => triple_bind (ahead_txWrite _ _) fun _ => ahead_pure _
  · exact triple_bind (ahead_txWrite _ _) fun _ => ahead_pure _

theorem ahead_sendBuilt (p : List Byte) : AheadAct s₀ pre post (sendBuilt p) :=
  triple_bind (ahead_upd (buildPacket_agenda p)) fun _ => ahead_sendPacket p

theorem ahead_receivePacket : AheadAct s₀ pre post receivePacket := by
  have hstore (off : Nat) (t : List Byte) : AheadAct s₀ pre post (upd (storeRx off t)) := ahead_upd fun _ => rfl
  refine triple_bind (ahead_upd fun _ => rfl) fun _ => triple_bind (ahead_rxRead _ _) fun first => ?_
  split
  · exact triple_bind (hstore 0 _) fun _ => ahead_raiseTransport _ _ _
  · exact triple_bind (hstore 0 _) fun _ => ahead_raiseTransport _ _ _
  · exact ahead_raiseTransport _ _ _
  · refine triple_bind (hstore 0 _) fun _ => ?_
    split
    · exact triple_bind (ahead_upd fun _ => rfl) fun _ => ahead_pure _
    · refine triple_bind (ahead_rxRead _ _) fun rest => ?_
      cases rest with
      | timedOut t => exact triple_bind (hstore 1 t) fun _ => ahead_raiseTransport _ _ _
      | failed t => exact triple_bind (hstore 1 t) fun _ => ahead_raiseTransport _ _ _
      | got t =>
        refine triple_bind (hstore 1 t) fun _ => ?_
        split
        · exact ahead_raiseTransport _ _ _
        · exact triple_bind (ahead_upd fun _ => rfl) fun _ => ahead_pure _

theorem ahead_checkPacket (p : List Byte) : AheadAct s₀ pre post (checkPacket p) := by
  refine triple_bind (ahead_look _) fun n => ?_
  split
  · exact ahead_raise _ _
  · exact triple_bind (ahead_upd fun _ => rfl) fun _ => triple_bind (ahead_check _ _ _) fun _ => ahead_pure _

theorem ahead_pktBuildBody (c m sub : Byte) (index : BitVec 24) (boff : Reg32) :
    AheadAct s₀ pre post (pktBuildBody c m sub index boff) := by
  unfold pktBuildBody
  split
  · exact ahead_raise _ _
  · split
    · exact triple_bind (ahead_upd (buildPacket_agenda _)) fun _ => ahead_pure _
    · exact triple_bind (ahead_checkDbuf _ _) fun _ => triple_bind ahead_meet fun _ => triple_bind (aside_memRead _ _).ahead fun _ =>
        triple_bind (ahead_upd (buildPacket_agenda _)) fun _ => ahead_pure _

theorem ahead_pktSendBody : AheadAct s₀ pre post pktSendBody :=
  triple_bind (ahead_look _) fun _ => triple_bind (ahead_check _ _ _) fun _ => triple_bind (aside_orStop _).ahead fun p =>
    triple_bind (ahead_sendPacket p) fun _ => ahead_pure _

theorem ahead_pktReceiveBody : AheadAct s₀ pre post pktReceiveBody := triple_bind ahead_receivePacket fun _ => ahead_pure _

theorem ahead_pktCheckBody : AheadAct s₀ pre post pktCheckBody :=
  triple_bind (aside_orStop _).ahead fun p => triple_bind (ahead_checkPacket p) fun _ => ahead_pure _

/-! ### The paged transfers -/

theorem ahead_setXState (x : XState) : AheadAct s₀ pre post (setXState x) := ahead_upd fun _ => rfl

theorem ahead_startTransfer (dir : BitVec 2) (n : Nat) (boff : Reg32) : AheadAct s₀ pre post (startTransfer dir n boff) :=
  ahead_upd fun _ => rfl

theorem ahead_finishTransfer : AheadAct s₀ pre post finishTransfer := triple_bind (ahead_setXState .done) fun _ => ahead_look _

theorem ahead_storeFrame (p : List Byte) : AheadAct s₀ pre post (storeFrame p) :=
  triple_bind (ahead_look _) fun _ => triple_bind (ahead_look _) fun _ => triple_bind (aside_storeDbuf _ _).ahead fun _ =>
    ahead_upd fun _ => rfl

theorem ahead_acceptData (p : List Byte) : AheadAct s₀ pre post (acceptData p) :=
  triple_bind (ahead_checkPacket p) fun _ => triple_bind (ahead_check _ _ _) fun _ => triple_bind (ahead_look _) fun _ =>
    triple_bind (ahead_look _) fun _ => triple_bind (ahead_look _) fun _ => triple_bind (ahead_check _ _ _) fun _ =>
    ahead_check _ _ _

theorem ahead_readLoop (fuel : Nat) : AheadAct s₀ pre post (readLoop fuel) := by
  induction fuel with
  | zero => exact ahead_look _
  | succ fuel ih =>
    refine triple_bind ahead_receivePacket fun p => ?_
    split
    · refine triple_bind (ahead_look _) fun _ => triple_bind (ahead_look _) fun _ => ?_
      split
      · exact ahead_finishTransfer
      · exact ahead_raise _ _
    · refine triple_bind (ahead_acceptData p) fun _ => triple_bind (ahead_storeFrame p) fun _ =>
        triple_bind (ahead_look _) fun _ => triple_bind (ahead_look _) fun _ => ?_
      split
      · exact ahead_finishTransfer
      · exact triple_bind (ahead_setXState .continuing) fun _ => triple_bind (ahead_sendBuilt _) fun _ =>
          triple_bind (ahead_setXState .awaitResponse) fun _ => ih

theorem ahead_checkTransfer (boff len : Reg32) : AheadAct s₀ pre post (checkTransfer boff len) :=
  triple_bind (ahead_check _ _ _) fun _ => ahead_checkDbuf _ _

theorem ahead_gbReadRamBody (boff len : Reg32) : AheadAct s₀ pre post (gbReadRamBody boff len) :=
  triple_bind (ahead_checkTransfer _ _) fun _ => triple_bind (ahead_startTransfer _ _ _) fun _ => triple_bind (ahead_look _) fun _ =>
    triple_bind (ahead_sendBuilt _) fun _ => triple_bind (ahead_setXState _) fun _ => ahead_readLoop _

theorem ahead_expectAck : AheadAct s₀ pre post expectAck := triple_bind ahead_receivePacket fun _ => ahead_check _ _ _

theorem ahead_sendLoaded (mk : List Byte → List Byte) (off : Nat) : AheadAct s₀ pre post (sendLoaded mk off) :=
  triple_bind (aside_loadPacket mk off).ahead fun _ => ahead_txWriteOf _ _ fun _ => aside_bind (aside_loadPacket mk off) fun p =>
    aside_bind (aside_wirePacket off p) fun _ => aside_pure _

theorem ahead_writeLoop (packets : Nat) : AheadAct s₀ pre post (writeLoop packets) := by
  induction packets with
  | zero => exact ahead_pure ()
  | succ packets ih =>
    exact triple_bind (ahead_setXState .continuing) fun _ => triple_bind (ahead_look _) fun _ => triple_bind (ahead_look _) fun _ =>
      triple_bind (ahead_look _) fun _ => triple_bind (ahead_look _) fun _ => triple_bind (ahead_sendLoaded _ _) fun _ =>
      triple_bind (ahead_setXState .awaitResponse) fun _ => triple_bind ahead_expectAck fun _ =>
      triple_bind (ahead_upd fun _ => rfl) fun _ => ih

theorem ahead_gbWriteRamBody (boff len : Reg32) : AheadAct s₀ pre post (gbWriteRamBody boff len) :=
  triple_bind (ahead_checkTransfer _ _) fun _ => triple_bind (ahead_startTransfer _ _ _) fun _ => triple_bind (ahead_look _) fun _ =>
    triple_bind (ahead_sendBuilt _) fun _ => triple_bind (ahead_setXState _) fun _ => triple_bind ahead_expectAck fun _ =>
    triple_bind (ahead_writeLoop _) fun _ => ahead_finishTransfer

theorem ahead_statusQuery (sub : Byte) (boff : Reg32) : AheadAct s₀ pre post (statusQuery sub boff) :=
  triple_bind (ahead_checkDbuf _ _) fun _ => triple_bind (ahead_startTransfer _ _ _) fun _ => triple_bind (ahead_sendBuilt _) fun _ =>
    triple_bind (ahead_setXState _) fun _ => triple_bind ahead_receivePacket fun p => triple_bind (ahead_checkPacket p) fun _ =>
    triple_bind (ahead_storeFrame p) fun _ => ahead_finishTransfer

end Requests

/-! ### Every request -/

theorem ahead_of_isRequest {i : Instr} (h : isRequest i = true) :
    ∃ m, exec i = request m ∧ ∀ s₀ pre post, AheadAct s₀ pre post m := by
  cases i with
  | crcClear => exact ⟨_, rfl, fun _ _ _ => ahead_crcClearBody⟩
  | crcByte b => exact ⟨_, rfl, fun _ _ _ => ahead_crcContinue [b]⟩
  | crcBlock boff len => exact ⟨_, rfl, fun _ _ _ => ahead_crcBlockBody boff len⟩
  | pktBuild c m sub index boff => exact ⟨_, rfl, fun _ _ _ => ahead_pktBuildBody c m sub index boff⟩
  | pktSend => exact ⟨_, rfl, fun _ _ _ => ahead_pktSendBody⟩
  | pktReceive => exact ⟨_, rfl, fun _ _ _ => ahead_pktReceiveBody⟩
  | pktCheck => exact ⟨_, rfl, fun _ _ _ => ahead_pktCheckBody⟩
  | gbReadRam boff len => exact ⟨_, rfl, fun _ _ _ => ahead_gbReadRamBody boff len⟩
  | gbWriteRam boff len => exact ⟨_, rfl, fun _ _ _ => ahead_gbWriteRamBody boff len⟩
  | gbReadDeviceStatus boff => exact ⟨_, rfl, fun _ _ _ => ahead_statusQuery subNreadId boff⟩
  | gbReadStatus boff => exact ⟨_, rfl, fun _ _ _ => ahead_statusQuery subReadId boff⟩
  | mdSeek whence addr => exact ⟨_, rfl, fun _ _ _ => ahead_mdSeekBody whence addr⟩
  | mdRead boff len => exact ⟨_, rfl, fun _ _ _ => ahead_mdReadBody boff len⟩
  | mdWrite boff len => exact ⟨_, rfl, fun _ _ _ => ahead_mdWriteBody boff len⟩
  | mdReadWord addr => exact ⟨_, rfl, fun _ _ _ => ahead_mdReadWordBody addr⟩
  | mdWriteWord addr v => exact ⟨_, rfl, fun _ _ _ => ahead_wordWrite addr v⟩
  | mdWriteByte addr b => exact ⟨_, rfl, fun _ _ _ => ahead_wordWrite addr (word16 0x00 b)⟩
  | mdRamEnable => exact ⟨_, rfl, fun _ _ _ => ahead_ramSwitch (·.ramEnableWord) (·.ramEnableDelay) true⟩
  | mdRamDisable => exact ⟨_, rfl, fun _ _ _ => ahead_ramSwitch (·.ramDisableWord) (·.ramDisableDelay) false⟩
  | mdGetId => exact ⟨_, rfl, fun _ _ _ => triple_bind ahead_getId fun _ => ahead_pure _⟩
  | mdHandshake => exact ⟨_, rfl, fun _ _ _ => ahead_mdHandshakeBody⟩
  | mdFlashErase addr => exact ⟨_, rfl, fun _ _ _ => ahead_mdFlashEraseBody addr⟩
  | mdFlashUnlockBypass => exact ⟨_, rfl, fun _ _ _ => ahead_bypassSwitch (·.unlockBypassSeq) true⟩
  | mdFlashResetBypass => exact ⟨_, rfl, fun _ _ _ => ahead_bypassSwitch (·.resetBypassSeq) false⟩
  | mdFlashWrite boff len => exact ⟨_, rfl, fun _ _ _ => ahead_mdFlashWriteBody boff len⟩
  | _ => exact absurd h Bool.false_ne_true

/-- A request that has used up the requester's moments was stopped by the reset in the last of them. -/
theorem stopped_of_reset_met {i : Instr} {s t : State} {before : List (List PortAction)} {pre post : List PortAction}
    (hi : isRequest i = true) (hb : s.busy = false) (hv : s.env.visits = before ++ [pre ++ .reset :: post])
    (hbefore : ∀ actions ∈ before, PortAction.reset ∉ actions) (hpre : PortAction.reset ∉ pre) (h : exec i s = .next t)
    (ht : t.env.visits = []) : Stopped s t post := by
  obtain ⟨m, hm, hahead⟩ := ahead_of_isRequest hi
  have hrun := h
  rw [hm] at hrun
  rcases (hahead s pre post).request_next ⟨rfl, rfl, hpre, before, hv, hbefore⟩ hb hrun with ⟨r, u, hu, rfl⟩ | ht' | ⟨u, hport, hpkt, rfl⟩
  · exact absurd ht hu.visits_ne_nil
  · exact absurd ht (ResetAhead.visits_ne_nil ht')
  · exact stopped_of_cutShort hport hpkt h

end Sys2Proof.Machine
end

section
/-! SUPPORT. Requests that a reset stops at their second or third transport call, or at their first (R361). -/

namespace Sys2Proof.Machine

section Moments

variable {s : State} {post : List PortAction} {more : List (List PortAction)}

/-- A moment at which the requester does nothing. -/
theorem visit_idle (hv : s.env.visits = [] :: more) : visit s = .ok none (s.withVisits more) := visit_cons hv

/-- A moment at which the requester resets the block. -/
theorem meet_reset (hv : s.env.visits = (.reset :: post) :: more) :
    meet s = .error .reset ((s.withVisits more).cutShort post) := by
  rw [meet, act_bind_ok (visit_cons hv)]
  rfl

theorem rxRead_reset {fam : Family} {n : Nat} (hv : s.env.visits = (.reset :: post) :: more) :
    rxRead fam n s = .error .reset ((s.withVisits more).cutShort post) := by
  rw [rxRead, act_bind_error (meet_reset hv)]

theorem receivePacket_reset (hv : s.env.visits = (.reset :: post) :: more) : receivePacket s =
    .error .reset (State.cutShort post (State.withVisits more { s with rxlen := 0 })) := by
  rw [receivePacket, act_bind_ok (upd_run _ _), act_bind_error (rxRead_reset (s := { s with rxlen := 0 }) hv)]

theorem reopen_reset {t : Nat} (hv : s.env.visits = (.reset :: post) :: more) :
    reopen t s = .error .reset ((s.withVisits more).cutShort post) := act_bind_error (meet_reset hv)

/-- A TxWrite taken whole, the requester doing nothing at its moment. -/
theorem txWrite_idle {fam : Family} {bytes : List Byte} {k : Nat} {txs : List TxDraw} (hv : s.env.visits = [] :: more)
    (ht : s.env.tx = .accepted k :: txs) (hk : bytes.length ≤ k) :
    txWrite fam bytes s = .ok () ((s.withVisits more).sent bytes txs) := by
  have hwrite := txWriteOf_visited_all (fam := fam) (first := fun k => pure (bytes.take k)) (visit_idle hv) ht hk (act_pure _ _)
  rw [List.take_length, transmit_eq_sent] at hwrite
  exact hwrite

/-- A DATA packet built and sent, the requester doing nothing at its moment (R153). -/
theorem sendBuilt_idle {p : List Byte} {k : Nat} {txs : List TxDraw} (hp : p.length = 72) (hv : s.env.visits = [] :: more)
    (ht : s.env.tx = .accepted k :: txs) (hk : 72 ≤ k) : ∃ u : State, sendBuilt p s = .ok 72 u ∧ u.env.visits = more ∧
      u.port = s.port ∧ u.pktPort = s.pktPort ∧ u.txLog = s.txLog ++ withTrailer p := by
  have henv : (sealPacket p (buildPacket p s)).env = s.env := buildPacket_env p s
  have hwrite := txWrite_idle (s := sealPacket p (buildPacket p s)) (fam := .gb) (bytes := withTrailer p) (by rw [henv]; exact hv)
    (by rw [henv]; exact ht) (by rw [withTrailer_length, hp]; exact hk)
  refine ⟨State.sent (withTrailer p) txs (State.withVisits more (sealPacket p (buildPacket p s))), ?_, rfl, buildPacket_port p s,
    buildPacket_pktPort p s, congrArg (· ++ withTrailer p) (buildPacket_txLog p s)⟩
  rw [sendBuilt_eq, sendPacket, if_pos hp, act_bind_ok (upd_run _ _), act_bind_ok hwrite, act_pure]

/-- A read from a GB adapter, the requester doing nothing at its moment. -/
theorem rxRead_idle {fam : Family} {n : Nat} {offered : List Byte} {rxs : List RxDraw} (hv : s.env.visits = [] :: more)
    (ha : s.adapter = .gb) (hr : s.env.rx = .got offered :: rxs) :
    rxRead fam n s = .ok (.got (offered.take n)) ((s.withVisits more).received rxs) := by
  have hfree : State.repliesBound fam ((s.withVisits more).received rxs) = false := by
    simp [State.repliesBound, State.withVisits, State.received, ha]
  rw [rxRead, act_bind_ok (meet_visited (visit_idle hv)), act_bind_ok (upd_run _ _), settlePeer_gb (s := s.withVisits more) ha,
    act_bind_ok (draw_run _ _), takeRx_cons (s := s.withVisits more) hr, act_bind_ok (draw_run _ _)]
  exact congrArg (fun b : List Byte × State => EStateM.Result.ok (RxDraw.got b.1) b.2) (takeReplies_free hfree)

/-- An id asked for and read, the requester doing nothing at the two moments (R236). -/
theorem getId_idle {k : Nat} {txs : List TxDraw} {b0 b1 : Byte} {extra : List Byte} {rxs : List RxDraw}
    (hv : s.env.visits = [] :: [] :: more) (ha : s.adapter = .gb) (ht : s.env.tx = .accepted k :: txs) (hk : 1 ≤ k)
    (hr : s.env.rx = .got (b0 :: b1 :: extra) :: rxs) : getId s =
      .ok (word16 b0 b1) (((s.sent idRdFrame txs).withVisits more).received rxs) := by
  have hfill := rxFill_latch (reply := [b0, b1]) rfl
    (rxRead_idle (s := (s.withVisits ([] :: more)).sent idRdFrame txs) (n := 2) (fam := .md) rfl ha hr)
  rw [getId, act_bind_ok (txWrite_idle (bytes := idRdFrame) hv ht hk), act_bind_ok hfill]
  rfl

end Moments

section Instances

variable {s : State} {post : List PortAction} {more : List (List PortAction)} (hb : s.busy = false)
include hb

/-- PKT_RECEIVE, reset at its RxRead. -/
theorem pktReceive_reset (hv : s.env.visits = (.reset :: post) :: more) :
    exec .pktReceive s = .next (State.cutShort post (State.withVisits more { s.accept with rxlen := 0 })) :=
  request_cutShort (m := pktReceiveBody) hb (act_bind_error (receivePacket_reset (s := s.accept) hv))

/-- GB_WRITE_RAM, reset while it waits for the ACK of its CONFIG packet (R189, R192): the packet stays sent. -/
theorem gbWriteRam_reset {boff len : Reg32} {k : Nat} {txs : List TxDraw} (hlen : transferLength len.toNat)
    (hin : boff.toNat + len.toNat ≤ s.cfg.dbufSize) (hv : s.env.visits = [] :: (.reset :: post) :: more)
    (ht : s.env.tx = .accepted k :: txs) (hk : 72 ≤ k) : ∃ u : State, exec (.gbWriteRam boff len) s = .next (u.cutShort post) ∧
      u.port = s.port ∧ u.pktPort = s.pktPort ∧ u.txLog = s.txLog ++ configWire s.cfg.subWram len.toNat := by
  obtain ⟨w, hsend, hvisits, hport, hpkt, hlog⟩ := sendBuilt_idle (p := configPacket s.cfg.subWram len.toNat)
    (s := { s.accept with xdir := 1, xlen := len, xcount := 0, xboff := boff, xstate := .sendHeader })
    (dataPacket_length _ _ _ _ _) hv ht hk
  have hreceive := receivePacket_reset (s := { w with xstate := .awaitResponse }) hvisits
  refine ⟨State.withVisits more { w with xstate := .awaitResponse, rxlen := 0 }, request_cutShort (m := gbWriteRamBody boff len) hb ?_,
    hport, hpkt, hlog⟩
  rw [gbWriteRamBody, act_bind_ok (checkTransfer_ok (s := s.accept) hlen hin), act_bind_ok (startTransfer_run _ _ _ _),
    act_bind_ok (look_run _ _)]
  exact (act_bind_ok hsend).trans ((act_bind_ok (upd_run _ _)).trans (act_bind_error (act_bind_error hreceive)))

/-- MD_HANDSHAKE, reset at its Reopen (R238): no answer to a Reopen is used up. -/
theorem mdHandshake_reset {k : Nat} {txs : List TxDraw} {b : Byte} {extra : List Byte} {rxs : List RxDraw} (ha : s.adapter = .gb)
    (hv : s.env.visits = [] :: [] :: (.reset :: post) :: more) (ht : s.env.tx = .accepted k :: txs) (hk : 1 ≤ k)
    (hr : s.env.rx = .got (b :: b :: extra) :: rxs) (hne : b ≠ 0x00) :
    ∃ u : State, exec .mdHandshake s = .next (u.cutShort post) ∧ u.port = s.port ∧ u.pktPort = s.pktPort ∧
      u.env.reopen = s.env.reopen := by
  have hid := getId_idle (s := { s.accept with hsAttempt := 0 }) hv ha ht hk hr
  have hbody := (mdHandshakeBody_retries hid (anomaly_word16_self hne)).trans (act_bind_error (act_bind_error (reopen_reset (by rfl))))
  exact ⟨_, request_cutShort (m := mdHandshakeBody) hb hbody, rfl, rfl, rfl⟩

end Instances

/-- Settles O60: no request gets past the reset that is ahead of it; then the three requests reset at a given call. -/
theorem resetStopsRequests : Obligations.ResetStopsRequests := by
  refine ⟨fun i s t before pre post hi hb hv hbefore hpre h ht => stopped_of_reset_met hi hb hv hbefore hpre h ht,
    fun s post more hb hv => ?_, fun s boff len post more k txs hb hlen hin hv ht hk => ?_,
    fun s post more k txs b0 b1 extra rxs hb ha hv ht hk hr heq hne => ?_⟩
  · have hexec := pktReceive_reset hb hv
    exact ⟨_, hexec, stopped_of_cutShort rfl rfl hexec, rfl, rfl, rfl⟩
  · obtain ⟨u, hexec, hport, hpkt, hlog⟩ := gbWriteRam_reset hb hlen hin hv ht hk
    exact ⟨_, hexec, stopped_of_cutShort hport hpkt hexec, hlog⟩
  · subst heq
    obtain ⟨u, hexec, hport, hpkt, hreopen⟩ := mdHandshake_reset hb ha hv ht hk hr hne
    exact ⟨_, hexec, stopped_of_cutShort hport hpkt hexec, hreopen⟩

end Sys2Proof.Machine
end
